-- ==== Sys2Proof/Word.lean ====
section
/-!
DEFINITION. The word types of the machine: a byte, the 16-bit half of a general register (R22), the 32-bit
register and short-instruction word (R20, R80), and the 64-bit long-instruction word (R10).
-/
namespace Sys2Proof

/-- One byte, the unit every memory space is counted in (R50). -/
abbrev Byte := BitVec 8

/-- A 16-bit half of a general register, or a 16-bit operand (R22). -/
abbrev Half := BitVec 16

/-- A 32-bit general or address register, or a short instruction (R20, R31, R80). -/
abbrev Word := BitVec 32

/-- A long instruction, `w = (HIGH << 32) | LOW` (R10). -/
abbrev Long := BitVec 64

end Sys2Proof
end

