-- ==== Sys2Proof/Syntax.lean ====
section
/-!
DEFINITION. The instructions of `spec/opcode_table.json` as one inductive, one constructor per row, with every
bit of the encoding that the spec lets vary kept in an operand (the operand forms of R83 to R107).
-/
namespace Sys2Proof

/-- The condition codes of the table of R106; codes 0x14 to 0x1b name nothing (R121). -/
inductive Cond where
  | never | l | e | le | g | lg | ge | lge
  | u | lu | eu | leu | gu | lgu | geu | always
  | o | c | a | s
  | ns | na | nc | no
  deriving DecidableEq, Repr

/-- A guard: condition code `w[43:39]` tested on predicate register `C[w[45:44]]` (R105). -/
structure Guard where
  cc : Cond
  pr : BitVec 2
  deriving DecidableEq, Repr

/-- The guard of an instruction that has none, or that prints none (code 0x0f of R106). -/
abbrev Guard.open : Guard := ⟨.always, 0#2⟩

/-- The instruction marker of a format-L instruction: 00 normal, 01 Exit, 10 Join (R85). -/
inductive Marker where
  | normal | exit | join
  deriving DecidableEq, Repr

/-- What every guarded long instruction carries: its marker and its guard. -/
structure Ctl where
  marker : Marker
  guard : Guard
  deriving DecidableEq, Repr

/-- The predicate write of a long instruction: enable `w[38]`, register `w[37:36]` (R107). -/
structure PredSet where
  pe : Bool
  ps : BitVec 2
  deriving DecidableEq, Repr

/-- The destination of a long instruction that has an `od` bit: a register (number or half number), or the
discard destination `o[0x7f]` (R90). -/
inductive Dst where
  | reg (d : BitVec 7)
  | discard
  deriving DecidableEq, Repr

/-- The operation size `w[58]`: 0 is 16 bits, 1 is 32 bits (R91). -/
inductive Size where
  | b16 | b32
  deriving DecidableEq, Repr

/-- The width in bits that a size names. -/
@[reducible] def Size.bits : Size → Nat
  | .b16 => 16
  | .b32 => 32

/-- The width in bytes that a size names. -/
def Size.bytes : Size → Nat
  | .b16 => 2
  | .b32 => 4

/-- The element type of a shared-memory operand, `ty` of R98. -/
inductive ElemTy where
  | u8 | u16 | s16 | u32
  deriving DecidableEq, Repr

/-- Source 1 of a long instruction: a register field, or `g[Aa + off]` (R96, R98). -/
inductive Src1 where
  | reg (k : BitVec 7)
  | shared (off : BitVec 5) (ty : ElemTy) (a : BitVec 3)
  deriving DecidableEq, Repr

/-- Source 1 of a short or immediate instruction: a register field, or `g[Aa + off]` (R96, R98). -/
inductive SrcS where
  | reg (k : BitVec 6)
  | shared (off : BitVec 4) (ty : ElemTy) (a : BitVec 2)
  deriving DecidableEq, Repr

/-- Source 2 or source 3 of a long instruction: a register field, or `c[seg][off]` (R97, R99, R101). -/
inductive SrcB where
  | reg (k : BitVec 7)
  | const (seg : BitVec 4) (off : BitVec 7)
  deriving DecidableEq, Repr

/-- The amount of a shift: the immediate `w[20:16]`, or the register that field names (R161). -/
inductive Amount where
  | imm (m : BitVec 5)
  | reg (k : BitVec 5)
  deriving DecidableEq, Repr

/-- The source types of I2I, `w[48:46]` (R104); codes 011 and 111 are refused. -/
inductive CvtTy where
  | u16 | u32 | u8 | s16 | s32 | s8
  deriving DecidableEq, Repr

/-- The operation of LOP, `w[47:46]` (R175). -/
inductive LogicOp where
  | and | or | xor | passB
  deriving DecidableEq, Repr

/-- The comparison of ISET and FSET, a set of relations: bits 46 to 49 (R177). -/
structure CmpSet where
  less : Bool
  equal : Bool
  greater : Bool
  unordered : Bool
  deriving DecidableEq, Repr

/-- The rounding field of the floating-point instructions: 00 nearest, 11 toward zero (R201). -/
inductive Rm where
  | nearest | zero
  deriving DecidableEq, Repr

/-- The reduction method of RRO, `w[47:46]` (R233). -/
inductive RroMethod where
  | sin | ex2
  deriving DecidableEq, Repr

/-- The access sizes of GLD and GST, `w[55:53]` (R182); the 64- and 128-bit codes are refused. -/
inductive GlobalTy where
  | u8 | s8 | u16 | s16 | u32 | s32
  deriving DecidableEq, Repr

/-- The source sizes of MVC, `w[47:46]`: 00 is 8 bits, 01 is 16, 11 is 32 (R181). -/
inductive Width where
  | w8 | w16 | w32
  deriving DecidableEq, Repr

/-- The instructions, one constructor per row of `spec/opcode_table.json`; the docstrings name the row and its
rule. Field names are those of R83 (long), R86 (short), R87 (immediate) and R88 (flow). -/
inductive Instr where
  /-- BRA, R131. -/
  | bra (tgt : BitVec 18) (g : Guard)
  /-- CAL, R139. -/
  | cal (tgt : BitVec 19)
  /-- RET, R136. -/
  | ret (g : Guard)
  /-- BAR, R134: the whole word is fixed. -/
  | bar
  /-- TRAP, R138: the whole word is fixed. -/
  | trap
  /-- SSY, R133; its guard field is present and ignored (R143). -/
  | ssy (tgt : BitVec 16) (cc : BitVec 5) (pr : BitVec 2)
  /-- NOP, R137. -/
  | nop (mk : Marker)
  /-- I2I, R154. -/
  | i2i (ctl : Ctl) (d : Dst) (set : PredSet) (s1 : Src1) (t : CvtTy) (sz : Size) (sg neg : Bool)
  /-- IMUL, R157. -/
  | imul (ctl : Ctl) (d : Dst) (set : PredSet) (s1 : Src1) (s2 : BitVec 7)
  /-- IMUL__24-bit_form, R158. -/
  | imul24 (ctl : Ctl) (d : Dst) (set : PredSet) (s1 : Src1) (s2 : BitVec 7)
  /-- IMUL32, R159; `u24` is `w[22]`. -/
  | imul32 (d : BitVec 6) (s1 : SrcS) (s2 : BitVec 6) (u24 : Bool)
  /-- IMUL32I, R160; `signed` is `w[8]`. -/
  | imul32i (signed : Bool) (d s1 : BitVec 6) (imm : Word)
  /-- SHL, R162. -/
  | shl (ctl : Ctl) (d : BitVec 7) (s1 : Src1) (amt : Amount) (sz : Size) (sg : Bool)
  /-- SHR, R163. -/
  | shr (ctl : Ctl) (d : BitVec 7) (s1 : Src1) (amt : Amount) (sz : Size) (sg : Bool)
  /-- IADD, R166; `neg2` is `w[59]`. -/
  | iadd (ctl : Ctl) (d : Dst) (set : PredSet) (s1 : Src1) (s3 : SrcB) (sz : Size) (neg2 : Bool)
  /-- IADD.CARRYn, R167; `pr` names the register whose carry is added. -/
  | iaddc (mk : Marker) (pr : BitVec 2) (d : Dst) (set : PredSet) (s1 : Src1) (s3 : SrcB) (sz : Size)
  /-- IADD32, R168; `sz` is `w[15]` (R93). -/
  | iadd32 (d : BitVec 7) (s1 : SrcS) (s2 : BitVec 6) (sz : Size)
  /-- IADD32I, R169. -/
  | iadd32i (d : BitVec 7) (s1 : SrcS) (imm : Word)
  /-- IMAD, R171; `neg1` is `w[58]`, `neg3` is `w[59]`. -/
  | imad (ctl : Ctl) (d : Dst) (set : PredSet) (s1 : Src1) (s2 : SrcB) (s3 : BitVec 7) (neg1 neg3 : Bool)
  /-- IMAD__24-bit_form, R172. -/
  | imad24 (ctl : Ctl) (d : Dst) (set : PredSet) (s1 : Src1) (s2 : SrcB) (s3 : BitVec 7)
  /-- IMAD32, R173; `d` is also the addend. -/
  | imad32 (d s1 s2 : BitVec 6)
  /-- IMAD32I, R174; `d` is also the addend, `signed` is `w[8]`. -/
  | imad32i (signed : Bool) (d s1 : BitVec 6) (imm : Word)
  /-- LOP, R176; `inv1` is `w[48]`, `inv2` is `w[49]`. -/
  | lop (ctl : Ctl) (d : Dst) (set : PredSet) (s1 : Src1) (s2 : SrcB) (op : LogicOp) (inv1 inv2 : Bool)
      (sz : Size) (sg : Bool)
  /-- ISET, R178. -/
  | iset (ctl : Ctl) (d : Dst) (set : PredSet) (s1 : Src1) (s2 : SrcB) (cmp : CmpSet) (sz : Size) (sg : Bool)
  /-- MVC, R181. -/
  | mvc (ctl : Ctl) (d : BitVec 7) (set : PredSet) (seg : BitVec 4) (off : BitVec 7) (a : BitVec 3)
      (width : Width) (sz : Size) (sg : Bool)
  /-- GLD, R182; `areg` is the general register that holds the address. -/
  | gld (ctl : Ctl) (d areg : BitVec 7) (ty : GlobalTy)
  /-- GST, R183; `dreg` holds the data, `areg` the address. -/
  | gst (ctl : Ctl) (dreg areg : BitVec 7) (ty : GlobalTy)
  /-- MOV, R185. -/
  | mov (ctl : Ctl) (d : BitVec 7) (s1 : Src1) (sz : Size) (sg : Bool)
  /-- MOV32, R186; `sz` is `w[15]` (R93). -/
  | mov32 (d : BitVec 7) (s1 : SrcS) (sz : Size)
  /-- MVI, R187. -/
  | mvi (d : BitVec 7) (imm : Word)
  /-- R2G, R188; `sz` is both `w[58]` and the size code `w[54:53]`. -/
  | r2g (ctl : Ctl) (off : BitVec 14) (a : BitVec 3) (s3 : BitVec 7) (sz : Size) (sg : Bool)
  /-- R2A, R196; `da` is an address-register number. -/
  | r2a (ctl : Ctl) (da s1 : BitVec 7) (imm : BitVec 12)
  /-- A2R, R197; `a` is `w[27:26]`. -/
  | a2r (ctl : Ctl) (d : BitVec 7) (a : BitVec 2) (imm : BitVec 10)
  /-- ADA, R198; `da` is an address-register number, the immediate is the 14 bits `w[22:9]`. -/
  | ada (ctl : Ctl) (da : BitVec 7) (a : BitVec 2) (imm : BitVec 14)
  /-- FADD32, R205; `neg1` is `w[15]`, `neg2` is `w[22]`. -/
  | fadd32 (d : BitVec 7) (s1 : SrcS) (s2 : BitVec 6) (neg1 neg2 : Bool)
  /-- FADD, R206; the second addend is the third field. -/
  | fadd (ctl : Ctl) (d : Dst) (set : PredSet) (s1 : Src1) (s3 : SrcB) (rm : Rm) (neg1 neg2 : Bool)
  /-- FADD32I, R207. -/
  | fadd32i (d : BitVec 7) (s1 : BitVec 6) (imm : Word)
  /-- FMUL, R208. -/
  | fmul (ctl : Ctl) (d : Dst) (set : PredSet) (s1 : Src1) (s2 : SrcB) (rm : Rm) (neg1 neg2 : Bool)
  /-- FMUL32, R209. -/
  | fmul32 (d : BitVec 7) (s1 : SrcS) (s2 : BitVec 6) (neg1 neg2 : Bool)
  /-- FMUL32I, R210. -/
  | fmul32i (d : BitVec 7) (s1 : BitVec 6) (imm : Word)
  /-- FMAD, R211. -/
  | fmad (ctl : Ctl) (d : Dst) (set : PredSet) (s1 : Src1) (s2 s3 : SrcB) (neg1 neg3 : Bool)
  /-- FMAD32, R212; `d` is also the addend. -/
  | fmad32 (d : BitVec 7) (s1 : SrcS) (s2 : BitVec 6) (neg1 : Bool)
  /-- FMAD32I, R213; `d` is also the addend. -/
  | fmad32i (d : BitVec 7) (s1 : BitVec 6) (neg1 : Bool) (imm : Word)
  /-- F2F, R214. -/
  | f2f (ctl : Ctl) (d : Dst) (set : PredSet) (s1 : BitVec 7) (rm : Rm) (abs neg : Bool)
  /-- F2I, R215; `sg` is `w[59]`. -/
  | f2i (ctl : Ctl) (d : Dst) (set : PredSet) (s1 : BitVec 7) (rm : Rm) (sg : Bool)
  /-- I2F, R216; `signed` is `w[48]`. -/
  | i2f (ctl : Ctl) (d : Dst) (set : PredSet) (s1 : BitVec 7) (rm : Rm) (signed : Bool)
  /-- FSET, R217. -/
  | fset (ctl : Ctl) (d : Dst) (set : PredSet) (s1 : BitVec 7) (s2 : SrcB) (cmp : CmpSet) (abs : Bool)
  /-- RCP, R218. -/
  | rcp (ctl : Ctl) (d : Dst) (set : PredSet) (s1 : BitVec 7)
  /-- RCP32, R219. -/
  | rcp32 (d : BitVec 7) (s1 : BitVec 6)
  /-- RSQ, R236. -/
  | rsq (ctl : Ctl) (d : Dst) (set : PredSet) (s1 : BitVec 7)
  /-- LG2, R234. -/
  | lg2 (ctl : Ctl) (d : Dst) (set : PredSet) (s1 : BitVec 7)
  /-- SIN, R231. -/
  | sin (ctl : Ctl) (d : Dst) (set : PredSet) (s1 : BitVec 7)
  /-- COS, R232. -/
  | cos (ctl : Ctl) (d : Dst) (set : PredSet) (s1 : BitVec 7)
  /-- EX2, R235. -/
  | ex2 (ctl : Ctl) (d : Dst) (set : PredSet) (s1 : BitVec 7)
  /-- RRO, R233. -/
  | rro (ctl : Ctl) (d : Dst) (set : PredSet) (s1 : BitVec 7) (method : RroMethod)
  deriving DecidableEq, Repr

end Sys2Proof
end

