-- ==== Sys2Proof/Config.lean ====
section
/-!
DEFINITION. What the spec leaves to the launch or to an implementation. `Params` is plain data, the parameters
of R8 that choose among described behaviours; the numeric parameters `FP`, `SFU` and `MUL24`, and the order in
which runnable warps are picked, are constants without a body, so that no proof can see a value of them.
-/
namespace Sys2Proof

/-- `ENDIAN` of R8 and R52. -/
inductive Endian where
  | little | big
  deriving DecidableEq, Repr

/-- `BAR_SCOPE` of R8, R66 and R134. -/
inductive BarScope where
  | warp | block
  deriving DecidableEq, Repr

/-- `CAL_LINK` of R8 and R139. -/
inductive CalLink where
  | none | stack
  deriving DecidableEq, Repr

/-- `R2A_IMM_OP` of R8 and R196. -/
inductive R2aImmOp where
  | add | shl
  deriving DecidableEq, Repr

/-- `DIVERGE_FIRST` of R8 and R132. -/
inductive DivergeFirst where
  | taken | notTaken
  deriving DecidableEq, Repr

/-- `IMAD32_HALF` of R8: the numbering `2n + h`, or the one the example texts of IMAD32 imply, in which the
even field names the high half (R173). DEDUCED, notes/assumptions/8.md. -/
inductive Imad32Half where
  | common | text
  deriving DecidableEq, Repr

/-- The launch arguments and open parameters of R8 and R273 that are plain data. -/
structure Params where
  /-- `NUM_GPR`: the registers R0 to R(NUM_GPR-1) exist (R20); at most 124 of them (R8). -/
  numGpr : Nat
  /-- `NUM_AREG`: the address registers A0 to A(NUM_AREG-1) exist, A0 reads 0 (R31, R32); at most 16 of them, as
  many as the source names (R7). DESIGN CHOICE for the bound, notes/assumptions/34.md. -/
  numAreg : Nat
  /-- `WARP_SIZE` (R34). -/
  warpSize : Nat
  /-- `BLOCK_THREADS` (R258). -/
  blockThreads : Nat
  /-- `GRID_BLOCKS` (R258). -/
  gridBlocks : Nat
  /-- `CODE_SIZE` in bytes (R38). -/
  codeSize : Nat
  /-- `GLOBAL_SIZE` in bytes (R38). -/
  globalSize : Nat
  /-- `SHARED_SIZE` in bytes (R40). -/
  sharedSize : Nat
  /-- `CONST_SIZE[s]` in bytes; the length of the list is `NUM_CONST_SEG` (R41). -/
  constSize : List Nat
  /-- `STACK_DEPTH` in entries (R35). -/
  stackDepth : Nat
  barScope : BarScope
  calLink : CalLink
  r2aImmOp : R2aImmOp
  divergeFirst : DivergeFirst
  endian : Endian
  /-- `R124_IS_ZERO` (R21). -/
  r124IsZero : Bool
  imad32Half : Imad32Half
  /-- Whether the launch takes the optional parameter `MUL24` (R8, D24). -/
  mul24 : Bool
  /-- Whether the launch takes the parameter `SFU` (R230, D12). -/
  sfu : Bool
  /-- Whether the launch takes the reading of FMAD32 that R212 describes. -/
  fmad32 : Bool
  deriving DecidableEq, Repr

/-- The warps of a block: enough for `BLOCK_THREADS` threads, at least one (R258, R274). -/
def Params.warpsPerBlock (p : Params) : Nat :=
  max 1 ((p.blockThreads + p.warpSize - 1) / p.warpSize)

/-- The parameters of the reset state: the suggested values of R8 where it gives one, the smallest launch that
R274 allows, no kernel, and for each other one the value that notes/assumptions/2.md to notes/assumptions/9.md
name (DESIGN CHOICE, PRESUMED or DEDUCED; unsafe). -/
def Params.default : Params where
  numGpr := 124
  numAreg := 5
  warpSize := 32
  blockThreads := 1
  gridBlocks := 1
  codeSize := 0
  globalSize := 2 ^ 32
  sharedSize := 0x4000
  constSize := [0x10000, 0x10000]
  stackDepth := 8
  barScope := .block
  calLink := .stack
  r2aImmOp := .add
  divergeFirst := .taken
  endian := .little
  r124IsZero := true
  imad32Half := .common
  mul24 := true
  sfu := true
  fmad32 := true

/-- `2 ^ CODE_ADDR_BITS`, the end of the code addresses (R27). -/
def codeLimit : Nat := 2 ^ 18

/-- The relation that `FP.cmp` finds (R200). -/
inductive FRel where
  | less | equal | greater | unordered
  deriving DecidableEq, Repr, Inhabited

/-- `FP.add(rm, a, b)` (R200). DESIGN CHOICE for this and the other FP constants, notes/assumptions/12.md. -/
opaque Config.fpAdd : Rm → Word → Word → Word

/-- `FP.mul(rm, a, b)` (R200). -/
opaque Config.fpMul : Rm → Word → Word → Word

/-- `FP.mad(a, b, c)` (R200). -/
opaque Config.fpMad : Word → Word → Word → Word

/-- `FP.f2f(rm, a)` (R200, R214). -/
opaque Config.fpF2f : Rm → Word → Word

/-- `FP.f2i(rm, signed, bits, a)` where R215 leaves it to the instance: NaN, infinities, and values outside the
destination's range (D31). -/
opaque Config.fpF2i : Rm → Bool → Nat → Word → Word

/-- Whether `FP.f2i(nearest, signed, bits, a)` takes, of two integers equally near, the one farther from zero: R200
names no rule for ties. notes/assumptions/47.md. -/
opaque Config.fpF2iTie : Bool → Nat → Word → Bool

/-- Whether `FP.i2f(nearest, signed, x)` rounds an integer that binary32 does not hold away from zero: the one
freedom of R216. notes/assumptions/47.md. -/
opaque Config.fpI2fAway : Bool → Int → Bool

/-- `FP.cmp(a, b)` (R200, R217). -/
opaque Config.fpCmp : Word → Word → FRel

/-- `FP.rcp(a)` (R200, R218). -/
opaque Config.fpRcp : Word → Word

/-- `SFU.sin` (R230). DESIGN CHOICE for this and the other SFU constants, notes/assumptions/13.md. -/
opaque Config.sfuSin : Word → Word

/-- `SFU.cos` (R230). -/
opaque Config.sfuCos : Word → Word

/-- `SFU.lg2` (R230). -/
opaque Config.sfuLg2 : Word → Word

/-- `SFU.ex2` (R230). -/
opaque Config.sfuEx2 : Word → Word

/-- `SFU.rsq` (R230). -/
opaque Config.sfuRsq : Word → Word

/-- `SFU.rro(method, a)` (R230, R233). -/
opaque Config.sfuRro : RroMethod → Word → Word

/-- `MUL24` of the multiplies: what IMUL with `w[28] = 1` and IMUL32 with `w[22] = 1` deliver (R158, R159).
PRESUMED, notes/assumptions/14.md. -/
opaque Config.mul24 : Word → Word → Word

/-- `MUL24` of the multiply-add: what IMAD with `w[28] = 1` delivers (R172). PRESUMED,
notes/assumptions/14.md. -/
opaque Config.mad24 : Word → Word → Word → Word

/-- Which of the transitions enabled at the n-th choice of a run is taken: no order is given (R284).
DESIGN CHOICE, notes/assumptions/16.md; safe. -/
opaque Config.schedule : Nat → Nat

end Sys2Proof
end

