-- ==== Sys2Proof/WellFormed.lean ====
section
/-!
DEFINITION. Which instruction terms stand for an encoding the spec accepts. `Instr.problem` names the first
reason a term is refused; the checks are those that the rules state beside the bit layouts.
-/
namespace Sys2Proof

/-- Why a word or a term is no instruction, or why the model declines one: the reasons behind the outcome
`IllegalInstruction` of R241. All are refusals of the model (safe): the hardware's behaviour is unknown. -/
inductive Reject where
  /-- An opcode and sub-opcode pair outside the map of R111 (R119). -/
  | undefinedOpcode
  /-- A field the tables call "Not used", or shown with one value, holds another one (R120). -/
  | reservedBits
  /-- A guard code 0x14 to 0x1b (R121). -/
  | conditionCode
  /-- Exit or Join on an instruction whose guard code is not 0x0f (R122). -/
  | marker
  /-- A format-F word whose marker is not 00 (R122, R143). -/
  | flowMarker
  /-- A short word with `w[1] = 1` (R81, R119). -/
  | shortFlow
  /-- `od = 1` with `d != 127`, or `od = 0` with `d = 127`, in a format-L instruction with a destination (R90). -/
  | discardPair
  /-- A comparison code 0x10 to 0x1f in ISET or FSET (R121). -/
  | comparisonCode
  /-- A rounding code 01 or 10 (R201), or an RRO method 10 or 11 (R233). -/
  | rounding
  /-- A source type of a conversion that names nothing, or that its operand cannot have (R104, R154, R216). -/
  | dataType
  /-- An access or move size with no meaning: 64 or 128 bits, R2G bytes, MVC code 10 (R181 to R188). -/
  | accessSize
  /-- A shared-memory element type the instruction does not take (R98, R157, R159, R168, R171,
  R200). -/
  | sharedType
  /-- Two constant-memory operands in one instruction (R99, R211). -/
  | twoConstants
  /-- A register shift amount in a 16-bit shift (R161). -/
  | shiftAmount
  /-- IMAD with both negate bits set (R171). -/
  | signBits
  /-- A constant segment at or above `NUM_CONST_SEG` (R99). -/
  | constSegment
  /-- A write of address register A0 (R32, R190). -/
  | addrRegZero
  /-- R2A by 32 or more when its immediate is a shift (R196). -/
  | shiftTooLong
  /-- A 24-bit multiply in a machine without the parameter `MUL24` (R8, R158, R159, R172). -/
  | mul24Absent
  /-- A special function in a machine without the parameter `SFU` (R230). -/
  | sfuAbsent
  /-- FMAD32 in a machine that does not take the reading of R212. -/
  | fmad32Absent
  /-- Fewer bytes than the instruction has. -/
  | truncated
  deriving DecidableEq, Repr

/-- R122: Exit and Join need the guard code 0x0f. -/
def Ctl.problem (c : Ctl) : Option Reject :=
  if c.marker ≠ .normal ∧ c.guard.cc ≠ .always then some .marker else none

/-- R90: register 127 is the discard destination, which `od` must announce. The rule is of every format-L
instruction with a destination, those without a predicate write too. -/
def destProblem (d : BitVec 7) : Option Reject := if d = 127#7 then some .discardPair else none

/-- R90 for a destination that may be the discard. -/
def Dst.problem : Dst → Option Reject
  | .reg d => destProblem d
  | .discard => none

/-- R98: a 32-bit element cannot feed a 16-bit operation. -/
def Src1.sizeProblem : Src1 → Size → Option Reject
  | .shared _ .u32 _, .b16 => some .sharedType
  | _, _ => none

/-- R156, R157, R171: the shared source of IMUL and IMAD is a `.U16` element. -/
def Src1.halfProblem : Src1 → Option Reject
  | .reg _ => none
  | .shared _ ty _ => if ty = .u16 then none else some .sharedType

/-- R98: an instruction that takes whole 32-bit elements only. -/
def Src1.wholeProblem : Src1 → Option Reject
  | .reg _ => none
  | .shared _ ty _ => if ty = .u32 then none else some .sharedType

/-- R98 for the short layouts: whole 32-bit elements only. -/
def SrcS.wholeProblem : SrcS → Option Reject
  | .reg _ => none
  | .shared _ ty _ => if ty = .u32 then none else some .sharedType

/-- R159: the shared source of IMUL32 is a `.U16` element. -/
def SrcS.halfProblem : SrcS → Option Reject
  | .reg _ => none
  | .shared _ ty _ => if ty = .u16 then none else some .sharedType

/-- R93: the 16-bit short forms take registers only; a 32-bit one takes what `p` allows. -/
def SrcS.sizeProblem (s1 : SrcS) (sz : Size) (p : SrcS → Option Reject) : Option Reject :=
  match s1, sz with
  | .shared _ _ _, .b16 => some .sharedType
  | s, _ => p s

/-- R87, R94: in format I a shared operand has no address register. -/
def SrcS.noAddrProblem : SrcS → Option Reject
  | .reg _ => none
  | .shared _ _ a => if a = 0#2 then none else some .reservedBits

/-- R120: `w[56]`, bit 2 of the segment, is 0 in IMAD. -/
def SrcB.imadProblem : SrcB → Option Reject
  | .reg _ => none
  | .const seg _ => if seg.getLsbD 2 then some .reservedBits else none

/-- R154: the element a shared operand of I2I must have, or none when the source is a register that cannot
deliver the type. -/
def Src1.cvtProblem : Src1 → CvtTy → Option Reject
  | .reg _, .u8 => some .dataType
  | .reg _, .s8 => some .dataType
  | .reg _, _ => none
  | .shared _ ty _, t =>
    let want : ElemTy := match t with
      | .u8 | .s8 => .u8
      | .u16 => .u16
      | .s16 => .s16
      | .u32 | .s32 => .u32
    if ty = want then none else some .sharedType

/-- R161: a register amount goes with 32-bit operands. The meaning of a shift declines the other pairing. -/
def Amount.problem : Amount → Size → Option Reject
  | .reg _, .b16 => some .shiftAmount
  | _, _ => none

/-- R99, R211: at most one constant operand. -/
def twoConstProblem : SrcB → SrcB → Option Reject
  | .const _ _, .const _ _ => some .twoConstants
  | _, _ => none

/-- R181: a 32-bit constant does not go into a half register. -/
def widthProblem : Width → Size → Option Reject
  | .w32, .b16 => some .accessSize
  | _, _ => none

/-- The first reason in a list of checks. -/
def firstProblem : List (Option Reject) → Option Reject
  | [] => none
  | none :: rest => firstProblem rest
  | some r :: _ => some r

/-- Why the spec refuses a term, if it does. -/
def Instr.problem : Instr → Option Reject
  | .bra _ _ => none
  | .cal _ => none
  | .ret _ => none
  | .bar => none
  | .trap => none
  | .ssy _ _ _ => none
  | .nop _ => none
  | .i2i ctl d _ s1 t _ _ _ => firstProblem [ctl.problem, d.problem, s1.cvtProblem t]
  | .imul ctl d _ s1 _ => firstProblem [ctl.problem, d.problem, s1.halfProblem]
  | .imul24 ctl d _ s1 _ => firstProblem [ctl.problem, d.problem, s1.wholeProblem]
  | .imul32 _ s1 _ _ => s1.halfProblem
  | .imul32i _ _ _ _ => none
  | .shl ctl d s1 _ sz _ => firstProblem [ctl.problem, destProblem d, s1.sizeProblem sz]
  | .shr ctl d s1 _ sz _ => firstProblem [ctl.problem, destProblem d, s1.sizeProblem sz]
  | .iadd ctl d _ s1 _ sz _ => firstProblem [ctl.problem, d.problem, s1.sizeProblem sz]
  | .iaddc _ _ d _ s1 _ sz => firstProblem [d.problem, s1.sizeProblem sz]
  | .iadd32 _ s1 _ sz => s1.sizeProblem sz SrcS.wholeProblem
  | .iadd32i _ s1 _ => firstProblem [s1.noAddrProblem, s1.wholeProblem]
  | .imad ctl d _ s1 s2 _ neg1 neg3 =>
    firstProblem [ctl.problem, d.problem, s1.halfProblem, s2.imadProblem,
      if neg1 && neg3 then some .signBits else none]
  | .imad24 ctl d _ s1 s2 _ => firstProblem [ctl.problem, d.problem, s1.wholeProblem, s2.imadProblem]
  | .imad32 _ _ _ => none
  | .imad32i _ _ _ _ => none
  | .lop ctl d _ s1 _ _ _ _ sz _ => firstProblem [ctl.problem, d.problem, s1.sizeProblem sz]
  | .iset ctl d _ s1 _ _ sz _ => firstProblem [ctl.problem, d.problem, s1.sizeProblem sz]
  | .mvc ctl d _ _ _ _ width sz _ => firstProblem [ctl.problem, destProblem d, widthProblem width sz]
  | .gld ctl d _ _ => firstProblem [ctl.problem, destProblem d]
  | .gst ctl _ _ _ => ctl.problem
  | .mov ctl d s1 sz _ => firstProblem [ctl.problem, destProblem d, s1.sizeProblem sz]
  | .mov32 _ s1 sz => s1.sizeProblem sz (fun _ => none)
  | .mvi _ _ => none
  | .r2g ctl _ _ _ _ _ => ctl.problem
  | .r2a ctl _ _ _ => ctl.problem
  | .a2r ctl d _ _ => firstProblem [ctl.problem, destProblem d]
  | .ada ctl _ _ _ => ctl.problem
  | .fadd32 _ s1 _ _ _ => s1.wholeProblem
  | .fadd ctl d _ s1 _ _ _ _ => firstProblem [ctl.problem, d.problem, s1.wholeProblem]
  | .fadd32i _ _ _ => none
  | .fmul ctl d _ s1 _ _ _ _ => firstProblem [ctl.problem, d.problem, s1.wholeProblem]
  | .fmul32 _ s1 _ _ _ => s1.wholeProblem
  | .fmul32i _ _ _ => none
  | .fmad ctl d _ s1 s2 s3 _ _ =>
    firstProblem [ctl.problem, d.problem, s1.wholeProblem, twoConstProblem s2 s3]
  | .fmad32 _ s1 _ _ => s1.wholeProblem
  | .fmad32i _ _ _ _ => none
  | .f2f ctl d _ _ _ _ _ => firstProblem [ctl.problem, d.problem]
  | .f2i ctl d _ _ _ _ => firstProblem [ctl.problem, d.problem]
  | .i2f ctl d _ _ _ _ => firstProblem [ctl.problem, d.problem]
  | .fset ctl d _ _ _ _ _ => firstProblem [ctl.problem, d.problem]
  | .rcp ctl d _ _ => firstProblem [ctl.problem, d.problem]
  | .rcp32 _ _ => none
  | .rsq ctl d _ _ => firstProblem [ctl.problem, d.problem]
  | .lg2 ctl d _ _ => firstProblem [ctl.problem, d.problem]
  | .sin ctl d _ _ => firstProblem [ctl.problem, d.problem]
  | .cos ctl d _ _ => firstProblem [ctl.problem, d.problem]
  | .ex2 ctl d _ _ => firstProblem [ctl.problem, d.problem]
  | .rro ctl d _ _ _ => firstProblem [ctl.problem, d.problem]

/-- A term that stands for an encoding the spec accepts. -/
abbrev Instr.wf (i : Instr) : Prop := i.problem = none

end Sys2Proof
end

