-- ==== Sys2Proof/Machine/State.lean ====
section
/-!
DEFINITION. The state of the machine (R34 to R45, R258, R259), the reasons a step can stop (R245), the state a
launch builds (R44, R270) and the state after reset.
-/
namespace Sys2Proof.Machine

/-! ### One thread -/

/-- A general register: its value, and which of its halves have been written (R20, R24). -/
structure Gpr where
  val : Word
  loWritten : Bool
  hiWritten : Bool
  deriving DecidableEq, Repr

/-- The four flags of a predicate register (R28). -/
structure Flags where
  z : Bool
  s : Bool
  c : Bool
  o : Bool
  deriving DecidableEq, Repr

/-- A predicate register: its flags, and whether it has been written (R28, R30). -/
structure Pred where
  flags : Flags
  written : Bool
  deriving DecidableEq, Repr

/-- An address register: its value, and whether it has been written (R31, R33). -/
structure Areg where
  val : Word
  written : Bool
  deriving DecidableEq, Repr

/-- What one thread owns (R259): R0 to R123, C0 to C3, A1 to A15 (A0 is no state, R32; number 124 is no state,
R21). Of the general registers the first `NUM_GPR` exist for a program, of the address registers A0 to
A(NUM_AREG-1) (R8). -/
structure Thread where
  gpr : Vector Gpr 124
  pred : Vector Pred 4
  areg : Vector Areg 15
  deriving DecidableEq, Repr

/-- Where a lane stands: in the set `active`, in `done` (ended), in `ret` (returned), or in none of them (idle,
waiting for an entry of the warp stack). One status per lane keeps the three sets of R34 disjoint. -/
inductive LaneStatus where
  | active | idle | returned | ended
  deriving DecidableEq, Repr

/-- One lane of a warp: its status and its thread (R34). -/
structure Lane where
  status : LaneStatus
  thread : Thread
  deriving DecidableEq, Repr

/-! ### One warp -/

/-- The kind of a warp-stack entry (R35). -/
inductive Kind where
  | sync | diverge | call
  deriving DecidableEq, Repr

/-- An entry `(kind, addr, mask)` of the warp stack; the mask is the list of its lane numbers (R35). -/
structure Entry where
  kind : Kind
  addr : Nat
  mask : List Nat
  deriving DecidableEq, Repr

/-- The memory spaces: `shared` is one per block, `const` one per segment (R38, R50). -/
inductive Space where
  | code
  | global
  | shared (block : Nat)
  | const (seg : Nat)
  deriving DecidableEq, Repr

/-- Which register file a number was looked up in. -/
inductive RegFile where
  | general | address
  deriving DecidableEq, Repr

/-- Why a warp stops: the faults of R245 with what R242 and R243 record. R240: they are outcomes of the model at
situations the source does not define, not hardware exceptions; stopping is safe. -/
inductive Cause where
  /-- R242: a register number that names nothing; raised by a lane that reads or writes it. Safe. -/
  | invalidRegister (file : RegFile) (n : Nat)
  /-- R242: a read of a register that neither the launch nor the thread wrote. Safe. -/
  | uninitialisedRegister (file : RegFile) (n : Nat)
  /-- R242: a read of a predicate register that the thread never wrote. Safe. -/
  | uninitialisedPredicate (p : Nat)
  /-- R242: a data access whose address is no multiple of its size. Safe. -/
  | misalignedAccess (space : Space) (addr n : Nat)
  /-- R242: a data access that does not lie inside its space. Safe. -/
  | addressOutOfRange (space : Space) (addr : Nat)
  /-- R242: a load of a byte that neither the launch nor a store wrote. Safe. -/
  | uninitialisedMemory (space : Space) (addr : Nat)
  /-- R243: a fetch at a pc that is no multiple of 4. Safe. -/
  | misalignedFetch (pc : Nat)
  /-- R243: a fetch of bytes outside the code. Safe. -/
  | fetchOutOfRange (pc : Nat)
  /-- R244: a push on a warp stack that holds `STACK_DEPTH` entries. Safe. -/
  | stackOverflow
  /-- R244: a Join marker on an empty warp stack. Safe. -/
  | stackUnderflow
  /-- R244: BAR in a warp some of whose unfinished lanes are inactive. Safe. -/
  | barrierDivergence
  /-- R60, R65: conflicting accesses without an order; the run has no meaning. Safe. -/
  | race
  deriving DecidableEq, Repr

/-- The status of a warp (R34). -/
inductive Status where
  | running
  | atBarrier
  | finished
  | fault (c : Cause)
  | trapped
  deriving DecidableEq, Repr

/-- A warp (R34): its block and its number in the block, its lanes, and its own control state. `pc` is a number
because the program counter never wraps (R27). `epoch` counts the barrier releases the warp has passed; it is
the model's own, for the order of R66. -/
structure Warp where
  block : Nat
  index : Nat
  pc : Nat
  lanes : List Lane
  stack : List Entry
  status : Status
  epoch : Nat
  deriving DecidableEq, Repr

/-! ### The whole machine -/

/-- The bytes of one space that hold a value: address and byte, addresses strictly rising. An unlisted address
holds none (R51). DESIGN CHOICE, notes/assumptions/11.md; safe. -/
abbrev Memory := List Host.Cell

/-- A data access that another warp may conflict with (R65): its bytes, the warp that made it, and how many
barriers that warp had passed. DEDUCED, notes/assumptions/17.md. -/
structure Access where
  space : Space
  addr : Nat
  bytes : Nat
  block : Nat
  warp : Nat
  epoch : Nat
  write : Bool
  deriving DecidableEq, Repr

/-- The machine: the launch parameters (R273), the warp whose turn it is and the other warps, the memories
(R38), the accesses made so far (R65) and the model's own counter and fetched word. `shared` holds block b's
byte a at b * 2^32 + a, `const` segment s's byte a at s * 2^32 + a. DESIGN CHOICE, notes/assumptions/16.md, 18.md,
43.md and 45.md; safe. -/
structure State where
  params : Params
  warp : Warp
  rest : List Warp
  global : Memory
  shared : Memory
  const : Memory
  code : Memory
  log : List Access
  clock : Nat
  ir : Long
  deriving DecidableEq, Repr

/-! ### How a step can stop -/

/-- Where a run stopped: what R240 records beside the fault. -/
structure Site where
  block : Nat
  warp : Nat
  lane : Option Nat
  pc : Nat
  word : Long
  deriving DecidableEq, Repr

/-- The outcomes of a run other than a refusal (R245). -/
inductive Fault where
  /-- A fault of R240, raised by the fetch, a lane or the control state of a warp. Safe. -/
  | raised (c : Cause) (at_ : Site)
  /-- Every warp has finished: the normal end of a run (R276). Raised by a step of a machine in which no
  thread is left. Safe. -/
  | finished
  /-- TRAP has been executed (R138, R248). Raised by a step of a machine with a trapped warp. Safe. -/
  | trapped (at_ : Site)
  /-- No transition is enabled and not every warp has finished (R276). Safe. -/
  | deadlock
  deriving DecidableEq, Repr

/-- Why a step has no meaning. -/
inductive Refusal where
  /-- An instruction whose meaning has not been written. Raised by a dispatch arm. Safe. -/
  | notModelled (mnemonic : String)
  /-- `IllegalInstruction` of R241: the decoder, or an instruction whose option the launch does not take,
  declines the word. Safe. -/
  | illegalInstruction (why : Reject) (at_ : Site)
  deriving DecidableEq, Repr

/-- The outcome of a step of this machine. -/
abbrev Out := Host.Outcome State Fault Refusal

/-! ### Launch and reset -/

/-- A thread with every register unwritten: what a launch without `INIT_R` gives (R44). The values behind the
marks are never read. -/
def Thread.unwritten : Thread where
  gpr := Vector.replicate 124 ⟨0#32, false, false⟩
  pred := Vector.replicate 4 ⟨⟨false, false, false, false⟩, false⟩
  areg := Vector.replicate 15 ⟨0#32, false⟩

/-- A thread with every register holding 0 and every flag clear. The spec gives no value (R44):
DESIGN CHOICE, notes/assumptions/1.md; unsafe. -/
def Thread.zero : Thread where
  gpr := Vector.replicate 124 ⟨0#32, true, true⟩
  pred := Vector.replicate 4 ⟨⟨false, false, false, false⟩, true⟩
  areg := Vector.replicate 15 ⟨0#32, true⟩

/-- The lanes of warp `index` of a block: lane i holds thread `index * WARP_SIZE + i` of the block; a lane that
holds no thread is in `done` (R44, R258). -/
def launchLanes (p : Params) (thread : Nat → Thread) (index : Nat) : Nat → List Lane
  | 0 => []
  | n + 1 =>
    let i := p.warpSize - (n + 1)
    let t := index * p.warpSize + i
    ⟨if t < p.blockThreads then .active else .ended, thread t⟩ :: launchLanes p thread index n

/-- Warp `index` of block `b` as a launch makes it (R44): pc 0, empty stack, running. -/
def launchWarp (p : Params) (thread : Nat → Nat → Thread) (b index : Nat) : Warp where
  block := b
  index := index
  pc := 0
  lanes := launchLanes p (thread b) index p.warpSize
  stack := []
  status := .running
  epoch := 0

/-- The warps of a launch in order of block and number (R258). -/
def launchWarps (p : Params) (thread : Nat → Nat → Thread) : List Warp :=
  (List.range p.gridBlocks).flatMap fun b =>
    (List.range p.warpsPerBlock).map fun i => launchWarp p thread b i

/-- The state at a kernel launch (R44): the parameters, each block's threads (`INIT_R` inside them), and the
contents of the memories. -/
def State.launch (p : Params) (thread : Nat → Nat → Thread) (global shared const code : Memory) : State where
  params := p
  warp := launchWarp p thread 0 0
  rest := (launchWarps p thread).tail
  global := global
  shared := shared
  const := const
  code := code
  log := []
  clock := 0
  ir := 0#64

/-- The machine right after reset. The spec has no reset but the launch (R270): this is the launch of
`Params.default` with every register at 0, no kernel and no byte of memory listed. -/
def State.reset : State :=
  State.launch Params.default (fun _ _ => Thread.zero) [] [] [] []

end Sys2Proof.Machine
end

