-- ==== Sys2Proof/Machine/Ops.lean ====
section
/-!
DEFINITION. The named operations over registers, memory and lanes. Raising a fault is one operation
(`State.raise`, R240); nothing resumes after one, so there is no return beside it (R249).
-/
namespace Sys2Proof.Machine

/-! ### Stopping -/

/-- Where the current warp stands, for the report of R240. -/
def State.site (s : State) (lane : Option Nat) : Site :=
  ⟨s.warp.block, s.warp.index, lane, s.warp.pc, s.ir⟩

/-- R240: raise a fault. The step does not complete: no write of it happens and the run ends with this outcome.
The state it leaves is `State.faulted`. DEDUCED, notes/assumptions/19.md; safe. -/
def State.raise (s : State) (lane : Option Nat) (c : Cause) : Out :=
  .fault (.raised c (s.site lane))

/-- R240: the state a fault leaves. Only the status of the warp differs: its pc is not advanced, no register or
memory is written, and every earlier store stands. -/
def State.faulted (s : State) (c : Cause) : State :=
  { s with warp := { s.warp with status := .fault c } }

/-- R241: decline the current word. -/
def State.refuse (s : State) (why : Reject) : Out :=
  .refused (.illegalInstruction why (s.site none))

/-- R247 (2): a reason to decline the word comes before any lane runs. -/
def State.unless (s : State) (problem : Option Reject) (k : Out) : Out :=
  match problem with
  | some why => s.refuse why
  | none => k

/-! ### General registers -/

/-- How many general registers a thread has: `NUM_GPR`, at most 124 (R8, R20). -/
def gprCount (p : Params) : Nat := min p.numGpr 124

/-- General register n of a thread. -/
def Thread.gprAt (t : Thread) (n : Nat) : Gpr :=
  t.gpr[n]?.getD ⟨0#32, false, false⟩

/-- Read of general register n (R21, R24): number 124 reads 0 where `R124_IS_ZERO`. -/
def readGpr (p : Params) (t : Thread) (n : Nat) : Except Cause Word :=
  if n < gprCount p then
    if (t.gprAt n).loWritten && (t.gprAt n).hiWritten then .ok (t.gprAt n).val
    else .error (.uninitialisedRegister .general n)
  else if n = 124 ∧ p.r124IsZero = true then .ok 0#32
  else .error (.invalidRegister .general n)

/-- Read of half register k = 2n + h (R22, R24). -/
def readHalf (p : Params) (t : Thread) (k : Nat) : Except Cause Half :=
  if k / 2 < gprCount p then
    if k % 2 = 0 then
      if (t.gprAt (k / 2)).loWritten then .ok ((t.gprAt (k / 2)).val.extractLsb' 0 16)
      else .error (.uninitialisedRegister .general (k / 2))
    else
      if (t.gprAt (k / 2)).hiWritten then .ok ((t.gprAt (k / 2)).val.extractLsb' 16 16)
      else .error (.uninitialisedRegister .general (k / 2))
  else .error (.invalidRegister .general k)

/-- Read of a register field at an operation size: `R[k]` or `Rh[k]` (R23). -/
def readReg (p : Params) (t : Thread) : (sz : Size) → Nat → Except Cause (BitVec sz.bits)
  | .b32, k => readGpr p t k
  | .b16, k => readHalf p t k

/-- The thread with general register n holding v, both halves written. -/
def Thread.setGpr (t : Thread) (n : Nat) (v : Word) : Thread :=
  { t with gpr := t.gpr.setIfInBounds n ⟨v, true, true⟩ }

/-- The thread with half register k holding v; the other half keeps its value and its mark (R22, R24). -/
def Thread.setHalf (t : Thread) (k : Nat) (v : Half) : Thread :=
  let r := t.gprAt (k / 2)
  let r' : Gpr :=
    if k % 2 = 0 then ⟨r.val.extractLsb' 16 16 ++ v, true, r.hiWritten⟩
    else ⟨v ++ r.val.extractLsb' 0 16, r.loWritten, true⟩
  { t with gpr := t.gpr.setIfInBounds (k / 2) r' }

/-- Write of general register n (R21): a number at or above `NUM_GPR` names nothing. -/
def writeGpr (p : Params) (t : Thread) (n : Nat) (v : Word) : Except Cause Thread :=
  if n < gprCount p then .ok (t.setGpr n v) else .error (.invalidRegister .general n)

/-- Write of half register k (R21, R22). -/
def writeHalf (p : Params) (t : Thread) (k : Nat) (v : Half) : Except Cause Thread :=
  if k / 2 < gprCount p then .ok (t.setHalf k v) else .error (.invalidRegister .general k)

/-- Write of a register field at an operation size (R23). -/
def writeReg (p : Params) (t : Thread) : (sz : Size) → Nat → BitVec sz.bits → Except Cause Thread
  | .b32, k, v => writeGpr p t k v
  | .b16, k, v => writeHalf p t k v

/-! ### Predicate registers -/

/-- Predicate register p of a thread (R28). -/
def Thread.predAt (t : Thread) (p : BitVec 2) : Pred :=
  t.pred[p.toNat]'p.isLt

/-- Read of predicate register p (R30). -/
def readPred (t : Thread) (p : BitVec 2) : Except Cause Flags :=
  if (t.predAt p).written then .ok (t.predAt p).flags else .error (.uninitialisedPredicate p.toNat)

/-- The thread with predicate register p holding the four flags (R29). -/
def Thread.setPred (t : Thread) (p : BitVec 2) (f : Flags) : Thread :=
  { t with pred := t.pred.set p.toNat ⟨f, true⟩ p.isLt }

/-! ### Address registers -/

/-- The address registers of a thread, A0 included: `NUM_AREG`, never more than the 16 the source names (R7, R8). -/
def aregCount (p : Params) : Nat := min p.numAreg 16

/-- Address register a of a thread, a from 1 to 15 (R31). -/
def Thread.aregAt (t : Thread) (a : Nat) : Areg :=
  t.areg[a - 1]?.getD ⟨0#32, false⟩

/-- Read of address register a: A0 reads 0, a number at or above `NUM_AREG` names nothing (R31 to R33). -/
def readAreg (p : Params) (t : Thread) (a : Nat) : Except Cause Word :=
  if a = 0 then .ok 0#32
  else if a < aregCount p then
    if (t.aregAt a).written then .ok (t.aregAt a).val else .error (.uninitialisedRegister .address a)
  else .error (.invalidRegister .address a)

/-- The thread with address register a holding v, a from 1 to 15. -/
def Thread.setAreg (t : Thread) (a : Nat) (v : Word) : Thread :=
  { t with areg := t.areg.setIfInBounds (a - 1) ⟨v, true⟩ }

/-- Write of address register a (R190); a write of A0 is declined before any lane runs (R32). -/
def writeAreg (p : Params) (t : Thread) (a : Nat) (v : Word) : Except Cause Thread :=
  if 0 < a ∧ a < aregCount p then .ok (t.setAreg a v) else .error (.invalidRegister .address a)

/-! ### Bytes of one memory -/

/-- The byte at an address, if it holds one. -/
def Memory.byteAt (m : Memory) (a : Nat) : Option Byte :=
  match m with
  | [] => none
  | (k, b) :: rest => if a = k then some b else Memory.byteAt rest a

/-- The memory with one byte written: the addresses stay strictly rising. -/
def Memory.setByte (m : Memory) (a : Nat) (v : Byte) : Memory :=
  match m with
  | [] => [(a, v)]
  | (k, b) :: rest =>
    if a < k then (a, v) :: (k, b) :: rest
    else if a = k then (a, v) :: rest
    else (k, b) :: Memory.setByte rest a v

/-- The canonical form: addresses strictly rising. An unlisted address holds no value, so no entry can equal
what an unlisted address reads as. -/
def Memory.wf : Memory → Bool
  | [] => true
  | [_] => true
  | (a, _) :: (b, v) :: rest => decide (a < b) && Memory.wf ((b, v) :: rest)

/-- The n bytes from an address on, if each holds one. -/
def Memory.bytesAt (m : Memory) (a : Nat) : Nat → Option (List Byte)
  | 0 => some []
  | n + 1 =>
    match m.byteAt a, Memory.bytesAt m (a + 1) n with
    | some b, some rest => some (b :: rest)
    | _, _ => none

/-- The memory with a list of bytes written from an address on. -/
def Memory.setBytes (m : Memory) (a : Nat) : List Byte → Memory
  | [] => m
  | b :: rest => Memory.setBytes (m.setByte a b) (a + 1) rest

/-- The value of a list of bytes whose first is the least significant. -/
def littleValue : List Byte → Word
  | [] => 0#32
  | b :: rest => littleValue rest <<< 8 ||| b.setWidth 32

/-- The low n bytes of a value, least significant first. -/
def littleBytes : Nat → Word → List Byte
  | 0, _ => []
  | n + 1, v => v.setWidth 8 :: littleBytes n (v >>> 8)

/-- The value of the bytes at rising addresses (R52, `ENDIAN` of R8). -/
def valueOf (e : Endian) (bytes : List Byte) : Word :=
  match e with
  | .little => littleValue bytes
  | .big => littleValue bytes.reverse

/-- The low n bytes of a value at rising addresses (R52, `ENDIAN` of R8). -/
def bytesOf (e : Endian) (n : Nat) (v : Word) : List Byte :=
  match e with
  | .little => littleBytes n v
  | .big => (littleBytes n v).reverse

/-! ### The spaces -/

/-- The size of a space in bytes (R38, R50). -/
def spaceSize (p : Params) : Space → Nat
  | .code => min p.codeSize codeLimit
  | .global => p.globalSize
  | .shared _ => p.sharedSize
  | .const seg => p.constSize[seg]?.getD 0

/-- The memory that holds a space. -/
def State.memOf (s : State) : Space → Memory
  | .code => s.code
  | .global => s.global
  | .shared _ => s.shared
  | .const _ => s.const

/-- Where byte `addr` of a space stands in its memory: blocks and segments are 2^32 apart (R50). -/
def Space.key : Space → Nat → Nat
  | .code, a => a
  | .global, a => a
  | .shared b, a => b * 2 ^ 32 + a
  | .const seg, a => seg * 2 ^ 32 + a

/-- The byte at an address of a space, if it holds one. -/
def State.byteAt (s : State) (sp : Space) (addr : Nat) : Option Byte :=
  (s.memOf sp).byteAt (sp.key addr)

/-- The checks that a read and a write share, in the order of R51. -/
def State.accessCheck (s : State) (sp : Space) (addr n : Nat) : Except Cause Unit :=
  if addr % n ≠ 0 then .error (.misalignedAccess sp addr n)
  else if spaceSize s.params sp < addr + n then .error (.addressOutOfRange sp addr)
  else .ok ()

/-- `MemRead(space, addr, n)` (R51, R52), zero-extended to 32 bits. -/
def State.load (s : State) (sp : Space) (addr n : Nat) : Except Cause Word :=
  match s.accessCheck sp addr n with
  | .error c => .error c
  | .ok () =>
    match (s.memOf sp).bytesAt (sp.key addr) n with
    | none => .error (.uninitialisedMemory sp addr)
    | some bytes => .ok (valueOf s.params.endian bytes)

/-- A range of bytes that an instruction reads. -/
structure Range where
  space : Space
  addr : Nat
  bytes : Nat
  deriving DecidableEq, Repr

/-- A store that a lane is to make: the low `bytes` bytes of the value at `addr`. -/
structure Store where
  space : Space
  addr : Nat
  bytes : Nat
  value : Word
  deriving DecidableEq, Repr

/-- The bytes a store writes, at their places in the memory of its space. -/
def Store.list (e : Endian) (st : Store) : List Byte := bytesOf e st.bytes st.value

/-- `MemWrite(space, addr, n, v)` after its checks (R51). Only global and shared memory are ever written. -/
def State.applyStore (s : State) (st : Store) : State :=
  match st.space with
  | .global =>
    { s with global := s.global.setBytes (st.space.key st.addr) (st.list s.params.endian) }
  | .shared _ =>
    { s with shared := s.shared.setBytes (st.space.key st.addr) (st.list s.params.endian) }
  | .code => s
  | .const _ => s

/-- The stores of one instruction, lane after lane (R130 phase 2). -/
def State.applyStores (s : State) : List Store → State
  | [] => s
  | st :: rest => State.applyStores (s.applyStore st) rest

/-! ### Races -/

/-- Whether two ranges of one space share a byte. -/
def overlap (sp sp' : Space) (a n a' n' : Nat) : Bool :=
  decide (sp = sp') && decide (a < a' + n') && decide (a' < a + n)

/-- The value that a store puts at byte `a`, if it writes that byte. -/
def Store.byteAt (e : Endian) (st : Store) (a : Nat) : Option Byte :=
  if st.addr ≤ a then (st.list e)[a - st.addr]? else none

/-- R60: two stores of one instruction write different values to a byte. -/
def Store.clash (e : Endian) (st st' : Store) : Bool :=
  decide (st.space = st'.space) &&
    (List.range st.bytes).any fun i =>
      match st.byteAt e (st.addr + i), st'.byteAt e (st.addr + i) with
      | some b, some b' => b != b'
      | _, _ => false

/-- R60 over all the stores of one instruction. -/
def storesClash (e : Endian) : List Store → Bool
  | [] => false
  | st :: rest => rest.any (st.clash e) || storesClash e rest

/-- How many barriers a warp has passed; 0 for a warp that is not there. -/
def State.epochOf (s : State) (block index : Nat) : Nat :=
  match (s.warp :: s.rest).find? fun w => w.block == block && w.index == index with
  | some w => w.epoch
  | none => 0

/-- R65 d: the earlier access conflicts with the new one: another warp, a common byte, at least one write, and no
barrier between. R66: an access of a warp of the same block is ordered before the new one when that warp has
passed a barrier since (with `BAR_SCOPE = warp` no warp ever passes one). DEDUCED, notes/assumptions/17.md. -/
def State.conflicts (s : State) (new old : Access) : Bool :=
  (old.block != new.block || old.warp != new.warp) &&
    overlap old.space new.space old.addr old.bytes new.addr new.bytes &&
    (old.write || new.write) &&
    !(old.block == new.block && decide (old.epoch < s.epochOf old.block old.warp))

/-- An access of the current warp. -/
def State.accessBy (s : State) (sp : Space) (addr n : Nat) (write : Bool) : Access :=
  ⟨sp, addr, n, s.warp.block, s.warp.index, s.warp.epoch, write⟩

/-- The accesses with one more, each kept once. -/
def addAccess (log : List Access) (a : Access) : List Access :=
  if a ∈ log then log else a :: log

/-! ### Lanes -/

/-- What one lane of an instruction is to do: its registers after it, the bytes it read from global or shared
memory, and its store. -/
structure Work where
  thread : Thread
  reads : List Range
  store : Option Store
  deriving DecidableEq, Repr

/-- One lane after phase 1 of R130: the lane as phase 2 leaves it, and its memory traffic. -/
structure LaneOut where
  lane : Lane
  reads : List Range
  store : Option Store
  deriving DecidableEq, Repr

/-- A lane that does nothing. -/
def LaneOut.skip (l : Lane) : LaneOut := ⟨l, [], none⟩

/-- R130, R105: a lane of the active set whose guard is true does the work; another does nothing. -/
def laneOut (guard : Thread → Except Cause Bool) (body : Thread → Except Cause Work) (l : Lane) :
    Except Cause LaneOut :=
  if l.status = .active then
    match guard l.thread with
    | .error c => .error c
    | .ok false => .ok (.skip l)
    | .ok true =>
      match body l.thread with
      | .error c => .error c
      | .ok w => .ok ⟨{ l with thread := w.thread }, w.reads, w.store⟩
  else .ok (.skip l)

/-- R247 (3): the lanes in increasing number; the first that faults gives the outcome. -/
def runLanes (f : Lane → Except Cause LaneOut) : Nat → List Lane → Except (Nat × Cause) (List LaneOut)
  | _, [] => .ok []
  | i, l :: rest =>
    match f l with
    | .error c => .error (i, c)
    | .ok o =>
      match runLanes f (i + 1) rest with
      | .error e => .error e
      | .ok os => .ok (o :: os)

/-- The stores of the lanes, in order of lane. -/
def storesOf : List LaneOut → List Store
  | [] => []
  | o :: rest =>
    match o.store with
    | some st => st :: storesOf rest
    | none => storesOf rest

/-- The ranges the lanes read, in order of lane. -/
def readsOf : List LaneOut → List Range
  | [] => []
  | o :: rest => o.reads ++ readsOf rest

/-- The accesses of an instruction: its reads, then its stores. -/
def State.accessesOf (s : State) (outs : List LaneOut) : List Access :=
  ((readsOf outs).map fun r => s.accessBy r.space r.addr r.bytes false) ++
    (storesOf outs).map fun st => s.accessBy st.space st.addr st.bytes true

/-- R60, R65: whether the accesses of an instruction make a race. -/
def State.races (s : State) (outs : List LaneOut) : Bool :=
  storesClash s.params.endian (storesOf outs) ||
    (s.accessesOf outs).any fun new => s.log.any fun old => s.conflicts new old

/-- R130 phase 2: the lanes with their results, the memories with the stores, the accesses recorded. -/
def State.commit (s : State) (outs : List LaneOut) : State :=
  let s1 := s.applyStores (storesOf outs)
  { s1 with
    warp := { s1.warp with lanes := outs.map LaneOut.lane }
    log := (s.accessesOf outs).foldl addAccess s.log }

end Sys2Proof.Machine
end

