-- ==== Sys2Proof/Machine/Flags.lean ====
section
/-!
DEFINITION. The condition table (R106), the flags that a result sets (R107, R151), the adder of IADD (R165), and
the evaluation of a guard (R105).
-/
namespace Sys2Proof.Machine

/-- The formulas of the condition table (R106). -/
def condHolds : Cond → Flags → Bool
  | .never, _ => false
  | .l, f => (f.s && !f.z) ^^ f.o
  | .e, f => f.z && !f.s
  | .le, f => f.s ^^ (f.z || f.o)
  | .g, f => !f.z && !(f.s ^^ f.o)
  | .lg, f => !f.z
  | .ge, f => !(f.s ^^ f.o)
  | .lge, f => !f.z || !f.s
  | .u, f => f.z && f.s
  | .lu, f => f.s ^^ f.o
  | .eu, f => f.z
  | .leu, f => f.z || (f.s ^^ f.o)
  | .gu, f => !f.s ^^ (f.z || f.o)
  | .lgu, f => !f.z || f.s
  | .geu, f => (!f.s || f.z) ^^ f.o
  | .always, _ => true
  | .o, f => f.o
  | .c, f => f.c
  | .a, f => !f.z && f.c
  | .s, f => f.s
  | .ns, f => !f.s
  | .na, f => f.z || !f.c
  | .nc, f => !f.c
  | .no, f => !f.o

/-- R105, R30: the guard of a thread. Codes 0x00 and 0x0f do not look at the flags. -/
def guardHolds (g : Guard) (t : Thread) : Except Cause Bool :=
  if g.cc = .never then .ok false
  else if g.cc = .always then .ok true
  else
    match readPred t g.pr with
    | .error c => .error c
    | .ok f => .ok (condHolds g.cc f)

/-- R107: the flags of a result with the carry and overflow its instruction gives. -/
def flagsOf {n : Nat} (v : BitVec n) (c o : Bool) : Flags :=
  ⟨v == 0#n, v.msb, c, o⟩

/-- R107: the predicate write of an instruction. -/
def setp (t : Thread) (set : PredSet) (f : Flags) : Thread :=
  if set.pe then t.setPred set.ps f else t

/-- The result of an n-bit addition with its carry and signed overflow (R165). -/
structure Sum (n : Nat) where
  val : BitVec n
  carry : Bool
  overflow : Bool
  deriving DecidableEq, Repr

/-- `add_n(a, b, cin)` of R165. -/
def addN {n : Nat} (a b : BitVec n) (cin : Bool) : Sum n :=
  let v := a + b + BitVec.ofNat n cin.toNat
  ⟨v, decide (2 ^ n ≤ a.toNat + b.toNat + cin.toNat), a.msb == b.msb && v.msb != a.msb⟩

end Sys2Proof.Machine
end

