-- ==== Sys2Proof/Machine/Operands.lean ====
section
/-!
DEFINITION. The operand forms (R96 to R102): registers and halves, shared-memory and constant-memory elements,
the destinations (R90), and the arithmetic helpers that several instructions share.
-/
namespace Sys2Proof.Machine

/-- An operand's value, with the bytes of shared memory it was read from. -/
structure Val (n : Nat) where
  val : BitVec n
  reads : List Range
  deriving DecidableEq, Repr

/-! ### Elements -/

/-- The bytes of an element type (R98). -/
def elemBytes : ElemTy → Nat
  | .u8 => 1
  | .u16 => 2
  | .s16 => 2
  | .u32 => 4

/-- The low n bits of a word, zero-extended (R13). -/
def zext (n : Nat) (v : Word) : Word := (v.setWidth n).setWidth 32

/-- The low n bits of a word, sign-extended (R13). -/
def sext (n : Nat) (v : Word) : Word := (v.setWidth n).signExtend 32

/-- The 32-bit value that an element delivers (R98). -/
def elemExtend (ty : ElemTy) (raw : Word) : Word :=
  match ty with
  | .u8 => zext 8 raw
  | .u16 => zext 16 raw
  | .s16 => sext 16 raw
  | .u32 => raw

/-- The effective address of an operand with an address register: `(A + off * n) mod 2^32` (R72, R74). -/
def effAddr (base : Word) (off n : Nat) : Nat :=
  (base + BitVec.ofNat 32 (off * n)).toNat

/-- The shared-memory operand `g[Aa + off]` of the thread's own block (R98, R72): the address register first,
then the checks of the read (R247). -/
def readShared (s : State) (t : Thread) (off : Nat) (ty : ElemTy) (a : Nat) : Except Cause (Val 32) :=
  match readAreg s.params t a with
  | .error c => .error c
  | .ok base =>
    let addr := effAddr base off (elemBytes ty)
    match s.load (.shared s.warp.block) addr (elemBytes ty) with
    | .error c => .error c
    | .ok raw => .ok ⟨elemExtend ty raw, [⟨.shared s.warp.block, addr, elemBytes ty⟩]⟩

/-- The range that a read of shared or global memory goes to, once its checks let the access be made (R51). -/
def State.rangeRead (s : State) (sp : Space) (addr n : Nat) : List Range :=
  match s.accessCheck sp addr n with
  | .error _ => []
  | .ok () => [⟨sp, addr, n⟩]

/-- The range that a shared operand reads, if the lane gets as far as reading it. -/
def sharedRange (s : State) (t : Thread) (off : Nat) (ty : ElemTy) (a : Nat) : List Range :=
  match readAreg s.params t a with
  | .error _ => []
  | .ok base => s.rangeRead (.shared s.warp.block) (effAddr base off (elemBytes ty)) (elemBytes ty)

/-- The constant-memory operand `c[seg][off]` at an operation size (R99). -/
def readConst (s : State) (seg off : Nat) (sz : Size) : Except Cause (BitVec sz.bits) :=
  match s.load (.const seg) (off * sz.bytes) sz.bytes with
  | .error c => .error c
  | .ok raw => .ok (raw.setWidth sz.bits)

/-! ### Sources -/

/-- A register as an operand. -/
def readRegVal (s : State) (t : Thread) (sz : Size) (k : Nat) : Except Cause (Val sz.bits) :=
  match readReg s.params t sz k with
  | .error c => .error c
  | .ok v => .ok ⟨v, []⟩

/-- A shared element as an operand; a 16-bit operation uses the low 16 bits of its value (R98). -/
def readSharedVal (s : State) (t : Thread) (sz : Size) (off : Nat) (ty : ElemTy) (a : Nat) :
    Except Cause (Val sz.bits) :=
  match readShared s t off ty a with
  | .error c => .error c
  | .ok v => .ok ⟨v.val.setWidth sz.bits, v.reads⟩

/-- Source 1 of a long instruction (R96). -/
def readSrc1 (s : State) (t : Thread) (sz : Size) : Src1 → Except Cause (Val sz.bits)
  | .reg k => readRegVal s t sz k.toNat
  | .shared off ty a => readSharedVal s t sz off.toNat ty a.toNat

/-- Source 1 of a short or immediate instruction (R96). -/
def readSrcS (s : State) (t : Thread) (sz : Size) : SrcS → Except Cause (Val sz.bits)
  | .reg k => readRegVal s t sz k.toNat
  | .shared off ty a => readSharedVal s t sz off.toNat ty a.toNat

/-- The ranges that source 1 reads: it is the first operand of its instruction, and no other one reads shared or
global memory (R247). -/
def src1Ranges (s : State) (s1 : Src1) (t : Thread) : List Range :=
  match s1 with
  | .reg _ => []
  | .shared off ty a => sharedRange s t off.toNat ty a.toNat

/-- The ranges that source 1 of a short or immediate instruction reads. -/
def srcSRanges (s : State) (s1 : SrcS) (t : Thread) : List Range :=
  match s1 with
  | .reg _ => []
  | .shared off ty a => sharedRange s t off.toNat ty a.toNat

/-- An instruction that reads neither shared nor global memory. -/
def noRanges (_ : Thread) : List Range := []

/-- Source 2 or 3 of a long instruction (R97, R99, R101). -/
def readSrcB (s : State) (t : Thread) (sz : Size) : SrcB → Except Cause (BitVec sz.bits)
  | .reg k => readReg s.params t sz k.toNat
  | .const seg off => readConst s seg.toNat off.toNat sz

/-- R99: a segment at or above `NUM_CONST_SEG` is declined. -/
def segProblem (p : Params) (seg : BitVec 4) : Option Reject :=
  if seg.toNat < p.constSize.length then none else some .constSegment

/-- R99 for a source that may be a constant. -/
def srcSegProblem (p : Params) : SrcB → Option Reject
  | .reg _ => none
  | .const seg _ => segProblem p seg

/-- The amount of a shift: the immediate, or the whole value of the register (R161). -/
def readAmount (s : State) (t : Thread) : Amount → Except Cause Nat
  | .imm m => .ok m.toNat
  | .reg k =>
    match readGpr s.params t k.toNat with
    | .error c => .error c
    | .ok v => .ok v.toNat

/-- The source of I2I, extended as its type says (R154). The byte types exist for a shared operand only. -/
def readCvt (s : State) (t : Thread) (s1 : Src1) (ty : CvtTy) : Except Cause (Val 32) :=
  match s1 with
  | .reg k =>
    match ty with
    | .u16 => do
      let h ← readHalf s.params t k.toNat
      .ok ⟨h.setWidth 32, []⟩
    | .s16 => do
      let h ← readHalf s.params t k.toNat
      .ok ⟨h.signExtend 32, []⟩
    | .u32 | .s32 | .u8 | .s8 => do
      let v ← readGpr s.params t k.toNat
      .ok ⟨v, []⟩
  | .shared off ety a => do
    let v ← readShared s t off.toNat ety a.toNat
    .ok ⟨match ty with
      | .u16 => zext 16 v.val
      | .s16 => sext 16 v.val
      | .u8 => zext 8 v.val
      | .s8 => sext 8 v.val
      | .u32 | .s32 => v.val, v.reads⟩

/-- The half-register number that a source field of IMAD32 or IMAD32I names (R173, `IMAD32_HALF` of R8).
DEDUCED, notes/assumptions/8.md. -/
def imad32Field (p : Params) (k : BitVec 6) : Nat :=
  match p.imad32Half with
  | .common => k.toNat
  | .text => (k ^^^ 1#6).toNat

/-! ### Destinations -/

/-- `dst(w) <- v` at an operation size (R90): the discard destination writes nothing. -/
def writeDst (p : Params) (t : Thread) (sz : Size) (d : Dst) (v : BitVec sz.bits) : Except Cause Thread :=
  match d with
  | .reg k => writeReg p t sz k.toNat v
  | .discard => .ok t

/-- The end of a long instruction with a destination and a predicate write: `dst(w) <- v; setp(w, v, c, o)`. -/
def putResult (p : Params) (t : Thread) (sz : Size) (d : Dst) (set : PredSet) (v : BitVec sz.bits) (c o : Bool)
    (reads : List Range) : Except Cause Work :=
  match writeDst p t sz d v with
  | .error e => .error e
  | .ok t' => .ok ⟨setp t' set (flagsOf v c o), reads, none⟩

/-- The end of an instruction that only writes a register field (R92). -/
def putReg (p : Params) (t : Thread) (sz : Size) (d : Nat) (v : BitVec sz.bits) (reads : List Range) :
    Except Cause Work :=
  match writeReg p t sz d v with
  | .error e => .error e
  | .ok t' => .ok ⟨t', reads, none⟩

/-- The end of an instruction that writes an address register (R190). -/
def putAreg (p : Params) (t : Thread) (a : Nat) (v : Word) : Except Cause Work :=
  match writeAreg p t a v with
  | .error e => .error e
  | .ok t' => .ok ⟨t', [], none⟩

/-- R190, R32: a write of A0 is declined. -/
def aregProblem (da : BitVec 7) : Option Reject :=
  if da = 0#7 then some .addrRegZero else none

/-! ### Integer helpers -/

/-- `zext_16(a) * zext_16(b)` (R156). -/
def mulU (a b : Half) : Word := a.setWidth 32 * b.setWidth 32

/-- `sext_16(a) * sext_16(b)` modulo 2^32 (R156). -/
def mulS (a b : Half) : Word := a.signExtend 32 * b.signExtend 32

/-- The product of a multiply whose signed flag is `w[8]` (R160, R174). -/
def mulBy (signed : Bool) (a b : Half) : Word := if signed then mulS a b else mulU a b

/-- A word, negated modulo 2^32 where the flag says so (R154, R171). -/
def negIf (neg : Bool) (v : Word) : Word := if neg then 0#32 - v else v

/-- A left shift; an amount at or above the width gives 0 (R161, R162). DESIGN CHOICE, notes/assumptions/35.md. -/
def shiftLeft {n : Nat} (x : BitVec n) (m : Nat) : BitVec n :=
  if m < n then x <<< m else 0#n

/-- A right shift, arithmetic where the flag says so (R161, R163). -/
def shiftRight {n : Nat} (sg : Bool) (x : BitVec n) (m : Nat) : BitVec n :=
  if sg then (if m < n then x.sshiftRight m else if x.msb then BitVec.allOnes n else 0#n)
  else (if m < n then x >>> m else 0#n)

/-- A value, complemented where the flag says so (R166, R176). -/
def notIf {n : Nat} (inv : Bool) (v : BitVec n) : BitVec n := if inv then ~~~v else v

/-- The operations of LOP (R175, R176). -/
def logicOp {n : Nat} (op : LogicOp) (a b : BitVec n) : BitVec n :=
  match op with
  | .and => a &&& b
  | .or => a ||| b
  | .xor => a ^^^ b
  | .passB => b

/-- The relation between two n-bit integers (R178). -/
def intRel {n : Nat} (sg : Bool) (a b : BitVec n) : FRel :=
  if a = b then .equal
  else if (if sg then a.slt b else a.ult b) then .less else .greater

/-- Whether a relation is in the set of a comparison code (R177). -/
def cmpHolds (c : CmpSet) : FRel → Bool
  | .less => c.less
  | .equal => c.equal
  | .greater => c.greater
  | .unordered => c.unordered

/-- All ones or zero (R178, R217). -/
def maskOf (n : Nat) (b : Bool) : BitVec n := if b then BitVec.allOnes n else 0#n

/-! ### Floating-point sign operations -/

/-- `fneg` of R202, where the flag says so. -/
def fnegIf (neg : Bool) (v : Word) : Word := if neg then v ^^^ 0x80000000#32 else v

/-- `fabs` of R202, where the flag says so. -/
def fabsIf (abs : Bool) (v : Word) : Word := if abs then v &&& 0x7FFFFFFF#32 else v

end Sys2Proof.Machine
end

