-- ==== Sys2Proof/Machine/Warps.lean ====
section
/-!
DEFINITION. The control state of a warp: its lane sets, its stack, running out of lanes, the markers, and the
one shape of every instruction that is not a flow instruction (R130, R135, R140, R141).
-/
namespace Sys2Proof.Machine

/-! ### Sets of lanes -/

/-- The numbers of the lanes that a test selects, in increasing order, counted from i. -/
def lanesWhere (f : Lane → Bool) : Nat → List Lane → List Nat
  | _, [] => []
  | i, l :: rest => if f l then i :: lanesWhere f (i + 1) rest else lanesWhere f (i + 1) rest

/-- The lanes, each changed by its number and itself, counted from i. -/
def mapLanes (f : Nat → Lane → Lane) : Nat → List Lane → List Lane
  | _, [] => []
  | i, l :: rest => f i l :: mapLanes f (i + 1) rest

/-- The set `active` of R34. -/
def Warp.active (w : Warp) : List Nat := lanesWhere (fun l => l.status == .active) 0 w.lanes

/-- The set `done` of R34. -/
def Warp.ended (w : Warp) : List Nat := lanesWhere (fun l => l.status == .ended) 0 w.lanes

/-- The set `ret` of R34. -/
def Warp.returned (w : Warp) : List Nat := lanesWhere (fun l => l.status == .returned) 0 w.lanes

/-- Whether any lane is active. -/
def Warp.hasActive (w : Warp) : Bool := w.lanes.any fun l => l.status == .active

/-- A returned lane of a mask waits like any other inactive one. -/
def unreturnLane (mask : List Nat) (i : Nat) (l : Lane) : Lane :=
  if l.status = .returned ∧ i ∈ mask then { l with status := .idle } else l

/-- `W.ret <- W.ret \ mask` (R135, R140). -/
def Warp.unreturn (w : Warp) (mask : List Nat) : Warp :=
  { w with lanes := mapLanes (unreturnLane mask) 0 w.lanes }

/-- A lane that has neither ended nor returned is active where the mask holds it, and idle elsewhere. -/
def activateLane (mask : List Nat) (i : Nat) (l : Lane) : Lane :=
  if l.status = .ended ∨ l.status = .returned then l
  else { l with status := if i ∈ mask then .active else .idle }

/-- `W.active <- mask \ (W.done + W.ret)` (R135, R140). -/
def Warp.activate (w : Warp) (mask : List Nat) : Warp :=
  { w with lanes := mapLanes (activateLane mask) 0 w.lanes }

/-- An active lane that a set selects gets another status. -/
def retireLane (who : Nat → Bool) (status : LaneStatus) (i : Nat) (l : Lane) : Lane :=
  if l.status = .active ∧ who i = true then { l with status := status } else l

/-- The active lanes that a set selects leave `active` (R136, R141). -/
def Warp.retire (w : Warp) (who : Nat → Bool) (status : LaneStatus) : Warp :=
  { w with lanes := mapLanes (retireLane who status) 0 w.lanes }

/-! ### The warp stack -/

/-- `push(W, e)` of R132. -/
def Warp.push (w : Warp) (depth : Nat) (e : Entry) : Except Cause Warp :=
  if depth ≤ w.stack.length then .error .stackOverflow else .ok { w with stack := e :: w.stack }

/-- One pop of R135 and R140: the entry leaves the stack, a CALL entry ends the returns of its lanes, and its
lanes that have neither ended nor returned become active at its address. -/
def Warp.popEntry (w : Warp) (e : Entry) (below : List Entry) : Warp :=
  let w1 := { w with stack := below }
  let w2 := if e.kind = .call then w1.unreturn e.mask else w1
  { w2.activate e.mask with pc := e.addr }

/-- The loop of `resume` over the entries of the stack (R140). -/
def resumeFrom (w : Warp) : List Entry → Warp
  | [] => { w with stack := [], status := .finished }
  | e :: below =>
    if (w.popEntry e below).hasActive then w.popEntry e below
    else resumeFrom (w.popEntry e below) below

/-- `resume(W)` of R140: with no active lane, take the next pending path, or finish. -/
def Warp.resume (w : Warp) : Warp := if w.hasActive then w else resumeFrom w w.stack

/-- `join(W)` of R135. -/
def Warp.join (w : Warp) : Except Cause Warp :=
  match w.stack with
  | [] => .error .stackUnderflow
  | e :: below => .ok (w.popEntry e below).resume

/-- `exit_marker(W)` of R141. -/
def Warp.exit (w : Warp) : Warp := (w.retire (fun _ => true) .ended).resume

/-- The pc advanced by the length of an instruction (R26). -/
def Warp.advance (w : Warp) (len : Nat) : Warp := { w with pc := w.pc + len }

/-- What the marker of an instruction does to its warp (R85, R130). -/
def Warp.mark (w : Warp) : Marker → Except Cause Warp
  | .normal => .ok w
  | .exit => .ok w.exit
  | .join => w.join

/-! ### The shape of an instruction -/

/-- Whether a lane is in the set E of R105: active, with a guard that is true. -/
def takesLane (g : Guard) (l : Lane) : Bool :=
  l.status == .active && match guardHolds g l.thread with
    | .ok b => b
    | .error _ => false

/-- The state with another warp in turn. -/
abbrev State.withWarp (s : State) (w : Warp) : State := { s with warp := w }

/-- R130, the end of an instruction: the pc advances, then the marker acts. A fault of the marker is reported at
the instruction, which then has no effect (R240, R247): `s` is the state before it, `s1` after phase 2. -/
def finishStep (s s1 : State) (mk : Marker) (len : Nat) : Out :=
  match (s1.warp.advance len).mark mk with
  | .error c => s.raise none c
  | .ok w => .next (s1.withWarp w)

/-- R247: whether some lane of E reads a range that races with an earlier access (R65). It is asked of a step that
another lane, or a later operand, stops: `Race` is reported in place of any other outcome. -/
def State.readsRace (s : State) (g : Guard) (ranges : Thread → List Range) : Bool :=
  s.warp.lanes.any fun l =>
    takesLane g l && (ranges l.thread).any fun r =>
      s.log.any fun old => s.conflicts (s.accessBy r.space r.addr r.bytes false) old

/-- R130, an instruction that is not a flow instruction: every lane of E reads (phase 1), then every lane writes
(phase 2), then the pc advances and the marker acts. `ranges` are the bytes that a lane reads even where it then
faults; a store of a step that does not complete is not made (R240). DEDUCED, notes/assumptions/17.md. -/
def execLanes (s : State) (mk : Marker) (g : Guard) (len : Nat) (ranges : Thread → List Range)
    (body : Thread → Except Cause Work) : Out :=
  match runLanes (laneOut (guardHolds g) body) 0 s.warp.lanes with
  | .error (i, c) => if s.readsRace g ranges then s.raise none .race else s.raise (some i) c
  | .ok outs =>
    if s.races outs then s.raise none .race
    else finishStep s (s.commit outs) mk len

/-- The shape of a long instruction with marker and guard. -/
abbrev execLong (s : State) (ctl : Ctl) (ranges : Thread → List Range) (body : Thread → Except Cause Work) : Out :=
  execLanes s ctl.marker ctl.guard 8 ranges body

/-- The shape of an immediate instruction: no guard, no marker, 8 bytes (R87). -/
abbrev execImm (s : State) (ranges : Thread → List Range) (body : Thread → Except Cause Work) : Out :=
  execLanes s .normal Guard.open 8 ranges body

/-- The shape of a short instruction: no guard, no marker, 4 bytes (R86). -/
abbrev execShort (s : State) (ranges : Thread → List Range) (body : Thread → Except Cause Work) : Out :=
  execLanes s .normal Guard.open 4 ranges body

/-! ### Guards of flow instructions -/

/-- The active lanes whose guard is true, in increasing number (R131, R136); the first lane that cannot evaluate
it faults (R247). -/
def takenFrom (g : Guard) : Nat → List Lane → Except (Nat × Cause) (List Nat)
  | _, [] => .ok []
  | i, l :: rest =>
    if l.status = .active then
      match guardHolds g l.thread with
      | .error c => .error (i, c)
      | .ok b =>
        match takenFrom g (i + 1) rest with
        | .error e => .error e
        | .ok t => .ok (if b then i :: t else t)
    else takenFrom g (i + 1) rest

/-- The set T of R131 and R136. -/
def Warp.taken (w : Warp) (g : Guard) : Except (Nat × Cause) (List Nat) := takenFrom g 0 w.lanes

end Sys2Proof.Machine
end

