-- ==== Sys2Proof/Machine/Control.lean ====
section
/-!
DEFINITION. The control-flow instructions (R131 to R139).
-/
namespace Sys2Proof.Machine

/-- `diverge(W, tgt, T, N)` of R132: one side runs, the other is pushed. -/
def diverge (p : Params) (w : Warp) (tgt : Nat) (T N : List Nat) : Except Cause Warp :=
  match p.divergeFirst with
  | .taken =>
    match w.push p.stackDepth ⟨.diverge, w.pc + 8, N⟩ with
    | .error c => .error c
    | .ok w1 => .ok { w1.activate T with pc := tgt }
  | .notTaken =>
    match w.push p.stackDepth ⟨.diverge, tgt, T⟩ with
    | .error c => .error c
    | .ok w1 => .ok { w1.activate N with pc := w.pc + 8 }

/-- BRA (R131). -/
def execBra (tgt : BitVec 18) (g : Guard) (s : State) : Out :=
  match s.warp.taken g with
  | .error (i, c) => s.raise (some i) c
  | .ok T =>
    let N := s.warp.active.filter fun i => !T.contains i
    if N = [] then .next (s.withWarp { s.warp with pc := tgt.toNat })
    else if T = [] then .next (s.withWarp (s.warp.advance 8))
    else
      match diverge s.params s.warp tgt.toNat T N with
      | .error c => s.raise none c
      | .ok w => .next (s.withWarp w)

/-- CAL (R139): no guard; `CAL_LINK` says whether the return address is kept. -/
def execCal (tgt : BitVec 19) (s : State) : Out :=
  match s.params.calLink with
  | .none => .next (s.withWarp { s.warp with pc := tgt.toNat })
  | .stack =>
    match s.warp.push s.params.stackDepth ⟨.call, s.warp.pc + 8, s.warp.active⟩ with
    | .error c => s.raise none c
    | .ok w => .next (s.withWarp { w with pc := tgt.toNat })

/-- Whether RET returns from a subroutine: `CAL_LINK = stack` and a CALL entry on the stack (R136). -/
def Warp.inCall (p : Params) (w : Warp) : Bool :=
  p.calLink == .stack && w.stack.any fun e => e.kind == .call

/-- RET (R136). -/
def execRet (g : Guard) (s : State) : Out :=
  match s.warp.taken g with
  | .error (i, c) => s.raise (some i) c
  | .ok T =>
    let w := s.warp.retire T.contains (if s.warp.inCall s.params then .returned else .ended)
    .next (s.withWarp (if w.hasActive then w.advance 8 else w.resume))

/-- BAR (R134): with `BAR_SCOPE = block` the warp waits, and the release is a transition of its own. -/
def execBar (s : State) : Out :=
  if s.warp.lanes.all fun l => l.status == .active || l.status == .ended then
    match s.params.barScope with
    | .warp => .next (s.withWarp (s.warp.advance 8))
    | .block => .next (s.withWarp { s.warp with status := .atBarrier })
  else s.raise none .barrierDivergence

/-- TRAP (R138, R248): the warp is trapped; the run ends with `Trapped` at the pc of the TRAP. -/
def execTrap (s : State) : Out :=
  .next (s.withWarp { s.warp with status := .trapped })

/-- SSY (R133); its guard field is ignored (R143). -/
def execSsy (tgt : BitVec 16) (_cc : BitVec 5) (_pr : BitVec 2) (s : State) : Out :=
  match s.warp.push s.params.stackDepth ⟨.sync, tgt.toNat, s.warp.active⟩ with
  | .error c => s.raise none c
  | .ok w => .next (s.withWarp (w.advance 8))

/-- NOP (R137): only the pc and the marker. -/
def execNop (mk : Marker) (s : State) : Out :=
  finishStep s s mk 8

end Sys2Proof.Machine
end

