-- ==== Sys2Proof/Machine/Data.lean ====
section
/-!
DEFINITION. The data handling and memory instructions (R180 to R199).
-/
namespace Sys2Proof.Machine

/-- The bytes of an MVC source (R181). -/
def widthBytes : Width → Nat
  | .w8 => 1
  | .w16 => 2
  | .w32 => 4

/-- The extension of an MVC source, signed where `w[59]` says so (R181). -/
def widthExtend (w : Width) (sg : Bool) (raw : Word) : Word :=
  match w with
  | .w8 => if sg then sext 8 raw else zext 8 raw
  | .w16 => if sg then sext 16 raw else zext 16 raw
  | .w32 => raw

/-- MVC (R181): the constant `c[seg][Aa + off]`. -/
def execMvc (ctl : Ctl) (d : BitVec 7) (set : PredSet) (seg : BitVec 4) (off : BitVec 7) (a : BitVec 3)
    (width : Width) (sz : Size) (sg : Bool) (s : State) : Out :=
  s.unless (segProblem s.params seg) <| execLong s ctl noRanges fun t => do
    let base ← readAreg s.params t a.toNat
    let raw ← s.load (.const seg.toNat) (effAddr base off.toNat (widthBytes width)) (widthBytes width)
    putResult s.params t sz (.reg d) set ((widthExtend width sg raw).setWidth sz.bits) false false []

/-- The bytes of a global access (R182). -/
def globalBytes : GlobalTy → Nat
  | .u8 => 1
  | .s8 => 1
  | .u16 => 2
  | .s16 => 2
  | .u32 => 4
  | .s32 => 4

/-- The extension of a global load (R182). -/
def globalExtend (ty : GlobalTy) (raw : Word) : Word :=
  match ty with
  | .u8 => zext 8 raw
  | .s8 => sext 8 raw
  | .u16 => zext 16 raw
  | .s16 => sext 16 raw
  | .u32 => raw
  | .s32 => raw

/-- The range that GLD reads, if the lane gets as far as reading it. -/
def gldRanges (s : State) (areg : BitVec 7) (ty : GlobalTy) (t : Thread) : List Range :=
  match readGpr s.params t areg.toNat with
  | .error _ => []
  | .ok addr => s.rangeRead .global addr.toNat (globalBytes ty)

/-- GLD (R182): the address is the whole value of a general register (R73). -/
def execGld (ctl : Ctl) (d areg : BitVec 7) (ty : GlobalTy) (s : State) : Out :=
  execLong s ctl (gldRanges s areg ty) fun t => do
    let addr ← readGpr s.params t areg.toNat
    let raw ← s.load .global addr.toNat (globalBytes ty)
    putReg s.params t .b32 d.toNat (globalExtend ty raw) [⟨.global, addr.toNat, globalBytes ty⟩]

/-- GST (R183): the low bytes of the data register. -/
def execGst (ctl : Ctl) (dreg areg : BitVec 7) (ty : GlobalTy) (s : State) : Out :=
  execLong s ctl noRanges fun t => do
    let addr ← readGpr s.params t areg.toNat
    let v ← readGpr s.params t dreg.toNat
    s.accessCheck .global addr.toNat (globalBytes ty)
    .ok ⟨t, [], some ⟨.global, addr.toNat, globalBytes ty, v⟩⟩

/-- MOV (R185); the sign flag has no effect. -/
def execMov (ctl : Ctl) (d : BitVec 7) (s1 : Src1) (sz : Size) (_sg : Bool) (s : State) : Out :=
  execLong s ctl (src1Ranges s s1) fun t => do
    let x ← readSrc1 s t sz s1
    putReg s.params t sz d.toNat x.val x.reads

/-- MOV32 (R186), with the 16-bit form of `w[15] = 0`. DESIGN CHOICE, notes/assumptions/23.md. -/
def execMov32 (d : BitVec 7) (s1 : SrcS) (sz : Size) (s : State) : Out :=
  execShort s (srcSRanges s s1) fun t => do
    let x ← readSrcS s t sz s1
    putReg s.params t sz d.toNat x.val x.reads

/-- MVI (R187). -/
def execMvi (d : BitVec 7) (imm : Word) (s : State) : Out :=
  execImm s noRanges fun t => putReg s.params t .b32 d.toNat imm []

/-- R2G (R188): the store goes to the shared memory of the thread's own block; the sign flag has no effect. -/
def execR2g (ctl : Ctl) (off : BitVec 14) (a : BitVec 3) (s3 : BitVec 7) (sz : Size) (_sg : Bool)
    (s : State) : Out :=
  execLong s ctl noRanges fun t => do
    let base ← readAreg s.params t a.toNat
    let v ← readReg s.params t sz s3.toNat
    let addr := effAddr base off.toNat sz.bytes
    s.accessCheck (.shared s.warp.block) addr sz.bytes
    .ok ⟨t, [], some ⟨.shared s.warp.block, addr, sz.bytes, v.setWidth 32⟩⟩

/-- The value of R2A: the sum, or the left shift, by `R2A_IMM_OP` (R196). -/
def r2aValue (op : R2aImmOp) (v : Word) (imm : Nat) : Word :=
  match op with
  | .add => v + BitVec.ofNat 32 imm
  | .shl => shiftLeft v imm

/-- R196: as a shift, an amount of 32 or more is refused. -/
def r2aProblem (p : Params) (da : BitVec 7) (imm : BitVec 12) : Option Reject :=
  if da = 0#7 then some .addrRegZero
  else if p.r2aImmOp = .shl ∧ 32 ≤ imm.toNat then some .shiftTooLong
  else none

/-- R2A (R196). DESIGN CHOICE for a nonzero immediate, notes/assumptions/25.md. -/
def execR2a (ctl : Ctl) (da s1 : BitVec 7) (imm : BitVec 12) (s : State) : Out :=
  s.unless (r2aProblem s.params da imm) <| execLong s ctl noRanges fun t => do
    let v ← readGpr s.params t s1.toNat
    putAreg s.params t da.toNat (r2aValue s.params.r2aImmOp v imm.toNat)

/-- A2R (R197). DESIGN CHOICE for a nonzero immediate, notes/assumptions/25.md. -/
def execA2r (ctl : Ctl) (d : BitVec 7) (a : BitVec 2) (imm : BitVec 10) (s : State) : Out :=
  execLong s ctl noRanges fun t => do
    let v ← readAreg s.params t a.toNat
    putReg s.params t .b32 d.toNat (v + imm.setWidth 32) []

/-- ADA (R198): the immediate is a byte count. -/
def execAda (ctl : Ctl) (da : BitVec 7) (a : BitVec 2) (imm : BitVec 14) (s : State) : Out :=
  s.unless (aregProblem da) <| execLong s ctl noRanges fun t => do
    let v ← readAreg s.params t a.toNat
    putAreg s.params t da.toNat (v + imm.setWidth 32)

end Sys2Proof.Machine
end

