-- ==== Sys2Proof/Machine/Float.lean ====
section
/-!
DEFINITION. The floating-point instructions (R200 to R220), over the numeric parameter `FP` of Config.
-/
namespace Sys2Proof.Machine

/-- FADD32 (R205). -/
def execFadd32 (d : BitVec 7) (s1 : SrcS) (s2 : BitVec 6) (neg1 neg2 : Bool) (s : State) : Out :=
  execShort s (srcSRanges s s1) fun t => do
    let a ← readSrcS s t .b32 s1
    let b ← readGpr s.params t s2.toNat
    putReg s.params t .b32 d.toNat (Config.fpAdd .nearest (fnegIf neg1 a.val) (fnegIf neg2 b)) a.reads

/-- FADD (R206): the second addend is the third field. -/
def execFadd (ctl : Ctl) (d : Dst) (set : PredSet) (s1 : Src1) (s3 : SrcB) (rm : Rm) (neg1 neg2 : Bool)
    (s : State) : Out :=
  s.unless (srcSegProblem s.params s3) <| execLong s ctl (src1Ranges s s1) fun t => do
    let a ← readSrc1 s t .b32 s1
    let b ← readSrcB s t .b32 s3
    putResult s.params t .b32 d set (Config.fpAdd rm (fnegIf neg1 a.val) (fnegIf neg2 b)) false false a.reads

/-- FADD32I (R207). -/
def execFadd32i (d : BitVec 7) (s1 : BitVec 6) (imm : Word) (s : State) : Out :=
  execImm s noRanges fun t => do
    let a ← readGpr s.params t s1.toNat
    putReg s.params t .b32 d.toNat (Config.fpAdd .nearest a imm) []

/-- FMUL (R208). -/
def execFmul (ctl : Ctl) (d : Dst) (set : PredSet) (s1 : Src1) (s2 : SrcB) (rm : Rm) (neg1 neg2 : Bool)
    (s : State) : Out :=
  s.unless (srcSegProblem s.params s2) <| execLong s ctl (src1Ranges s s1) fun t => do
    let a ← readSrc1 s t .b32 s1
    let b ← readSrcB s t .b32 s2
    putResult s.params t .b32 d set (Config.fpMul rm (fnegIf neg1 a.val) (fnegIf neg2 b)) false false a.reads

/-- FMUL32 (R209). -/
def execFmul32 (d : BitVec 7) (s1 : SrcS) (s2 : BitVec 6) (neg1 neg2 : Bool) (s : State) : Out :=
  execShort s (srcSRanges s s1) fun t => do
    let a ← readSrcS s t .b32 s1
    let b ← readGpr s.params t s2.toNat
    putReg s.params t .b32 d.toNat (Config.fpMul .nearest (fnegIf neg1 a.val) (fnegIf neg2 b)) a.reads

/-- FMUL32I (R210). -/
def execFmul32i (d : BitVec 7) (s1 : BitVec 6) (imm : Word) (s : State) : Out :=
  execImm s noRanges fun t => do
    let a ← readGpr s.params t s1.toNat
    putReg s.params t .b32 d.toNat (Config.fpMul .nearest a imm) []

/-- FMAD (R211): destination <- source 1 * source 2 + source 3. -/
def execFmad (ctl : Ctl) (d : Dst) (set : PredSet) (s1 : Src1) (s2 s3 : SrcB) (neg1 neg3 : Bool)
    (s : State) : Out :=
  s.unless (firstProblem [srcSegProblem s.params s2, srcSegProblem s.params s3]) <|
    execLong s ctl (src1Ranges s s1) fun t => do
      let a ← readSrc1 s t .b32 s1
      let b ← readSrcB s t .b32 s2
      let c ← readSrcB s t .b32 s3
      putResult s.params t .b32 d set (Config.fpMad (fnegIf neg1 a.val) b (fnegIf neg3 c)) false false a.reads

/-- FMAD32 (R212), in the reading the rule derives; the destination is also the addend. DEDUCED,
notes/assumptions/15.md. -/
def execFmad32 (d : BitVec 7) (s1 : SrcS) (s2 : BitVec 6) (neg1 : Bool) (s : State) : Out :=
  s.unless (if s.params.fmad32 then none else some .fmad32Absent) <| execShort s (srcSRanges s s1) fun t => do
    let a ← readSrcS s t .b32 s1
    let b ← readGpr s.params t s2.toNat
    let c ← readGpr s.params t d.toNat
    putReg s.params t .b32 d.toNat (Config.fpMad (fnegIf neg1 a.val) b c) a.reads

/-- FMAD32I (R213): the destination is also the addend. -/
def execFmad32i (d : BitVec 7) (s1 : BitVec 6) (neg1 : Bool) (imm : Word) (s : State) : Out :=
  execImm s noRanges fun t => do
    let a ← readGpr s.params t s1.toNat
    let c ← readGpr s.params t d.toNat
    putReg s.params t .b32 d.toNat (Config.fpMad (fnegIf neg1 a) imm c) []

/-- The value of F2F: exact for rounding 00; for 11 the parameter `FP` decides (R214). DESIGN CHOICE,
notes/assumptions/26.md. -/
def f2fValue (rm : Rm) (v : Word) : Word :=
  match rm with
  | .nearest => v
  | .zero => Config.fpF2f .zero v

/-- F2F (R214): the absolute value is taken before the negation (R202). -/
def execF2f (ctl : Ctl) (d : Dst) (set : PredSet) (s1 : BitVec 7) (rm : Rm) (abs neg : Bool) (s : State) : Out :=
  execLong s ctl noRanges fun t => do
    let a ← readGpr s.params t s1.toNat
    putResult s.params t .b32 d set (f2fValue rm (fnegIf neg (fabsIf abs a))) false false []

/-- The magnitude of the binary32 number in a word is `f32Num / f32Den`, where its exponent field is not 255
(R12: sign bit 31, exponent 30:23, fraction 22:0). PRESUMED, notes/assumptions/47.md. -/
def f32Num (a : Word) : Nat :=
  let e := (a.extractLsb' 23 8).toNat
  let f := (a.extractLsb' 0 23).toNat
  (if e = 0 then f else 2 ^ 23 + f) * 2 ^ (e - 150)

/-- See `f32Num`. -/
def f32Den (a : Word) : Nat :=
  2 ^ (150 - max (a.extractLsb' 23 8).toNat 1)

/-- A NaN or an infinity (R12). -/
def f32Special (a : Word) : Bool :=
  a.extractLsb' 23 8 == 255#8

/-- Whether the magnitude n / d, negative where `neg`, lies in a destination of `bits` bits; a negative value lies
in no unsigned one (R215). -/
def f2iInRange (signed neg : Bool) (bits n d : Nat) : Bool :=
  match signed, neg with
  | true, true => decide (n ≤ 2 ^ (bits - 1) * d)
  | true, false => decide (n ≤ (2 ^ (bits - 1) - 1) * d)
  | false, true => decide (n = 0)
  | false, false => decide (n ≤ (2 ^ bits - 1) * d)

/-- The integer to which the magnitude n / d is rounded: toward zero, or to a nearest one, away from zero on a tie
where `tieAway` (R201, R215). DEDUCED for `nearest`, notes/assumptions/47.md. -/
def roundMagnitude (rm : Rm) (tieAway : Bool) (n d : Nat) : Nat :=
  let away := match rm with
    | .zero => false
    | .nearest => decide (d < 2 * (n % d)) || (decide (2 * (n % d) = d) && tieAway)
  n / d + away.toNat

/-- `FP.f2i` (R215): inside the destination's range the value rounded to an integer in the stated direction;
elsewhere the instance decides (D31). -/
def f2iValue (rm : Rm) (signed : Bool) (bits : Nat) (a : Word) : Word :=
  if !f32Special a && f2iInRange signed a.msb bits (f32Num a) (f32Den a) then
    let q := BitVec.ofNat 32 (roundMagnitude rm (Config.fpF2iTie signed bits a) (f32Num a) (f32Den a))
    if a.msb then -q else q
  else Config.fpF2i rm signed bits a

/-- F2I (R215). -/
def execF2i (ctl : Ctl) (d : Dst) (set : PredSet) (s1 : BitVec 7) (rm : Rm) (sg : Bool) (s : State) : Out :=
  execLong s ctl noRanges fun t => do
    let a ← readGpr s.params t s1.toNat
    putResult s.params t .b32 d set (f2iValue rm sg 32 a) false false []

/-- `FP.i2f` (R216): an integer that binary32 holds is delivered exactly; toward zero any other is cut to 24 bits,
and with `nearest` its rounding is the instance's. The word's fields are added as numbers, so that a significand
rounded up to 2^24 carries into the exponent. DEDUCED in part, notes/assumptions/47.md. -/
def i2fValue (rm : Rm) (signed : Bool) (x : Int) : Word :=
  let m := x.natAbs
  if m = 0 then 0#32
  else
    let l := m.log2
    let n := m * 2 ^ (23 - l)
    let d := 2 ^ (l - 23)
    let away := decide (rm = .nearest) && decide (n % d ≠ 0) && Config.fpI2fAway signed x
    BitVec.ofNat 32 ((if x < 0 then 2 ^ 31 else 0) + (l + 126) * 2 ^ 23 + (n / d + away.toNat))

/-- I2F (R216). -/
def execI2f (ctl : Ctl) (d : Dst) (set : PredSet) (s1 : BitVec 7) (rm : Rm) (signed : Bool) (s : State) : Out :=
  execLong s ctl noRanges fun t => do
    let a ← readGpr s.params t s1.toNat
    putResult s.params t .b32 d set (i2fValue rm signed (if signed then a.toInt else (a.toNat : Int)))
      false false []

/-- FSET (R217). -/
def execFset (ctl : Ctl) (d : Dst) (set : PredSet) (s1 : BitVec 7) (s2 : SrcB) (cmp : CmpSet) (abs : Bool)
    (s : State) : Out :=
  s.unless (srcSegProblem s.params s2) <| execLong s ctl noRanges fun t => do
    let a ← readGpr s.params t s1.toNat
    let b ← readSrcB s t .b32 s2
    putResult s.params t .b32 d set (maskOf 32 (cmpHolds cmp (Config.fpCmp (fabsIf abs a) b))) false false []

/-- RCP (R218). -/
def execRcp (ctl : Ctl) (d : Dst) (set : PredSet) (s1 : BitVec 7) (s : State) : Out :=
  execLong s ctl noRanges fun t => do
    let a ← readGpr s.params t s1.toNat
    putResult s.params t .b32 d set (Config.fpRcp a) false false []

/-- RCP32 (R219). -/
def execRcp32 (d : BitVec 7) (s1 : BitVec 6) (s : State) : Out :=
  execShort s noRanges fun t => do
    let a ← readGpr s.params t s1.toNat
    putReg s.params t .b32 d.toNat (Config.fpRcp a) []

end Sys2Proof.Machine
end

