-- ==== Sys2Proof/Machine/Integer.lean ====
section
/-!
DEFINITION. The integer arithmetic and logic instructions (R150 to R179).
-/
namespace Sys2Proof.Machine

/-- I2I (R154): extend by the source type, negate, truncate to the destination. -/
def execI2i (ctl : Ctl) (d : Dst) (set : PredSet) (s1 : Src1) (ty : CvtTy) (sz : Size) (_sg neg : Bool)
    (s : State) : Out :=
  s.unless (s1.cvtProblem ty) <| execLong s ctl (src1Ranges s s1) fun t => do
    let x ← readCvt s t s1 ty
    putResult s.params t sz d set ((negIf neg x.val).setWidth sz.bits) false false x.reads

/-- IMUL (R157). -/
def execImul (ctl : Ctl) (d : Dst) (set : PredSet) (s1 : Src1) (s2 : BitVec 7) (s : State) : Out :=
  execLong s ctl (src1Ranges s s1) fun t => do
    let a ← readSrc1 s t .b16 s1
    let b ← readHalf s.params t s2.toNat
    putResult s.params t .b32 d set (mulU a.val b) false false a.reads

/-- IMUL with `w[28] = 1` (R158): refused unless the launch takes `MUL24`, which then says what is delivered.
PRESUMED, notes/assumptions/14.md. -/
def execImul24 (ctl : Ctl) (d : Dst) (set : PredSet) (s1 : Src1) (s2 : BitVec 7) (s : State) : Out :=
  s.unless (if s.params.mul24 then none else some .mul24Absent) <| execLong s ctl (src1Ranges s s1) fun t => do
    let a ← readSrc1 s t .b32 s1
    let b ← readGpr s.params t s2.toNat
    putResult s.params t .b32 d set (Config.mul24 a.val b) false false a.reads

/-- IMUL32 (R159): 16-bit halves, or with `w[22] = 1` whole registers and the parameter `MUL24`. -/
def execImul32 (d : BitVec 6) (s1 : SrcS) (s2 : BitVec 6) (u24 : Bool) (s : State) : Out :=
  if u24 then
    s.unless (if s.params.mul24 then none else some .mul24Absent) <| execShort s (srcSRanges s s1) fun t => do
      let a ← readSrcS s t .b32 s1
      let b ← readGpr s.params t s2.toNat
      putReg s.params t .b32 d.toNat (Config.mul24 a.val b) a.reads
  else
    execShort s (srcSRanges s s1) fun t => do
      let a ← readSrcS s t .b16 s1
      let b ← readHalf s.params t s2.toNat
      putReg s.params t .b32 d.toNat (mulU a.val b) a.reads

/-- IMUL32I (R160): the low 16 bits of the immediate. DESIGN CHOICE, notes/assumptions/24.md. -/
def execImul32i (signed : Bool) (d s1 : BitVec 6) (imm : Word) (s : State) : Out :=
  execImm s noRanges fun t => do
    let a ← readHalf s.params t s1.toNat
    putReg s.params t .b32 d.toNat (mulBy signed a (imm.setWidth 16)) []

/-- SHL (R162); the sign flag has no effect on a left shift. DESIGN CHOICE for a shared source,
notes/assumptions/29.md. -/
def execShl (ctl : Ctl) (d : BitVec 7) (s1 : Src1) (amt : Amount) (sz : Size) (_sg : Bool) (s : State) : Out :=
  s.unless (amt.problem sz) <| execLong s ctl (src1Ranges s s1) fun t => do
    let x ← readSrc1 s t sz s1
    let m ← readAmount s t amt
    putReg s.params t sz d.toNat (shiftLeft x.val m) x.reads

/-- SHR (R163). DESIGN CHOICE for a shared source, notes/assumptions/29.md. -/
def execShr (ctl : Ctl) (d : BitVec 7) (s1 : Src1) (amt : Amount) (sz : Size) (sg : Bool) (s : State) : Out :=
  s.unless (amt.problem sz) <| execLong s ctl (src1Ranges s s1) fun t => do
    let x ← readSrc1 s t sz s1
    let m ← readAmount s t amt
    putReg s.params t sz d.toNat (shiftRight sg x.val m) x.reads

/-- IADD (R166): `w[59] = 1` adds the complement with a carry in, which is a - b. DESIGN CHOICE,
notes/assumptions/20.md. -/
def execIadd (ctl : Ctl) (d : Dst) (set : PredSet) (s1 : Src1) (s3 : SrcB) (sz : Size) (neg2 : Bool)
    (s : State) : Out :=
  s.unless (srcSegProblem s.params s3) <| execLong s ctl (src1Ranges s s1) fun t => do
    let a ← readSrc1 s t sz s1
    let b ← readSrcB s t sz s3
    let r := addN a.val (notIf neg2 b) neg2
    putResult s.params t sz d set r.val r.carry r.overflow a.reads

/-- IADD.CARRYn (R167): the carry in is the C flag of `C[pr]`; every active lane executes it. -/
def execIaddc (mk : Marker) (pr : BitVec 2) (d : Dst) (set : PredSet) (s1 : Src1) (s3 : SrcB) (sz : Size)
    (s : State) : Out :=
  s.unless (srcSegProblem s.params s3) <| execLong s ⟨mk, ⟨.always, pr⟩⟩ (src1Ranges s s1) fun t => do
    let a ← readSrc1 s t sz s1
    let b ← readSrcB s t sz s3
    let f ← readPred t pr
    let r := addN a.val b f.c
    putResult s.params t sz d set r.val r.carry r.overflow a.reads

/-- IADD32 (R168), with the 16-bit form of `w[15] = 0`. DESIGN CHOICE, notes/assumptions/23.md. -/
def execIadd32 (d : BitVec 7) (s1 : SrcS) (s2 : BitVec 6) (sz : Size) (s : State) : Out :=
  execShort s (srcSRanges s s1) fun t => do
    let a ← readSrcS s t sz s1
    let b ← readReg s.params t sz s2.toNat
    putReg s.params t sz d.toNat (a.val + b) a.reads

/-- IADD32I (R169). -/
def execIadd32i (d : BitVec 7) (s1 : SrcS) (imm : Word) (s : State) : Out :=
  execImm s (srcSRanges s s1) fun t => do
    let a ← readSrcS s t .b32 s1
    putReg s.params t .b32 d.toNat (a.val + imm) a.reads

/-- IMAD (R171): the flags take the carry of the final addition, and O = 0. DESIGN CHOICE for a negation,
notes/assumptions/21.md. -/
def execImad (ctl : Ctl) (d : Dst) (set : PredSet) (s1 : Src1) (s2 : SrcB) (s3 : BitVec 7) (neg1 neg3 : Bool)
    (s : State) : Out :=
  s.unless (srcSegProblem s.params s2) <| execLong s ctl (src1Ranges s s1) fun t => do
    let a ← readSrc1 s t .b16 s1
    let b ← readSrcB s t .b16 s2
    let c ← readGpr s.params t s3.toNat
    let r := addN (negIf neg1 (mulU a.val b)) (negIf neg3 c) false
    putResult s.params t .b32 d set r.val r.carry false a.reads

/-- IMAD with `w[28] = 1` (R172): refused unless the launch takes `MUL24`, which then says what is delivered. A
constant source 2 is a 4-byte element at `off * 4`, which R56 and R99 do not say of this form. PRESUMED,
notes/assumptions/14.md. -/
def execImad24 (ctl : Ctl) (d : Dst) (set : PredSet) (s1 : Src1) (s2 : SrcB) (s3 : BitVec 7) (s : State) : Out :=
  s.unless (if s.params.mul24 then srcSegProblem s.params s2 else some .mul24Absent) <|
    execLong s ctl (src1Ranges s s1) fun t => do
      let a ← readSrc1 s t .b32 s1
      let b ← readSrcB s t .b32 s2
      let c ← readGpr s.params t s3.toNat
      putResult s.params t .b32 d set (Config.mad24 a.val b c) false false a.reads

/-- IMAD32 (R173): the destination is also the addend. -/
def execImad32 (d s1 s2 : BitVec 6) (s : State) : Out :=
  execShort s noRanges fun t => do
    let a ← readHalf s.params t (imad32Field s.params s1)
    let b ← readHalf s.params t (imad32Field s.params s2)
    let c ← readGpr s.params t d.toNat
    putReg s.params t .b32 d.toNat (mulU a b + c) []

/-- IMAD32I (R174): the low 16 bits of the immediate; the destination is also the addend. DESIGN CHOICE,
notes/assumptions/24.md. -/
def execImad32i (signed : Bool) (d s1 : BitVec 6) (imm : Word) (s : State) : Out :=
  execImm s noRanges fun t => do
    let a ← readHalf s.params t (imad32Field s.params s1)
    let c ← readGpr s.params t d.toNat
    putReg s.params t .b32 d.toNat (mulBy signed a (imm.setWidth 16) + c) []

/-- Source 1 of LOP, which PASS_B does not read (R176). -/
def readLopSrc1 (s : State) (t : Thread) (sz : Size) (op : LogicOp) (s1 : Src1) : Except Cause (Val sz.bits) :=
  if op = .passB then .ok ⟨0#_, []⟩ else readSrc1 s t sz s1

/-- The ranges that source 1 of LOP reads. -/
def lopRanges (s : State) (op : LogicOp) (s1 : Src1) (t : Thread) : List Range :=
  if op = .passB then [] else src1Ranges s s1 t

/-- LOP (R176); PASS_B does not read source 1, and the sign flag has no effect. DESIGN CHOICE for `inv1`,
notes/assumptions/22.md. -/
def execLop (ctl : Ctl) (d : Dst) (set : PredSet) (s1 : Src1) (s2 : SrcB) (op : LogicOp) (inv1 inv2 : Bool)
    (sz : Size) (_sg : Bool) (s : State) : Out :=
  s.unless (srcSegProblem s.params s2) <| execLong s ctl (lopRanges s op s1) fun t => do
    let a ← readLopSrc1 s t sz op s1
    let b ← readSrcB s t sz s2
    putResult s.params t sz d set (logicOp op (notIf inv1 a.val) (notIf inv2 b)) false false a.reads

/-- ISET (R178): all ones where the comparison holds, else 0. -/
def execIset (ctl : Ctl) (d : Dst) (set : PredSet) (s1 : Src1) (s2 : SrcB) (cmp : CmpSet) (sz : Size) (sg : Bool)
    (s : State) : Out :=
  s.unless (srcSegProblem s.params s2) <| execLong s ctl (src1Ranges s s1) fun t => do
    let a ← readSrc1 s t sz s1
    let b ← readSrcB s t sz s2
    putResult s.params t sz d set (maskOf sz.bits (cmpHolds cmp (intRel sg a.val b))) false false a.reads

end Sys2Proof.Machine
end

