-- ==== Sys2Proof/Machine/Sfu.lean ====
section
/-!
DEFINITION. The special function unit (R230 to R238), over the numeric parameter `SFU` of Config: a launch that
does not take it refuses all six instructions.
-/
namespace Sys2Proof.Machine

/-- The common shape of the six (R237): one register in, `f` applied, destination and predicate written. -/
def execSfu (ctl : Ctl) (d : Dst) (set : PredSet) (s1 : BitVec 7) (f : Word → Word) (s : State) : Out :=
  s.unless (if s.params.sfu then none else some .sfuAbsent) <| execLong s ctl noRanges fun t => do
    let a ← readGpr s.params t s1.toNat
    putResult s.params t .b32 d set (f a) false false []

/-- RSQ (R236). -/
def execRsq (ctl : Ctl) (d : Dst) (set : PredSet) (s1 : BitVec 7) (s : State) : Out :=
  execSfu ctl d set s1 Config.sfuRsq s

/-- LG2 (R234). -/
def execLg2 (ctl : Ctl) (d : Dst) (set : PredSet) (s1 : BitVec 7) (s : State) : Out :=
  execSfu ctl d set s1 Config.sfuLg2 s

/-- SIN (R231). -/
def execSin (ctl : Ctl) (d : Dst) (set : PredSet) (s1 : BitVec 7) (s : State) : Out :=
  execSfu ctl d set s1 Config.sfuSin s

/-- COS (R232). -/
def execCos (ctl : Ctl) (d : Dst) (set : PredSet) (s1 : BitVec 7) (s : State) : Out :=
  execSfu ctl d set s1 Config.sfuCos s

/-- EX2 (R235). -/
def execEx2 (ctl : Ctl) (d : Dst) (set : PredSet) (s1 : BitVec 7) (s : State) : Out :=
  execSfu ctl d set s1 Config.sfuEx2 s

/-- RRO (R233). -/
def execRro (ctl : Ctl) (d : Dst) (set : PredSet) (s1 : BitVec 7) (method : RroMethod) (s : State) : Out :=
  execSfu ctl d set s1 (Config.sfuRro method) s

end Sys2Proof.Machine
end

