-- ==== Sys2Proof/Machine/Dispatch.lean ====
section
/-!
DEFINITION. The dispatch of an instruction to its meaning, one arm per constructor.
-/
namespace Sys2Proof.Machine

def exec (i : Instr) (s : State) : Host.Outcome State Fault Refusal :=
  match i with
  | .bra tgt g => Sys2Proof.Machine.execBra tgt g s
  | .cal tgt => Sys2Proof.Machine.execCal tgt s
  | .ret g => Sys2Proof.Machine.execRet g s
  | .bar => Sys2Proof.Machine.execBar s
  | .trap => Sys2Proof.Machine.execTrap s
  | .ssy tgt cc pr => Sys2Proof.Machine.execSsy tgt cc pr s
  | .nop mk => Sys2Proof.Machine.execNop mk s
  | .i2i ctl d set s1 t sz sg neg => Sys2Proof.Machine.execI2i ctl d set s1 t sz sg neg s
  | .imul ctl d set s1 s2 => Sys2Proof.Machine.execImul ctl d set s1 s2 s
  | .imul24 ctl d set s1 s2 => Sys2Proof.Machine.execImul24 ctl d set s1 s2 s
  | .imul32 d s1 s2 u24 => Sys2Proof.Machine.execImul32 d s1 s2 u24 s
  | .imul32i signed d s1 imm => Sys2Proof.Machine.execImul32i signed d s1 imm s
  | .shl ctl d s1 amt sz sg => Sys2Proof.Machine.execShl ctl d s1 amt sz sg s
  | .shr ctl d s1 amt sz sg => Sys2Proof.Machine.execShr ctl d s1 amt sz sg s
  | .iadd ctl d set s1 s3 sz neg2 => Sys2Proof.Machine.execIadd ctl d set s1 s3 sz neg2 s
  | .iaddc mk pr d set s1 s3 sz => Sys2Proof.Machine.execIaddc mk pr d set s1 s3 sz s
  | .iadd32 d s1 s2 sz => Sys2Proof.Machine.execIadd32 d s1 s2 sz s
  | .iadd32i d s1 imm => Sys2Proof.Machine.execIadd32i d s1 imm s
  | .imad ctl d set s1 s2 s3 neg1 neg3 => Sys2Proof.Machine.execImad ctl d set s1 s2 s3 neg1 neg3 s
  | .imad24 ctl d set s1 s2 s3 => Sys2Proof.Machine.execImad24 ctl d set s1 s2 s3 s
  | .imad32 d s1 s2 => Sys2Proof.Machine.execImad32 d s1 s2 s
  | .imad32i signed d s1 imm => Sys2Proof.Machine.execImad32i signed d s1 imm s
  | .lop ctl d set s1 s2 op inv1 inv2 sz sg => Sys2Proof.Machine.execLop ctl d set s1 s2 op inv1 inv2 sz sg s
  | .iset ctl d set s1 s2 cmp sz sg => Sys2Proof.Machine.execIset ctl d set s1 s2 cmp sz sg s
  | .mvc ctl d set seg off a width sz sg => Sys2Proof.Machine.execMvc ctl d set seg off a width sz sg s
  | .gld ctl d areg ty => Sys2Proof.Machine.execGld ctl d areg ty s
  | .gst ctl dreg areg ty => Sys2Proof.Machine.execGst ctl dreg areg ty s
  | .mov ctl d s1 sz sg => Sys2Proof.Machine.execMov ctl d s1 sz sg s
  | .mov32 d s1 sz => Sys2Proof.Machine.execMov32 d s1 sz s
  | .mvi d imm => Sys2Proof.Machine.execMvi d imm s
  | .r2g ctl off a s3 sz sg => Sys2Proof.Machine.execR2g ctl off a s3 sz sg s
  | .r2a ctl da s1 imm => Sys2Proof.Machine.execR2a ctl da s1 imm s
  | .a2r ctl d a imm => Sys2Proof.Machine.execA2r ctl d a imm s
  | .ada ctl da a imm => Sys2Proof.Machine.execAda ctl da a imm s
  | .fadd32 d s1 s2 neg1 neg2 => Sys2Proof.Machine.execFadd32 d s1 s2 neg1 neg2 s
  | .fadd ctl d set s1 s3 rm neg1 neg2 => Sys2Proof.Machine.execFadd ctl d set s1 s3 rm neg1 neg2 s
  | .fadd32i d s1 imm => Sys2Proof.Machine.execFadd32i d s1 imm s
  | .fmul ctl d set s1 s2 rm neg1 neg2 => Sys2Proof.Machine.execFmul ctl d set s1 s2 rm neg1 neg2 s
  | .fmul32 d s1 s2 neg1 neg2 => Sys2Proof.Machine.execFmul32 d s1 s2 neg1 neg2 s
  | .fmul32i d s1 imm => Sys2Proof.Machine.execFmul32i d s1 imm s
  | .fmad ctl d set s1 s2 s3 neg1 neg3 => Sys2Proof.Machine.execFmad ctl d set s1 s2 s3 neg1 neg3 s
  | .fmad32 d s1 s2 neg1 => Sys2Proof.Machine.execFmad32 d s1 s2 neg1 s
  | .fmad32i d s1 neg1 imm => Sys2Proof.Machine.execFmad32i d s1 neg1 imm s
  | .f2f ctl d set s1 rm abs neg => Sys2Proof.Machine.execF2f ctl d set s1 rm abs neg s
  | .f2i ctl d set s1 rm sg => Sys2Proof.Machine.execF2i ctl d set s1 rm sg s
  | .i2f ctl d set s1 rm signed => Sys2Proof.Machine.execI2f ctl d set s1 rm signed s
  | .fset ctl d set s1 s2 cmp abs => Sys2Proof.Machine.execFset ctl d set s1 s2 cmp abs s
  | .rcp ctl d set s1 => Sys2Proof.Machine.execRcp ctl d set s1 s
  | .rcp32 d s1 => Sys2Proof.Machine.execRcp32 d s1 s
  | .rsq ctl d set s1 => Sys2Proof.Machine.execRsq ctl d set s1 s
  | .lg2 ctl d set s1 => Sys2Proof.Machine.execLg2 ctl d set s1 s
  | .sin ctl d set s1 => Sys2Proof.Machine.execSin ctl d set s1 s
  | .cos ctl d set s1 => Sys2Proof.Machine.execCos ctl d set s1 s
  | .ex2 ctl d set s1 => Sys2Proof.Machine.execEx2 ctl d set s1 s
  | .rro ctl d set s1 method => Sys2Proof.Machine.execRro ctl d set s1 method s

end Sys2Proof.Machine
end

