-- ==== Sys2Proof/Decode.lean ====
section
/-!
DEFINITION. The decoder and the encoder. The four bit layouts (R83, R86, R87, R88) are records of raw fields;
an instruction is read from such a record (R110, R111) and written into one. Decoding is total: what the spec
does not define is rejected by name (R119 to R122).
-/
namespace Sys2Proof

/-! ### The raw layouts -/

/-- Format L, the fields of R83 from bit 0 upward. -/
structure RawL where
  lng : BitVec 1
  flow : BitVec 1
  d : BitVec 7
  s1 : BitVec 7
  s2 : BitVec 7
  c2 : BitVec 1
  c3 : BitVec 1
  x25 : BitVec 1
  alo : BitVec 2
  op : BitVec 4
  marker : BitVec 2
  ahi : BitVec 1
  od : BitVec 1
  ps : BitVec 2
  pe : BitVec 1
  cc : BitVec 5
  pr : BitVec 2
  s3 : BitVec 7
  sh : BitVec 1
  seg : BitVec 4
  sz : BitVec 1
  sg : BitVec 1
  x60 : BitVec 1
  sub : BitVec 3
  deriving DecidableEq, Repr

/-- Format S, the fields of R86 from bit 0 upward. -/
structure RawS where
  lng : BitVec 1
  flow : BitVec 1
  d : BitVec 7
  s1 : BitVec 6
  b15 : BitVec 1
  s2 : BitVec 6
  b22 : BitVec 1
  b23 : BitVec 1
  sh : BitVec 1
  x25 : BitVec 1
  alo : BitVec 2
  op : BitVec 4
  deriving DecidableEq, Repr

/-- Format I, the fields of R87 from bit 0 upward. -/
structure RawI where
  lng : BitVec 1
  flow : BitVec 1
  d : BitVec 7
  s1 : BitVec 6
  b15 : BitVec 1
  ilo : BitVec 6
  x22 : BitVec 2
  sh : BitVec 1
  x25 : BitVec 3
  op : BitVec 4
  marker : BitVec 2
  ihi : BitVec 26
  x60 : BitVec 1
  sub : BitVec 3
  deriving DecidableEq, Repr

/-- Format F, the fields of R88 from bit 0 upward. -/
structure RawF where
  lng : BitVec 1
  flow : BitVec 1
  low : BitVec 7
  tgt : BitVec 18
  b27 : BitVec 1
  op : BitVec 4
  marker : BitVec 2
  x34 : BitVec 4
  b38 : BitVec 1
  cc : BitVec 5
  pr : BitVec 2
  thi : BitVec 6
  hi : BitVec 12
  deriving DecidableEq, Repr

/-- The fields of a format-L word. -/
def RawL.ofWord (w : Long) : RawL where
  lng := w.extractLsb' 0 1
  flow := w.extractLsb' 1 1
  d := w.extractLsb' 2 7
  s1 := w.extractLsb' 9 7
  s2 := w.extractLsb' 16 7
  c2 := w.extractLsb' 23 1
  c3 := w.extractLsb' 24 1
  x25 := w.extractLsb' 25 1
  alo := w.extractLsb' 26 2
  op := w.extractLsb' 28 4
  marker := w.extractLsb' 32 2
  ahi := w.extractLsb' 34 1
  od := w.extractLsb' 35 1
  ps := w.extractLsb' 36 2
  pe := w.extractLsb' 38 1
  cc := w.extractLsb' 39 5
  pr := w.extractLsb' 44 2
  s3 := w.extractLsb' 46 7
  sh := w.extractLsb' 53 1
  seg := w.extractLsb' 54 4
  sz := w.extractLsb' 58 1
  sg := w.extractLsb' 59 1
  x60 := w.extractLsb' 60 1
  sub := w.extractLsb' 61 3

/-- The format-L word of a record of fields. -/
def RawL.toWord (r : RawL) : Long :=
  r.sub ++ r.x60 ++ r.sg ++ r.sz ++ r.seg ++ r.sh ++ r.s3 ++ r.pr ++ r.cc ++ r.pe ++ r.ps ++ r.od ++ r.ahi ++
    r.marker ++ r.op ++ r.alo ++ r.x25 ++ r.c3 ++ r.c2 ++ r.s2 ++ r.s1 ++ r.d ++ r.flow ++ r.lng

/-- The fields of a format-S word. -/
def RawS.ofWord (w : Word) : RawS where
  lng := w.extractLsb' 0 1
  flow := w.extractLsb' 1 1
  d := w.extractLsb' 2 7
  s1 := w.extractLsb' 9 6
  b15 := w.extractLsb' 15 1
  s2 := w.extractLsb' 16 6
  b22 := w.extractLsb' 22 1
  b23 := w.extractLsb' 23 1
  sh := w.extractLsb' 24 1
  x25 := w.extractLsb' 25 1
  alo := w.extractLsb' 26 2
  op := w.extractLsb' 28 4

/-- The format-S word of a record of fields. -/
def RawS.toWord (r : RawS) : Word :=
  r.op ++ r.alo ++ r.x25 ++ r.sh ++ r.b23 ++ r.b22 ++ r.s2 ++ r.b15 ++ r.s1 ++ r.d ++ r.flow ++ r.lng

/-- The fields of a format-I word. -/
def RawI.ofWord (w : Long) : RawI where
  lng := w.extractLsb' 0 1
  flow := w.extractLsb' 1 1
  d := w.extractLsb' 2 7
  s1 := w.extractLsb' 9 6
  b15 := w.extractLsb' 15 1
  ilo := w.extractLsb' 16 6
  x22 := w.extractLsb' 22 2
  sh := w.extractLsb' 24 1
  x25 := w.extractLsb' 25 3
  op := w.extractLsb' 28 4
  marker := w.extractLsb' 32 2
  ihi := w.extractLsb' 34 26
  x60 := w.extractLsb' 60 1
  sub := w.extractLsb' 61 3

/-- The format-I word of a record of fields. -/
def RawI.toWord (r : RawI) : Long :=
  r.sub ++ r.x60 ++ r.ihi ++ r.marker ++ r.op ++ r.x25 ++ r.sh ++ r.x22 ++ r.ilo ++ r.b15 ++ r.s1 ++ r.d ++ r.flow ++
    r.lng

/-- The fields of a format-F word. -/
def RawF.ofWord (w : Long) : RawF where
  lng := w.extractLsb' 0 1
  flow := w.extractLsb' 1 1
  low := w.extractLsb' 2 7
  tgt := w.extractLsb' 9 18
  b27 := w.extractLsb' 27 1
  op := w.extractLsb' 28 4
  marker := w.extractLsb' 32 2
  x34 := w.extractLsb' 34 4
  b38 := w.extractLsb' 38 1
  cc := w.extractLsb' 39 5
  pr := w.extractLsb' 44 2
  thi := w.extractLsb' 46 6
  hi := w.extractLsb' 52 12

/-- The format-F word of a record of fields. -/
def RawF.toWord (r : RawF) : Long :=
  r.hi ++ r.thi ++ r.pr ++ r.cc ++ r.b38 ++ r.x34 ++ r.marker ++ r.op ++ r.b27 ++ r.tgt ++ r.low ++ r.flow ++ r.lng

/-! ### The small fields, each read and written -/

/-- A required value: the field must hold it (R120). -/
def need (b : Bool) (r : Reject) : Except Reject Unit :=
  if b then .ok () else .error r

/-- A one-bit field as a truth value. -/
abbrev flag (b : BitVec 1) : Bool := b == 1#1

/-- The truth value as a one-bit field. -/
abbrev bit (b : Bool) : BitVec 1 := BitVec.ofBool b

/-- R106. -/
def decCond (b : BitVec 5) : Except Reject Cond :=
  match b.toNat with
  | 0x00 => .ok .never
  | 0x01 => .ok .l
  | 0x02 => .ok .e
  | 0x03 => .ok .le
  | 0x04 => .ok .g
  | 0x05 => .ok .lg
  | 0x06 => .ok .ge
  | 0x07 => .ok .lge
  | 0x08 => .ok .u
  | 0x09 => .ok .lu
  | 0x0a => .ok .eu
  | 0x0b => .ok .leu
  | 0x0c => .ok .gu
  | 0x0d => .ok .lgu
  | 0x0e => .ok .geu
  | 0x0f => .ok .always
  | 0x10 => .ok .o
  | 0x11 => .ok .c
  | 0x12 => .ok .a
  | 0x13 => .ok .s
  | 0x1c => .ok .ns
  | 0x1d => .ok .na
  | 0x1e => .ok .nc
  | 0x1f => .ok .no
  | _ => .error .conditionCode

/-- R106. -/
def encCond : Cond → BitVec 5
  | .never => 0x00#5
  | .l => 0x01#5
  | .e => 0x02#5
  | .le => 0x03#5
  | .g => 0x04#5
  | .lg => 0x05#5
  | .ge => 0x06#5
  | .lge => 0x07#5
  | .u => 0x08#5
  | .lu => 0x09#5
  | .eu => 0x0a#5
  | .leu => 0x0b#5
  | .gu => 0x0c#5
  | .lgu => 0x0d#5
  | .geu => 0x0e#5
  | .always => 0x0f#5
  | .o => 0x10#5
  | .c => 0x11#5
  | .a => 0x12#5
  | .s => 0x13#5
  | .ns => 0x1c#5
  | .na => 0x1d#5
  | .nc => 0x1e#5
  | .no => 0x1f#5

/-- R85: code 11 selects format I and is no marker of a format-L word. -/
def decMarker (b : BitVec 2) : Except Reject Marker :=
  match b.toNat with
  | 0 => .ok .normal
  | 1 => .ok .exit
  | 2 => .ok .join
  | _ => .error .undefinedOpcode

/-- R85. -/
def encMarker : Marker → BitVec 2
  | .normal => 0#2
  | .exit => 1#2
  | .join => 2#2

/-- R98. -/
def decElemTy (b : BitVec 2) : ElemTy :=
  match b.toNat with
  | 0 => .u8
  | 1 => .u16
  | 2 => .s16
  | _ => .u32

/-- R98. -/
def encElemTy : ElemTy → BitVec 2
  | .u8 => 0#2
  | .u16 => 1#2
  | .s16 => 2#2
  | .u32 => 3#2

/-- R91. -/
def decSize (b : BitVec 1) : Size := if b = 1#1 then .b32 else .b16

/-- R91. -/
def encSize : Size → BitVec 1
  | .b16 => 0#1
  | .b32 => 1#1

/-- R104. -/
def decCvtTy (b : BitVec 3) : Except Reject CvtTy :=
  match b.toNat with
  | 0 => .ok .u16
  | 1 => .ok .u32
  | 2 => .ok .u8
  | 4 => .ok .s16
  | 5 => .ok .s32
  | 6 => .ok .s8
  | _ => .error .dataType

/-- R104. -/
def encCvtTy : CvtTy → BitVec 3
  | .u16 => 0#3
  | .u32 => 1#3
  | .u8 => 2#3
  | .s16 => 4#3
  | .s32 => 5#3
  | .s8 => 6#3

/-- R175. -/
def decLogicOp (b : BitVec 2) : LogicOp :=
  match b.toNat with
  | 0 => .and
  | 1 => .or
  | 2 => .xor
  | _ => .passB

/-- R175. -/
def encLogicOp : LogicOp → BitVec 2
  | .and => 0#2
  | .or => 1#2
  | .xor => 2#2
  | .passB => 3#2

/-- R177, R121: bit 4 of a comparison code must be 0. -/
def decCmp (b : BitVec 5) : Except Reject CmpSet :=
  if b.getLsbD 4 then .error .comparisonCode
  else .ok ⟨b.getLsbD 0, b.getLsbD 1, b.getLsbD 2, b.getLsbD 3⟩

/-- R177. -/
def encCmp (c : CmpSet) : BitVec 5 :=
  0#1 ++ bit c.unordered ++ bit c.greater ++ bit c.equal ++ bit c.less

/-- R201. -/
def decRm (b : BitVec 2) : Except Reject Rm :=
  match b.toNat with
  | 0 => .ok .nearest
  | 3 => .ok .zero
  | _ => .error .rounding

/-- R201. -/
def encRm : Rm → BitVec 2
  | .nearest => 0#2
  | .zero => 3#2

/-- R182. -/
def decGlobalTy (b : BitVec 3) : Except Reject GlobalTy :=
  match b.toNat with
  | 0 => .ok .u8
  | 1 => .ok .s8
  | 2 => .ok .u16
  | 3 => .ok .s16
  | 6 => .ok .u32
  | 7 => .ok .s32
  | _ => .error .accessSize

/-- R182. -/
def encGlobalTy : GlobalTy → BitVec 3
  | .u8 => 0#3
  | .s8 => 1#3
  | .u16 => 2#3
  | .s16 => 3#3
  | .u32 => 6#3
  | .s32 => 7#3

/-- R181. -/
def decWidth (b : BitVec 2) : Except Reject Width :=
  match b.toNat with
  | 0 => .ok .w8
  | 1 => .ok .w16
  | 3 => .ok .w32
  | _ => .error .accessSize

/-- R181. -/
def encWidth : Width → BitVec 2
  | .w8 => 0#2
  | .w16 => 1#2
  | .w32 => 3#2

/-- R233. -/
def decRroMethod (b : BitVec 2) : Except Reject RroMethod :=
  match b.toNat with
  | 0 => .ok .sin
  | 1 => .ok .ex2
  | _ => .error .rounding

/-- R233. -/
def encRroMethod : RroMethod → BitVec 2
  | .sin => 0#2
  | .ex2 => 1#2

/-! ### The operand groups of format L -/

/-- Marker and guard (R85, R105). -/
def RawL.ctl (r : RawL) : Except Reject Ctl := do
  let mk ← decMarker r.marker
  let cc ← decCond r.cc
  .ok ⟨mk, ⟨cc, r.pr⟩⟩

/-- Marker and guard (R85, R105). -/
def RawL.withCtl (r : RawL) (c : Ctl) : RawL :=
  { r with marker := encMarker c.marker, cc := encCond c.guard.cc, pr := c.guard.pr }

/-- The destination with its `od` bit (R90). -/
def RawL.dst (r : RawL) : Except Reject Dst :=
  if r.od = 1#1 then
    if r.d = 127#7 then .ok .discard else .error .discardPair
  else .ok (.reg r.d)

/-- The destination with its `od` bit (R90). -/
def RawL.withDst (r : RawL) : Dst → RawL
  | .reg d => { r with d := d, od := 0#1 }
  | .discard => { r with d := 127#7, od := 1#1 }

/-- The predicate-write fields (R107). -/
def RawL.set (r : RawL) : PredSet := ⟨flag r.pe, r.ps⟩

/-- The predicate-write fields (R107). -/
def RawL.withSet (r : RawL) (s : PredSet) : RawL := { r with pe := bit s.pe, ps := s.ps }

/-- Source 1 (R96, R98); the address-register bits are 0 when it is a register (R94). `w[34]` is bit 2 of the
address register in every format-L instruction with a shared operand (R94), IMAD too, whose layout calls it "Not
used (Address reg [2])" (R171). DESIGN CHOICE for IMAD, notes/assumptions/46.md. -/
def RawL.src1 (r : RawL) : Except Reject Src1 :=
  if r.sh = 1#1 then
    .ok (.shared (r.s1.extractLsb' 0 5) (decElemTy (r.s1.extractLsb' 5 2)) (r.ahi ++ r.alo))
  else if r.alo = 0#2 ∧ r.ahi = 0#1 then .ok (.reg r.s1)
  else .error .reservedBits

/-- Source 1 (R96, R98). -/
def RawL.withSrc1 (r : RawL) : Src1 → RawL
  | .reg k => { r with s1 := k, sh := 0#1 }
  | .shared off ty a =>
    { r with s1 := encElemTy ty ++ off, sh := 1#1, alo := a.extractLsb' 0 2, ahi := a.extractLsb' 2 1 }

/-- Source 1 where only a register is possible. -/
def RawL.reg1 (r : RawL) : Except Reject (BitVec 7) := do
  need (flag (~~~r.sh) && r.alo == 0#2 && r.ahi == 0#1) .reservedBits
  .ok r.s1

/-- Source 2 (R97). -/
def RawL.src2 (r : RawL) : SrcB :=
  if r.c2 = 1#1 then .const r.seg r.s2 else .reg r.s2

/-- Source 2 (R97). -/
def RawL.withSrc2 (r : RawL) : SrcB → RawL
  | .reg k => { r with s2 := k }
  | .const seg off => { r with s2 := off, c2 := 1#1, seg := seg }

/-- Source 3 (R101). -/
def RawL.src3 (r : RawL) : SrcB :=
  if r.c3 = 1#1 then .const r.seg r.s3 else .reg r.s3

/-- Source 3 (R101). -/
def RawL.withSrc3 (r : RawL) : SrcB → RawL
  | .reg k => { r with s3 := k }
  | .const seg off => { r with s3 := off, c3 := 1#1, seg := seg }

/-- What every format-L word but those of R95 must satisfy: `w[25]` and `w[60]` are 0 (R120), and the segment
field is 0 without a constant operand (R99). -/
def RawL.plain (r : RawL) : Except Reject Unit :=
  need (r.x25 == 0#1 && r.x60 == 0#1 && (r.seg == 0#4 || flag r.c2 || flag r.c3)) .reservedBits

/-- A word that names no constant operand, and leaves `seg` at 0. -/
def RawL.noConst (r : RawL) : Bool := r.c2 == 0#1 && r.c3 == 0#1

/-- The blank format-L word of an opcode and sub-opcode: `w[1:0] = 01`, every other field 0. -/
def RawL.blank (op : BitVec 4) (sub : BitVec 3) : RawL where
  lng := 1#1
  flow := 0#1
  d := 0#7
  s1 := 0#7
  s2 := 0#7
  c2 := 0#1
  c3 := 0#1
  x25 := 0#1
  alo := 0#2
  op := op
  marker := 0#2
  ahi := 0#1
  od := 0#1
  ps := 0#2
  pe := 0#1
  cc := 0#5
  pr := 0#2
  s3 := 0#7
  sh := 0#1
  seg := 0#4
  sz := 0#1
  sg := 0#1
  x60 := 0#1
  sub := sub

/-! ### Format L and A, one reader and one writer per instruction -/

/-- NOP (R137). -/
def decNop (r : RawL) : Except Reject Instr := do
  let mk ← decMarker r.marker
  need (r == { RawL.blank 0xF#4 7#3 with marker := r.marker }) .reservedBits
  .ok (.nop mk)

/-- NOP (R137). -/
def encNop (mk : Marker) : RawL := { RawL.blank 0xF#4 7#3 with marker := encMarker mk }

/-- I2I (R154): `w[61]` is the negate flag, the source type is `w[48:46]`. -/
def decI2i (r : RawL) : Except Reject Instr := do
  r.plain
  need (r.noConst && r.s2 == 0#7 && r.s3.extractLsb' 3 4 == 0#4) .reservedBits
  let ctl ← r.ctl
  let d ← r.dst
  let s1 ← r.src1
  let t ← decCvtTy (r.s3.extractLsb' 0 3)
  .ok (.i2i ctl d r.set s1 t (decSize r.sz) (flag r.sg) (r.sub.getLsbD 0))

/-- I2I (R154). -/
def encI2i (ctl : Ctl) (d : Dst) (set : PredSet) (s1 : Src1) (t : CvtTy) (sz : Size) (sg neg : Bool) : RawL :=
  { (((RawL.blank 0xA#4 (0#2 ++ bit neg)).withCtl ctl).withDst d |>.withSet set |>.withSrc1 s1) with
    s3 := 0#4 ++ encCvtTy t, sz := encSize sz, sg := bit sg }

/-- IMUL in its 16- or 24-bit form (R157, R158). -/
def decImulForm (mkInstr : Ctl → Dst → PredSet → Src1 → BitVec 7 → Instr) (r : RawL) : Except Reject Instr := do
  r.plain
  need (r.noConst && r.s3 == 0#7 && r.sz == 0#1 && r.sg == 0#1) .reservedBits
  let ctl ← r.ctl
  let d ← r.dst
  let s1 ← r.src1
  .ok (mkInstr ctl d r.set s1 r.s2)

/-- IMUL in its 16- or 24-bit form (R157, R158). -/
def encImulForm (op : BitVec 4) (ctl : Ctl) (d : Dst) (set : PredSet) (s1 : Src1) (s2 : BitVec 7) : RawL :=
  { (((RawL.blank op 0#3).withCtl ctl).withDst d |>.withSet set |>.withSrc1 s1) with s2 := s2 }

/-- SHL and SHR (R161): the immediate flag is `w[52]`, the amount `w[20:16]`. -/
def decShift (mkInstr : Ctl → BitVec 7 → Src1 → Amount → Size → Bool → Instr) (r : RawL) :
    Except Reject Instr := do
  r.plain
  need (r.noConst && r.od == 0#1 && r.pe == 0#1 && r.ps == 0#2 && r.s2.extractLsb' 5 2 == 0#2 &&
    r.s3.extractLsb' 0 6 == 0#6) .reservedBits
  let ctl ← r.ctl
  let s1 ← r.src1
  let m := r.s2.extractLsb' 0 5
  .ok (mkInstr ctl r.d s1 (if r.s3.getLsbD 6 then .imm m else .reg m) (decSize r.sz) (flag r.sg))

/-- SHL and SHR (R161). -/
def encShift (sub : BitVec 3) (ctl : Ctl) (d : BitVec 7) (s1 : Src1) (amt : Amount) (sz : Size) (sg : Bool) :
    RawL :=
  let base := { (((RawL.blank 0x3#4 sub).withCtl ctl).withSrc1 s1) with d := d, sz := encSize sz, sg := bit sg }
  match amt with
  | .imm m => { base with s2 := 0#2 ++ m, s3 := 1#1 ++ 0#6 }
  | .reg k => { base with s2 := 0#2 ++ k, s3 := 0#7 }

/-- IADD (R166): `w[22]`, the carry enable, is 0. -/
def decIadd (r : RawL) : Except Reject Instr := do
  r.plain
  need (r.c2 == 0#1 && r.s2 == 0#7) .reservedBits
  let ctl ← r.ctl
  let d ← r.dst
  let s1 ← r.src1
  .ok (.iadd ctl d r.set s1 r.src3 (decSize r.sz) (flag r.sg))

/-- IADD (R166). -/
def encIadd (ctl : Ctl) (d : Dst) (set : PredSet) (s1 : Src1) (s3 : SrcB) (sz : Size) (neg2 : Bool) : RawL :=
  { (((RawL.blank 0x2#4 0#3).withCtl ctl).withDst d |>.withSet set |>.withSrc1 s1 |>.withSrc3 s3) with
    sz := encSize sz, sg := bit neg2 }

/-- IADD.CARRYn (R167): `w[22] = 1`, the condition field holds 0x0f, `w[59] = 0`. -/
def decIaddc (r : RawL) : Except Reject Instr := do
  r.plain
  need (r.c2 == 0#1 && r.s2 == 0x40#7 && r.sg == 0#1 && r.cc == 0x0f#5) .reservedBits
  let mk ← decMarker r.marker
  let d ← r.dst
  let s1 ← r.src1
  .ok (.iaddc mk r.pr d r.set s1 r.src3 (decSize r.sz))

/-- IADD.CARRYn (R167). -/
def encIaddc (mk : Marker) (pr : BitVec 2) (d : Dst) (set : PredSet) (s1 : Src1) (s3 : SrcB) (sz : Size) : RawL :=
  { (((RawL.blank 0x3#4 0#3).withCtl ⟨mk, ⟨.always, pr⟩⟩).withDst d |>.withSet set |>.withSrc1 s1
      |>.withSrc3 s3) with s2 := 0x40#7, sz := encSize sz }

/-- IMAD (R171). DESIGN CHOICE for `w[34] = 1`, notes/assumptions/46.md. -/
def decImad (r : RawL) : Except Reject Instr := do
  r.plain
  need (r.c3 == 0#1) .reservedBits
  let ctl ← r.ctl
  let d ← r.dst
  let s1 ← r.src1
  .ok (.imad ctl d r.set s1 r.src2 r.s3 (flag r.sz) (flag r.sg))

/-- IMAD (R171). -/
def encImad (ctl : Ctl) (d : Dst) (set : PredSet) (s1 : Src1) (s2 : SrcB) (s3 : BitVec 7) (neg1 neg3 : Bool) :
    RawL :=
  { (((RawL.blank 0x6#4 0#3).withCtl ctl).withDst d |>.withSet set |>.withSrc1 s1 |>.withSrc2 s2) with
    s3 := s3, sz := bit neg1, sg := bit neg3 }

/-- IMAD with `w[28] = 1` (R172). DESIGN CHOICE for `w[34] = 1`, notes/assumptions/46.md. -/
def decImad24 (r : RawL) : Except Reject Instr := do
  r.plain
  need (r.c3 == 0#1 && r.sz == 0#1 && r.sg == 0#1) .reservedBits
  let ctl ← r.ctl
  let d ← r.dst
  let s1 ← r.src1
  .ok (.imad24 ctl d r.set s1 r.src2 r.s3)

/-- IMAD with `w[28] = 1` (R172). -/
def encImad24 (ctl : Ctl) (d : Dst) (set : PredSet) (s1 : Src1) (s2 : SrcB) (s3 : BitVec 7) : RawL :=
  { (((RawL.blank 0x7#4 0#3).withCtl ctl).withDst d |>.withSet set |>.withSrc1 s1 |>.withSrc2 s2) with s3 := s3 }

/-- LOP (R176): the operation is `w[47:46]`, the inverts are `w[48]` and `w[49]`. -/
def decLop (r : RawL) : Except Reject Instr := do
  r.plain
  need (r.c3 == 0#1 && r.s3.extractLsb' 4 3 == 0#3) .reservedBits
  let ctl ← r.ctl
  let d ← r.dst
  let s1 ← r.src1
  .ok (.lop ctl d r.set s1 r.src2 (decLogicOp (r.s3.extractLsb' 0 2)) (r.s3.getLsbD 2) (r.s3.getLsbD 3)
    (decSize r.sz) (flag r.sg))

/-- LOP (R176). -/
def encLop (ctl : Ctl) (d : Dst) (set : PredSet) (s1 : Src1) (s2 : SrcB) (op : LogicOp) (inv1 inv2 : Bool)
    (sz : Size) (sg : Bool) : RawL :=
  { (((RawL.blank 0xD#4 0#3).withCtl ctl).withDst d |>.withSet set |>.withSrc1 s1 |>.withSrc2 s2) with
    s3 := 0#3 ++ bit inv2 ++ bit inv1 ++ encLogicOp op, sz := encSize sz, sg := bit sg }

/-- ISET (R178): the comparison is `w[50:46]`. -/
def decIset (r : RawL) : Except Reject Instr := do
  r.plain
  need (r.c3 == 0#1 && r.s3.extractLsb' 5 2 == 0#2) .reservedBits
  let ctl ← r.ctl
  let d ← r.dst
  let s1 ← r.src1
  let cmp ← decCmp (r.s3.extractLsb' 0 5)
  .ok (.iset ctl d r.set s1 r.src2 cmp (decSize r.sz) (flag r.sg))

/-- ISET (R178). -/
def encIset (ctl : Ctl) (d : Dst) (set : PredSet) (s1 : Src1) (s2 : SrcB) (cmp : CmpSet) (sz : Size) (sg : Bool) :
    RawL :=
  { (((RawL.blank 0x3#4 3#3).withCtl ctl).withDst d |>.withSet set |>.withSrc1 s1 |>.withSrc2 s2) with
    s3 := 0#2 ++ encCmp cmp, sz := encSize sz, sg := bit sg }

/-- MVC (R181): offset in `s1`, address register in the selector, source size `w[47:46]`. -/
def decMvc (r : RawL) : Except Reject Instr := do
  need (r.x25 == 0#1 && r.x60 == 0#1 && r.noConst && r.s2 == 0#7 && r.od == 0#1 && r.sh == 0#1 &&
    r.s3.extractLsb' 2 5 == 0#5) .reservedBits
  let ctl ← r.ctl
  let width ← decWidth (r.s3.extractLsb' 0 2)
  .ok (.mvc ctl r.d r.set r.seg r.s1 (r.ahi ++ r.alo) width (decSize r.sz) (flag r.sg))

/-- MVC (R181). -/
def encMvc (ctl : Ctl) (d : BitVec 7) (set : PredSet) (seg : BitVec 4) (off : BitVec 7) (a : BitVec 3)
    (width : Width) (sz : Size) (sg : Bool) : RawL :=
  { (((RawL.blank 0x1#4 1#3).withCtl ctl).withSet set) with
    d := d, s1 := off, alo := a.extractLsb' 0 2, ahi := a.extractLsb' 2 1, s3 := 0#5 ++ encWidth width,
    seg := seg, sz := encSize sz, sg := bit sg }

/-- GLD and GST (R182, R183): space 14, size `w[55:53]`. -/
def decGlobal (mkInstr : Ctl → BitVec 7 → BitVec 7 → GlobalTy → Instr) (r : RawL) : Except Reject Instr := do
  need (r.x25 == 0#1 && r.x60 == 0#1 && r.noConst && r.alo == 0#2 && r.ahi == 0#1 && r.s2 == 14#7 &&
    r.od == 0#1 && r.pe == 0#1 && r.ps == 0#2 && r.s3 == 0#7 && r.seg.extractLsb' 2 2 == 0#2 &&
    r.sz == 0#1 && r.sg == 0#1) .reservedBits
  let ctl ← r.ctl
  let ty ← decGlobalTy (r.seg.extractLsb' 0 2 ++ r.sh)
  .ok (mkInstr ctl r.d r.s1 ty)

/-- GLD and GST (R182, R183). -/
def encGlobal (sub : BitVec 3) (ctl : Ctl) (d areg : BitVec 7) (ty : GlobalTy) : RawL :=
  { ((RawL.blank 0xD#4 sub).withCtl ctl) with
    d := d, s1 := areg, s2 := 14#7, sh := (encGlobalTy ty).extractLsb' 0 1,
    seg := 0#2 ++ (encGlobalTy ty).extractLsb' 1 2 }

/-- MOV (R185): `w[49:46] = 1111`. -/
def decMov (r : RawL) : Except Reject Instr := do
  r.plain
  need (r.noConst && r.s2 == 0#7 && r.od == 0#1 && r.pe == 0#1 && r.ps == 0#2 && r.s3 == 0x0f#7) .reservedBits
  let ctl ← r.ctl
  let s1 ← r.src1
  .ok (.mov ctl r.d s1 (decSize r.sz) (flag r.sg))

/-- MOV (R185). -/
def encMov (ctl : Ctl) (d : BitVec 7) (s1 : Src1) (sz : Size) (sg : Bool) : RawL :=
  { (((RawL.blank 0x1#4 0#3).withCtl ctl).withSrc1 s1) with
    d := d, s3 := 0x0f#7, sz := encSize sz, sg := bit sg }

/-- R2G (R188): offset `w[22:9]`, size code `w[54:53]` agreeing with `w[58]`. -/
def decR2g (r : RawL) : Except Reject Instr := do
  need (r.x25 == 0#1 && r.x60 == 0#1 && r.noConst && r.d == 0#7 && r.od == 0#1 && r.pe == 0#1 && r.ps == 0#2 &&
    r.seg.extractLsb' 1 3 == 0#3) .reservedBits
  need (r.seg.extractLsb' 0 1 == 0#1 && r.sh == r.sz) .accessSize
  let ctl ← r.ctl
  .ok (.r2g ctl (r.s2 ++ r.s1) (r.ahi ++ r.alo) r.s3 (decSize r.sz) (flag r.sg))

/-- R2G (R188). -/
def encR2g (ctl : Ctl) (off : BitVec 14) (a : BitVec 3) (s3 : BitVec 7) (sz : Size) (sg : Bool) : RawL :=
  { ((RawL.blank 0x0#4 7#3).withCtl ctl) with
    s1 := off.extractLsb' 0 7, s2 := off.extractLsb' 7 7, alo := a.extractLsb' 0 2, ahi := a.extractLsb' 2 1,
    s3 := s3, sh := encSize sz, sz := encSize sz, sg := bit sg }

/-- The fields that R2A, A2R and ADA leave at 0: `w[38:34]` and `w[60:46]` (R196 to R198). -/
def RawL.addrPlain (r : RawL) : Bool :=
  r.ahi == 0#1 && r.od == 0#1 && r.ps == 0#2 && r.pe == 0#1 && r.s3 == 0#7 && r.sh == 0#1 && r.seg == 0#4 &&
    r.sz == 0#1 && r.sg == 0#1 && r.x60 == 0#1

/-- R2A (R196): immediate `w[27:16]`. -/
def decR2a (r : RawL) : Except Reject Instr := do
  need r.addrPlain .reservedBits
  let ctl ← r.ctl
  .ok (.r2a ctl r.d r.s1 (r.alo ++ r.x25 ++ r.c3 ++ r.c2 ++ r.s2))

/-- R2A (R196). -/
def encR2a (ctl : Ctl) (da s1 : BitVec 7) (imm : BitVec 12) : RawL :=
  { ((RawL.blank 0x0#4 6#3).withCtl ctl) with
    d := da, s1 := s1, s2 := imm.extractLsb' 0 7, c2 := imm.extractLsb' 7 1, c3 := imm.extractLsb' 8 1,
    x25 := imm.extractLsb' 9 1, alo := imm.extractLsb' 10 2 }

/-- A2R (R197): immediate `w[25:16]`, source address register `w[27:26]`. -/
def decA2r (r : RawL) : Except Reject Instr := do
  need (r.addrPlain && r.s1 == 0#7) .reservedBits
  let ctl ← r.ctl
  .ok (.a2r ctl r.d r.alo (r.x25 ++ r.c3 ++ r.c2 ++ r.s2))

/-- A2R (R197). -/
def encA2r (ctl : Ctl) (d : BitVec 7) (a : BitVec 2) (imm : BitVec 10) : RawL :=
  { ((RawL.blank 0x0#4 2#3).withCtl ctl) with
    d := d, alo := a, s2 := imm.extractLsb' 0 7, c2 := imm.extractLsb' 7 1, c3 := imm.extractLsb' 8 1,
    x25 := imm.extractLsb' 9 1 }

/-- ADA (R198): immediate `w[24:9]` with `w[24:23] = 0`, source address register `w[27:26]`. -/
def decAda (r : RawL) : Except Reject Instr := do
  need (r.addrPlain && r.noConst && r.x25 == 0#1) .reservedBits
  let ctl ← r.ctl
  .ok (.ada ctl r.d r.alo (r.s2 ++ r.s1))

/-- ADA (R198). -/
def encAda (ctl : Ctl) (da : BitVec 7) (a : BitVec 2) (imm : BitVec 14) : RawL :=
  { ((RawL.blank 0xD#4 1#3).withCtl ctl) with
    d := da, alo := a, s1 := imm.extractLsb' 0 7, s2 := imm.extractLsb' 7 7 }

/-- FADD (R206): rounding `w[17:16]`, second addend in the third field. -/
def decFadd (r : RawL) : Except Reject Instr := do
  r.plain
  need (r.c2 == 0#1 && r.s2.extractLsb' 2 5 == 0#5) .reservedBits
  let ctl ← r.ctl
  let d ← r.dst
  let s1 ← r.src1
  let rm ← decRm (r.s2.extractLsb' 0 2)
  .ok (.fadd ctl d r.set s1 r.src3 rm (flag r.sz) (flag r.sg))

/-- FADD (R206). -/
def encFadd (ctl : Ctl) (d : Dst) (set : PredSet) (s1 : Src1) (s3 : SrcB) (rm : Rm) (neg1 neg2 : Bool) : RawL :=
  { (((RawL.blank 0xB#4 0#3).withCtl ctl).withDst d |>.withSet set |>.withSrc1 s1 |>.withSrc3 s3) with
    s2 := 0#5 ++ encRm rm, sz := bit neg1, sg := bit neg2 }

/-- FMUL (R208): rounding `w[47:46]`. -/
def decFmul (r : RawL) : Except Reject Instr := do
  r.plain
  need (r.c3 == 0#1 && r.s3.extractLsb' 2 5 == 0#5) .reservedBits
  let ctl ← r.ctl
  let d ← r.dst
  let s1 ← r.src1
  let rm ← decRm (r.s3.extractLsb' 0 2)
  .ok (.fmul ctl d r.set s1 r.src2 rm (flag r.sz) (flag r.sg))

/-- FMUL (R208). -/
def encFmul (ctl : Ctl) (d : Dst) (set : PredSet) (s1 : Src1) (s2 : SrcB) (rm : Rm) (neg1 neg2 : Bool) : RawL :=
  { (((RawL.blank 0xC#4 0#3).withCtl ctl).withDst d |>.withSet set |>.withSrc1 s1 |>.withSrc2 s2) with
    s3 := 0#5 ++ encRm rm, sz := bit neg1, sg := bit neg2 }

/-- FMAD (R211): `c2` and `c3` both 1 is refused. -/
def decFmad (r : RawL) : Except Reject Instr := do
  r.plain
  need (!(flag r.c2 && flag r.c3)) .twoConstants
  let ctl ← r.ctl
  let d ← r.dst
  let s1 ← r.src1
  .ok (.fmad ctl d r.set s1 r.src2 r.src3 (flag r.sz) (flag r.sg))

/-- FMAD (R211). -/
def encFmad (ctl : Ctl) (d : Dst) (set : PredSet) (s1 : Src1) (s2 s3 : SrcB) (neg1 neg3 : Bool) : RawL :=
  { (((RawL.blank 0xE#4 0#3).withCtl ctl).withDst d |>.withSet set |>.withSrc1 s1 |>.withSrc2 s2
      |>.withSrc3 s3) with sz := bit neg1, sg := bit neg3 }

/-- What F2F, F2I and I2F share (R214 to R216): no second source, no constant, `w[57:53] = 0`, `w[51] = 0`. -/
def RawL.cvtPlain (r : RawL) : Bool :=
  r.x25 == 0#1 && r.x60 == 0#1 && r.noConst && r.s2 == 0#7 && r.seg == 0#4 && r.s3.extractLsb' 5 1 == 0#1 &&
    r.sz == 1#1

/-- F2F (R214): rounding `w[50:49]`, absolute value `w[52]`, negate `w[61]`. -/
def decF2f (r : RawL) : Except Reject Instr := do
  need (r.cvtPlain && r.sg == 0#1 && r.s3.extractLsb' 0 3 == 1#3) .reservedBits
  let ctl ← r.ctl
  let d ← r.dst
  let s1 ← r.reg1
  let rm ← decRm (r.s3.extractLsb' 3 2)
  .ok (.f2f ctl d r.set s1 rm (r.s3.getLsbD 6) (r.sub.getLsbD 0))

/-- F2F (R214). -/
def encF2f (ctl : Ctl) (d : Dst) (set : PredSet) (s1 : BitVec 7) (rm : Rm) (abs neg : Bool) : RawL :=
  { (((RawL.blank 0xA#4 (3#2 ++ bit neg)).withCtl ctl).withDst d |>.withSet set) with
    s1 := s1, s3 := bit abs ++ 0#1 ++ encRm rm ++ 1#3, sz := 1#1 }

/-- F2I (R215): destination sign `w[59]`. -/
def decF2i (r : RawL) : Except Reject Instr := do
  need (r.cvtPlain && r.s3.extractLsb' 0 3 == 1#3 && r.s3.extractLsb' 6 1 == 0#1) .reservedBits
  let ctl ← r.ctl
  let d ← r.dst
  let s1 ← r.reg1
  let rm ← decRm (r.s3.extractLsb' 3 2)
  .ok (.f2i ctl d r.set s1 rm (flag r.sg))

/-- F2I (R215). -/
def encF2i (ctl : Ctl) (d : Dst) (set : PredSet) (s1 : BitVec 7) (rm : Rm) (sg : Bool) : RawL :=
  { (((RawL.blank 0xA#4 4#3).withCtl ctl).withDst d |>.withSet set) with
    s1 := s1, s3 := 0#2 ++ encRm rm ++ 1#3, sz := 1#1, sg := bit sg }

/-- I2F (R216): source type 001 or 101, so `w[48]` is the sign. -/
def decI2f (r : RawL) : Except Reject Instr := do
  need (r.cvtPlain && r.sg == 0#1 && r.s3.extractLsb' 6 1 == 0#1) .reservedBits
  need (r.s3.extractLsb' 0 2 == 1#2) .dataType
  let ctl ← r.ctl
  let d ← r.dst
  let s1 ← r.reg1
  let rm ← decRm (r.s3.extractLsb' 3 2)
  .ok (.i2f ctl d r.set s1 rm (r.s3.getLsbD 2))

/-- I2F (R216). -/
def encI2f (ctl : Ctl) (d : Dst) (set : PredSet) (s1 : BitVec 7) (rm : Rm) (signed : Bool) : RawL :=
  { (((RawL.blank 0xA#4 2#3).withCtl ctl).withDst d |>.withSet set) with
    s1 := s1, s3 := 0#2 ++ encRm rm ++ bit signed ++ 1#2, sz := 1#1 }

/-- FSET (R217): comparison `w[50:46]`, absolute value `w[52]`. -/
def decFset (r : RawL) : Except Reject Instr := do
  r.plain
  need (r.c3 == 0#1 && r.s3.extractLsb' 5 1 == 0#1 && r.sz == 0#1 && r.sg == 0#1) .reservedBits
  let ctl ← r.ctl
  let d ← r.dst
  let s1 ← r.reg1
  let cmp ← decCmp (r.s3.extractLsb' 0 5)
  .ok (.fset ctl d r.set s1 r.src2 cmp (r.s3.getLsbD 6))

/-- FSET (R217). -/
def encFset (ctl : Ctl) (d : Dst) (set : PredSet) (s1 : BitVec 7) (s2 : SrcB) (cmp : CmpSet) (abs : Bool) : RawL :=
  { (((RawL.blank 0xB#4 3#3).withCtl ctl).withDst d |>.withSet set |>.withSrc2 s2) with
    s1 := s1, s3 := bit abs ++ 0#1 ++ encCmp cmp }

/-- The common layout of RCP and the special functions (R218, R237): one register source, nothing else. -/
def decUnary (mkInstr : Ctl → Dst → PredSet → BitVec 7 → Instr) (r : RawL) : Except Reject Instr := do
  r.plain
  need (r.noConst && r.s2 == 0#7 && r.s3 == 0#7 && r.sz == 0#1 && r.sg == 0#1) .reservedBits
  let ctl ← r.ctl
  let d ← r.dst
  let s1 ← r.reg1
  .ok (mkInstr ctl d r.set s1)

/-- The common layout of RCP and the special functions (R218, R237). -/
def encUnary (sub : BitVec 3) (ctl : Ctl) (d : Dst) (set : PredSet) (s1 : BitVec 7) : RawL :=
  { (((RawL.blank 0x9#4 sub).withCtl ctl).withDst d |>.withSet set) with s1 := s1 }

/-- RRO (R233): method `w[47:46]`. -/
def decRro (r : RawL) : Except Reject Instr := do
  r.plain
  need (r.noConst && r.s2 == 0#7 && r.s3.extractLsb' 2 5 == 0#5 && r.sz == 0#1 && r.sg == 0#1) .reservedBits
  let ctl ← r.ctl
  let d ← r.dst
  let s1 ← r.reg1
  let m ← decRroMethod (r.s3.extractLsb' 0 2)
  .ok (.rro ctl d r.set s1 m)

/-- RRO (R233). -/
def encRro (ctl : Ctl) (d : Dst) (set : PredSet) (s1 : BitVec 7) (method : RroMethod) : RawL :=
  { (((RawL.blank 0xB#4 6#3).withCtl ctl).withDst d |>.withSet set) with
    s1 := s1, s3 := 0#5 ++ encRroMethod method }

/-- The format-L column of R111. -/
def decodeNormal (r : RawL) : Except Reject Instr :=
  match r.op.toNat, r.sub.toNat with
  | 0x0, 2 => decA2r r
  | 0x0, 6 => decR2a r
  | 0x0, 7 => decR2g r
  | 0x1, 0 => decMov r
  | 0x1, 1 => decMvc r
  | 0x2, 0 => decIadd r
  | 0x3, 0 => decIaddc r
  | 0x3, 3 => decIset r
  | 0x3, 6 => decShift .shl r
  | 0x3, 7 => decShift .shr r
  | 0x4, 0 => decImulForm .imul r
  | 0x5, 0 => decImulForm .imul24 r
  | 0x6, 0 => decImad r
  | 0x7, 0 => decImad24 r
  | 0x9, 0 => decUnary .rcp r
  | 0x9, 2 => decUnary .rsq r
  | 0x9, 3 => decUnary .lg2 r
  | 0x9, 4 => decUnary .sin r
  | 0x9, 5 => decUnary .cos r
  | 0x9, 6 => decUnary .ex2 r
  | 0xA, 0 => decI2i r
  | 0xA, 1 => decI2i r
  | 0xA, 2 => decI2f r
  | 0xA, 4 => decF2i r
  | 0xA, 6 => decF2f r
  | 0xA, 7 => decF2f r
  | 0xB, 0 => decFadd r
  | 0xB, 3 => decFset r
  | 0xB, 6 => decRro r
  | 0xC, 0 => decFmul r
  | 0xD, 0 => decLop r
  | 0xD, 1 => decAda r
  | 0xD, 4 => decGlobal .gld r
  | 0xD, 5 => decGlobal .gst r
  | 0xE, 0 => decFmad r
  | 0xF, 7 => decNop r
  | _, _ => .error .undefinedOpcode

/-! ### Format S -/

/-- Source 1 of a short or immediate word (R96, R98). -/
def decSrcS (s1 : BitVec 6) (sh : BitVec 1) (alo : BitVec 2) : Except Reject SrcS :=
  if sh = 1#1 then .ok (.shared (s1.extractLsb' 0 4) (decElemTy (s1.extractLsb' 4 2)) alo)
  else if alo = 0#2 then .ok (.reg s1)
  else .error .reservedBits

/-- The `s1`, `sh` and `alo` fields of a short source 1 (R96, R98). -/
def encSrcS : SrcS → BitVec 6 × BitVec 1 × BitVec 2
  | .reg k => (k, 0#1, 0#2)
  | .shared off ty a => (encElemTy ty ++ off, 1#1, a)

/-- The blank short word of an opcode. -/
def RawS.blank (op : BitVec 4) : RawS where
  lng := 0#1
  flow := 0#1
  d := 0#7
  s1 := 0#6
  b15 := 0#1
  s2 := 0#6
  b22 := 0#1
  b23 := 0#1
  sh := 0#1
  x25 := 0#1
  alo := 0#2
  op := op

/-- A short word with its source 1 (R96). -/
def RawS.withSrc (r : RawS) (s : SrcS) : RawS :=
  { r with s1 := (encSrcS s).1, sh := (encSrcS s).2.1, alo := (encSrcS s).2.2 }

/-- The format-S column of R111, with the per-opcode flag bits of R93. -/
def decodeShortRaw (r : RawS) : Except Reject Instr := do
  need (r.flow == 0#1) .shortFlow
  need (r.b23 == 0#1 && r.x25 == 0#1) .reservedBits
  let s1 ← decSrcS r.s1 r.sh r.alo
  match r.op.toNat with
  | 0x1 =>
    need (r.s2 == 0#6 && r.b22 == 0#1) .reservedBits
    .ok (.mov32 r.d s1 (decSize r.b15))
  | 0x2 =>
    need (r.b22 == 0#1) .reservedBits
    .ok (.iadd32 r.d s1 r.s2 (decSize r.b15))
  | 0x4 =>
    need (r.d.extractLsb' 6 1 == 0#1 && r.b15 == 0#1) .reservedBits
    .ok (.imul32 (r.d.extractLsb' 0 6) s1 r.s2 (flag r.b22))
  | 0x6 =>
    need (r.d.extractLsb' 6 1 == 0#1 && r.b15 == 0#1 && r.b22 == 0#1 && r.sh == 0#1) .reservedBits
    .ok (.imad32 (r.d.extractLsb' 0 6) r.s1 r.s2)
  | 0x9 =>
    need (r.b15 == 0#1 && r.s2 == 0#6 && r.b22 == 0#1 && r.sh == 0#1) .reservedBits
    .ok (.rcp32 r.d r.s1)
  | 0xB => .ok (.fadd32 r.d s1 r.s2 (flag r.b15) (flag r.b22))
  | 0xC => .ok (.fmul32 r.d s1 r.s2 (flag r.b15) (flag r.b22))
  | 0xE =>
    need (r.b22 == 0#1) .reservedBits
    .ok (.fmad32 r.d s1 r.s2 (flag r.b15))
  | _ => .error .undefinedOpcode

/-! ### Format I -/

/-- The blank format-I word of an opcode with its 32-bit immediate (R87, R102). -/
def RawI.blank (op : BitVec 4) (imm : Word) : RawI where
  lng := 1#1
  flow := 0#1
  d := 0#7
  s1 := 0#6
  b15 := 0#1
  ilo := imm.extractLsb' 0 6
  x22 := 0#2
  sh := 0#1
  x25 := 0#3
  op := op
  marker := 3#2
  ihi := imm.extractLsb' 6 26
  x60 := 0#1
  sub := 0#3

/-- `imm32 = (ihi << 6) | ilo` (R102). -/
def RawI.imm (r : RawI) : Word := r.ihi ++ r.ilo

/-- The format-I column of R111, with the per-opcode flag bits of R93. -/
def decodeImmRaw (r : RawI) : Except Reject Instr := do
  need (r.sub == 0#3) .undefinedOpcode
  need (r.x22 == 0#2 && r.x25 == 0#3 && r.x60 == 0#1) .reservedBits
  match r.op.toNat with
  | 0x1 =>
    need (r.sh == 0#1 && r.s1 == 0#6 && r.b15 == 1#1) .reservedBits
    .ok (.mvi r.d r.imm)
  | 0x2 =>
    need (r.b15 == 1#1) .reservedBits
    let s1 ← decSrcS r.s1 r.sh 0#2
    .ok (.iadd32i r.d s1 r.imm)
  | 0x4 =>
    need (r.sh == 0#1 && r.b15 == 0#1) .reservedBits
    .ok (.imul32i (r.d.getLsbD 6) (r.d.extractLsb' 0 6) r.s1 r.imm)
  | 0x6 =>
    need (r.sh == 0#1 && r.b15 == 0#1) .reservedBits
    .ok (.imad32i (r.d.getLsbD 6) (r.d.extractLsb' 0 6) r.s1 r.imm)
  | 0xB =>
    need (r.sh == 0#1 && r.b15 == 0#1) .reservedBits
    .ok (.fadd32i r.d r.s1 r.imm)
  | 0xC =>
    need (r.sh == 0#1 && r.b15 == 0#1) .reservedBits
    .ok (.fmul32i r.d r.s1 r.imm)
  | 0xE =>
    need (r.sh == 0#1) .reservedBits
    .ok (.fmad32i r.d r.s1 (flag r.b15) r.imm)
  | _ => .error .undefinedOpcode

/-! ### Format F -/

/-- The blank flow word of an opcode. -/
def RawF.blank (op : BitVec 4) : RawF where
  lng := 1#1
  flow := 1#1
  low := 0#7
  tgt := 0#18
  b27 := 0#1
  op := op
  marker := 0#2
  x34 := 0#4
  b38 := 0#1
  cc := 0#5
  pr := 0#2
  thi := 0#6
  hi := 0#12

/-- The one BAR word, `BAR.ARV.WAIT b0, 0xfff` (R103). -/
def barWord : Long := 0x00000000861FFE03#64

/-- The one TRAP word (R138). -/
def trapWord : Long := 0x0000000090000003#64

/-- The format-F column of R111: the marker is 00 (R122), unused fields are 0 (R120), and the condition code
is checked only where it is used (R105). -/
def decodeFlowRaw (r : RawF) : Except Reject Instr := do
  need (r.marker == 0#2) .flowMarker
  match r.op.toNat with
  | 0x1 =>
    need (r == { RawF.blank 0x1#4 with tgt := r.tgt, cc := r.cc, pr := r.pr }) .reservedBits
    let cc ← decCond r.cc
    .ok (.bra r.tgt ⟨cc, r.pr⟩)
  | 0x2 =>
    need (r == { RawF.blank 0x2#4 with tgt := r.tgt, b27 := r.b27 }) .reservedBits
    .ok (.cal (r.b27 ++ r.tgt))
  | 0x3 =>
    need (r == { RawF.blank 0x3#4 with cc := r.cc, pr := r.pr }) .reservedBits
    let cc ← decCond r.cc
    .ok (.ret ⟨cc, r.pr⟩)
  | 0x8 =>
    need (r == RawF.ofWord barWord) .reservedBits
    .ok .bar
  | 0x9 =>
    need (r == RawF.blank 0x9#4) .reservedBits
    .ok .trap
  | 0xA =>
    need (r == { RawF.blank 0xA#4 with tgt := r.tgt, cc := r.cc, pr := r.pr } &&
      r.tgt.extractLsb' 16 2 == 0#2) .reservedBits
    .ok (.ssy (r.tgt.extractLsb' 0 16) r.cc r.pr)
  | _ => .error .undefinedOpcode

/-! ### The decoder -/

/-- Apply the checks of `Instr.problem` to a term read from a word. -/
def checked (i : Instr) : Except Reject Instr :=
  match i.problem with
  | none => .ok i
  | some r => .error r

/-- The instruction of a short word (R80, R86). -/
def decodeShort (w : Word) : Except Reject Instr := do
  let i ← decodeShortRaw (RawS.ofWord w)
  checked i

/-- The instruction of a long word (R80, R82): flow, then immediate, then normal (R110). -/
def decodeLong (w : Long) : Except Reject Instr := do
  let i ←
    if w.getLsbD 1 then decodeFlowRaw (RawF.ofWord w)
    else if w.extractLsb' 32 2 = 3#2 then decodeImmRaw (RawI.ofWord w)
    else decodeNormal (RawL.ofWord w)
  checked i

/-- The instruction of a word as the fetch delivers it: bit 0 says whether it is long; a short word stands in
the low 32 bits (R10, R80). -/
def decodeWord (w : Long) : Except Reject Instr :=
  if w.getLsbD 0 then decodeLong w else decodeShort (w.extractLsb' 0 32)

/-- The little-endian value of a list of bytes, as a 64-bit word (R43, R52). -/
def wordOfBytes : List Byte → Long
  | [] => 0#64
  | b :: rest => wordOfBytes rest <<< 8 ||| b.setWidth 64

/-- The instruction at the head of a list of bytes, and the bytes after it: 4 bytes of a short instruction, 8 of
a long one (R53, R80). -/
def decodeBytes (bytes : List Byte) : Except Reject (Instr × List Byte) :=
  match bytes with
  | b0 :: _ =>
    let n := if b0.getLsbD 0 then 8 else 4
    if bytes.length < n then .error .truncated
    else do
      let i ← decodeWord (wordOfBytes (bytes.take n))
      .ok (i, bytes.drop n)
  | [] => .error .truncated

/-- The `n` bytes of a number, lowest first: the order in which the code memory holds a word (R43, R52). -/
def bytesOfNat : Nat → Nat → List Byte
  | 0, _ => []
  | n + 1, v => BitVec.ofNat 8 v :: bytesOfNat n (v / 256)

/-- The instruction of an opcode-table row whose bits are `w`, numbered as the table numbers them: stored as the
hardware stores it and given to the decoder; the bits from `nbits` up are 0. -/
def decodeTableWord (nbits w : Nat) : Option Instr :=
  match decodeBytes (bytesOfNat 8 (w % 2 ^ nbits)) with
  | .ok (i, _) => some i
  | .error _ => none

/-! ### The encoder -/

/-- The long or short word of an instruction, before its bits are joined. -/
inductive Encoded where
  | normal (r : RawL)
  | short (r : RawS)
  | imm (r : RawI)
  | flow (r : RawF)
  | fixed (w : Long)
  deriving DecidableEq, Repr

/-- The fields of an instruction (the encoding lines of R131 to R237). -/
def encodeRaw : Instr → Encoded
  | .bra tgt g => .flow { RawF.blank 0x1#4 with tgt := tgt, cc := encCond g.cc, pr := g.pr }
  | .cal tgt => .flow { RawF.blank 0x2#4 with tgt := tgt.extractLsb' 0 18, b27 := tgt.extractLsb' 18 1 }
  | .ret g => .flow { RawF.blank 0x3#4 with cc := encCond g.cc, pr := g.pr }
  | .bar => .fixed barWord
  | .trap => .fixed trapWord
  | .ssy tgt cc pr => .flow { RawF.blank 0xA#4 with tgt := 0#2 ++ tgt, cc := cc, pr := pr }
  | .nop mk => .normal (encNop mk)
  | .i2i ctl d set s1 t sz sg neg => .normal (encI2i ctl d set s1 t sz sg neg)
  | .imul ctl d set s1 s2 => .normal (encImulForm 0x4#4 ctl d set s1 s2)
  | .imul24 ctl d set s1 s2 => .normal (encImulForm 0x5#4 ctl d set s1 s2)
  | .imul32 d s1 s2 u24 =>
    .short { (RawS.blank 0x4#4).withSrc s1 with d := 0#1 ++ d, s2 := s2, b22 := bit u24 }
  | .imul32i signed d s1 imm => .imm { RawI.blank 0x4#4 imm with d := bit signed ++ d, s1 := s1 }
  | .shl ctl d s1 amt sz sg => .normal (encShift 6#3 ctl d s1 amt sz sg)
  | .shr ctl d s1 amt sz sg => .normal (encShift 7#3 ctl d s1 amt sz sg)
  | .iadd ctl d set s1 s3 sz neg2 => .normal (encIadd ctl d set s1 s3 sz neg2)
  | .iaddc mk pr d set s1 s3 sz => .normal (encIaddc mk pr d set s1 s3 sz)
  | .iadd32 d s1 s2 sz => .short { (RawS.blank 0x2#4).withSrc s1 with d := d, s2 := s2, b15 := encSize sz }
  | .iadd32i d s1 imm =>
    .imm { RawI.blank 0x2#4 imm with d := d, s1 := (encSrcS s1).1, sh := (encSrcS s1).2.1, b15 := 1#1 }
  | .imad ctl d set s1 s2 s3 neg1 neg3 => .normal (encImad ctl d set s1 s2 s3 neg1 neg3)
  | .imad24 ctl d set s1 s2 s3 => .normal (encImad24 ctl d set s1 s2 s3)
  | .imad32 d s1 s2 => .short { RawS.blank 0x6#4 with d := 0#1 ++ d, s1 := s1, s2 := s2 }
  | .imad32i signed d s1 imm => .imm { RawI.blank 0x6#4 imm with d := bit signed ++ d, s1 := s1 }
  | .lop ctl d set s1 s2 op inv1 inv2 sz sg => .normal (encLop ctl d set s1 s2 op inv1 inv2 sz sg)
  | .iset ctl d set s1 s2 cmp sz sg => .normal (encIset ctl d set s1 s2 cmp sz sg)
  | .mvc ctl d set seg off a width sz sg => .normal (encMvc ctl d set seg off a width sz sg)
  | .gld ctl d areg ty => .normal (encGlobal 4#3 ctl d areg ty)
  | .gst ctl dreg areg ty => .normal (encGlobal 5#3 ctl dreg areg ty)
  | .mov ctl d s1 sz sg => .normal (encMov ctl d s1 sz sg)
  | .mov32 d s1 sz => .short { (RawS.blank 0x1#4).withSrc s1 with d := d, b15 := encSize sz }
  | .mvi d imm => .imm { RawI.blank 0x1#4 imm with d := d, b15 := 1#1 }
  | .r2g ctl off a s3 sz sg => .normal (encR2g ctl off a s3 sz sg)
  | .r2a ctl da s1 imm => .normal (encR2a ctl da s1 imm)
  | .a2r ctl d a imm => .normal (encA2r ctl d a imm)
  | .ada ctl da a imm => .normal (encAda ctl da a imm)
  | .fadd32 d s1 s2 neg1 neg2 =>
    .short { (RawS.blank 0xB#4).withSrc s1 with d := d, s2 := s2, b15 := bit neg1, b22 := bit neg2 }
  | .fadd ctl d set s1 s3 rm neg1 neg2 => .normal (encFadd ctl d set s1 s3 rm neg1 neg2)
  | .fadd32i d s1 imm => .imm { RawI.blank 0xB#4 imm with d := d, s1 := s1 }
  | .fmul ctl d set s1 s2 rm neg1 neg2 => .normal (encFmul ctl d set s1 s2 rm neg1 neg2)
  | .fmul32 d s1 s2 neg1 neg2 =>
    .short { (RawS.blank 0xC#4).withSrc s1 with d := d, s2 := s2, b15 := bit neg1, b22 := bit neg2 }
  | .fmul32i d s1 imm => .imm { RawI.blank 0xC#4 imm with d := d, s1 := s1 }
  | .fmad ctl d set s1 s2 s3 neg1 neg3 => .normal (encFmad ctl d set s1 s2 s3 neg1 neg3)
  | .fmad32 d s1 s2 neg1 => .short { (RawS.blank 0xE#4).withSrc s1 with d := d, s2 := s2, b15 := bit neg1 }
  | .fmad32i d s1 neg1 imm => .imm { RawI.blank 0xE#4 imm with d := d, s1 := s1, b15 := bit neg1 }
  | .f2f ctl d set s1 rm abs neg => .normal (encF2f ctl d set s1 rm abs neg)
  | .f2i ctl d set s1 rm sg => .normal (encF2i ctl d set s1 rm sg)
  | .i2f ctl d set s1 rm signed => .normal (encI2f ctl d set s1 rm signed)
  | .fset ctl d set s1 s2 cmp abs => .normal (encFset ctl d set s1 s2 cmp abs)
  | .rcp ctl d set s1 => .normal (encUnary 0#3 ctl d set s1)
  | .rcp32 d s1 => .short { RawS.blank 0x9#4 with d := d, s1 := s1 }
  | .rsq ctl d set s1 => .normal (encUnary 2#3 ctl d set s1)
  | .lg2 ctl d set s1 => .normal (encUnary 3#3 ctl d set s1)
  | .sin ctl d set s1 => .normal (encUnary 4#3 ctl d set s1)
  | .cos ctl d set s1 => .normal (encUnary 5#3 ctl d set s1)
  | .ex2 ctl d set s1 => .normal (encUnary 6#3 ctl d set s1)
  | .rro ctl d set s1 method => .normal (encRro ctl d set s1 method)

/-- The word of an encoded instruction; a short one stands in the low 32 bits (R10). -/
def Encoded.word : Encoded → Long
  | .normal r => r.toWord
  | .short r => r.toWord.setWidth 64
  | .imm r => r.toWord
  | .flow r => r.toWord
  | .fixed w => w

/-- The word of an instruction, `w` of R10. -/
def encode (i : Instr) : Long := (encodeRaw i).word

/-- Whether an instruction is one 32-bit word (formats S of R82). -/
def Instr.isShort : Instr → Bool
  | .imul32 _ _ _ _ => true
  | .iadd32 _ _ _ _ => true
  | .imad32 _ _ _ => true
  | .mov32 _ _ _ => true
  | .fadd32 _ _ _ _ _ => true
  | .fmul32 _ _ _ _ _ => true
  | .fmad32 _ _ _ _ => true
  | .rcp32 _ _ => true
  | _ => false

/-- The length of an instruction in bytes (R26, R80). -/
def Instr.length (i : Instr) : Nat := if i.isShort then 4 else 8

/-- The bytes of an instruction as the code memory holds it, little-endian (R43, R52). -/
def encodeBytes (i : Instr) : List Byte := bytesOfNat i.length (encode i).toNat

end Sys2Proof
end

