-- ==== Sys2Proof/Machine/Fetch.lean ====
section
/-!
DEFINITION. Instruction fetch (R27, R43, R53, R243): the words of the instruction at the pc of the warp in turn.
-/
namespace Sys2Proof.Machine

/-- One 32-bit word of the code at an address, for the instruction at pc (R53, R243). -/
def State.codeWord (s : State) (pc addr : Nat) : Except Cause Word :=
  if spaceSize s.params .code < addr + 4 then .error (.fetchOutOfRange pc)
  else
    match s.code.bytesAt addr 4 with
    | none => .error (.uninitialisedMemory .code addr)
    | some bytes => .ok (valueOf s.params.endian bytes)

/-- `fetch(pc)` of R53: the low word first; a second word only when bit 0 of the first is 1. -/
def State.fetch (s : State) : Except Cause Long :=
  if s.warp.pc % 4 ≠ 0 then .error (.misalignedFetch s.warp.pc)
  else
    match s.codeWord s.warp.pc s.warp.pc with
    | .error c => .error c
    | .ok lo =>
      if lo.getLsbD 0 then
        match s.codeWord s.warp.pc (s.warp.pc + 4) with
        | .error c => .error c
        | .ok hi => .ok (hi ++ lo)
      else .ok (lo.setWidth 64)

/-- The state with the fetched word kept for the reports of R240. -/
abbrev State.withIr (s : State) (w : Long) : State := { s with ir := w }

/-- The bytes of a word of code at rising addresses: the low word, then the high word (R43). -/
def codeBytes (e : Endian) (v : Long) : List Byte :=
  bytesOf e 4 (v.extractLsb' 0 32) ++ bytesOf e 4 (v.extractLsb' 32 32)

/-- The state with the 8 bytes of a word of code at pc, and a kernel that reaches that far. -/
def State.loadCode (s : State) (pc : Nat) (v : Long) : State :=
  { s with
    code := s.code.setBytes pc (codeBytes s.params.endian v)
    params := { s.params with codeSize := max s.params.codeSize (pc + 8) } }

end Sys2Proof.Machine
end

