-- ==== Sys2Proof/Machine/Schedule.lean ====
section
/-!
DEFINITION. Which transition comes next (R130, R134, R276, R284): a run that has ended, a step of a running warp,
or the release of a block's barrier. No order is given: a choice between several is free.
-/
namespace Sys2Proof.Machine

/-- A transition of the machine: a step of one warp, or a barrier release of one block. -/
inductive Choice where
  | run (block index : Nat)
  | release (block : Nat)
  deriving DecidableEq, Repr

/-- What comes next: the run has ended, a barrier has been released, or the warp now in turn is to step. -/
inductive Turn where
  | stop (f : Fault)
  | release (s : State)
  | run (s : State)
  deriving DecidableEq, Repr

/-- A warp put in its place among warps ordered by block and number. -/
def insertWarp (w : Warp) : List Warp → List Warp
  | [] => [w]
  | v :: rest =>
    if w.block < v.block ∨ (w.block = v.block ∧ w.index ≤ v.index) then w :: v :: rest
    else v :: insertWarp w rest

/-- All warps, ordered by block and number. -/
def State.warps (s : State) : List Warp := insertWarp s.warp s.rest

/-- Whether a warp is the one of a block and number. -/
def Warp.hasId (w : Warp) (block index : Nat) : Bool := w.block == block && w.index == index

/-- The state with another warp in turn; the warps stay ordered. -/
def State.select (s : State) (block index : Nat) : State :=
  if s.warp.hasId block index then s
  else
    match s.warps.find? fun w => w.hasId block index with
    | some w => { s with warp := w, rest := s.warps.filter fun v => !v.hasId block index }
    | none => s

/-- `waiting[b]` of R67: the warps of a block whose status is `at_barrier`. -/
def State.waiting (s : State) (block : Nat) : List Warp :=
  s.warps.filter fun w => w.block == block && w.status == .atBarrier

/-- R134: a release is enabled when every unfinished warp of the block waits, and at least one does. -/
def State.releasable (s : State) (block : Nat) : Bool :=
  (s.warps.any fun w => w.block == block && w.status == .atBarrier) &&
    s.warps.all fun w => w.block != block || w.status == .atBarrier || w.status == .finished

/-- A waiting warp of the block leaves the barrier (R134); another is as it was. -/
def releaseWarp (block : Nat) (w : Warp) : Warp :=
  if w.block = block ∧ w.status = .atBarrier then
    { w with status := .running, pc := w.pc + 8, epoch := w.epoch + 1 }
  else w

/-- The release of R134, one transition of the whole block. -/
def State.release (s : State) (block : Nat) : State :=
  { s with warp := releaseWarp block s.warp, rest := s.rest.map (releaseWarp block) }

/-- The releases enabled, one for each block that waits: found at its first warp in the list. -/
def State.releases (s : State) : List Warp → List Choice
  | [] => []
  | w :: rest =>
    if w.status = .atBarrier ∧ s.releasable w.block = true ∧ (rest.all fun v => v.block != w.block || v.status != .atBarrier)
    then .release w.block :: State.releases s rest
    else State.releases s rest

/-- The steps enabled: one for each running warp (R130). -/
def runsOf : List Warp → List Choice
  | [] => []
  | w :: rest => if w.status = .running then .run w.block w.index :: runsOf rest else runsOf rest

/-- The transitions enabled (R130, R134). -/
def State.choices (s : State) : List Choice := runsOf s.warps ++ s.releases s.warps

/-- Where a stopped warp stands (R240, R248). -/
def State.siteOf (s : State) (w : Warp) : Site := ⟨w.block, w.index, none, w.pc, s.ir⟩

/-- The end that a warp's status puts to the run (R138, R240). -/
def State.endOf (s : State) (w : Warp) : Option Fault :=
  match w.status with
  | .fault c => some (.raised c (s.siteOf w))
  | .trapped => some (.trapped (s.siteOf w))
  | .running => none
  | .atBarrier => none
  | .finished => none

/-- The first end among warps. -/
def State.firstEnd (s : State) : List Warp → Option Fault
  | [] => none
  | w :: rest =>
    match s.endOf w with
    | some f => some f
    | none => State.firstEnd s rest

/-- How the run has ended, if it has (R276): a fault or a trap, or every warp finished. -/
def State.ended (s : State) : Option Fault :=
  match s.firstEnd s.warps with
  | some f => some f
  | none => if s.warps.all fun w => w.status == .finished then some .finished else none

/-- One of the enabled transitions: the only one, or a free choice (R284), which moves the counter. -/
def State.pick (s : State) : Option (Choice × State) :=
  match s.choices with
  | [] => none
  | [c] => some (c, s)
  | c :: cs =>
    some (((c :: cs)[Config.schedule s.clock % (cs.length + 1)]?).getD c, { s with clock := s.clock + 1 })

/-- What comes next. -/
def State.turn (s : State) : Turn :=
  match s.ended with
  | some f => .stop f
  | none =>
    match s.pick with
    | none => .stop .deadlock
    | some (.release b, s') => .release (s'.release b)
    | some (.run b i, s') => .run (s'.select b i)

end Sys2Proof.Machine
end

