-- ==== Sys2Proof/Machine/Step.lean ====
section
/-!
DEFINITION. One step of the machine (R130): the next transition, and for a step of a warp its fetch, its decode
and its meaning.
-/
namespace Sys2Proof.Machine

/-- One step of the machine (R130). -/
def step (s : State) : Host.Outcome State Fault Refusal :=
  match s.turn with
  | .stop f => .fault f
  | .release s' => .next s'
  | .run s' =>
    match s'.fetch with
    | .error c => s'.raise none c
    | .ok w =>
      match decodeWord w with
      | .error r => (s'.withIr w).refuse r
      | .ok i => exec i (s'.withIr w)

/-- `s` with the instruction of an opcode-table row where the next step fetches: at the pc of the warp that the
next step runs. Nothing else changes but the size of the code, which must hold it. -/
def State.withFetchWord (s : State) (nbits w : Nat) : State :=
  let v := BitVec.ofNat 64 (w % 2 ^ nbits)
  match s.turn with
  | .run s' => s.loadCode s'.warp.pc v
  | .stop _ => s.loadCode s.warp.pc v
  | .release _ => s.loadCode s.warp.pc v

end Sys2Proof.Machine
end

