-- ==== Sys2Proof/Safety.lean ====
section
/-!
DEFINITION. The words that claims about the machine are stated in: the invariant, what a lane takes part in, what
an instruction leaves of the control state, of the registers and of memory when it completes.
-/
namespace Sys2Proof.Machine

/-! ### The invariant -/

/-- Every warp of the machine, the one in turn first. -/
abbrev State.everyWarp (s : State) : List Warp := s.warp :: s.rest

/-- What R35 and R140 keep of a warp: the stack within `STACK_DEPTH`; a running or waiting warp has an active
lane (R130: "`W.active` is never empty when a step starts"); a finished one has none and an empty stack. -/
structure Warp.Sound (p : Params) (w : Warp) : Prop where
  depth : w.stack.length ≤ p.stackDepth
  alive : w.status = .running ∨ w.status = .atBarrier → w.hasActive = true
  spent : w.status = .finished → w.hasActive = false ∧ w.stack = []

/-- Two warps are not the same one of the same block. -/
def Warp.Differs (v w : Warp) : Prop := ¬ (v.block = w.block ∧ v.index = w.index)

/-- The invariant of the machine: memories in canonical form, every warp sound, no two warps with one name. -/
structure State.Inv (s : State) : Prop where
  global : s.global.wf = true
  shared : s.shared.wf = true
  const : s.const.wf = true
  code : s.code.wf = true
  warps : ∀ w ∈ s.everyWarp, w.Sound s.params
  names : s.everyWarp.Pairwise Warp.Differs

/-- A run goes on from a state without a fault or a refusal. -/
def State.Safe (s : State) : Prop := ∃ t, step s = .next t

/-! ### Runs -/

/-- The transition that a step takes, where the run has not ended (R130, R134). -/
def State.moves (s : State) : Option Choice :=
  match s.ended with
  | some _ => none
  | none => s.pick.map Prod.fst

/-- A run that goes on without end. -/
def EndlessRun (r : Nat → State) : Prop := ∀ n, step (r n) = .next (r (n + 1))

/-- Weak fairness, the one scheduling assumption of R284: a transition that stays enabled, the step of a running warp
or a barrier release, is eventually taken. The order of transitions is free (`Config.schedule`), so a claim that
something eventually happens takes this as a hypothesis about its run; notes/assumptions/16.md. -/
def WeaklyFair (r : Nat → State) : Prop :=
  ∀ (c : Choice) (n : Nat), (∀ m, n ≤ m → c ∈ (r m).choices) → ∃ m, n ≤ m ∧ (r m).moves = some c

/-! ### Before an instruction -/

/-- R105: a lane takes part in an instruction when it is active and its guard is true. -/
def Takes (g : Guard) (l : Lane) : Prop := l.status = .active ∧ guardHolds g l.thread = .ok true

/-- The instruction with its marker and guard changed, for those whose marker and guard stand in one `Ctl`. -/
def withCtl (f : Ctl → Ctl) : Instr → Option Instr
  | .bra _ _ | .cal _ | .ret _ | .bar | .trap | .ssy _ _ _ | .nop _ => none
  | .imul32 _ _ _ _ | .imul32i _ _ _ _ | .iaddc _ _ _ _ _ _ _ | .iadd32 _ _ _ _ | .iadd32i _ _ _ => none
  | .imad32 _ _ _ | .imad32i _ _ _ _ | .mov32 _ _ _ | .mvi _ _ => none
  | .fadd32 _ _ _ _ _ | .fadd32i _ _ _ | .fmul32 _ _ _ _ _ | .fmul32i _ _ _ => none
  | .fmad32 _ _ _ _ | .fmad32i _ _ _ _ | .rcp32 _ _ => none
  | .i2i ctl d set s1 t sz sg neg => some (.i2i (f ctl) d set s1 t sz sg neg)
  | .imul ctl d set s1 s2 => some (.imul (f ctl) d set s1 s2)
  | .imul24 ctl d set s1 s2 => some (.imul24 (f ctl) d set s1 s2)
  | .shl ctl d s1 amt sz sg => some (.shl (f ctl) d s1 amt sz sg)
  | .shr ctl d s1 amt sz sg => some (.shr (f ctl) d s1 amt sz sg)
  | .iadd ctl d set s1 s3 sz neg2 => some (.iadd (f ctl) d set s1 s3 sz neg2)
  | .imad ctl d set s1 s2 s3 neg1 neg3 => some (.imad (f ctl) d set s1 s2 s3 neg1 neg3)
  | .imad24 ctl d set s1 s2 s3 => some (.imad24 (f ctl) d set s1 s2 s3)
  | .lop ctl d set s1 s2 op inv1 inv2 sz sg => some (.lop (f ctl) d set s1 s2 op inv1 inv2 sz sg)
  | .iset ctl d set s1 s2 cmp sz sg => some (.iset (f ctl) d set s1 s2 cmp sz sg)
  | .mvc ctl d set seg off a width sz sg => some (.mvc (f ctl) d set seg off a width sz sg)
  | .gld ctl d areg ty => some (.gld (f ctl) d areg ty)
  | .gst ctl dreg areg ty => some (.gst (f ctl) dreg areg ty)
  | .mov ctl d s1 sz sg => some (.mov (f ctl) d s1 sz sg)
  | .r2g ctl off a s3 sz sg => some (.r2g (f ctl) off a s3 sz sg)
  | .r2a ctl da s1 imm => some (.r2a (f ctl) da s1 imm)
  | .a2r ctl d a imm => some (.a2r (f ctl) d a imm)
  | .ada ctl da a imm => some (.ada (f ctl) da a imm)
  | .fadd ctl d set s1 s3 rm neg1 neg2 => some (.fadd (f ctl) d set s1 s3 rm neg1 neg2)
  | .fmul ctl d set s1 s2 rm neg1 neg2 => some (.fmul (f ctl) d set s1 s2 rm neg1 neg2)
  | .fmad ctl d set s1 s2 s3 neg1 neg3 => some (.fmad (f ctl) d set s1 s2 s3 neg1 neg3)
  | .f2f ctl d set s1 rm abs neg => some (.f2f (f ctl) d set s1 rm abs neg)
  | .f2i ctl d set s1 rm sg => some (.f2i (f ctl) d set s1 rm sg)
  | .i2f ctl d set s1 rm signed => some (.i2f (f ctl) d set s1 rm signed)
  | .fset ctl d set s1 s2 cmp abs => some (.fset (f ctl) d set s1 s2 cmp abs)
  | .rcp ctl d set s1 => some (.rcp (f ctl) d set s1)
  | .rsq ctl d set s1 => some (.rsq (f ctl) d set s1)
  | .lg2 ctl d set s1 => some (.lg2 (f ctl) d set s1)
  | .sin ctl d set s1 => some (.sin (f ctl) d set s1)
  | .cos ctl d set s1 => some (.cos (f ctl) d set s1)
  | .ex2 ctl d set s1 => some (.ex2 (f ctl) d set s1)
  | .rro ctl d set s1 method => some (.rro (f ctl) d set s1 method)

/-- The instruction with another marker, for those that have one: NOP and the long instructions that are no flow
instructions (R85). -/
def marked (mk : Marker) (i : Instr) : Option Instr :=
  match i with
  | .nop _ => some (.nop mk)
  | .iaddc _ pr d set s1 s3 sz => some (.iaddc mk pr d set s1 s3 sz)
  | i => withCtl (fun ctl => { ctl with marker := mk }) i

/-- The instruction with another guard, for those that obey one: BRA, RET and the long instructions with lanes but
IADD.CARRYn (R105). -/
def guarded (g : Guard) (i : Instr) : Option Instr :=
  match i with
  | .bra tgt _ => some (.bra tgt g)
  | .ret _ => some (.ret g)
  | i => withCtl (fun ctl => { ctl with guard := g }) i

/-- A shared-memory operand: its offset, the type of its element and the number of its address register (R98). -/
structure SharedOperand where
  off : Nat
  ty : ElemTy
  a : Nat
  deriving DecidableEq, Repr

/-- The shared operand of a long instruction's source 1. -/
def Src1.operand : Src1 → Option SharedOperand
  | .reg _ => none
  | .shared off ty a => some ⟨off.toNat, ty, a.toNat⟩

/-- The shared operand of a short or immediate instruction's source 1. -/
def SrcS.operand : SrcS → Option SharedOperand
  | .reg _ => none
  | .shared off ty a => some ⟨off.toNat, ty, a.toNat⟩

/-- The shared operand that an instruction reads, if it has one (R180); source 1 of LOP with PASS_B is not read
(R176). -/
def sharedOperand : Instr → Option SharedOperand
  | .bra _ _ | .cal _ | .ret _ | .bar | .trap | .ssy _ _ _ | .nop _ => none
  | .imul32i _ _ _ _ | .imad32 _ _ _ | .imad32i _ _ _ _ | .mvc _ _ _ _ _ _ _ _ _ | .gld _ _ _ _ => none
  | .gst _ _ _ _ | .mvi _ _ | .r2g _ _ _ _ _ _ | .r2a _ _ _ _ | .a2r _ _ _ _ | .ada _ _ _ _ => none
  | .fadd32i _ _ _ | .fmul32i _ _ _ | .fmad32i _ _ _ _ | .f2f _ _ _ _ _ _ _ | .f2i _ _ _ _ _ _ => none
  | .i2f _ _ _ _ _ _ | .fset _ _ _ _ _ _ _ | .rcp _ _ _ _ | .rcp32 _ _ | .rsq _ _ _ _ | .lg2 _ _ _ _ => none
  | .sin _ _ _ _ | .cos _ _ _ _ | .ex2 _ _ _ _ | .rro _ _ _ _ _ => none
  | .i2i _ _ _ s1 _ _ _ _ => Src1.operand s1
  | .imul _ _ _ s1 _ => Src1.operand s1
  | .imul24 _ _ _ s1 _ => Src1.operand s1
  | .imul32 _ s1 _ _ => SrcS.operand s1
  | .shl _ _ s1 _ _ _ => Src1.operand s1
  | .shr _ _ s1 _ _ _ => Src1.operand s1
  | .iadd _ _ _ s1 _ _ _ => Src1.operand s1
  | .iaddc _ _ _ _ s1 _ _ => Src1.operand s1
  | .iadd32 _ s1 _ _ => SrcS.operand s1
  | .iadd32i _ s1 _ => SrcS.operand s1
  | .imad _ _ _ s1 _ _ _ _ => Src1.operand s1
  | .imad24 _ _ _ s1 _ _ => Src1.operand s1
  | .lop _ _ _ s1 _ op _ _ _ _ => if op = .passB then none else Src1.operand s1
  | .iset _ _ _ s1 _ _ _ _ => Src1.operand s1
  | .mov _ _ s1 _ _ => Src1.operand s1
  | .mov32 _ s1 _ => SrcS.operand s1
  | .fadd32 _ s1 _ _ _ => SrcS.operand s1
  | .fadd _ _ _ s1 _ _ _ _ => Src1.operand s1
  | .fmul _ _ _ s1 _ _ _ _ => Src1.operand s1
  | .fmul32 _ s1 _ _ _ => SrcS.operand s1
  | .fmad _ _ _ s1 _ _ _ _ => Src1.operand s1
  | .fmad32 _ s1 _ _ => SrcS.operand s1

/-- R105: a lane takes part in an instruction when it is active and the guard that the instruction obeys, if it obeys
one, is true. -/
def TakesPart (i : Instr) (l : Lane) : Prop :=
  l.status = .active ∧ ∀ g, guarded g i = some i → guardHolds g l.thread = .ok true

/-- A launch declines the instruction, whatever the rest of the state: its word has no meaning there (R241). -/
def Declined (i : Instr) (p : Params) : Prop := ∃ why, ∀ s : State, s.params = p → exec i s = s.refuse why

/-- A Join marker finds an entry to pop (R135). -/
def MarkerReady (mk : Marker) (w : Warp) : Prop := mk = .join → w.stack ≠ []

/-- No access recorded so far conflicts with the ranges (R65). -/
def Unraced (s : State) (write : Bool) (ranges : List Range) : Prop :=
  ∀ r ∈ ranges, ∀ old ∈ s.log, s.conflicts (s.accessBy r.space r.addr r.bytes write) old = false

/-- An access to a range conflicts with a recorded one (R65, R66): another warp's, sharing a byte, at least one of
the two a write, with no barrier of its block between. notes/assumptions/17.md. -/
def Contested (s : State) (sp : Space) (addr n : Nat) (write : Bool) : Prop :=
  ∃ old ∈ s.log, old.space = sp ∧ (old.write = true ∨ write = true) ∧
    (old.block ≠ s.warp.block ∨ old.warp ≠ s.warp.index) ∧ old.addr < addr + n ∧ addr < old.addr + old.bytes ∧
    ¬ (old.block = s.warp.block ∧ old.epoch < s.epochOf old.block old.warp)

/-- A register field of a thread names a register, whole or half (R21, R22). -/
def FieldExists (p : Params) : Size → Nat → Prop
  | .b32, k => k < gprCount p
  | .b16, k => k / 2 < gprCount p

/-- A destination can be written: it is discarded, or its field names a register (R90, R92). -/
def DstExists (p : Params) (sz : Size) : Dst → Prop
  | .reg k => FieldExists p sz k.toNat
  | .discard => True

/-- Every active lane can evaluate its guard, and where it is true the thread meets a condition. -/
def LanesReady (s : State) (g : Guard) (ok : Thread → Prop) : Prop :=
  ∀ l ∈ s.warp.lanes, l.status = .active →
    guardHolds g l.thread = .ok false ∨ guardHolds g l.thread = .ok true ∧ ok l.thread

/-! ### After an instruction -/

/-- The threads of a warp, lane by lane. -/
def Warp.threads (w : Warp) : List Thread := w.lanes.map Lane.thread

/-- R130, the end of an instruction: the pc advances by its length, then the marker acts. The lanes' statuses and
all of the warp's control state are what that makes of the warp before. -/
def ControlAfter (s t : State) (mk : Marker) (len : Nat) : Prop :=
  ∃ w, (s.warp.advance len).mark mk = .ok w ∧
    t.warp.block = w.block ∧ t.warp.index = w.index ∧ t.warp.pc = w.pc ∧ t.warp.stack = w.stack ∧
    t.warp.status = w.status ∧ t.warp.epoch = w.epoch ∧
    t.warp.lanes.map Lane.status = w.lanes.map Lane.status

/-- What no instruction changes: the launch, the other warps, constant and instruction memory, the model's
counter and the fetched word; and the record of accesses only gains accesses of this warp. -/
structure SameOutside (s t : State) : Prop where
  params : t.params = s.params
  rest : t.rest = s.rest
  const : ∀ seg a, t.byteAt (.const seg) a = s.byteAt (.const seg) a
  code : ∀ a, t.byteAt .code a = s.byteAt .code a
  clock : t.clock = s.clock
  ir : t.ir = s.ir
  kept : ∀ a ∈ s.log, a ∈ t.log
  gained : ∀ a ∈ t.log, a ∈ s.log ∨ a.block = s.warp.block ∧ a.warp = s.warp.index

/-- The record of accesses after an instruction (R65): what it held, and what the lanes that take part made. -/
def LogAfter (s t : State) (g : Guard) (made : Thread → Access → Prop) : Prop :=
  ∀ a, a ∈ t.log ↔ a ∈ s.log ∨ ∃ l ∈ s.warp.lanes, Takes g l ∧ made l.thread a

/-- Every byte of every space reads as before. -/
def SameMemory (s t : State) : Prop := ∀ sp a, t.byteAt sp a = s.byteAt sp a

/-- Lane by lane: a lane that takes part is changed as `R` says, another keeps its registers. -/
def LanesAfter (g : Guard) (R : Thread → Thread → Prop) (s t : State) : Prop :=
  t.warp.lanes.length = s.warp.lanes.length ∧
    ∀ (j : Nat) (l l' : Lane), s.warp.lanes[j]? = some l → t.warp.lanes[j]? = some l' →
      (Takes g l → R l.thread l'.thread) ∧ (¬ Takes g l → l'.thread = l.thread)

/-- The general registers after a write of a register field: a whole register, or one half with the other half
and its mark as before (R22, R24). Every other register is unchanged. -/
def FieldAfter : (sz : Size) → Nat → BitVec sz.bits → Thread → Thread → Prop
  | .b32, k, v, old, new => ∀ n, new.gprAt n = if n = k then ⟨v, true, true⟩ else old.gprAt n
  | .b16, k, v, old, new =>
    (∀ n, n ≠ k / 2 → new.gprAt n = old.gprAt n) ∧
    if k % 2 = 0 then
      (new.gprAt (k / 2)).val.extractLsb' 0 16 = v ∧
      (new.gprAt (k / 2)).val.extractLsb' 16 16 = (old.gprAt (k / 2)).val.extractLsb' 16 16 ∧
      (new.gprAt (k / 2)).loWritten = true ∧ (new.gprAt (k / 2)).hiWritten = (old.gprAt (k / 2)).hiWritten
    else
      (new.gprAt (k / 2)).val.extractLsb' 16 16 = v ∧
      (new.gprAt (k / 2)).val.extractLsb' 0 16 = (old.gprAt (k / 2)).val.extractLsb' 0 16 ∧
      (new.gprAt (k / 2)).hiWritten = true ∧ (new.gprAt (k / 2)).loWritten = (old.gprAt (k / 2)).loWritten

/-- A thread's registers after `dst(w) <- v; setp(w, v, c, o)` (R90, R107): the destination field, and with
`pe = 1` all four flags of one predicate register; nothing else. -/
structure RegsAfter (sz : Size) (d : Dst) (set : PredSet) (v : BitVec sz.bits) (c o : Bool) (old new : Thread) :
    Prop where
  gpr : match d with
    | .reg k => FieldAfter sz k.toNat v old new
    | .discard => ∀ n, new.gprAt n = old.gprAt n
  pred : ∀ q, new.predAt q =
    if set.pe = true ∧ q = set.ps then ⟨⟨decide (v = 0#sz.bits), v.msb, c, o⟩, true⟩ else old.predAt q
  areg : ∀ a, new.aregAt a = old.aregAt a

/-- A thread's registers after a write of address register `a` (R190): nothing else changes. -/
structure AregAfter (a : Nat) (v : Word) (old new : Thread) : Prop where
  gpr : ∀ n, new.gprAt n = old.gprAt n
  pred : ∀ q, new.predAt q = old.predAt q
  areg : ∀ b, 0 < b → new.aregAt b = if b = a then ⟨v, true⟩ else old.aregAt b

/-! ### An instruction that completes -/

/-- An instruction completes in a state, with the control effect of its marker and length, memory as before, the
ranges that `reads` names recorded as read, and the lanes changed as `R` says. -/
def Completes (i : Instr) (s : State) (mk : Marker) (g : Guard) (len : Nat) (reads : Thread → Range → Prop)
    (R : Thread → Thread → Prop) : Prop :=
  ∃ t, exec i s = .next t ∧ ControlAfter s t mk len ∧ SameOutside s t ∧ SameMemory s t ∧
    LogAfter s t g (fun th a => ∃ r, reads th r ∧ a = s.accessBy r.space r.addr r.bytes false) ∧ LanesAfter g R s t

/-- No range of shared or global memory. -/
def noReads (_ : Thread) (_ : Range) : Prop := False

/-- What an instruction computes in one thread: its value, the carry and overflow flags, and the ranges of shared
or global memory it reads. -/
structure Res (sz : Size) where
  val : BitVec sz.bits
  carry : Bool
  overflow : Bool
  reads : List Range
  deriving DecidableEq, Repr

/-- Everything an instruction with a register result needs: the marker, and in each lane that takes part a
destination that exists, operands from which the result follows, and no race. -/
def ResultReady (s : State) (mk : Marker) (g : Guard) (sz : Size) (d : Dst) (result : Thread → Res sz → Prop) :
    Prop :=
  MarkerReady mk s.warp ∧
    LanesReady s g fun t => DstExists s.params sz d ∧ ∃ r, result t r ∧ Unraced s false r.reads

/-- An instruction that is ready completes, records the ranges that it reads, and writes the result to its
destination and predicate register. -/
def Delivers (i : Instr) (s : State) (mk : Marker) (g : Guard) (len : Nat) (sz : Size) (d : Dst) (set : PredSet)
    (result : Thread → Res sz → Prop) : Prop :=
  ResultReady s mk g sz d result →
    Completes i s mk g len (fun th range => ∃ r, result th r ∧ range ∈ r.reads) fun old new =>
      ∃ r, result old r ∧ RegsAfter sz d set r.val r.carry r.overflow old new

/-- No predicate write: the short and immediate layouts (R29). -/
abbrev noSet : PredSet := ⟨false, 0#2⟩

/-- A 6-bit destination field as a destination. -/
abbrev lowDst (d : BitVec 6) : Dst := .reg (d.setWidth 7)

/-- `Delivers` for a long instruction. -/
abbrev DeliversLong (i : Instr) (s : State) (ctl : Ctl) (sz : Size) (d : Dst) (set : PredSet)
    (result : Thread → Res sz → Prop) : Prop :=
  Delivers i s ctl.marker ctl.guard 8 sz d set result

/-- `Delivers` for an immediate instruction: every active lane, 8 bytes, no marker, no predicate write. -/
abbrev DeliversImm (i : Instr) (s : State) (sz : Size) (d : Dst) (result : Thread → Res sz → Prop) : Prop :=
  Delivers i s .normal Guard.open 8 sz d noSet result

/-- `Delivers` for a short instruction: every active lane, 4 bytes, no marker, no predicate write. -/
abbrev DeliversShort (i : Instr) (s : State) (sz : Size) (d : Dst) (result : Thread → Res sz → Prop) : Prop :=
  Delivers i s .normal Guard.open 4 sz d noSet result

/-- What an instruction that writes an address register needs: the marker, and in each lane that takes part a
value, and a destination from A1 to A(NUM_AREG-1). -/
def AregReady (s : State) (mk : Marker) (g : Guard) (a : Nat) (value : Thread → Word → Prop) : Prop :=
  MarkerReady mk s.warp ∧ LanesReady s g fun t => (0 < a ∧ a < aregCount s.params) ∧ ∃ v, value t v

/-- What an instruction that stores needs: the marker; in each lane that takes part a store that is aligned and
in range and meets no race; and no two lanes that put different values into one byte (R51, R60, R65). -/
def StoreReady (s : State) (mk : Marker) (g : Guard) (store : Thread → Store → Prop) : Prop :=
  MarkerReady mk s.warp ∧
    (LanesReady s g fun t => ∃ st, store t st ∧ st.addr % st.bytes = 0 ∧
      st.addr + st.bytes ≤ spaceSize s.params st.space ∧
      Unraced s true [⟨st.space, st.addr, st.bytes⟩]) ∧
    ∀ l ∈ s.warp.lanes, ∀ l' ∈ s.warp.lanes, Takes g l → Takes g l' →
      ∀ st st', store l.thread st → store l'.thread st' → st.clash s.params.endian st' = false

/-- The memory after a storing instruction: the bytes of each store of a lane that takes part hold the low bytes
of its value, and every other byte of every space reads as before. -/
def BytesStored (s t : State) (g : Guard) (store : Thread → Store → Prop) : Prop :=
  (∀ l ∈ s.warp.lanes, Takes g l → ∀ st, store l.thread st → ∀ k < st.bytes,
    t.byteAt st.space (st.addr + k) = (bytesOf s.params.endian st.bytes st.value)[k]?) ∧
  ∀ sp x, x < 2 ^ 32 →
    (∀ l ∈ s.warp.lanes, Takes g l → ∀ st, store l.thread st →
      ¬ (st.space = sp ∧ st.addr ≤ x ∧ x < st.addr + st.bytes)) →
    t.byteAt sp x = s.byteAt sp x

/-- A storing instruction that is ready completes: no register changes, the bytes are stored, and each store is
recorded as a write. -/
def StoresBytes (i : Instr) (s : State) (ctl : Ctl) (store : Thread → Store → Prop) : Prop :=
  StoreReady s ctl.marker ctl.guard store →
    ∃ t, exec i s = .next t ∧ ControlAfter s t ctl.marker 8 ∧ SameOutside s t ∧
      BytesStored s t ctl.guard store ∧
      LogAfter s t ctl.guard (fun th a => ∃ st, store th st ∧ a = s.accessBy st.space st.addr st.bytes true) ∧
      LanesAfter ctl.guard (fun old new => new = old) s t

/-! ### Floating-point numbers -/

/-- A binary32 word that is neither a NaN nor an infinity (R12). -/
abbrev F32Finite (a : Word) : Prop := a.extractLsb' 23 8 ≠ 255#8

/-- The number in a finite binary32 word: sign bit 31, exponent 30:23, fraction 22:0 (R12). PRESUMED,
notes/assumptions/47.md. -/
def f32Value (a : Word) : ℚ :=
  let e := (a.extractLsb' 23 8).toNat
  let f := (a.extractLsb' 0 23).toNat
  (if a.getLsbD 31 then -1 else 1) * (if e = 0 then (f : ℚ) else 2 ^ 23 + f) * 2 ^ ((max e 1 : ℕ) - 150 : ℤ)

/-- The integer in a 32-bit register (R12). -/
abbrev intValue (signed : Bool) (v : Word) : ℤ := if signed then v.toInt else v.toNat

/-- The least and the greatest integer of a 32-bit register. -/
abbrev intLow (signed : Bool) : ℚ := if signed then -2 ^ 31 else 0

/-- See `intLow`. -/
abbrev intHigh (signed : Bool) : ℚ := if signed then 2 ^ 31 - 1 else 2 ^ 32 - 1

end Sys2Proof.Machine
end

