-- ==== Sys2Proof/Certificates/Slice0/Obligations.lean ====
section
/-!
DEFINITION. The statements for the provers. Each docstring says what it states and which rules it rests on; the
words `Delivers`, `Completes`, `StoresBytes` and the others are those of Sys2Proof/Safety.lean. "Decision Dn" is a
decision of spec/92_eei_decisions.md, the spec's own choice where its source is silent; "log n" is
notes/assumptions/n.md, the model's. Every hypothesis is on the state and the operands alone, and each has a witness
in Sys2Proof/Tests/Slice0.lean.
-/
section
open Sys2Proof Sys2Proof.Machine

/-! ### The step, the decoder, the encoder -/

/-- R130: the step of the warp in turn is the instruction that its fetched word decodes to, run with that word kept
for the report; a machine of one running warp has that warp in turn. -/
def Obligations.StepRunsDecoded : Prop :=
  (∀ (s s' : State) (w : Long) (i : Instr), s.turn = .run s' → s'.fetch = .ok w → decodeWord w = .ok i →
    step s = exec i (s'.withIr w)) ∧
  ∀ s : State, s.rest = [] → s.warp.status = .running → s.turn = .run s

/-- R43, R53, R130: where the code holds the bytes of a well-formed instruction at the pc of the only warp, inside
the code and at a multiple of 4, the step runs exactly that instruction. Byte order and the order of the two words
are the spec's decision D1. -/
def Obligations.StepRunsStoredBytes : Prop :=
  ∀ (s : State) (i : Instr), s.rest = [] → s.warp.status = .running → s.params.endian = .little → i.wf →
    s.warp.pc % 4 = 0 → s.warp.pc + i.length ≤ spaceSize s.params .code →
    (∀ k < i.length, s.code.byteAt (s.warp.pc + k) = (encodeBytes i)[k]?) →
    step s = exec i (s.withIr (encode i))

/-- Words that the spec prints for one instruction of each family decode to that instruction. -/
def Obligations.DecodesPrintedWords : Prop :=
  decodeWord 0x000002801001D003#64 = .ok (.bra 0xe8#18 ⟨.lg, 0#2⟩) ∧
  decodeWord 0x00000000A001D003#64 = .ok (.ssy 0xe8#16 0#5 0#2) ∧
  decodeWord 0xE0000002F0000001#64 = .ok (.nop .join) ∧
  decodeWord 0x044007C021000001#64 =
    .ok (.iadd ⟨.normal, ⟨.always, 0#2⟩⟩ (.reg 0#7) ⟨true, 0#2⟩ (.reg 0#7) (.const 1#4 0#7) .b32 false) ∧
  decodeWord 0x6C0107C8307C05FD#64 =
    .ok (.iset ⟨.normal, ⟨.always, 0#2⟩⟩ .discard ⟨true, 0#2⟩ (.reg 2#7) (.reg 124#7) ⟨false, false, true, false⟩
      .b32 true) ∧
  decodeWord 0x0000000040021A20#64 = .ok (.imul32 8#6 (.reg 13#6) 2#6 false) ∧
  decodeWord 0x00000043200C8825#64 = .ok (.iadd32i 9#7 (.reg 4#6) 0x40C#32) ∧
  decodeWord 0xA0C00781D00E0029#64 = .ok (.gst ⟨.exit, ⟨.always, 0#2⟩⟩ 10#7 0#7 .u32) ∧
  decodeWord 0xE422C78004001801#64 = .ok (.r2g ⟨.normal, ⟨.always, 0#2⟩⟩ 0xc#14 1#3 11#7 .b32 false) ∧
  decodeWord 0x0440C780E08C0C09#64 =
    .ok (.fmad ⟨.normal, ⟨.always, 0#2⟩⟩ (.reg 2#7) ⟨false, 0#2⟩ (.reg 6#7) (.const 1#4 0xc#7) (.reg 3#7)
      true false) ∧
  decodeWord 0xC0004780B000040D#64 =
    .ok (.rro ⟨.normal, ⟨.always, 0#2⟩⟩ (.reg 3#7) ⟨false, 0#2⟩ 2#7 .ex2)

/-- R10, R80 to R111: decoding the word of a well-formed instruction gives the instruction back, for all 55. -/
def Obligations.DecodeOfEncode : Prop :=
  ∀ i : Instr, i.wf → decodeWord (encode i) = .ok i

/-- R120: a word that decodes is the word of its instruction; no bit is dropped. A short word is its low 32 bits. -/
def Obligations.EncodeOfDecode : Prop :=
  ∀ (w : Long) (i : Instr), decodeWord w = .ok i →
    i.wf ∧ encode i = if w.getLsbD 0 then w else (w.extractLsb' 0 32).setWidth 64

/-- R80: an instruction is one 32-bit word, or two, low word first; bit 0 of the word at the pc says which, and only
then is the second word read. So the bytes of a well-formed instruction, whatever follows them, decode to it. The
order of the two words and of their bytes is the spec's decision D1, log 3. -/
def Obligations.ShortAndLongWords : Prop :=
  (∀ (s : State) (lo : Word), s.warp.pc % 4 = 0 → s.codeWord s.warp.pc s.warp.pc = .ok lo →
    (lo.getLsbD 0 = false → s.fetch = .ok (lo.setWidth 64)) ∧
    (lo.getLsbD 0 = true → ∀ hi, s.codeWord s.warp.pc (s.warp.pc + 4) = .ok hi → s.fetch = .ok (hi ++ lo)) ∧
    (lo.getLsbD 0 = true → ∀ c, s.codeWord s.warp.pc (s.warp.pc + 4) = .error c → s.fetch = .error c)) ∧
  (∀ i : Instr, (encode i).getLsbD 0 = decide (i.length = 8) ∧ (i.length = 4 ∨ i.length = 8) ∧
    (i.length = 4 → encode i = ((encode i).extractLsb' 0 32).setWidth 64)) ∧
  ∀ (i : Instr) (rest : List Byte), i.wf → decodeBytes (encodeBytes i ++ rest) = .ok (i, rest)

/-! ### The whole machine -/

/-- The reset state meets the invariant. -/
def Obligations.ResetMeetsInv : Prop := State.reset.Inv

/-- Every step keeps the invariant: memories canonical, every warp stack within `STACK_DEPTH`, every running or
waiting warp with an active lane, every finished warp with none and an empty stack, no warp twice. -/
def Obligations.StepKeepsInv : Prop :=
  ∀ s t : State, s.Inv → step s = .next t → t.Inv

/-- R44, R258, R270: the warps of a launch are one for each block below GRID_BLOCKS and each number below the warps
per block, as many as a block's threads need and at least one; every warp starts at pc 0, running, with an empty
stack; its active lanes are those that hold a thread of the block, the others are in `done`, and no lane has returned;
each lane has the registers the launch gives it. R44 is the spec's decision D18, R258 its decision D21: the source
gives no launch values. -/
def Obligations.LaunchStartsWarps : Prop :=
  (∀ (p : Params) (thread : Nat → Nat → Thread) (b index : Nat),
    let w := launchWarp p thread b index
    w.pc = 0 ∧ w.stack = [] ∧ w.status = .running ∧ w.lanes.length = p.warpSize ∧ w.block = b ∧ w.index = index ∧
      ∀ i < p.warpSize, ∃ l, w.lanes[i]? = some l ∧
        l.status = (if index * p.warpSize + i < p.blockThreads then .active else .ended) ∧
        l.thread = thread b (index * p.warpSize + i)) ∧
  (∀ (p : Params) (thread : Nat → Nat → Thread) (global shared const code : Memory), 0 < p.gridBlocks →
    let s := State.launch p thread global shared const code
    s.params = p ∧ s.everyWarp.length = p.gridBlocks * p.warpsPerBlock ∧
      (∀ w ∈ s.everyWarp, ∃ b < p.gridBlocks, ∃ i < p.warpsPerBlock, w = launchWarp p thread b i) ∧
      ∀ b < p.gridBlocks, ∀ i < p.warpsPerBlock, ∃! k : Nat, s.everyWarp[k]? = some (launchWarp p thread b i)) ∧
  ∀ p : Params, 0 < p.warpSize → p.blockThreads ≤ p.warpsPerBlock * p.warpSize ∧
    (p.warpsPerBlock = 1 ∨ (p.warpsPerBlock - 1) * p.warpSize < p.blockThreads)

/-- The reset state is a launch with nothing in memory: pc 0, one active lane, an empty stack, no byte of any space
listed (R44). Every register holding 0 is the model's choice, notes/assumptions/1.md. The launch values are the
spec's decision D18; the sizes are log 2 and 3. -/
def Obligations.ResetState : Prop :=
  State.reset.warp.pc = 0 ∧ State.reset.warp.active = [0] ∧ State.reset.warp.stack = [] ∧
    State.reset.warp.status = .running ∧ State.reset.rest = [] ∧
    (∀ sp a, State.reset.byteAt sp a = none) ∧
    ∀ l ∈ State.reset.warp.lanes, (∀ n < 124, readGpr State.reset.params l.thread n = .ok 0#32) ∧
      (∀ q, readPred l.thread q = .ok ⟨false, false, false, false⟩) ∧ ∀ a < 5, readAreg State.reset.params l.thread a = .ok 0#32

/-- R36: a lane that has ended is never changed again: its status and its registers stay, whatever step the machine
takes, and no warp disappears. R36 is the spec's decision D22. -/
def Obligations.EndedLanesStay : Prop :=
  ∀ s t : State, s.Inv → step s = .next t → ∀ w ∈ s.everyWarp, ∃ w' ∈ t.everyWarp,
    w'.block = w.block ∧ w'.index = w.index ∧ w'.lanes.length = w.lanes.length ∧
      ∀ (j : Nat) (l : Lane), w.lanes[j]? = some l → l.status = .ended → w'.lanes[j]? = some l

/-- R41, R69: no step changes instruction memory, constant memory or the launch parameters, so a kernel cannot
change its own code. R69 is the spec's decision D19. -/
def Obligations.CodeAndConstantsFixed : Prop :=
  ∀ s t : State, step s = .next t → t.code = s.code ∧ t.const = s.const ∧ t.params = s.params

/-- R33, R180: only GST changes global memory, only R2G shared memory, and only R2A and ADA an address register. -/
def Obligations.OnlyTheirWritersWrite : Prop :=
  ∀ (i : Instr) (s t : State), exec i s = .next t →
    ((∀ ctl dreg areg ty, i ≠ .gst ctl dreg areg ty) → t.global = s.global) ∧
    ((∀ ctl off a s3 sz sg, i ≠ .r2g ctl off a s3 sz sg) → t.shared = s.shared) ∧
    ((∀ ctl da s1 imm, i ≠ .r2a ctl da s1 imm) → (∀ ctl da a imm, i ≠ .ada ctl da a imm) →
      ∀ (j : Nat) (l l' : Lane), s.warp.lanes[j]? = some l → t.warp.lanes[j]? = some l' →
        l'.thread.areg = l.thread.areg)

/-- R259, R105: an instruction changes only the warp that runs it, keeps its lanes in number, and leaves the
registers of every lane that is not active. Lock step is the spec's decision D4. -/
def Obligations.OnlyActiveLanesChange : Prop :=
  ∀ (i : Instr) (s t : State), exec i s = .next t →
    t.rest = s.rest ∧ t.warp.block = s.warp.block ∧ t.warp.index = s.warp.index ∧
      t.warp.lanes.length = s.warp.lanes.length ∧
      ∀ (j : Nat) (l l' : Lane), s.warp.lanes[j]? = some l → t.warp.lanes[j]? = some l' →
        l.status ≠ .active → l'.thread = l.thread

/-- R276: a run ends with `Finished` exactly when every warp has finished, and the outcome `Deadlock` cannot occur.
R276 is the spec's decision D22 and derives that `Deadlock` cannot occur; see log 44. -/
def Obligations.FinishedOrGoesOn : Prop :=
  ∀ s : State, (step s = .fault .finished ↔ ∀ w ∈ s.everyWarp, w.status = .finished) ∧ step s ≠ .fault .deadlock

/-! ### Control flow -/

/-- R131: a branch that every active lane takes goes to its absolute target; one that no active lane takes goes on;
registers, memory and the stack stay. The unit of the pc is the spec's decision D2. -/
def Obligations.BraUniform : Prop :=
  ∀ (tgt : BitVec 18) (g : Guard) (s : State),
    ((∀ l ∈ s.warp.lanes, l.status = .active → guardHolds g l.thread = .ok true) →
      exec (.bra tgt g) s = .next { s with warp := { s.warp with pc := tgt.toNat } }) ∧
    (s.warp.hasActive = true → (∀ l ∈ s.warp.lanes, l.status = .active → guardHolds g l.thread = .ok false) →
      exec (.bra tgt g) s = .next { s with warp := { s.warp with pc := s.warp.pc + 8 } })

/-- R132: a branch that splits the active lanes pushes one side and runs the other, as `DIVERGE_FIRST` says; with a
full stack it is `StackOverflow`. T are the lanes that take it, N the others. The warp stack is the spec's decision
D4. -/
def Obligations.BraDiverges : Prop :=
  ∀ (tgt : BitVec 18) (g : Guard) (s : State), LanesReady s g (fun _ => True) →
    (∃ l ∈ s.warp.lanes, Takes g l) → (∃ l ∈ s.warp.lanes, l.status = .active ∧ ¬ Takes g l) →
    ∃ T N : List Nat,
      (∀ n, n ∈ T ↔ ∃ l, s.warp.lanes[n]? = some l ∧ Takes g l) ∧
      (∀ n, n ∈ N ↔ ∃ l, s.warp.lanes[n]? = some l ∧ l.status = .active ∧ ¬ Takes g l) ∧
      (s.params.stackDepth ≤ s.warp.stack.length → exec (.bra tgt g) s = s.raise none .stackOverflow) ∧
      (s.warp.stack.length < s.params.stackDepth → ∃ t : State, exec (.bra tgt g) s = .next t ∧
        t = { s with warp := t.warp } ∧
        t.warp = { s.warp with pc := t.warp.pc, stack := t.warp.stack, lanes := t.warp.lanes } ∧
        (s.params.divergeFirst = .taken → t.warp.active = T ∧ t.warp.pc = tgt.toNat ∧
          t.warp.stack = ⟨.diverge, s.warp.pc + 8, N⟩ :: s.warp.stack) ∧
        (s.params.divergeFirst = .notTaken → t.warp.active = N ∧ t.warp.pc = s.warp.pc + 8 ∧
          t.warp.stack = ⟨.diverge, tgt.toNat, T⟩ :: s.warp.stack) ∧
        t.warp.threads = s.warp.threads ∧ t.warp.ended = s.warp.ended ∧ t.warp.returned = s.warp.returned)

/-- R133, R139: SSY pushes its address with the active lanes and goes on, whatever its guard field holds; CAL jumps
with every active lane, and with `CAL_LINK = stack` pushes the address after it. The warp stack is the spec's
decision D4, `CAL_LINK` its decision D14. -/
def Obligations.SsyAndCalPush : Prop :=
  (∀ (tgt : BitVec 16) (cc : BitVec 5) (pr : BitVec 2) (s : State), s.warp.stack.length < s.params.stackDepth →
    exec (.ssy tgt cc pr) s = .next { s with
      warp := { s.warp with pc := s.warp.pc + 8, stack := ⟨.sync, tgt.toNat, s.warp.active⟩ :: s.warp.stack } }) ∧
  (∀ (tgt : BitVec 19) (s : State), s.params.calLink = .none →
    exec (.cal tgt) s = .next { s with warp := { s.warp with pc := tgt.toNat } }) ∧
  (∀ (tgt : BitVec 19) (s : State), s.params.calLink = .stack → s.warp.stack.length < s.params.stackDepth →
    exec (.cal tgt) s = .next { s with
      warp := { s.warp with pc := tgt.toNat, stack := ⟨.call, s.warp.pc + 8, s.warp.active⟩ :: s.warp.stack } })

/-- R136: RET takes the lanes whose guard is true out of the active set: into `ret` inside a subroutine, else into
`done`; the other active lanes go on, and without one the warp resumes (R140). The lane sets are the spec's
decisions D4, D14 and D22. -/
def Obligations.RetRetiresLanes : Prop :=
  ∀ (g : Guard) (s : State), LanesReady s g (fun _ => True) → s.warp.hasActive = true →
    ∃ w : Warp, w = { s.warp with lanes := w.lanes } ∧ w.lanes.length = s.warp.lanes.length ∧
      (∀ (j : Nat) (l : Lane), s.warp.lanes[j]? = some l →
        (Takes g l → w.lanes[j]? = some { l with status :=
          if s.params.calLink = .stack ∧ ∃ e ∈ s.warp.stack, e.kind = .call then .returned else .ended }) ∧
        (¬ Takes g l → w.lanes[j]? = some l)) ∧
      ((∃ l ∈ s.warp.lanes, l.status = .active ∧ ¬ Takes g l) →
        exec (.ret g) s = .next { s with warp := { w with pc := s.warp.pc + 8 } }) ∧
      ((∀ l ∈ s.warp.lanes, l.status = .active → Takes g l) →
        exec (.ret g) s = .next { s with warp := w.resume })

/-- R135, R140: one pop. The entry leaves the stack, the pc is its address; an ended lane stays ended; a returned
lane stays returned unless the entry is the CALL that holds it; of the others the lanes of the mask are active and
the rest wait; no thread changes. With no active lane a warp finishes if its stack is empty; else it pops, and goes
on there if that makes a lane active, or looks at the next entry. What a pop does is the spec's decision D4. -/
def Obligations.PopAndResume : Prop :=
  (∀ w : Warp, w.hasActive = false →
    (w.stack = [] → w.resume = { w with status := .finished }) ∧
    ∀ e below, w.stack = e :: below →
      w.resume = if (w.popEntry e below).hasActive then w.popEntry e below else (w.popEntry e below).resume) ∧
  ∀ (w : Warp) (e : Entry) (below : List Entry),
    (w.popEntry e below).stack = below ∧ (w.popEntry e below).pc = e.addr ∧
    (w.popEntry e below).status = w.status ∧ (w.popEntry e below).threads = w.threads ∧
    ∀ (j : Nat) (l : Lane), w.lanes[j]? = some l → ∃ l', (w.popEntry e below).lanes[j]? = some l' ∧
      l'.status =
        if l.status = .ended then .ended
        else if l.status = .returned ∧ ¬ (e.kind = .call ∧ j ∈ e.mask) then .returned
        else if j ∈ e.mask then .active else .idle

/-- R137, R135, R141: NOP only advances the pc; with marker Exit every active lane ends and the warp resumes; with
marker Join one entry is popped and, without an active lane, the warp resumes; with an empty stack Join is
`StackUnderflow`. The markers are the spec's decision D3; see log 31. -/
def Obligations.NopMarkers : Prop :=
  ∀ s : State,
    exec (.nop .normal) s = .next { s with warp := { s.warp with pc := s.warp.pc + 8 } } ∧
    (∃ w : Warp, w = { s.warp with pc := s.warp.pc + 8, lanes := w.lanes } ∧
      w.lanes = s.warp.lanes.map (fun l => if l.status = .active then { l with status := .ended } else l) ∧
      exec (.nop .exit) s = .next { s with warp := w.resume }) ∧
    (∀ e below, s.warp.stack = e :: below → ∃ w : Warp,
      w = ({ s.warp with pc := s.warp.pc + 8 } : Warp).popEntry e below ∧
      exec (.nop .join) s = .next { s with warp := if w.hasActive then w else w.resume }) ∧
    (s.warp.stack = [] → exec (.nop .join) s = s.raise none .stackUnderflow)

/-- R134: BAR in a warp with an inactive unfinished lane is `BarrierDivergence`; else with `BAR_SCOPE = warp` the
warp goes on, and with `BAR_SCOPE = block` it waits at the BAR. `BAR_SCOPE` is the spec's decision D5; see log 44.
-/
def Obligations.BarWaits : Prop :=
  ∀ s : State,
    ((∃ l ∈ s.warp.lanes, l.status ≠ .active ∧ l.status ≠ .ended) → exec .bar s = s.raise none .barrierDivergence) ∧
    ((∀ l ∈ s.warp.lanes, l.status = .active ∨ l.status = .ended) →
      exec .bar s = .next (match s.params.barScope with
        | .warp => { s with warp := { s.warp with pc := s.warp.pc + 8 } }
        | .block => { s with warp := { s.warp with status := .atBarrier } }))

/-- R134: when the unfinished warps are those of one block and all wait, the next step is their release: each goes
on after its BAR, running; nothing else changes but the count of barriers each has passed. The release is the spec's
decision D5; the count of barriers is the model's own field, log 45. -/
def Obligations.BarrierReleases : Prop :=
  ∀ (s : State) (b : Nat),
    (∀ w ∈ s.everyWarp, w.status = .finished ∨ (w.status = .atBarrier ∧ w.block = b)) →
    (∃ w ∈ s.everyWarp, w.status = .atBarrier) →
    ∃ t : State, step s = .next t ∧ t = { s with warp := t.warp, rest := t.rest } ∧
      t.everyWarp = s.everyWarp.map fun w =>
        if w.status = .atBarrier then { w with status := .running, pc := w.pc + 8, epoch := w.epoch + 1 } else w

/-- R138, R248: TRAP traps its warp with everything else as it was; the next step of a machine with a trapped warp
in turn, no other warp stopped, is the outcome `Trapped` at the pc of the TRAP. The outcome is the spec's decision
D13; that the TRAP itself is a next state is the model's, log 19. -/
def Obligations.TrapEndsRun : Prop :=
  (∀ s : State, exec .trap s = .next { s with warp := { s.warp with status := .trapped } }) ∧
  ∀ s : State, s.warp.status = .trapped →
    (∀ w ∈ s.rest, w.status = .running ∨ w.status = .atBarrier ∨ w.status = .finished) →
    step s = .fault (.trapped ⟨s.warp.block, s.warp.index, none, s.warp.pc, s.ir⟩)

/-- R244: SSY and CAL with `CAL_LINK = stack` at a full stack are `StackOverflow`; a Join marker at an empty one is
`StackUnderflow`, for a MOV of a register and for every long instruction that would complete with the marker Normal.
The faults are the spec's decision D4; the meaning of the markers is its decision D3, and that a long instruction other
than NOP obeys them is the model's choice, log 31 (C7). -/
def Obligations.StackFaults : Prop :=
  (∀ (tgt : BitVec 16) (cc : BitVec 5) (pr : BitVec 2) (s : State), s.params.stackDepth ≤ s.warp.stack.length →
    exec (.ssy tgt cc pr) s = s.raise none .stackOverflow) ∧
  (∀ (tgt : BitVec 19) (s : State), s.params.calLink = .stack → s.params.stackDepth ≤ s.warp.stack.length →
    exec (.cal tgt) s = s.raise none .stackOverflow) ∧
  (∀ (d k : BitVec 7) (g : Guard) (sg : Bool) (s : State), s.warp.stack = [] →
    LanesReady s g (fun t => FieldExists s.params .b32 d.toNat ∧ ∃ v, readGpr s.params t k.toNat = .ok v) →
    exec (.mov ⟨.join, g⟩ d (.reg k) .b32 sg) s = s.raise none .stackUnderflow) ∧
  ∀ (i plain joined : Instr) (s t : State), s.warp.stack = [] → marked .normal i = some plain →
    marked .join i = some joined → exec plain s = .next t → exec joined s = s.raise none .stackUnderflow

/-! ### Integer instructions -/

/-- R154: I2I delivers its source, extended as its type says, negated modulo 2^32 where asked, cut to the
destination; Z and S from the result, C and O clear. A register gives its half, extended, for a 16-bit type and its
whole value for a 32-bit one; a shared operand gives the element of its type at (A[a] + off * n) mod 2^32, bytes and
halves extended. A register of a byte type, and an element of another type, are declined. Truncation and flags are
the spec's decisions D9 and D35. -/
def Obligations.I2iConverts : Prop :=
  (∀ (ctl : Ctl) (d : Dst) (set : PredSet) (s1 : Src1) (ty : CvtTy) (sz : Size) (sg neg : Bool) (s : State),
    s1.cvtProblem ty = none →
    DeliversLong (.i2i ctl d set s1 ty sz sg neg) s ctl sz d set fun t r =>
      ∃ x, readCvt s t s1 ty = .ok x ∧
        r = ⟨(if neg then -x.val else x.val).setWidth sz.bits, false, false, x.reads⟩) ∧
  (∀ (ctl : Ctl) (d : Dst) (set : PredSet) (s1 : Src1) (ty : CvtTy) (sz : Size) (sg neg : Bool) (s : State)
    (why : Reject), s1.cvtProblem ty = some why → exec (.i2i ctl d set s1 ty sz sg neg) s = s.refuse why) ∧
  (∀ (k : BitVec 7) (ty : CvtTy), (Src1.reg k).cvtProblem ty = none ↔ ty ≠ .u8 ∧ ty ≠ .s8) ∧
  (∀ (off : BitVec 5) (e : ElemTy) (a : BitVec 3) (ty : CvtTy), (Src1.shared off e a).cvtProblem ty = none ↔
    (e = .u8 ∧ (ty = .u8 ∨ ty = .s8)) ∨ (e = .u16 ∧ ty = .u16) ∨ (e = .s16 ∧ ty = .s16) ∨
      (e = .u32 ∧ (ty = .u32 ∨ ty = .s32))) ∧
  (∀ (s : State) (t : Thread) (k : BitVec 7) (h : Half), readHalf s.params t k.toNat = .ok h →
    readCvt s t (.reg k) .u16 = .ok ⟨BitVec.ofNat 32 h.toNat, []⟩ ∧
    readCvt s t (.reg k) .s16 = .ok ⟨BitVec.ofInt 32 h.toInt, []⟩) ∧
  (∀ (s : State) (t : Thread) (k : BitVec 7) (v : Word), readGpr s.params t k.toNat = .ok v →
    readCvt s t (.reg k) .u32 = .ok ⟨v, []⟩ ∧ readCvt s t (.reg k) .s32 = .ok ⟨v, []⟩) ∧
  ∀ (s : State) (t : Thread) (off : BitVec 5) (a : BitVec 3) (base : Word), readAreg s.params t a.toNat = .ok base →
    (∀ raw, s.load (.shared s.warp.block) ((base.toNat + off.toNat) % 2 ^ 32) 1 = .ok raw →
      readCvt s t (.shared off .u8 a) .u8 = .ok ⟨BitVec.ofNat 32 (raw.toNat % 2 ^ 8),
        [⟨.shared s.warp.block, (base.toNat + off.toNat) % 2 ^ 32, 1⟩]⟩ ∧
      readCvt s t (.shared off .u8 a) .s8 = .ok ⟨BitVec.ofInt 32 (raw.extractLsb' 0 8).toInt,
        [⟨.shared s.warp.block, (base.toNat + off.toNat) % 2 ^ 32, 1⟩]⟩) ∧
    (∀ raw, s.load (.shared s.warp.block) ((base.toNat + off.toNat * 2) % 2 ^ 32) 2 = .ok raw →
      readCvt s t (.shared off .u16 a) .u16 = .ok ⟨BitVec.ofNat 32 (raw.toNat % 2 ^ 16),
        [⟨.shared s.warp.block, (base.toNat + off.toNat * 2) % 2 ^ 32, 2⟩]⟩ ∧
      readCvt s t (.shared off .s16 a) .s16 = .ok ⟨BitVec.ofInt 32 (raw.extractLsb' 0 16).toInt,
        [⟨.shared s.warp.block, (base.toNat + off.toNat * 2) % 2 ^ 32, 2⟩]⟩) ∧
    ∀ raw, s.load (.shared s.warp.block) ((base.toNat + off.toNat * 4) % 2 ^ 32) 4 = .ok raw →
      readCvt s t (.shared off .u32 a) .u32 = .ok ⟨raw,
        [⟨.shared s.warp.block, (base.toNat + off.toNat * 4) % 2 ^ 32, 4⟩]⟩ ∧
      readCvt s t (.shared off .u32 a) .s32 = .ok ⟨raw,
        [⟨.shared s.warp.block, (base.toNat + off.toNat * 4) % 2 ^ 32, 4⟩]⟩

/-- R156 to R160: the 16-bit multiplies deliver the exact product of two halves as unsigned numbers; IMUL32I with
`w[8] = 1` the product of signed numbers modulo 2^32; the immediate gives its low 16 bits. The low 16 bits of a wide
immediate are the spec's decision D42 and log 24; flags are D9. -/
def Obligations.MultipliesHalves : Prop :=
  (∀ (ctl : Ctl) (d : Dst) (set : PredSet) (s1 : Src1) (s2 : BitVec 7) (s : State),
    DeliversLong (.imul ctl d set s1 s2) s ctl .b32 d set fun t r =>
      ∃ a b, readSrc1 s t .b16 s1 = .ok a ∧ readHalf s.params t s2.toNat = .ok b ∧
        r = ⟨BitVec.ofNat 32 (a.val.toNat * b.toNat), false, false, a.reads⟩) ∧
  (∀ (d : BitVec 6) (s1 : SrcS) (s2 : BitVec 6) (s : State),
    DeliversShort (.imul32 d s1 s2 false) s .b32 (lowDst d) fun t r =>
      ∃ a b, readSrcS s t .b16 s1 = .ok a ∧ readHalf s.params t s2.toNat = .ok b ∧
        r = ⟨BitVec.ofNat 32 (a.val.toNat * b.toNat), false, false, a.reads⟩) ∧
  ∀ (signed : Bool) (d s1 : BitVec 6) (imm : Word) (s : State),
    DeliversImm (.imul32i signed d s1 imm) s .b32 (lowDst d) fun t r =>
      ∃ a, readHalf s.params t s1.toNat = .ok a ∧
        r = ⟨if signed then BitVec.ofInt 32 (a.toInt * (imm.extractLsb' 0 16).toInt)
          else BitVec.ofNat 32 (a.toNat * (imm.toNat % 2 ^ 16)), false, false, []⟩

/-- R8, R158, R159, R172: in a launch that takes the parameter `MUL24` the 24-bit forms deliver what it says of
their whole-register sources; without it they are refused. The operand forms are the model's presumption, log 14;
the option is D24 and log 9. -/
def Obligations.TwentyFourBitForms : Prop :=
  (∀ (ctl : Ctl) (d : Dst) (set : PredSet) (s1 : Src1) (s2 : BitVec 7) (s : State),
    (s.params.mul24 = true →
      DeliversLong (.imul24 ctl d set s1 s2) s ctl .b32 d set fun t r =>
        ∃ a b, readSrc1 s t .b32 s1 = .ok a ∧ readGpr s.params t s2.toNat = .ok b ∧
          r = ⟨Config.mul24 a.val b, false, false, a.reads⟩) ∧
    (s.params.mul24 = false → exec (.imul24 ctl d set s1 s2) s = s.refuse .mul24Absent)) ∧
  (∀ (d : BitVec 6) (s1 : SrcS) (s2 : BitVec 6) (s : State),
    (s.params.mul24 = true →
      DeliversShort (.imul32 d s1 s2 true) s .b32 (lowDst d) fun t r =>
        ∃ a b, readSrcS s t .b32 s1 = .ok a ∧ readGpr s.params t s2.toNat = .ok b ∧
          r = ⟨Config.mul24 a.val b, false, false, a.reads⟩) ∧
    (s.params.mul24 = false → exec (.imul32 d s1 s2 true) s = s.refuse .mul24Absent)) ∧
  ∀ (ctl : Ctl) (d : Dst) (set : PredSet) (s1 : Src1) (s2 : SrcB) (s3 : BitVec 7) (s : State),
    (s.params.mul24 = true → srcSegProblem s.params s2 = none →
      DeliversLong (.imad24 ctl d set s1 s2 s3) s ctl .b32 d set fun t r =>
        ∃ a b c, readSrc1 s t .b32 s1 = .ok a ∧ readSrcB s t .b32 s2 = .ok b ∧
          readGpr s.params t s3.toNat = .ok c ∧ r = ⟨Config.mad24 a.val b c, false, false, a.reads⟩) ∧
    (s.params.mul24 = false → exec (.imad24 ctl d set s1 s2 s3) s = s.refuse .mul24Absent)

/-- R161 to R163: SHL delivers the source times 2^m modulo 2^n, for every amount m; SHR the quotient by 2^m rounded
down, of the unsigned or with `sg` the signed number. Neither writes a flag. The amount m is the 5-bit immediate, or
the whole register as an unsigned number. Amounts at or above the width are the
spec's decision D30 and log 35; a shared source is the model's choice, log 29. -/
def Obligations.ShiftsDeliver : Prop :=
  (∀ (ctl : Ctl) (d : BitVec 7) (s1 : Src1) (amt : Amount) (sz : Size) (sg : Bool) (s : State),
    amt.problem sz = none →
    DeliversLong (.shl ctl d s1 amt sz sg) s ctl sz (.reg d) noSet fun t r =>
      ∃ x m, readSrc1 s t sz s1 = .ok x ∧ readAmount s t amt = .ok m ∧
        r = ⟨BitVec.ofNat sz.bits (x.val.toNat * 2 ^ m), false, false, x.reads⟩) ∧
  (∀ (s : State) (t : Thread) (m : BitVec 5), readAmount s t (.imm m) = .ok m.toNat) ∧
  (∀ (s : State) (t : Thread) (k : BitVec 5) (v : Word), readGpr s.params t k.toNat = .ok v →
    readAmount s t (.reg k) = .ok v.toNat) ∧
  ∀ (ctl : Ctl) (d : BitVec 7) (s1 : Src1) (amt : Amount) (sz : Size) (sg : Bool) (s : State),
    amt.problem sz = none →
    DeliversLong (.shr ctl d s1 amt sz sg) s ctl sz (.reg d) noSet fun t r =>
      ∃ x m, readSrc1 s t sz s1 = .ok x ∧ readAmount s t amt = .ok m ∧
        r = ⟨if sg then BitVec.ofInt sz.bits (x.val.toInt / 2 ^ m) else BitVec.ofNat sz.bits (x.val.toNat / 2 ^ m),
          false, false, x.reads⟩

/-- R151, R165 to R167: IADD delivers the sum, or the difference with `w[59]`, modulo 2^n; C is the carry out (for a
difference, no borrow), O says that the exact signed result does not fit. IADD.CARRYn adds the C flag of its
predicate register too. The difference is the model's choice, log 20; the flags are the spec's decisions D9 and D34.
-/
def Obligations.IaddAddsWithFlags : Prop :=
  (∀ (ctl : Ctl) (d : Dst) (set : PredSet) (s1 : Src1) (s3 : SrcB) (sz : Size) (s : State),
    srcSegProblem s.params s3 = none →
    DeliversLong (.iadd ctl d set s1 s3 sz false) s ctl sz d set fun t r =>
      ∃ a b, readSrc1 s t sz s1 = .ok a ∧ readSrcB s t sz s3 = .ok b ∧
        r = ⟨a.val + b, decide (2 ^ sz.bits ≤ a.val.toNat + b.toNat),
          decide ((a.val + b).toInt ≠ a.val.toInt + b.toInt), a.reads⟩) ∧
  (∀ (ctl : Ctl) (d : Dst) (set : PredSet) (s1 : Src1) (s3 : SrcB) (sz : Size) (s : State),
    srcSegProblem s.params s3 = none →
    DeliversLong (.iadd ctl d set s1 s3 sz true) s ctl sz d set fun t r =>
      ∃ a b, readSrc1 s t sz s1 = .ok a ∧ readSrcB s t sz s3 = .ok b ∧
        r = ⟨a.val - b, decide (b.toNat ≤ a.val.toNat),
          decide ((a.val - b).toInt ≠ a.val.toInt - b.toInt), a.reads⟩) ∧
  ∀ (mk : Marker) (pr : BitVec 2) (d : Dst) (set : PredSet) (s1 : Src1) (s3 : SrcB) (sz : Size) (s : State),
    srcSegProblem s.params s3 = none →
    Delivers (.iaddc mk pr d set s1 s3 sz) s mk ⟨.always, pr⟩ 8 sz d set fun t r =>
      ∃ a b f, readSrc1 s t sz s1 = .ok a ∧ readSrcB s t sz s3 = .ok b ∧ readPred t pr = .ok f ∧
        r.val = BitVec.ofNat sz.bits (a.val.toNat + b.toNat + f.c.toNat) ∧
        r.carry = decide (2 ^ sz.bits ≤ a.val.toNat + b.toNat + f.c.toNat) ∧
        r.overflow = decide (r.val.toInt ≠ a.val.toInt + b.toInt + f.c.toNat) ∧ r.reads = a.reads

/-- R168, R169: the short and immediate additions deliver the sum modulo 2^n, with no guard and no flags. The 16-bit
form is the model's choice, log 23; wrapping is the spec's decision D41. -/
def Obligations.ShortAdditions : Prop :=
  (∀ (d : BitVec 7) (s1 : SrcS) (s2 : BitVec 6) (sz : Size) (s : State),
    DeliversShort (.iadd32 d s1 s2 sz) s sz (.reg d) fun t r =>
      ∃ a b, readSrcS s t sz s1 = .ok a ∧ readReg s.params t sz s2.toNat = .ok b ∧
        r = ⟨BitVec.ofNat sz.bits (a.val.toNat + b.toNat), false, false, a.reads⟩) ∧
  ∀ (d : BitVec 7) (s1 : SrcS) (imm : Word) (s : State),
    DeliversImm (.iadd32i d s1 imm) s .b32 (.reg d) fun t r =>
      ∃ a, readSrcS s t .b32 s1 = .ok a ∧
        r = ⟨BitVec.ofNat 32 (a.val.toNat + imm.toNat), false, false, a.reads⟩

/-- R151, R171: IMAD delivers product plus addend modulo 2^32, either one negated where its bit says so; C is the
carry of that addition and O is clear. A negation is the model's choice, log 21; the flags are the spec's decision
D9. -/
def Obligations.ImadDelivers : Prop :=
  ∀ (ctl : Ctl) (d : Dst) (set : PredSet) (s1 : Src1) (s2 : SrcB) (s3 : BitVec 7) (neg1 neg3 : Bool) (s : State),
    srcSegProblem s.params s2 = none →
    DeliversLong (.imad ctl d set s1 s2 s3 neg1 neg3) s ctl .b32 d set fun t r =>
      ∃ (a : Val 16) (b : Half) (c p q : Word), readSrc1 s t .b16 s1 = .ok a ∧ readSrcB s t .b16 s2 = .ok b ∧
        readGpr s.params t s3.toNat = .ok c ∧
        p = (if neg1 then -BitVec.ofNat 32 (a.val.toNat * b.toNat) else BitVec.ofNat 32 (a.val.toNat * b.toNat)) ∧
        q = (if neg3 then -c else c) ∧
        r = ⟨p + q, decide (2 ^ 32 ≤ p.toNat + q.toNat), false, a.reads⟩

/-- R173, R174: the short and immediate multiply-adds add the product to their destination, modulo 2^32; which half
a source field names is `IMAD32_HALF`. The wide immediate is log 24; the numbering `text` is deduced, log 8. -/
def Obligations.ShortMultiplyAdds : Prop :=
  (∀ (d s1 s2 : BitVec 6) (s : State),
    DeliversShort (.imad32 d s1 s2) s .b32 (lowDst d) fun t r =>
      ∃ a b c, readHalf s.params t (imad32Field s.params s1) = .ok a ∧
        readHalf s.params t (imad32Field s.params s2) = .ok b ∧ readGpr s.params t d.toNat = .ok c ∧
        r = ⟨BitVec.ofNat 32 (a.toNat * b.toNat + c.toNat), false, false, []⟩) ∧
  (∀ (signed : Bool) (d s1 : BitVec 6) (imm : Word) (s : State),
    DeliversImm (.imad32i signed d s1 imm) s .b32 (lowDst d) fun t r =>
      ∃ a c, readHalf s.params t (imad32Field s.params s1) = .ok a ∧ readGpr s.params t d.toNat = .ok c ∧
        r = ⟨if signed then BitVec.ofInt 32 (a.toInt * (imm.extractLsb' 0 16).toInt + c.toInt)
          else BitVec.ofNat 32 (a.toNat * (imm.toNat % 2 ^ 16) + c.toNat), false, false, []⟩) ∧
  ∀ (p : Params) (k : BitVec 6),
    (p.imad32Half = .common → imad32Field p k = k.toNat) ∧
    (p.imad32Half = .text → imad32Field p k / 2 = k.toNat / 2 ∧ imad32Field p k % 2 = 1 - k.toNat % 2)

/-- R175, R176: LOP bit by bit, each source inverted where its bit says so; PASS_B does not read source 1. Inverting
source 1 is the model's choice, log 22; the flags are the spec's decision D9. -/
def Obligations.LopBitwise : Prop :=
  ∀ (ctl : Ctl) (d : Dst) (set : PredSet) (s1 : Src1) (s2 : SrcB) (op : LogicOp) (inv1 inv2 : Bool) (sz : Size)
    (sg : Bool) (s : State), srcSegProblem s.params s2 = none →
    DeliversLong (.lop ctl d set s1 s2 op inv1 inv2 sz sg) s ctl sz d set fun t r =>
      ∃ (b : BitVec sz.bits), readSrcB s t sz s2 = .ok b ∧ r.carry = false ∧ r.overflow = false ∧
        ((op = .passB ∧ r.reads = [] ∧ ∀ i < sz.bits, r.val.getLsbD i = (b.getLsbD i ^^ inv2)) ∨
          ∃ a, readSrc1 s t sz s1 = .ok a ∧ r.reads = a.reads ∧
            ∀ i < sz.bits,
              (op = .and ∧ r.val.getLsbD i = ((a.val.getLsbD i ^^ inv1) && (b.getLsbD i ^^ inv2))) ∨
              (op = .or ∧ r.val.getLsbD i = ((a.val.getLsbD i ^^ inv1) || (b.getLsbD i ^^ inv2))) ∨
              (op = .xor ∧ r.val.getLsbD i = ((a.val.getLsbD i ^^ inv1) ^^ (b.getLsbD i ^^ inv2))))

/-- R177, R178: ISET delivers all ones where the relation of its operands, as signed or unsigned n-bit numbers, is
in the comparison set, and 0 elsewhere. All ones or 0, and the flags, are the spec's decisions D9 and D10. -/
def Obligations.IsetCompares : Prop :=
  ∀ (ctl : Ctl) (d : Dst) (set : PredSet) (s1 : Src1) (s2 : SrcB) (cmp : CmpSet) (sz : Size) (sg : Bool) (s : State),
    srcSegProblem s.params s2 = none →
    DeliversLong (.iset ctl d set s1 s2 cmp sz sg) s ctl sz d set fun t r =>
      ∃ a b, readSrc1 s t sz s1 = .ok a ∧ readSrcB s t sz s2 = .ok b ∧
        r.carry = false ∧ r.overflow = false ∧ r.reads = a.reads ∧
        ∃ x y : Int, (x = if sg then a.val.toInt else (a.val.toNat : Int)) ∧
          (y = if sg then b.toInt else (b.toNat : Int)) ∧
          r.val = if (cmp.less = true ∧ x < y) ∨ (cmp.equal = true ∧ x = y) ∨ (cmp.greater = true ∧ y < x)
            then BitVec.allOnes sz.bits else 0#sz.bits

/-- R106, R151, R166: after the subtraction a - b the guard conditions compare the operands: L, E, LE, G, LG, GE as
signed numbers; C, A, NC, NA as unsigned ones. And for all 24 codes of R106 the condition that the code names, with
its formula, in every setting of the flags; codes 0x14 to 0x1b name none. The formulas of R106 are restored by the
spec and the flags are its decision D9; the subtraction is log 20. -/
def Obligations.ConditionsAfterSubtract : Prop :=
  (∀ (code : BitVec 5) (cond : Cond) (f : Flags), decCond code = .ok cond →
    condHolds cond f = match code.toNat with
      | 0x00 => false
      | 0x01 => (f.s && !f.z) ^^ f.o
      | 0x02 => f.z && !f.s
      | 0x03 => f.s ^^ (f.z || f.o)
      | 0x04 => !f.z && !(f.s ^^ f.o)
      | 0x05 => !f.z
      | 0x06 => !(f.s ^^ f.o)
      | 0x07 => !f.z || !f.s
      | 0x08 => f.z && f.s
      | 0x09 => f.s ^^ f.o
      | 0x0a => f.z
      | 0x0b => f.z || (f.s ^^ f.o)
      | 0x0c => !f.s ^^ (f.z || f.o)
      | 0x0d => !f.z || f.s
      | 0x0e => (!f.s || f.z) ^^ f.o
      | 0x0f => true
      | 0x10 => f.o
      | 0x11 => f.c
      | 0x12 => !f.z && f.c
      | 0x13 => f.s
      | 0x1c => !f.s
      | 0x1d => f.z || !f.c
      | 0x1e => !f.c
      | _ => !f.o) ∧
  (∀ code : BitVec 5, (∃ cond, decCond code = .ok cond) ↔ code.toNat < 0x14 ∨ 0x1c ≤ code.toNat) ∧
  ∀ (sz : Size) (a b : BitVec sz.bits),
    let r := addN a (~~~b) true
    let f := flagsOf r.val r.carry r.overflow
    condHolds .l f = decide (a.toInt < b.toInt) ∧ condHolds .e f = decide (a = b) ∧
      condHolds .le f = decide (a.toInt ≤ b.toInt) ∧ condHolds .g f = decide (b.toInt < a.toInt) ∧
      condHolds .lg f = decide (a ≠ b) ∧ condHolds .ge f = decide (b.toInt ≤ a.toInt) ∧
      condHolds .c f = decide (b.toNat ≤ a.toNat) ∧ condHolds .a f = decide (b.toNat < a.toNat) ∧
      condHolds .nc f = decide (a.toNat < b.toNat) ∧ condHolds .na f = decide (a.toNat ≤ b.toNat)

/-! ### Data handling and memory -/

/-- R181: MVC delivers the constant at (A[a] + off * n) mod 2^32 of its segment, extended as its sign flag says; Z
and S from the value written. And R99, R74: a constant operand of another instruction is the element of the operation
size at off * n of its segment, with no address register, or what the load of it faults with. The scaling of the
offset is the spec's decision D26; that a source-2 or source-3 constant may stand in any segment, not in segment 1
only, is the model's choice, log 28 (D27, C26); the 4-byte element of the 24-bit IMAD is log 14. -/
def Obligations.MvcLoadsConstant : Prop :=
  (∀ (s : State) (t : Thread) (seg : BitVec 4) (off : BitVec 7),
    (∀ raw, s.load (.const seg.toNat) (off.toNat * 4) 4 = .ok raw → readSrcB s t .b32 (.const seg off) = .ok raw) ∧
    (∀ raw, s.load (.const seg.toNat) (off.toNat * 2) 2 = .ok raw →
      readSrcB s t .b16 (.const seg off) = .ok (BitVec.ofNat 16 raw.toNat)) ∧
    (∀ e, s.load (.const seg.toNat) (off.toNat * 4) 4 = .error e → readSrcB s t .b32 (.const seg off) = .error e) ∧
    ∀ e, s.load (.const seg.toNat) (off.toNat * 2) 2 = .error e → readSrcB s t .b16 (.const seg off) = .error e) ∧
  ∀ (ctl : Ctl) (d : BitVec 7) (set : PredSet) (seg : BitVec 4) (off : BitVec 7) (a : BitVec 3) (width : Width)
    (sz : Size) (sg : Bool) (s : State), segProblem s.params seg = none →
    DeliversLong (.mvc ctl d set seg off a width sz sg) s ctl sz (.reg d) set fun t r =>
      ∃ (base raw x : Word), readAreg s.params t a.toNat = .ok base ∧
        s.load (.const seg.toNat) ((base.toNat + off.toNat * widthBytes width) % 2 ^ 32) (widthBytes width) =
          .ok raw ∧
        x = (match width with
          | .w8 => if sg then (raw.setWidth 8).signExtend 32 else (raw.setWidth 8).setWidth 32
          | .w16 => if sg then (raw.setWidth 16).signExtend 32 else (raw.setWidth 16).setWidth 32
          | .w32 => raw) ∧
        r = ⟨x.setWidth sz.bits, false, false, []⟩

/-- R182: GLD delivers the bytes of global memory at the whole value of its address register, extended as its type
says, into a whole register; no flag. Its faults are those of its registers, `MisalignedAccess`, `AddressOutOfRange`
and `UninitialisedMemory`: the first lane that meets one of them stops the instruction, if no lane's load races, and it
completes only where no lane meets any. A well-formed GLD is the word with exactly the fields of the rule; with the
size codes 100 and 101 such a word is refused; the three words of the rule are. The faults are R51's and R242's
(decisions D16, D28, D29), the space is decision D33, races are R65 and R247 (D17, D43) by the criterion of log 17, and
a byte that holds no value is log 11. -/
def Obligations.GldLoadsGlobal : Prop :=
  (∀ (ctl : Ctl) (d areg : BitVec 7) (ty : GlobalTy) (s t : State), exec (.gld ctl d areg ty) s = .next t →
    ∀ l ∈ s.warp.lanes, Takes ctl.guard l → FieldExists s.params .b32 d.toNat ∧ ∃ addr,
      readGpr s.params l.thread areg.toNat = .ok addr ∧ addr.toNat % globalBytes ty = 0 ∧
      addr.toNat + globalBytes ty ≤ s.params.globalSize ∧
      ∀ k < globalBytes ty, s.byteAt .global (addr.toNat + k) ≠ none) ∧
  (∀ (ctl : Ctl) (d areg : BitVec 7) (ty : GlobalTy) (s : State) (i : Nat) (l : Lane) (c : Cause),
    s.warp.lanes[i]? = some l → Takes ctl.guard l →
    (∀ k < i, ∀ l', s.warp.lanes[k]? = some l' → l'.status ≠ .active ∨ guardHolds ctl.guard l'.thread = .ok false ∨
      guardHolds ctl.guard l'.thread = .ok true ∧ FieldExists s.params .b32 d.toNat ∧ ∃ addr raw,
        readGpr s.params l'.thread areg.toNat = .ok addr ∧ s.load .global addr.toNat (globalBytes ty) = .ok raw) →
    (∀ l' ∈ s.warp.lanes, Takes ctl.guard l' → ∀ addr, readGpr s.params l'.thread areg.toNat = .ok addr →
      ¬ Contested s .global addr.toNat (globalBytes ty) false) →
    (readGpr s.params l.thread areg.toNat = .error c ∨
      ∃ addr, readGpr s.params l.thread areg.toNat = .ok addr ∧
        (addr.toNat % globalBytes ty ≠ 0 ∧ c = .misalignedAccess .global addr.toNat (globalBytes ty) ∨
          addr.toNat % globalBytes ty = 0 ∧
            (s.params.globalSize < addr.toNat + globalBytes ty ∧ c = .addressOutOfRange .global addr.toNat ∨
              addr.toNat + globalBytes ty ≤ s.params.globalSize ∧
                ((∃ k < globalBytes ty, s.byteAt .global (addr.toNat + k) = none) ∧
                    c = .uninitialisedMemory .global addr.toNat ∨
                  (∀ k < globalBytes ty, s.byteAt .global (addr.toNat + k) ≠ none) ∧
                    ¬ FieldExists s.params .b32 d.toNat ∧ c = .invalidRegister .general d.toNat)))) →
    exec (.gld ctl d areg ty) s = s.raise (some i) c) ∧
  (∀ ty : GlobalTy, globalBytes ty = match ty with
    | .u8 => 1 | .s8 => 1 | .u16 => 2 | .s16 => 2 | .u32 => 4 | .s32 => 4) ∧
  (∀ (w : Long) (ctl : Ctl) (d areg : BitVec 7) (ty : GlobalTy), (Instr.gld ctl d areg ty).wf →
    (decodeWord w = .ok (.gld ctl d areg ty) ↔
      w.extractLsb' 0 2 = 1#2 ∧ w.extractLsb' 28 4 = 0xD#4 ∧ w.extractLsb' 61 3 = 4#3 ∧
      w.extractLsb' 16 7 = 14#7 ∧ w.extractLsb' 23 5 = 0#5 ∧ w.extractLsb' 34 5 = 0#5 ∧ w.extractLsb' 46 7 = 0#7 ∧
      w.extractLsb' 56 5 = 0#5 ∧ w.extractLsb' 2 7 = d ∧ w.extractLsb' 9 7 = areg ∧
      w.extractLsb' 53 3 = (match ty with
        | .u8 => 0#3 | .s8 => 1#3 | .u16 => 2#3 | .s16 => 3#3 | .u32 => 6#3 | .s32 => 7#3) ∧
      w.extractLsb' 32 2 = encMarker ctl.marker ∧ w.extractLsb' 39 5 = encCond ctl.guard.cc ∧
      w.extractLsb' 44 2 = ctl.guard.pr)) ∧
  (∀ w : Long, w.extractLsb' 0 2 = 1#2 → w.extractLsb' 28 4 = 0xD#4 → w.extractLsb' 61 3 = 4#3 →
    w.extractLsb' 32 2 ≠ 3#2 → w.extractLsb' 53 3 = 4#3 ∨ w.extractLsb' 53 3 = 5#3 →
    ∃ why, decodeWord w = .error why) ∧
  decodeWord 0x80000780D00E0001#64 = .ok (.gld ⟨.normal, ⟨.always, 0#2⟩⟩ 0#7 0#7 .u8) ∧
  decodeWord 0x80200780D00E0001#64 = .ok (.gld ⟨.normal, ⟨.always, 0#2⟩⟩ 0#7 0#7 .s8) ∧
  decodeWord 0x80C00780D00E0A2D#64 = .ok (.gld ⟨.normal, ⟨.always, 0#2⟩⟩ 11#7 5#7 .u32) ∧
  (0x80#8).signExtend 32 = 0xFFFFFF80#32 ∧
  ∀ (ctl : Ctl) (d areg : BitVec 7) (ty : GlobalTy) (s : State),
    DeliversLong (.gld ctl d areg ty) s ctl .b32 (.reg d) noSet fun t r =>
      ∃ (addr raw x : Word), readGpr s.params t areg.toNat = .ok addr ∧
        s.load .global addr.toNat (globalBytes ty) = .ok raw ∧
        x = (match ty with
          | .u8 => (raw.setWidth 8).setWidth 32 | .s8 => (raw.setWidth 8).signExtend 32
          | .u16 => (raw.setWidth 16).setWidth 32 | .s16 => (raw.setWidth 16).signExtend 32
          | .u32 => raw | .s32 => raw) ∧
        r = ⟨x, false, false, [⟨.global, addr.toNat, globalBytes ty⟩]⟩

/-- R183: GST stores the low bytes of its data register at the whole value of its address register; no register
changes, and no other byte of any space. One global memory is the spec's decision D33. -/
def Obligations.GstStoresGlobal : Prop :=
  ∀ (ctl : Ctl) (dreg areg : BitVec 7) (ty : GlobalTy) (s : State),
    StoresBytes (.gst ctl dreg areg ty) s ctl fun t st =>
      ∃ addr v, readGpr s.params t areg.toNat = .ok addr ∧ readGpr s.params t dreg.toNat = .ok v ∧
        st = ⟨.global, addr.toNat, globalBytes ty, v⟩

/-- R72, R188: R2G stores a whole or half register at (A[a] + off * n) mod 2^32 of the shared memory of the thread's
own block; no register changes, and no other byte of any space. The scaling of the offset is the spec's decision
D26. -/
def Obligations.R2gStoresShared : Prop :=
  ∀ (ctl : Ctl) (off : BitVec 14) (a : BitVec 3) (s3 : BitVec 7) (sz : Size) (sg : Bool) (s : State),
    StoresBytes (.r2g ctl off a s3 sz sg) s ctl fun t st =>
      ∃ (base : Word) (v : BitVec sz.bits), readAreg s.params t a.toNat = .ok base ∧
        readReg s.params t sz s3.toNat = .ok v ∧
        st = ⟨.shared s.warp.block, (base.toNat + off.toNat * sz.bytes) % 2 ^ 32, sz.bytes, v.setWidth 32⟩

/-- R185, R186: MOV and MOV32 deliver their source; no flag. The 16-bit form of MOV32 is the model's choice, log 23.
-/
def Obligations.MovesDeliver : Prop :=
  (∀ (ctl : Ctl) (d : BitVec 7) (s1 : Src1) (sz : Size) (sg : Bool) (s : State),
    DeliversLong (.mov ctl d s1 sz sg) s ctl sz (.reg d) noSet fun t r =>
      ∃ x, readSrc1 s t sz s1 = .ok x ∧ r = ⟨x.val, false, false, x.reads⟩) ∧
  ∀ (d : BitVec 7) (s1 : SrcS) (sz : Size) (s : State),
    DeliversShort (.mov32 d s1 sz) s sz (.reg d) fun t r =>
      ∃ x, readSrcS s t sz s1 = .ok x ∧ r = ⟨x.val, false, false, x.reads⟩

/-- R187, whole: MVI delivers its immediate to `R[d]`, with no guard and no flags; a word is an MVI exactly when it
has format I, op 1, sub 000, `w[14:9] = 0`, `w[15] = 1` and `w[27:22] = 0`, and then `d = w[8:2]` and `imm32` is
that of R102; the three words of the rule are. -/
def Obligations.MoveImmediate : Prop :=
  (∀ (d : BitVec 7) (imm : Word) (s : State),
    DeliversImm (.mvi d imm) s .b32 (.reg d) fun _ r => r = ⟨imm, false, false, []⟩) ∧
  (∀ (w : Long) (d : BitVec 7) (imm : Word), decodeWord w = .ok (.mvi d imm) ↔
    w.extractLsb' 0 2 = 1#2 ∧ w.extractLsb' 32 2 = 3#2 ∧ w.extractLsb' 28 4 = 1#4 ∧ w.extractLsb' 60 4 = 0#4 ∧
      w.extractLsb' 9 6 = 0#6 ∧ w.extractLsb' 15 1 = 1#1 ∧ w.extractLsb' 22 6 = 0#6 ∧
      d = w.extractLsb' 2 7 ∧ imm = w.extractLsb' 34 26 ++ w.extractLsb' 16 6) ∧
  decodeWord 0x000000031001802D#64 = .ok (.mvi 11#7 1#32) ∧
  decodeWord 0x000000031017802D#64 = .ok (.mvi 11#7 0x17#32) ∧
  decodeWord 0x0DEADBEF102F800D#64 = .ok (.mvi 3#7 0xDEADBEEF#32)

/-- R72, R96, R98: a shared operand reads the element at (A[a] + off * n) mod 2^32 of the thread's own block and
extends it as its type says; a 16-bit operation takes the low 16 bits of that. In a long instruction the offset has 5
bits and the selector 3, in a short one 4 and 2; A0 gives the base 0. A register operand reads the register or half
its field names. The scaling of the offset is the spec's decision D26, A0 its decision D8; which types an instruction
takes is log 30. -/
def Obligations.SharedOperandReads : Prop :=
  (∀ (s : State) (t : Thread) (ty : ElemTy) (base raw x : Word),
    x = (match ty with
      | .u8 => (raw.setWidth 8).setWidth 32
      | .u16 => (raw.setWidth 16).setWidth 32
      | .s16 => (raw.setWidth 16).signExtend 32
      | .u32 => raw) →
    (∀ (off : BitVec 5) (a : BitVec 3) (addr : Nat), (a = 0#3 ∧ base = 0#32 ∨ readAreg s.params t a.toNat = .ok base) →
      addr = (base.toNat + off.toNat * elemBytes ty) % 2 ^ 32 →
      s.load (.shared s.warp.block) addr (elemBytes ty) = .ok raw →
      readSrc1 s t .b32 (.shared off ty a) = .ok ⟨x, [⟨.shared s.warp.block, addr, elemBytes ty⟩]⟩ ∧
      readSrc1 s t .b16 (.shared off ty a) =
        .ok ⟨x.extractLsb' 0 16, [⟨.shared s.warp.block, addr, elemBytes ty⟩]⟩) ∧
    ∀ (off : BitVec 4) (a : BitVec 2) (addr : Nat), (a = 0#2 ∧ base = 0#32 ∨ readAreg s.params t a.toNat = .ok base) →
      addr = (base.toNat + off.toNat * elemBytes ty) % 2 ^ 32 →
      s.load (.shared s.warp.block) addr (elemBytes ty) = .ok raw →
      readSrcS s t .b32 (.shared off ty a) = .ok ⟨x, [⟨.shared s.warp.block, addr, elemBytes ty⟩]⟩ ∧
      readSrcS s t .b16 (.shared off ty a) =
        .ok ⟨x.extractLsb' 0 16, [⟨.shared s.warp.block, addr, elemBytes ty⟩]⟩) ∧
  (∀ ty : ElemTy, elemBytes ty = match ty with | .u8 => 1 | .u16 => 2 | .s16 => 2 | .u32 => 4) ∧
  (∀ (s : State) (t : Thread) (v : Word),
    (∀ k : BitVec 7, readGpr s.params t k.toNat = .ok v →
      readSrc1 s t .b32 (.reg k) = .ok ⟨v, []⟩ ∧ readSrcB s t .b32 (.reg k) = .ok v) ∧
    ∀ k : BitVec 6, readGpr s.params t k.toNat = .ok v → readSrcS s t .b32 (.reg k) = .ok ⟨v, []⟩) ∧
  ∀ (s : State) (t : Thread) (h : Half),
    (∀ k : BitVec 7, readHalf s.params t k.toNat = .ok h →
      readSrc1 s t .b16 (.reg k) = .ok ⟨h, []⟩ ∧ readSrcB s t .b16 (.reg k) = .ok h) ∧
    ∀ k : BitVec 6, readHalf s.params t k.toNat = .ok h → readSrcS s t .b16 (.reg k) = .ok ⟨h, []⟩

/-- R190, R196 to R198: R2A writes an address register with register plus immediate, or the register shifted left by
it, as `R2A_IMM_OP` says; ADA with address register plus immediate; A2R writes a general register with address
register plus immediate. A nonzero immediate of R2A and A2R is the model's choice, log 25; the width is the spec's
decision D20, log 34. -/
def Obligations.AddressRegistersMove : Prop :=
  (∀ (ctl : Ctl) (da s1 : BitVec 7) (imm : BitVec 12) (s : State), r2aProblem s.params da imm = none →
    AregReady s ctl.marker ctl.guard da.toNat (fun t v => ∃ x, readGpr s.params t s1.toNat = .ok x ∧
      v = match s.params.r2aImmOp with
        | .add => BitVec.ofNat 32 (x.toNat + imm.toNat)
        | .shl => BitVec.ofNat 32 (x.toNat * 2 ^ imm.toNat)) →
    Completes (.r2a ctl da s1 imm) s ctl.marker ctl.guard 8 noReads fun old new =>
      ∃ v, (∃ x, readGpr s.params old s1.toNat = .ok x ∧
        v = match s.params.r2aImmOp with
          | .add => BitVec.ofNat 32 (x.toNat + imm.toNat)
          | .shl => BitVec.ofNat 32 (x.toNat * 2 ^ imm.toNat)) ∧ AregAfter da.toNat v old new) ∧
  (∀ (ctl : Ctl) (da : BitVec 7) (a : BitVec 2) (imm : BitVec 14) (s : State), da ≠ 0#7 →
    AregReady s ctl.marker ctl.guard da.toNat (fun t v => ∃ x, readAreg s.params t a.toNat = .ok x ∧
      v = BitVec.ofNat 32 (x.toNat + imm.toNat)) →
    Completes (.ada ctl da a imm) s ctl.marker ctl.guard 8 noReads fun old new =>
      ∃ v, (∃ x, readAreg s.params old a.toNat = .ok x ∧ v = BitVec.ofNat 32 (x.toNat + imm.toNat)) ∧
        AregAfter da.toNat v old new) ∧
  ∀ (ctl : Ctl) (d : BitVec 7) (a : BitVec 2) (imm : BitVec 10) (s : State),
    DeliversLong (.a2r ctl d a imm) s ctl .b32 (.reg d) noSet fun t r =>
      ∃ x, readAreg s.params t a.toNat = .ok x ∧ r = ⟨BitVec.ofNat 32 (x.toNat + imm.toNat), false, false, []⟩

/-- R32: A0 reads 0, R2A and ADA to A0 are refused, and the words of `MOV R0, g [0x8]` and `MOV R0, g [A3+0x0]`
differ in the selector and the offset. R32 is the spec's decision D8 and derived from its examples. -/
def Obligations.AddressRegisterZero : Prop :=
  (∀ (p : Params) (t : Thread), readAreg p t 0 = .ok 0#32) ∧
  (∀ (ctl : Ctl) (s1 : BitVec 7) (imm : BitVec 12) (s : State),
    exec (.r2a ctl 0#7 s1 imm) s = s.refuse .addrRegZero) ∧
  (∀ (ctl : Ctl) (a : BitVec 2) (imm : BitVec 14) (s : State), exec (.ada ctl 0#7 a imm) s = s.refuse .addrRegZero) ∧
  decodeWord 0x0423c7801000d001#64 =
    .ok (.mov ⟨.normal, ⟨.always, 0#2⟩⟩ 0#7 (.shared 8#5 .u32 0#3) .b32 false) ∧
  decodeWord 0x0423c7801c00c001#64 =
    .ok (.mov ⟨.normal, ⟨.always, 0#2⟩⟩ 0#7 (.shared 0#5 .u32 3#3) .b32 false)

/-- R51, R52: with `ENDIAN` little a read of 1, 2 or 4 bytes gives v exactly when the address is aligned, the range
lies inside the space, and the bytes of v, the rest of it 0, stand there lowest first. R51 and R52 are the spec's
decisions D1, D16, D28 and D29; see log 11. -/
def Obligations.LoadReadsBytes : Prop :=
  ∀ (s : State) (sp : Space) (addr n : Nat) (v : Word), n = 1 ∨ n = 2 ∨ n = 4 → s.params.endian = .little →
    (s.load sp addr n = .ok v ↔
      addr % n = 0 ∧ addr + n ≤ spaceSize s.params sp ∧
        ∀ i < 4, if i < n then s.byteAt sp (addr + i) = some (v.extractLsb' (8 * i) 8)
          else v.extractLsb' (8 * i) 8 = 0#8)

/-- R55: a byte or halfword read of a location last written by a wider store sees the corresponding bytes. R55 is
derived by the spec from R52. -/
def Obligations.MixedWidths : Prop :=
  ∀ (s : State) (sp : Space) (a : Nat), (sp = .global ∨ ∃ b, sp = .shared b) → s.params.endian = .little →
    a % 4 = 0 → a + 4 ≤ spaceSize s.params sp →
    (∀ v : Word, ∀ k < 4, (s.applyStore ⟨sp, a, 4, v⟩).load sp (a + k) 1 =
      .ok ((v.extractLsb' (8 * k) 8).setWidth 32)) ∧
    (∀ v : Word, ∀ k < 2, (s.applyStore ⟨sp, a, 4, v⟩).load sp (a + 2 * k) 2 =
      .ok ((v.extractLsb' (16 * k) 16).setWidth 32)) ∧
    (s.applyStore ⟨sp, a, 4, 0x11223344#32⟩).load sp a 1 = .ok 0x44#32 ∧
    (s.applyStore ⟨sp, a, 4, 0x11223344#32⟩).load sp (a + 1) 1 = .ok 0x33#32 ∧
    (s.applyStore ⟨sp, a, 4, 0x11223344#32⟩).load sp a 2 = .ok 0x3344#32 ∧
    (s.applyStore ⟨sp, a, 4, 0x11223344#32⟩).load sp (a + 2) 2 = .ok 0x1122#32

/-- R54: a 2-byte access needs an even address, a 4-byte access a multiple of 4, a 1-byte access nothing; otherwise
it is `MisalignedAccess`. The address of an operand with an address register is misaligned only when that register
is, and one without is never. A fetch needs a multiple of 4; and R243: a fetch of a word, or of the second word of a
long instruction, that does not lie inside `CODE_SIZE` is `FetchOutOfRange`, and a step whose fetch faults stops with
that fault. R54 and the fetch faults are the spec's decisions D16 and D38. -/
def Obligations.AlignmentRule : Prop :=
  (∀ (s : State) (sp : Space) (addr : Nat),
    (addr % 2 = 1 → s.accessCheck sp addr 2 = .error (.misalignedAccess sp addr 2) ∧
      s.load sp addr 2 = .error (.misalignedAccess sp addr 2)) ∧
    (addr % 4 ≠ 0 → s.accessCheck sp addr 4 = .error (.misalignedAccess sp addr 4) ∧
      s.load sp addr 4 = .error (.misalignedAccess sp addr 4)) ∧
    (∀ n, n = 1 ∨ n = 2 ∧ addr % 2 = 0 ∨ n = 4 ∧ addr % 4 = 0 →
      s.accessCheck sp addr n ≠ .error (.misalignedAccess sp addr n))) ∧
  (∀ (base : Word) (off n : Nat), n = 1 ∨ n = 2 ∨ n = 4 →
    (effAddr base off n % n = 0 ↔ base.toNat % n = 0)) ∧
  (∀ (off : Nat) (sz : Size), off * sz.bytes % sz.bytes = 0) ∧
  (∀ s : State, s.warp.pc % 4 ≠ 0 → s.fetch = .error (.misalignedFetch s.warp.pc)) ∧
  (∀ s : State, s.warp.pc % 4 = 0 → spaceSize s.params .code < s.warp.pc + 4 →
    s.fetch = .error (.fetchOutOfRange s.warp.pc)) ∧
  (∀ (s : State) (lo : Word), s.warp.pc % 4 = 0 → s.codeWord s.warp.pc s.warp.pc = .ok lo → lo.getLsbD 0 = true →
    spaceSize s.params .code < s.warp.pc + 8 → s.fetch = .error (.fetchOutOfRange s.warp.pc)) ∧
  ∀ (s s' : State) (e : Cause), s.turn = .run s' → s'.fetch = .error e → step s = s'.raise none e

/-- R242, R247: where the first active lane that takes part makes a bad global access, with the lanes before it
inactive or their guards false, GLD and GST stop at that lane: misaligned first, then out of range, then for a load
a byte that holds no value. For GLD no lane's load may race, since `Race` is reported in place of any other outcome.
The faults are the spec's decisions D16, D28, D29 and D43. -/
def Obligations.GlobalAccessFaults : Prop :=
  ∀ (ctl : Ctl) (d areg : BitVec 7) (ty : GlobalTy) (s : State) (i : Nat) (l : Lane) (addr : Word),
    s.warp.lanes[i]? = some l → Takes ctl.guard l →
    (∀ k < i, ∀ l', s.warp.lanes[k]? = some l' →
      l'.status ≠ .active ∨ guardHolds ctl.guard l'.thread = .ok false) →
    readGpr s.params l.thread areg.toNat = .ok addr →
    let calm : Prop := ∀ l' ∈ s.warp.lanes, Takes ctl.guard l' → ∀ x,
      readGpr s.params l'.thread areg.toNat = .ok x → x.toNat % globalBytes ty = 0 →
      x.toNat + globalBytes ty ≤ s.params.globalSize → Unraced s false [⟨.global, x.toNat, globalBytes ty⟩]
    (addr.toNat % globalBytes ty ≠ 0 →
      (calm → exec (.gld ctl d areg ty) s =
        s.raise (some i) (.misalignedAccess .global addr.toNat (globalBytes ty))) ∧
      ((∃ v, readGpr s.params l.thread d.toNat = .ok v) →
        exec (.gst ctl d areg ty) s = s.raise (some i) (.misalignedAccess .global addr.toNat (globalBytes ty)))) ∧
    (addr.toNat % globalBytes ty = 0 → s.params.globalSize < addr.toNat + globalBytes ty →
      (calm → exec (.gld ctl d areg ty) s = s.raise (some i) (.addressOutOfRange .global addr.toNat)) ∧
      ((∃ v, readGpr s.params l.thread d.toNat = .ok v) →
        exec (.gst ctl d areg ty) s = s.raise (some i) (.addressOutOfRange .global addr.toNat))) ∧
    (addr.toNat % globalBytes ty = 0 → addr.toNat + globalBytes ty ≤ s.params.globalSize →
      (∃ k < globalBytes ty, s.byteAt .global (addr.toNat + k) = none) → calm →
      exec (.gld ctl d areg ty) s = s.raise (some i) (.uninitialisedMemory .global addr.toNat))

/-- R30, R105, R242, R247: a guard that looks at a predicate register which holds no value stops every instruction that
obeys a guard, at the first such lane: BRA and RET where every earlier active lane can evaluate its guard; a long
instruction with lanes where the guards of the earlier ones are false, unless the launch declines its word or a lane's
load races, which R247 puts first. The fault is the spec's decision D29, its order D43; the criterion of a race is
log 17. -/
def Obligations.UnreadableGuardFaults : Prop :=
  ∀ (g : Guard) (s : State) (n : Nat) (l : Lane), g.cc ≠ .never → g.cc ≠ .always →
    s.warp.lanes[n]? = some l → l.status = .active → (l.thread.predAt g.pr).written = false →
    ((∀ k < n, ∀ l', s.warp.lanes[k]? = some l' → l'.status ≠ .active ∨ ∃ b, guardHolds g l'.thread = .ok b) →
      (∀ tgt, exec (.bra tgt g) s = s.raise (some n) (.uninitialisedPredicate g.pr.toNat)) ∧
      exec (.ret g) s = s.raise (some n) (.uninitialisedPredicate g.pr.toNat)) ∧
    ((∀ k < n, ∀ l', s.warp.lanes[k]? = some l' →
        l'.status ≠ .active ∨ guardHolds g l'.thread = .ok false) →
      ∀ i j : Instr, guarded g i = some j → ¬ Declined j s.params →
        exec j s = s.raise (some n) (.uninitialisedPredicate g.pr.toNat) ∨
        exec j s = s.raise none .race ∧
          ∃ l' ∈ s.warp.lanes, Takes g l' ∧ ∃ sp addr bytes, Contested s sp addr bytes false)

/-- R21, R24, R242: number 124 reads 0 where `R124_IS_ZERO`; any other number at or above `NUM_GPR`, and every such
number as a destination, names nothing; a register with an unwritten half cannot be read whole. R31, R33, R190:
likewise an address register at or above `NUM_AREG` names nothing, an unwritten one cannot be read, and a write of
one is read back and changes no other. R21, R24, R31 and R33 are the spec's decisions D6, D20 and D29; what a fault
records is log 38; the bound 124 is R8's, the bound 16 log 34. -/
def Obligations.RegisterNumbers : Prop :=
  ∀ (p : Params) (t : Thread) (n : Nat),
    (p.r124IsZero = true → readGpr p t 124 = .ok 0#32) ∧
    (gprCount p ≤ n → n ≠ 124 ∨ p.r124IsZero = false → readGpr p t n = .error (.invalidRegister .general n)) ∧
    (gprCount p ≤ n → ∀ v, writeGpr p t n v = .error (.invalidRegister .general n)) ∧
    (n < gprCount p → (t.gprAt n).loWritten = true → (t.gprAt n).hiWritten = true →
      readGpr p t n = .ok (t.gprAt n).val) ∧
    (n < gprCount p → (t.gprAt n).loWritten = false ∨ (t.gprAt n).hiWritten = false →
      readGpr p t n = .error (.uninitialisedRegister .general n)) ∧
    (0 < n → min p.numAreg 16 ≤ n → readAreg p t n = .error (.invalidRegister .address n) ∧
      ∀ v, writeAreg p t n v = .error (.invalidRegister .address n)) ∧
    (0 < n → n < min p.numAreg 16 →
      ((t.aregAt n).written = false → readAreg p t n = .error (.uninitialisedRegister .address n)) ∧
      ((t.aregAt n).written = true → readAreg p t n = .ok (t.aregAt n).val) ∧
      ∀ v, ∃ t', writeAreg p t n v = .ok t' ∧ readAreg p t' n = .ok v ∧ ∀ m ≠ n, readAreg p t' m = readAreg p t m)

/-- R22, R24: half 2n is the low half of register n and half 2n + 1 the high one: a write of a half is read back,
leaves the other half as it was, and two such writes give the whole register. That the other half stays is the
spec's decision D23. -/
def Obligations.HalfRegisters : Prop :=
  ∀ (p : Params) (t : Thread) (n : Nat) (lo hi : Half), n < gprCount p →
    ∃ t1 t2, writeHalf p t (2 * n) lo = .ok t1 ∧ writeHalf p t1 (2 * n + 1) hi = .ok t2 ∧
      readHalf p t1 (2 * n) = .ok lo ∧ readHalf p t1 (2 * n + 1) = readHalf p t (2 * n + 1) ∧
      readHalf p t2 (2 * n) = .ok lo ∧ readHalf p t2 (2 * n + 1) = .ok hi ∧
      readGpr p t2 n = .ok (BitVec.ofNat 32 (hi.toNat * 2 ^ 16 + lo.toNat))

/-- R60, R65, R66, R247: an access that shares a byte with one another warp made, one of the two a store, with no
barrier of its block between, is a race: a load of GLD and a shared operand of any instruction against a store,
whatever fault another lane of the same instruction meets, unless the launch declines the word; and a store of GST or
R2G against any access, where every lane can make its store. So are two lanes of one GST or R2G whose stores
overlap and differ; their stores have one size and are aligned, so that they cover the same bytes. R60, R65, R66 and
R247 are the spec's decisions D5, D17 and D43; the criterion is deduced, log 17. -/
def Obligations.RacesStop : Prop :=
  (∀ (ctl : Ctl) (d areg : BitVec 7) (ty : GlobalTy) (s : State),
    (∃ l ∈ s.warp.lanes, Takes ctl.guard l ∧ ∃ addr, readGpr s.params l.thread areg.toNat = .ok addr ∧
      addr.toNat % globalBytes ty = 0 ∧ addr.toNat + globalBytes ty ≤ s.params.globalSize ∧
      Contested s .global addr.toNat (globalBytes ty) false) →
    exec (.gld ctl d areg ty) s = s.raise none .race) ∧
  (∀ (i : Instr) (x : SharedOperand) (s : State), sharedOperand i = some x → ¬ Declined i s.params →
    (∃ l ∈ s.warp.lanes, TakesPart i l ∧ ∃ base, readAreg s.params l.thread x.a = .ok base ∧
      let addr := (base.toNat + x.off * elemBytes x.ty) % 2 ^ 32
      addr % elemBytes x.ty = 0 ∧ addr + elemBytes x.ty ≤ s.params.sharedSize ∧
        Contested s (.shared s.warp.block) addr (elemBytes x.ty) false) →
    exec i s = s.raise none .race) ∧
  (∀ (ctl : Ctl) (dreg areg : BitVec 7) (ty : GlobalTy) (s : State),
    let n := globalBytes ty
    LanesReady s ctl.guard (fun t => ∃ addr v, readGpr s.params t areg.toNat = .ok addr ∧
      readGpr s.params t dreg.toNat = .ok v ∧ addr.toNat % n = 0 ∧ addr.toNat + n ≤ s.params.globalSize) →
    ((∃ l ∈ s.warp.lanes, Takes ctl.guard l ∧ ∃ addr, readGpr s.params l.thread areg.toNat = .ok addr ∧
        Contested s .global addr.toNat n true) ∨
      ∃ (i j : Nat) (l l' : Lane) (addr addr' v v' : Word), i < j ∧ s.warp.lanes[i]? = some l ∧
        s.warp.lanes[j]? = some l' ∧ Takes ctl.guard l ∧ Takes ctl.guard l' ∧
        readGpr s.params l.thread areg.toNat = .ok addr ∧ readGpr s.params l'.thread areg.toNat = .ok addr' ∧
        readGpr s.params l.thread dreg.toNat = .ok v ∧ readGpr s.params l'.thread dreg.toNat = .ok v' ∧
        addr.toNat < addr'.toNat + n ∧ addr'.toNat < addr.toNat + n ∧
        v.toNat % 2 ^ (8 * n) ≠ v'.toNat % 2 ^ (8 * n)) →
    exec (.gst ctl dreg areg ty) s = s.raise none .race) ∧
  ∀ (ctl : Ctl) (off : BitVec 14) (a : BitVec 3) (s3 : BitVec 7) (sz : Size) (sg : Bool) (s : State),
    let n := sz.bytes
    let place := fun base : Word => (base.toNat + off.toNat * n) % 2 ^ 32
    LanesReady s ctl.guard (fun t => ∃ base v, readAreg s.params t a.toNat = .ok base ∧
      readReg s.params t sz s3.toNat = .ok v ∧ place base % n = 0 ∧ place base + n ≤ s.params.sharedSize) →
    ((∃ l ∈ s.warp.lanes, Takes ctl.guard l ∧ ∃ base, readAreg s.params l.thread a.toNat = .ok base ∧
        Contested s (.shared s.warp.block) (place base) n true) ∨
      ∃ (i j : Nat) (l l' : Lane) (base base' : Word) (v v' : BitVec sz.bits), i < j ∧
        s.warp.lanes[i]? = some l ∧ s.warp.lanes[j]? = some l' ∧ Takes ctl.guard l ∧ Takes ctl.guard l' ∧
        readAreg s.params l.thread a.toNat = .ok base ∧ readAreg s.params l'.thread a.toNat = .ok base' ∧
        readReg s.params l.thread sz s3.toNat = .ok v ∧ readReg s.params l'.thread sz s3.toNat = .ok v' ∧
        place base < place base' + n ∧ place base' < place base + n ∧ v ≠ v') →
    exec (.r2g ctl off a s3 sz sg) s = s.raise none .race

/-! ### Floating point and special functions -/

/-- R202, R205 to R207: the additions deliver `FP.add` of their operands, bit 31 of each flipped where its sign bit
says so; the short and immediate forms round to nearest. What `FP` computes is free, log 12; flags are log 27. -/
def Obligations.FloatAdditions : Prop :=
  (∀ (ctl : Ctl) (d : Dst) (set : PredSet) (s1 : Src1) (s3 : SrcB) (rm : Rm) (neg1 neg2 : Bool) (s : State),
    srcSegProblem s.params s3 = none →
    DeliversLong (.fadd ctl d set s1 s3 rm neg1 neg2) s ctl .b32 d set fun t r =>
      ∃ (a : Val 32) (b : Word), readSrc1 s t .b32 s1 = .ok a ∧ readSrcB s t .b32 s3 = .ok b ∧
        r = ⟨Config.fpAdd rm (if neg1 then a.val ^^^ 0x80000000#32 else a.val)
          (if neg2 then b ^^^ 0x80000000#32 else b), false, false, a.reads⟩) ∧
  (∀ (d : BitVec 7) (s1 : SrcS) (s2 : BitVec 6) (neg1 neg2 : Bool) (s : State),
    DeliversShort (.fadd32 d s1 s2 neg1 neg2) s .b32 (.reg d) fun t r =>
      ∃ (a : Val 32) (b : Word), readSrcS s t .b32 s1 = .ok a ∧ readGpr s.params t s2.toNat = .ok b ∧
        r = ⟨Config.fpAdd .nearest (if neg1 then a.val ^^^ 0x80000000#32 else a.val)
          (if neg2 then b ^^^ 0x80000000#32 else b), false, false, a.reads⟩) ∧
  ∀ (d : BitVec 7) (s1 : BitVec 6) (imm : Word) (s : State),
    DeliversImm (.fadd32i d s1 imm) s .b32 (.reg d) fun t r =>
      ∃ a, readGpr s.params t s1.toNat = .ok a ∧ r = ⟨Config.fpAdd .nearest a imm, false, false, []⟩

/-- R202, R208 to R210: the multiplications deliver `FP.mul`, likewise. What `FP` computes is free, log 12; flags
are log 27. -/
def Obligations.FloatMultiplications : Prop :=
  (∀ (ctl : Ctl) (d : Dst) (set : PredSet) (s1 : Src1) (s2 : SrcB) (rm : Rm) (neg1 neg2 : Bool) (s : State),
    srcSegProblem s.params s2 = none →
    DeliversLong (.fmul ctl d set s1 s2 rm neg1 neg2) s ctl .b32 d set fun t r =>
      ∃ (a : Val 32) (b : Word), readSrc1 s t .b32 s1 = .ok a ∧ readSrcB s t .b32 s2 = .ok b ∧
        r = ⟨Config.fpMul rm (if neg1 then a.val ^^^ 0x80000000#32 else a.val)
          (if neg2 then b ^^^ 0x80000000#32 else b), false, false, a.reads⟩) ∧
  (∀ (d : BitVec 7) (s1 : SrcS) (s2 : BitVec 6) (neg1 neg2 : Bool) (s : State),
    DeliversShort (.fmul32 d s1 s2 neg1 neg2) s .b32 (.reg d) fun t r =>
      ∃ (a : Val 32) (b : Word), readSrcS s t .b32 s1 = .ok a ∧ readGpr s.params t s2.toNat = .ok b ∧
        r = ⟨Config.fpMul .nearest (if neg1 then a.val ^^^ 0x80000000#32 else a.val)
          (if neg2 then b ^^^ 0x80000000#32 else b), false, false, a.reads⟩) ∧
  ∀ (d : BitVec 7) (s1 : BitVec 6) (imm : Word) (s : State),
    DeliversImm (.fmul32i d s1 imm) s .b32 (.reg d) fun t r =>
      ∃ a, readGpr s.params t s1.toNat = .ok a ∧ r = ⟨Config.fpMul .nearest a imm, false, false, []⟩

/-- R202, R211 to R213: the multiply-adds deliver `FP.mad`; in the short and immediate forms the destination is also
the addend. FMAD32 needs the launch to take the reading of R212, and is refused without it. What `FP` computes is
free, log 12; FMAD32 is the reading that R212 derives, log 15.
The predicate write and the discarded destination are the model's choice, log 27 (R204, D9). -/
def Obligations.FloatMultiplyAdds : Prop :=
  (∀ (ctl : Ctl) (d : Dst) (set : PredSet) (s1 : Src1) (s2 s3 : SrcB) (neg1 neg3 : Bool) (s : State),
    srcSegProblem s.params s2 = none → srcSegProblem s.params s3 = none →
    DeliversLong (.fmad ctl d set s1 s2 s3 neg1 neg3) s ctl .b32 d set fun t r =>
      ∃ (a : Val 32) (b c : Word), readSrc1 s t .b32 s1 = .ok a ∧ readSrcB s t .b32 s2 = .ok b ∧
        readSrcB s t .b32 s3 = .ok c ∧
        r = ⟨Config.fpMad (if neg1 then a.val ^^^ 0x80000000#32 else a.val) b
          (if neg3 then c ^^^ 0x80000000#32 else c), false, false, a.reads⟩) ∧
  (∀ (d : BitVec 7) (s1 : SrcS) (s2 : BitVec 6) (neg1 : Bool) (s : State),
    (s.params.fmad32 = true →
      DeliversShort (.fmad32 d s1 s2 neg1) s .b32 (.reg d) fun t r =>
        ∃ (a : Val 32) (b c : Word), readSrcS s t .b32 s1 = .ok a ∧ readGpr s.params t s2.toNat = .ok b ∧
          readGpr s.params t d.toNat = .ok c ∧
          r = ⟨Config.fpMad (if neg1 then a.val ^^^ 0x80000000#32 else a.val) b c, false, false, a.reads⟩) ∧
    (s.params.fmad32 = false → exec (.fmad32 d s1 s2 neg1) s = s.refuse .fmad32Absent)) ∧
  ∀ (d : BitVec 7) (s1 : BitVec 6) (neg1 : Bool) (imm : Word) (s : State),
    DeliversImm (.fmad32i d s1 neg1 imm) s .b32 (.reg d) fun t r =>
      ∃ a c, readGpr s.params t s1.toNat = .ok a ∧ readGpr s.params t d.toNat = .ok c ∧
        r = ⟨Config.fpMad (if neg1 then a ^^^ 0x80000000#32 else a) imm c, false, false, []⟩

/-- R202, R214 to R216: F2F with rounding 00 delivers its source with bit 31 cleared and then flipped as asked,
exact on every bit pattern, and with rounding 11 what `FP` makes of that. F2I delivers, where its source is a number
inside the destination's range, that number rounded to an integer in the stated direction, toward zero or to a nearest
one, and elsewhere what the instance decides. I2F delivers a finite binary32 number that no other separates from the
integer, so the integer itself where binary32 holds it, and toward zero none of greater magnitude. Two examples of
R215 and two of R216 follow. What `FP` decides is free, log 12; F2F is log 26; the reading of the words as binary32, of
`nearest`, and of `TRUNC` in I2F is the model's, log 47.
The predicate write and the discarded destination are the model's choice, log 27 (R204, D9). -/
def Obligations.FloatConversions : Prop :=
  (∀ (ctl : Ctl) (d : Dst) (set : PredSet) (s1 : BitVec 7) (rm : Rm) (abs neg : Bool) (s : State),
    DeliversLong (.f2f ctl d set s1 rm abs neg) s ctl .b32 d set fun t r =>
      ∃ a x : Word, readGpr s.params t s1.toNat = .ok a ∧
        (∀ i < 31, x.getLsbD i = a.getLsbD i) ∧ x.getLsbD 31 = ((a.getLsbD 31 && !abs) ^^ neg) ∧
        r = ⟨if rm = .nearest then x else Config.fpF2f .zero x, false, false, []⟩) ∧
  (∀ (ctl : Ctl) (d : Dst) (set : PredSet) (s1 : BitVec 7) (rm : Rm) (sg : Bool) (s : State),
    DeliversLong (.f2i ctl d set s1 rm sg) s ctl .b32 d set fun t r =>
      ∃ a, readGpr s.params t s1.toNat = .ok a ∧ r = ⟨f2iValue rm sg 32 a, false, false, []⟩) ∧
  (∀ (rm : Rm) (sg : Bool) (a : Word), F32Finite a → intLow sg ≤ f32Value a → f32Value a ≤ intHigh sg →
    let x : ℚ := intValue sg (f2iValue rm sg 32 a)
    (rm = .zero → |x| ≤ |f32Value a| ∧ |f32Value a| < |x| + 1 ∧ 0 ≤ x * f32Value a) ∧
      (rm = .nearest → |x - f32Value a| ≤ 1 / 2)) ∧
  (∀ (rm : Rm) (sg : Bool) (a : Word),
    ¬ F32Finite a ∨ f32Value a < intLow sg ∨ intHigh sg < f32Value a →
    f2iValue rm sg 32 a = Config.fpF2i rm sg 32 a) ∧
  f2iValue .zero true 32 0xC0200000#32 = 0xFFFFFFFE#32 ∧ f2iValue .zero false 32 0x40E00000#32 = 7#32 ∧
  (∀ (ctl : Ctl) (d : Dst) (set : PredSet) (s1 : BitVec 7) (rm : Rm) (signed : Bool) (s : State),
    DeliversLong (.i2f ctl d set s1 rm signed) s ctl .b32 d set fun t r =>
      ∃ a, readGpr s.params t s1.toNat = .ok a ∧
        r = ⟨i2fValue rm signed (intValue signed a), false, false, []⟩) ∧
  (∀ (rm : Rm) (signed : Bool) (x : ℤ), -2 ^ 31 ≤ x → x < 2 ^ 32 →
    let v := i2fValue rm signed x
    F32Finite v ∧ (x = 0 → v = 0#32) ∧ (rm = .zero → |f32Value v| ≤ |(x : ℚ)|) ∧
      ∀ w : Word, F32Finite w → ¬ (x ≤ f32Value w ∧ f32Value w < f32Value v) ∧
        ¬ (f32Value v < f32Value w ∧ f32Value w ≤ x)) ∧
  i2fValue .nearest true (-1) = 0xBF800000#32 ∧ i2fValue .zero false 0xFFFFFFFF = 0x4F7FFFFF#32

/-- R177, R217: FSET delivers all ones where the relation that `FP.cmp` finds, of the absolute value where asked, is
in the comparison set, unordered included, and 0 elsewhere. All ones or 0 is the spec's decision D10; what `FP.cmp`
finds is free, log 12. -/
def Obligations.FsetCompares : Prop :=
  ∀ (ctl : Ctl) (d : Dst) (set : PredSet) (s1 : BitVec 7) (s2 : SrcB) (cmp : CmpSet) (abs : Bool) (s : State),
    srcSegProblem s.params s2 = none →
    DeliversLong (.fset ctl d set s1 s2 cmp abs) s ctl .b32 d set fun t r =>
      ∃ (a b : Word) (rel : FRel), readGpr s.params t s1.toNat = .ok a ∧ readSrcB s t .b32 s2 = .ok b ∧
        rel = Config.fpCmp (if abs then a &&& 0x7FFFFFFF#32 else a) b ∧
        r.carry = false ∧ r.overflow = false ∧ r.reads = [] ∧
        r.val = if (rel = .less ∧ cmp.less = true) ∨ (rel = .equal ∧ cmp.equal = true) ∨
          (rel = .greater ∧ cmp.greater = true) ∨ (rel = .unordered ∧ cmp.unordered = true)
          then 0xFFFFFFFF#32 else 0#32

/-- R218, R219, R230 to R237: RCP and RCP32 deliver `FP.rcp` of their source; in a launch that takes the parameter
`SFU` the six special functions deliver what it says of theirs, and without it each is refused. What the functions
compute is free, log 12 and 13; the option is D12, log 9.
The predicate write and the discarded destination are the model's choice, log 27 (R204, R237, D9). -/
def Obligations.FunctionsOfOneSource : Prop :=
  (∀ (ctl : Ctl) (d : Dst) (set : PredSet) (s1 : BitVec 7) (s : State),
    DeliversLong (.rcp ctl d set s1) s ctl .b32 d set fun t r =>
      ∃ a, readGpr s.params t s1.toNat = .ok a ∧ r = ⟨Config.fpRcp a, false, false, []⟩) ∧
  (∀ (d : BitVec 7) (s1 : BitVec 6) (s : State),
    DeliversShort (.rcp32 d s1) s .b32 (.reg d) fun t r =>
      ∃ a, readGpr s.params t s1.toNat = .ok a ∧ r = ⟨Config.fpRcp a, false, false, []⟩) ∧
  ∀ (ctl : Ctl) (d : Dst) (set : PredSet) (s1 : BitVec 7) (s : State) (i : Instr) (f : Word → Word),
    (i = .rsq ctl d set s1 ∧ f = Config.sfuRsq) ∨ (i = .lg2 ctl d set s1 ∧ f = Config.sfuLg2) ∨
    (i = .sin ctl d set s1 ∧ f = Config.sfuSin) ∨ (i = .cos ctl d set s1 ∧ f = Config.sfuCos) ∨
    (i = .ex2 ctl d set s1 ∧ f = Config.sfuEx2) ∨ (∃ m, i = .rro ctl d set s1 m ∧ f = Config.sfuRro m) →
    (s.params.sfu = true →
      DeliversLong i s ctl .b32 d set fun t r =>
        ∃ a, readGpr s.params t s1.toNat = .ok a ∧ r = ⟨f a, false, false, []⟩) ∧
    (s.params.sfu = false → exec i s = s.refuse .sfuAbsent)

/-! ### Declined words -/

/-- R99, R161, R196: a constant segment that the launch does not have, a register amount in a 16-bit shift, and R2A
by 32 or more where its immediate is a shift are declined before any lane runs. The refusals are the spec's
decisions D25 and D27; that they are made by the meaning is log 33. -/
def Obligations.OptionsDeclined : Prop :=
  (∀ (seg : BitVec 4) (off : BitVec 7) (ctl : Ctl) (d : Dst) (set : PredSet) (s1 : Src1) (s : State),
    s.params.constSize.length ≤ seg.toNat →
    (∀ sz neg, exec (.iadd ctl d set s1 (.const seg off) sz neg) s = s.refuse .constSegment) ∧
    (∀ mk pr sz, exec (.iaddc mk pr d set s1 (.const seg off) sz) s = s.refuse .constSegment) ∧
    (∀ s3 n1 n3, exec (.imad ctl d set s1 (.const seg off) s3 n1 n3) s = s.refuse .constSegment) ∧
    (∀ op i1 i2 sz sg, exec (.lop ctl d set s1 (.const seg off) op i1 i2 sz sg) s = s.refuse .constSegment) ∧
    (∀ cmp sz sg, exec (.iset ctl d set s1 (.const seg off) cmp sz sg) s = s.refuse .constSegment) ∧
    (∀ rd a w sz sg, exec (.mvc ctl rd set seg off a w sz sg) s = s.refuse .constSegment) ∧
    (∀ rm n1 n2, exec (.fadd ctl d set s1 (.const seg off) rm n1 n2) s = s.refuse .constSegment) ∧
    (∀ rm n1 n2, exec (.fmul ctl d set s1 (.const seg off) rm n1 n2) s = s.refuse .constSegment) ∧
    (∀ s3 n1 n3, exec (.fmad ctl d set s1 (.const seg off) s3 n1 n3) s = s.refuse .constSegment) ∧
    ∀ k cmp abs, exec (.fset ctl d set k (.const seg off) cmp abs) s = s.refuse .constSegment) ∧
  (∀ (ctl : Ctl) (d : BitVec 7) (s1 : Src1) (k : BitVec 5) (sg : Bool) (s : State),
    exec (.shl ctl d s1 (.reg k) .b16 sg) s = s.refuse .shiftAmount ∧
    exec (.shr ctl d s1 (.reg k) .b16 sg) s = s.refuse .shiftAmount) ∧
  ∀ (ctl : Ctl) (da s1 : BitVec 7) (imm : BitVec 12) (s : State), da ≠ 0#7 → s.params.r2aImmOp = .shl →
    32 ≤ imm.toNat → exec (.r2a ctl da s1 imm) s = s.refuse .shiftTooLong
end
end

