-- ==== Sys2Proof/Laws/Codec.lean ====
section
/-!
SUPPORT. The codec, field by field: each layout splits a word into its fields and joins them again, and each small
field reads what was written.
-/
namespace Sys2Proof

/-! ### The four layouts -/

/-- Two neighbouring fields of a word are one field. -/
theorem extract_join {n s' a b : Nat} (w : BitVec n) (s : Nat) (h : s' = s + b) :
    w.extractLsb' s' a ++ w.extractLsb' s b = w.extractLsb' s (a + b) := by
  subst h
  apply BitVec.eq_of_getLsbD_eq
  intro i hi
  simp only [BitVec.getLsbD_append, BitVec.getLsbD_extractLsb']
  by_cases h : i < b
  · simp [h, hi]
  · have e : s + b + (i - b) = s + i := by omega
    simp [h, e, show i - b < a by omega, hi]

theorem RawL.ofWord_toWord (r : RawL) : RawL.ofWord r.toWord = r := by
  cases r
  simp only [RawL.ofWord, RawL.toWord, RawL.mk.injEq]
  refine ⟨?_, ?_, ?_, ?_, ?_, ?_, ?_, ?_, ?_, ?_, ?_, ?_, ?_, ?_, ?_, ?_, ?_, ?_, ?_, ?_, ?_, ?_, ?_, ?_⟩ <;>
    simp (disch := omega) only [BitVec.extractLsb'_append_eq_of_add_le, BitVec.extractLsb'_append_eq_of_le,
      Nat.reduceSub, BitVec.extractLsb'_eq_self]

theorem RawS.ofWord_toWord (r : RawS) : RawS.ofWord r.toWord = r := by
  cases r
  simp only [RawS.ofWord, RawS.toWord, RawS.mk.injEq]
  refine ⟨?_, ?_, ?_, ?_, ?_, ?_, ?_, ?_, ?_, ?_, ?_, ?_⟩ <;>
    simp (disch := omega) only [BitVec.extractLsb'_append_eq_of_add_le, BitVec.extractLsb'_append_eq_of_le,
      Nat.reduceSub, BitVec.extractLsb'_eq_self]

theorem RawI.ofWord_toWord (r : RawI) : RawI.ofWord r.toWord = r := by
  cases r
  simp only [RawI.ofWord, RawI.toWord, RawI.mk.injEq]
  refine ⟨?_, ?_, ?_, ?_, ?_, ?_, ?_, ?_, ?_, ?_, ?_, ?_, ?_, ?_⟩ <;>
    simp (disch := omega) only [BitVec.extractLsb'_append_eq_of_add_le, BitVec.extractLsb'_append_eq_of_le,
      Nat.reduceSub, BitVec.extractLsb'_eq_self]

theorem RawF.ofWord_toWord (r : RawF) : RawF.ofWord r.toWord = r := by
  cases r
  simp only [RawF.ofWord, RawF.toWord, RawF.mk.injEq]
  refine ⟨?_, ?_, ?_, ?_, ?_, ?_, ?_, ?_, ?_, ?_, ?_, ?_, ?_⟩ <;>
    simp (disch := omega) only [BitVec.extractLsb'_append_eq_of_add_le, BitVec.extractLsb'_append_eq_of_le,
      Nat.reduceSub, BitVec.extractLsb'_eq_self]

theorem RawL.toWord_ofWord (w : Long) : (RawL.ofWord w).toWord = w := by
  simp only [RawL.ofWord, RawL.toWord]
  rw [extract_join w 60, extract_join w 59, extract_join w 58, extract_join w 54, extract_join w 53,
    extract_join w 46, extract_join w 44, extract_join w 39, extract_join w 38, extract_join w 36,
    extract_join w 35, extract_join w 34, extract_join w 32, extract_join w 28, extract_join w 26,
    extract_join w 25, extract_join w 24, extract_join w 23, extract_join w 16, extract_join w 9,
    extract_join w 2, extract_join w 1, extract_join w 0]
  · exact BitVec.extractLsb'_eq_self
  all_goals rfl

theorem RawS.toWord_ofWord (w : Word) : (RawS.ofWord w).toWord = w := by
  simp only [RawS.ofWord, RawS.toWord]
  rw [extract_join w 26, extract_join w 25, extract_join w 24, extract_join w 23, extract_join w 22,
    extract_join w 16, extract_join w 15, extract_join w 9, extract_join w 2, extract_join w 1, extract_join w 0]
  · exact BitVec.extractLsb'_eq_self
  all_goals rfl

theorem RawI.toWord_ofWord (w : Long) : (RawI.ofWord w).toWord = w := by
  simp only [RawI.ofWord, RawI.toWord]
  rw [extract_join w 60, extract_join w 34, extract_join w 32, extract_join w 28, extract_join w 25,
    extract_join w 24, extract_join w 22, extract_join w 16, extract_join w 15, extract_join w 9,
    extract_join w 2, extract_join w 1, extract_join w 0]
  · exact BitVec.extractLsb'_eq_self
  all_goals rfl

theorem RawF.toWord_ofWord (w : Long) : (RawF.ofWord w).toWord = w := by
  simp only [RawF.ofWord, RawF.toWord]
  rw [extract_join w 46, extract_join w 44, extract_join w 39, extract_join w 38, extract_join w 34,
    extract_join w 32, extract_join w 28, extract_join w 27, extract_join w 9, extract_join w 2,
    extract_join w 1, extract_join w 0]
  · exact BitVec.extractLsb'_eq_self
  all_goals rfl

/-! ### Parts of a field -/

@[simp] theorem low_of_append {m n : Nat} (a : BitVec m) (b : BitVec n) : (a ++ b).extractLsb' 0 n = b := by
  rw [BitVec.extractLsb'_append_eq_of_add_le (by omega), BitVec.extractLsb'_eq_self]

@[simp] theorem high_of_append {m n : Nat} (a : BitVec m) (b : BitVec n) : (a ++ b).extractLsb' n m = a := by
  rw [BitVec.extractLsb'_append_eq_of_le (by omega), Nat.sub_self, BitVec.extractLsb'_eq_self]

theorem halves_join {m n : Nat} (a : BitVec (m + n)) : a.extractLsb' n m ++ a.extractLsb' 0 n = a := by
  rw [extract_join a 0 (by omega)]
  exact BitVec.extractLsb'_eq_self

@[simp] theorem flag_bit (b : Bool) : flag (bit b) = b := by cases b <;> rfl

@[simp] theorem bit_flag (b : BitVec 1) : bit (flag b) = b := by
  rcases BitVec.eq_zero_or_eq_one b with h | h <;> subst h <;> rfl

/-! ### The small fields: reading what was written -/

@[simp] theorem decCond_encCond (k : Cond) : decCond (encCond k) = .ok k := by cases k <;> rfl

@[simp] theorem decMarker_encMarker (m : Marker) : decMarker (encMarker m) = .ok m := by cases m <;> rfl

@[simp] theorem decElemTy_encElemTy (t : ElemTy) : decElemTy (encElemTy t) = t := by cases t <;> rfl

@[simp] theorem decSize_encSize (z : Size) : decSize (encSize z) = z := by cases z <;> rfl

@[simp] theorem decCvtTy_encCvtTy (t : CvtTy) : decCvtTy (encCvtTy t) = .ok t := by cases t <;> rfl

@[simp] theorem decLogicOp_encLogicOp (o : LogicOp) : decLogicOp (encLogicOp o) = o := by cases o <;> rfl

@[simp] theorem decCmp_encCmp (c : CmpSet) : decCmp (encCmp c) = .ok c := by
  obtain ⟨l, e, g, u⟩ := c
  cases l <;> cases e <;> cases g <;> cases u <;> rfl

@[simp] theorem decRm_encRm (r : Rm) : decRm (encRm r) = .ok r := by cases r <;> rfl

@[simp] theorem decGlobalTy_encGlobalTy (t : GlobalTy) : decGlobalTy (encGlobalTy t) = .ok t := by cases t <;> rfl

@[simp] theorem decWidth_encWidth (w : Width) : decWidth (encWidth w) = .ok w := by cases w <;> rfl

@[simp] theorem decRroMethod_encRroMethod (m : RroMethod) : decRroMethod (encRroMethod m) = .ok m := by
  cases m <;> rfl

/-! ### The small fields: writing what was read -/

/-- A reader and a writer agree if they do on each of the finitely many fields. -/
theorem enc_of_dec {n : Nat} {β : Type} {f : BitVec n → Except Reject β} {g : β → BitVec n}
    (h : ∀ b, (match f b with | .ok x => decide (g x = b) | .error _ => true) = true) {b : BitVec n} {x : β}
    (e : f b = .ok x) : g x = b := by
  have := h b
  rw [e] at this
  simpa using this

theorem encCond_of_dec {b : BitVec 5} {k : Cond} (h : decCond b = .ok k) : encCond k = b :=
  enc_of_dec (by decide) h

theorem encMarker_of_dec {b : BitVec 2} {m : Marker} (h : decMarker b = .ok m) : encMarker m = b :=
  enc_of_dec (by decide) h

theorem encElemTy_decElemTy (b : BitVec 2) : encElemTy (decElemTy b) = b := by revert b; decide

theorem encSize_decSize (b : BitVec 1) : encSize (decSize b) = b := by revert b; decide

theorem encCvtTy_of_dec {b : BitVec 3} {t : CvtTy} (h : decCvtTy b = .ok t) : encCvtTy t = b :=
  enc_of_dec (by decide) h

theorem encLogicOp_decLogicOp (b : BitVec 2) : encLogicOp (decLogicOp b) = b := by revert b; decide

theorem encCmp_of_dec {b : BitVec 5} {c : CmpSet} (h : decCmp b = .ok c) : encCmp c = b :=
  enc_of_dec (by decide) h

theorem encRm_of_dec {b : BitVec 2} {r : Rm} (h : decRm b = .ok r) : encRm r = b :=
  enc_of_dec (by decide) h

theorem encGlobalTy_of_dec {b : BitVec 3} {t : GlobalTy} (h : decGlobalTy b = .ok t) : encGlobalTy t = b :=
  enc_of_dec (by decide) h

theorem encWidth_of_dec {b : BitVec 2} {w : Width} (h : decWidth b = .ok w) : encWidth w = b :=
  enc_of_dec (by decide) h

theorem encRroMethod_of_dec {b : BitVec 2} {m : RroMethod} (h : decRroMethod b = .ok m) : encRroMethod m = b :=
  enc_of_dec (by decide) h

/-! ### The third field where it holds several small ones -/

theorem lop_parts (o : BitVec 2) (inv1 inv2 : Bool) :
    (0#3 ++ bit inv2 ++ bit inv1 ++ o).extractLsb' 4 3 = 0#3 ∧ (0#3 ++ bit inv2 ++ bit inv1 ++ o).extractLsb' 0 2 = o ∧
      (0#3 ++ bit inv2 ++ bit inv1 ++ o).getLsbD 2 = inv1 ∧ (0#3 ++ bit inv2 ++ bit inv1 ++ o).getLsbD 3 = inv2 := by
  revert o inv1 inv2; decide

theorem fset_parts (cmp : BitVec 5) (abs : Bool) :
    (bit abs ++ 0#1 ++ cmp).extractLsb' 5 1 = 0#1 ∧ (bit abs ++ 0#1 ++ cmp).extractLsb' 0 5 = cmp ∧
      (bit abs ++ 0#1 ++ cmp).getLsbD 6 = abs := by
  revert cmp abs; decide

theorem f2f_parts (rm : BitVec 2) (abs : Bool) :
    (bit abs ++ 0#1 ++ rm ++ 1#3).extractLsb' 5 1 = 0#1 ∧ (bit abs ++ 0#1 ++ rm ++ 1#3).extractLsb' 0 3 = 1#3 ∧
      (bit abs ++ 0#1 ++ rm ++ 1#3).extractLsb' 3 2 = rm ∧ (bit abs ++ 0#1 ++ rm ++ 1#3).getLsbD 6 = abs := by
  revert rm abs; decide

theorem f2i_parts (rm : BitVec 2) :
    (0#2 ++ rm ++ 1#3).extractLsb' 5 1 = 0#1 ∧ (0#2 ++ rm ++ 1#3).extractLsb' 0 3 = 1#3 ∧
      (0#2 ++ rm ++ 1#3).extractLsb' 6 1 = 0#1 ∧ (0#2 ++ rm ++ 1#3).extractLsb' 3 2 = rm := by
  revert rm; decide

theorem i2f_parts (rm : BitVec 2) (signed : Bool) :
    (0#2 ++ rm ++ bit signed ++ 1#2).extractLsb' 5 1 = 0#1 ∧ (0#2 ++ rm ++ bit signed ++ 1#2).extractLsb' 6 1 = 0#1 ∧
      (0#2 ++ rm ++ bit signed ++ 1#2).extractLsb' 0 2 = 1#2 ∧
      (0#2 ++ rm ++ bit signed ++ 1#2).extractLsb' 3 2 = rm ∧
      (0#2 ++ rm ++ bit signed ++ 1#2).getLsbD 2 = signed := by
  revert rm signed; decide

theorem r2a_imm_join (a : BitVec 12) :
    a.extractLsb' 10 2 ++ a.extractLsb' 9 1 ++ a.extractLsb' 8 1 ++ a.extractLsb' 7 1 ++ a.extractLsb' 0 7 = a := by
  rw [extract_join a 9, extract_join a 8, extract_join a 7, extract_join a 0]
  · exact BitVec.extractLsb'_eq_self
  all_goals rfl

theorem a2r_imm_join (a : BitVec 10) :
    a.extractLsb' 9 1 ++ a.extractLsb' 8 1 ++ a.extractLsb' 7 1 ++ a.extractLsb' 0 7 = a := by
  rw [extract_join a 8, extract_join a 7, extract_join a 0]
  · exact BitVec.extractLsb'_eq_self
  all_goals rfl

/-! ### The choice of the layout -/

/-- A list of checks finds nothing when each of them does not. -/
theorem firstProblem_none {l : List (Option Reject)} : firstProblem l = none ↔ ∀ x ∈ l, x = none := by
  induction l with
  | nil => simp [firstProblem]
  | cons x rest ih => cases x <;> simp [firstProblem, ih]

theorem need_ok {b : Bool} {r : Reject} {u : Unit} (h : need b r = .ok u) : b = true := by
  cases b
  · cases h
  · rfl

theorem checked_ok {i j : Instr} : checked i = .ok j ↔ i = j ∧ i.wf := by
  cases h : i.problem <;> simp [checked, Instr.wf, h]

theorem checked_of_wf {i : Instr} (h : i.wf) : checked i = .ok i := checked_ok.2 ⟨rfl, h⟩

theorem decodeWord_normal (r : RawL) (hl : r.lng = 1#1) (hf : r.flow = 0#1) (hm : r.marker ≠ 3#2) :
    decodeWord r.toWord = (decodeNormal r >>= checked) := by
  have e := RawL.ofWord_toWord r
  have h0 : r.toWord.getLsbD 0 = true := by
    have := congrArg RawL.lng e; rw [hl] at this
    simpa [RawL.ofWord] using congrArg (BitVec.getLsbD · 0) this
  have h1 : r.toWord.getLsbD 1 = false := by
    have := congrArg RawL.flow e; rw [hf] at this
    simpa [RawL.ofWord] using congrArg (BitVec.getLsbD · 0) this
  have h2 : ¬ r.toWord.extractLsb' 32 2 = 3#2 := by
    have := congrArg RawL.marker e; exact fun h => hm (this ▸ h)
  simp only [decodeWord, decodeLong, h0, h1, h2, e, if_true, if_false, Bool.false_eq_true]

theorem decodeWord_imm (r : RawI) (hl : r.lng = 1#1) (hf : r.flow = 0#1) (hm : r.marker = 3#2) :
    decodeWord r.toWord = (decodeImmRaw r >>= checked) := by
  have e := RawI.ofWord_toWord r
  have h0 : r.toWord.getLsbD 0 = true := by
    have := congrArg RawI.lng e; rw [hl] at this
    simpa [RawI.ofWord] using congrArg (BitVec.getLsbD · 0) this
  have h1 : r.toWord.getLsbD 1 = false := by
    have := congrArg RawI.flow e; rw [hf] at this
    simpa [RawI.ofWord] using congrArg (BitVec.getLsbD · 0) this
  have h2 : r.toWord.extractLsb' 32 2 = 3#2 := by
    have := congrArg RawI.marker e; rw [hm] at this; exact this
  simp only [decodeWord, decodeLong, h0, h1, h2, e, if_true, if_false, Bool.false_eq_true]

theorem decodeWord_flow (r : RawF) (hl : r.lng = 1#1) (hf : r.flow = 1#1) :
    decodeWord r.toWord = (decodeFlowRaw r >>= checked) := by
  have e := RawF.ofWord_toWord r
  have h0 : r.toWord.getLsbD 0 = true := by
    have := congrArg RawF.lng e; rw [hl] at this
    simpa [RawF.ofWord] using congrArg (BitVec.getLsbD · 0) this
  have h1 : r.toWord.getLsbD 1 = true := by
    have := congrArg RawF.flow e; rw [hf] at this
    simpa [RawF.ofWord] using congrArg (BitVec.getLsbD · 0) this
  simp only [decodeWord, decodeLong, h0, h1, e, if_true]

theorem decodeWord_short (r : RawS) (hl : r.lng = 0#1) :
    decodeWord (r.toWord.setWidth 64) = (decodeShortRaw r >>= checked) := by
  have e := RawS.ofWord_toWord r
  have h0 : (r.toWord.setWidth 64).getLsbD 0 = false := by
    have := congrArg RawS.lng e; rw [hl] at this
    simpa [RawS.ofWord] using congrArg (BitVec.getLsbD · 0) this
  have h1 : (r.toWord.setWidth 64).extractLsb' 0 32 = r.toWord := by
    apply BitVec.eq_of_getLsbD_eq
    intro i hi
    simp [hi, show i < 64 by omega]
  simp only [decodeWord, decodeShort, h0, h1, e, if_false, Bool.false_eq_true]

end Sys2Proof
end

