-- ==== Sys2Proof/Laws/Memory.lean ====
section
/-!
SUPPORT. The laws of one memory: a read after a write, the frame of a write, and the canonical form that every
write keeps.
-/
namespace Sys2Proof.Machine

/-- Every address of a memory is above a bound. -/
def Memory.above (m : Memory) (a : Nat) : Prop := ∀ c ∈ m, a < c.1

theorem Memory.wf_cons (c : Host.Cell) (m : Memory) :
    Memory.wf (c :: m) = true ↔ Memory.above m c.1 ∧ Memory.wf m = true := by
  induction m generalizing c with
  | nil => simp [Memory.wf, Memory.above]
  | cons d rest ih =>
    obtain ⟨a, v⟩ := c
    obtain ⟨b, u⟩ := d
    simp only [Memory.wf, Bool.and_eq_true, decide_eq_true_eq, Memory.above, List.mem_cons, forall_eq_or_imp]
    refine ⟨fun h => ⟨⟨h.1, fun e he => ?_⟩, h.2⟩, fun h => ⟨h.1.1, h.2⟩⟩
    exact lt_trans h.1 (((ih (b, u)).mp h.2).1 e he)

/-- A read after a write of one byte: the byte written, or what was there. -/
@[simp] theorem Memory.byteAt_setByte (m : Memory) (a : Nat) (v : Byte) (x : Nat) :
    (m.setByte a v).byteAt x = if x = a then some v else m.byteAt x := by
  induction m with
  | nil => by_cases h : x = a <;> simp [Memory.setByte, Memory.byteAt, h]
  | cons c rest ih =>
    obtain ⟨k, b⟩ := c
    simp only [Memory.setByte]
    split
    · by_cases h : x = a <;> simp [Memory.byteAt, h]
    · split
      · next h1 h2 => subst h2; by_cases h : x = a <;> simp [Memory.byteAt, h]
      · next h1 h2 =>
        simp only [Memory.byteAt, ih]
        by_cases h : x = a
        · subst h; simp [h2]
        · simp [h]

theorem Memory.above_setByte {m : Memory} {a k : Nat} {v : Byte} (h : m.above k) (hk : k < a) :
    (m.setByte a v).above k := by
  induction m with
  | nil => intro c hc; simp [Memory.setByte] at hc; subst hc; exact hk
  | cons d rest ih =>
    obtain ⟨b, u⟩ := d
    have h1 := h (b, u) (by simp)
    have h2 : Memory.above rest k := fun c hc => h c (List.mem_cons_of_mem _ hc)
    intro c hc
    simp only [Memory.setByte] at hc
    split at hc
    · rcases List.mem_cons.mp hc with rfl | hc
      · exact hk
      · exact h c hc
    · split at hc
      · rcases List.mem_cons.mp hc with rfl | hc
        · exact hk
        · exact h2 c hc
      · rcases List.mem_cons.mp hc with rfl | hc
        · exact h1
        · exact ih h2 c hc

/-- A write of one byte keeps the canonical form. -/
theorem Memory.setByte_wf {m : Memory} (h : m.wf = true) (a : Nat) (v : Byte) : (m.setByte a v).wf = true := by
  induction m with
  | nil => rfl
  | cons c rest ih =>
    obtain ⟨k, b⟩ := c
    have hc := (Memory.wf_cons _ _).mp h
    simp only [Memory.setByte]
    split
    · next h1 =>
      refine (Memory.wf_cons _ _).mpr ⟨?_, h⟩
      intro d hd
      rcases List.mem_cons.mp hd with rfl | hd
      · exact h1
      · exact lt_trans h1 (hc.1 d hd)
    · split
      · next h1 h2 => subst h2; exact (Memory.wf_cons _ _).mpr hc
      · next h1 h2 =>
        exact (Memory.wf_cons _ _).mpr ⟨Memory.above_setByte hc.1 (by simp only; omega), ih hc.2⟩

/-- A write of several bytes keeps the canonical form. -/
theorem Memory.setBytes_wf (bs : List Byte) : ∀ {m : Memory} (_ : m.wf = true) (a : Nat),
    (m.setBytes a bs).wf = true := by
  induction bs with
  | nil => intro m h a; exact h
  | cons b rest ih => intro m h a; exact ih (Memory.setByte_wf h a b) (a + 1)

/-- A read after a write of several bytes: the bytes written stand at rising addresses, the others stay. -/
theorem Memory.byteAt_setBytes (bs : List Byte) : ∀ (m : Memory) (a x : Nat),
    (m.setBytes a bs).byteAt x = if a ≤ x then (bs[x - a]?).or (m.byteAt x) else m.byteAt x := by
  induction bs with
  | nil => intro m a x; simp [Memory.setBytes]
  | cons b rest ih =>
    intro m a x
    rw [Memory.setBytes, ih, Memory.byteAt_setByte]
    rcases Nat.lt_trichotomy x a with h | h | h
    · have h1 : ¬ a ≤ x := by omega
      have h2 : ¬ a + 1 ≤ x := by omega
      have h3 : x ≠ a := by omega
      simp [h1, h2, h3]
    · subst h
      simp
    · have h1 : a ≤ x := by omega
      have h2 : a + 1 ≤ x := by omega
      have h3 : x ≠ a := by omega
      have h4 : x - a = (x - (a + 1)) + 1 := by omega
      simp [h1, h2, h3, h4]

/-- Outside the bytes written nothing changes. -/
theorem Memory.byteAt_setBytes_outside {m : Memory} {a x : Nat} {bs : List Byte}
    (h : x < a ∨ a + bs.length ≤ x) : (m.setBytes a bs).byteAt x = m.byteAt x := by
  rw [Memory.byteAt_setBytes]
  split
  · next hx =>
    have : bs[x - a]? = none := by simp; omega
    simp [this]
  · rfl

/-- The bytes read are the bytes at rising addresses. -/
theorem Memory.bytesAt_eq_some {m : Memory} (n : Nat) : ∀ {a : Nat} {bs : List Byte},
    m.bytesAt a n = some bs ↔ bs.length = n ∧ ∀ i < n, m.byteAt (a + i) = bs[i]? := by
  induction n with
  | zero => intro a bs; cases bs <;> simp [Memory.bytesAt]
  | succ n ih =>
    intro a bs
    cases bs with
    | nil =>
      simp only [Memory.bytesAt]
      split <;> simp
    | cons b rest =>
      simp only [Memory.bytesAt]
      constructor
      · intro h
        split at h
        · next b' r' hb hr =>
          obtain ⟨rfl, rfl⟩ := List.cons.inj (Option.some.inj h)
          obtain ⟨hl, hi⟩ := ih.mp hr
          refine ⟨by simp [hl], fun i hi' => ?_⟩
          cases i with
          | zero => simpa using hb
          | succ i =>
            have := hi i (by omega)
            rw [show a + (i + 1) = a + 1 + i by omega, this]; simp
        · simp at h
      · rintro ⟨hl, hi⟩
        have h0 := hi 0 (by omega)
        simp only [Nat.add_zero, List.getElem?_cons_zero] at h0
        have hr : m.bytesAt (a + 1) n = some rest := by
          refine ih.mpr ⟨by simpa using hl, fun i hi' => ?_⟩
          have := hi (i + 1) (by omega)
          rw [show a + 1 + i = a + (i + 1) by omega, this]; simp
        rw [h0, hr]

/-- A store writes as many bytes as it says. -/
@[simp] theorem littleBytes_length (n : Nat) (v : Word) : (littleBytes n v).length = n := by
  induction n generalizing v with
  | zero => rfl
  | succ n ih => simp [littleBytes, ih]

@[simp] theorem bytesOf_length (e : Endian) (n : Nat) (v : Word) : (bytesOf e n v).length = n := by
  cases e <;> simp [bytesOf]

@[simp] theorem Store.list_length (e : Endian) (st : Store) : (st.list e).length = st.bytes := by
  simp [Store.list]

end Sys2Proof.Machine
end

