-- ==== Sys2Proof/Laws/State.lean ====
section
/-!
SUPPORT. One lemma per field per named update of the machine's records, true by `rfl`, so that no proof unfolds a
record update.
-/
namespace Sys2Proof.Machine

/-! ### A thread after `setGpr` -/

@[simp] theorem Thread.setGpr_pred (t : Thread) (n : Nat) (v : Word) : (t.setGpr n v).pred = t.pred := rfl
@[simp] theorem Thread.setGpr_areg (t : Thread) (n : Nat) (v : Word) : (t.setGpr n v).areg = t.areg := rfl

/-! ### A thread after `setHalf` -/

@[simp] theorem Thread.setHalf_pred (t : Thread) (k : Nat) (v : Half) : (t.setHalf k v).pred = t.pred := rfl
@[simp] theorem Thread.setHalf_areg (t : Thread) (k : Nat) (v : Half) : (t.setHalf k v).areg = t.areg := rfl

/-! ### A thread after `setPred` -/

@[simp] theorem Thread.setPred_gpr (t : Thread) (p : BitVec 2) (f : Flags) : (t.setPred p f).gpr = t.gpr := rfl
@[simp] theorem Thread.setPred_areg (t : Thread) (p : BitVec 2) (f : Flags) : (t.setPred p f).areg = t.areg := rfl

/-! ### A thread after `setAreg` -/

@[simp] theorem Thread.setAreg_gpr (t : Thread) (a : Nat) (v : Word) : (t.setAreg a v).gpr = t.gpr := rfl
@[simp] theorem Thread.setAreg_pred (t : Thread) (a : Nat) (v : Word) : (t.setAreg a v).pred = t.pred := rfl

/-! ### A warp after `advance` -/

@[simp] theorem Warp.advance_block (w : Warp) (len : Nat) : (w.advance len).block = w.block := rfl
@[simp] theorem Warp.advance_index (w : Warp) (len : Nat) : (w.advance len).index = w.index := rfl
@[simp] theorem Warp.advance_lanes (w : Warp) (len : Nat) : (w.advance len).lanes = w.lanes := rfl
@[simp] theorem Warp.advance_stack (w : Warp) (len : Nat) : (w.advance len).stack = w.stack := rfl
@[simp] theorem Warp.advance_status (w : Warp) (len : Nat) : (w.advance len).status = w.status := rfl
@[simp] theorem Warp.advance_epoch (w : Warp) (len : Nat) : (w.advance len).epoch = w.epoch := rfl

@[simp] theorem Warp.advance_pc (w : Warp) (len : Nat) : (w.advance len).pc = w.pc + len := rfl

/-! ### A warp after `unreturn` -/

@[simp] theorem Warp.unreturn_block (w : Warp) (mask : List Nat) : (w.unreturn mask).block = w.block := rfl
@[simp] theorem Warp.unreturn_index (w : Warp) (mask : List Nat) : (w.unreturn mask).index = w.index := rfl
@[simp] theorem Warp.unreturn_pc (w : Warp) (mask : List Nat) : (w.unreturn mask).pc = w.pc := rfl
@[simp] theorem Warp.unreturn_stack (w : Warp) (mask : List Nat) : (w.unreturn mask).stack = w.stack := rfl
@[simp] theorem Warp.unreturn_status (w : Warp) (mask : List Nat) : (w.unreturn mask).status = w.status := rfl
@[simp] theorem Warp.unreturn_epoch (w : Warp) (mask : List Nat) : (w.unreturn mask).epoch = w.epoch := rfl

/-! ### A warp after `activate` -/

@[simp] theorem Warp.activate_block (w : Warp) (mask : List Nat) : (w.activate mask).block = w.block := rfl
@[simp] theorem Warp.activate_index (w : Warp) (mask : List Nat) : (w.activate mask).index = w.index := rfl
@[simp] theorem Warp.activate_pc (w : Warp) (mask : List Nat) : (w.activate mask).pc = w.pc := rfl
@[simp] theorem Warp.activate_stack (w : Warp) (mask : List Nat) : (w.activate mask).stack = w.stack := rfl
@[simp] theorem Warp.activate_status (w : Warp) (mask : List Nat) : (w.activate mask).status = w.status := rfl
@[simp] theorem Warp.activate_epoch (w : Warp) (mask : List Nat) : (w.activate mask).epoch = w.epoch := rfl

/-! ### A warp after `retire` -/

@[simp] theorem Warp.retire_block (w : Warp) (who : Nat → Bool) (st : LaneStatus) : (w.retire who st).block = w.block := rfl
@[simp] theorem Warp.retire_index (w : Warp) (who : Nat → Bool) (st : LaneStatus) : (w.retire who st).index = w.index := rfl
@[simp] theorem Warp.retire_pc (w : Warp) (who : Nat → Bool) (st : LaneStatus) : (w.retire who st).pc = w.pc := rfl
@[simp] theorem Warp.retire_stack (w : Warp) (who : Nat → Bool) (st : LaneStatus) : (w.retire who st).stack = w.stack := rfl
@[simp] theorem Warp.retire_status (w : Warp) (who : Nat → Bool) (st : LaneStatus) : (w.retire who st).status = w.status := rfl
@[simp] theorem Warp.retire_epoch (w : Warp) (who : Nat → Bool) (st : LaneStatus) : (w.retire who st).epoch = w.epoch := rfl

/-! ### A warp after `popEntry` -/

@[simp] theorem Warp.popEntry_pc (w : Warp) (e : Entry) (below : List Entry) :
    (w.popEntry e below).pc = e.addr := rfl

@[simp] theorem Warp.popEntry_block (w : Warp) (e : Entry) (below : List Entry) :
    (w.popEntry e below).block = w.block := by
  unfold Warp.popEntry; split <;> rfl

@[simp] theorem Warp.popEntry_index (w : Warp) (e : Entry) (below : List Entry) :
    (w.popEntry e below).index = w.index := by
  unfold Warp.popEntry; split <;> rfl

@[simp] theorem Warp.popEntry_status (w : Warp) (e : Entry) (below : List Entry) :
    (w.popEntry e below).status = w.status := by
  unfold Warp.popEntry; split <;> rfl

@[simp] theorem Warp.popEntry_epoch (w : Warp) (e : Entry) (below : List Entry) :
    (w.popEntry e below).epoch = w.epoch := by
  unfold Warp.popEntry; split <;> rfl

@[simp] theorem Warp.popEntry_stack (w : Warp) (e : Entry) (below : List Entry) :
    (w.popEntry e below).stack = below := by
  unfold Warp.popEntry; split <;> rfl

/-! ### The machine after one store -/

@[simp] theorem State.applyStore_params (s : State) (st : Store) : (s.applyStore st).params = s.params := by
  unfold State.applyStore; split <;> rfl

@[simp] theorem State.applyStore_warp (s : State) (st : Store) : (s.applyStore st).warp = s.warp := by
  unfold State.applyStore; split <;> rfl

@[simp] theorem State.applyStore_rest (s : State) (st : Store) : (s.applyStore st).rest = s.rest := by
  unfold State.applyStore; split <;> rfl

@[simp] theorem State.applyStore_const (s : State) (st : Store) : (s.applyStore st).const = s.const := by
  unfold State.applyStore; split <;> rfl

@[simp] theorem State.applyStore_code (s : State) (st : Store) : (s.applyStore st).code = s.code := by
  unfold State.applyStore; split <;> rfl

@[simp] theorem State.applyStore_log (s : State) (st : Store) : (s.applyStore st).log = s.log := by
  unfold State.applyStore; split <;> rfl

@[simp] theorem State.applyStore_clock (s : State) (st : Store) : (s.applyStore st).clock = s.clock := by
  unfold State.applyStore; split <;> rfl

@[simp] theorem State.applyStore_ir (s : State) (st : Store) : (s.applyStore st).ir = s.ir := by
  unfold State.applyStore; split <;> rfl

/-! ### The machine after the stores of an instruction -/

@[simp] theorem State.applyStores_params (s : State) (sts : List Store) :
    (s.applyStores sts).params = s.params := by
  induction sts generalizing s with
  | nil => rfl
  | cons st rest ih => simp [State.applyStores, ih]

@[simp] theorem State.applyStores_warp (s : State) (sts : List Store) :
    (s.applyStores sts).warp = s.warp := by
  induction sts generalizing s with
  | nil => rfl
  | cons st rest ih => simp [State.applyStores, ih]

@[simp] theorem State.applyStores_rest (s : State) (sts : List Store) :
    (s.applyStores sts).rest = s.rest := by
  induction sts generalizing s with
  | nil => rfl
  | cons st rest ih => simp [State.applyStores, ih]

@[simp] theorem State.applyStores_const (s : State) (sts : List Store) :
    (s.applyStores sts).const = s.const := by
  induction sts generalizing s with
  | nil => rfl
  | cons st rest ih => simp [State.applyStores, ih]

@[simp] theorem State.applyStores_code (s : State) (sts : List Store) :
    (s.applyStores sts).code = s.code := by
  induction sts generalizing s with
  | nil => rfl
  | cons st rest ih => simp [State.applyStores, ih]

@[simp] theorem State.applyStores_log (s : State) (sts : List Store) :
    (s.applyStores sts).log = s.log := by
  induction sts generalizing s with
  | nil => rfl
  | cons st rest ih => simp [State.applyStores, ih]

@[simp] theorem State.applyStores_clock (s : State) (sts : List Store) :
    (s.applyStores sts).clock = s.clock := by
  induction sts generalizing s with
  | nil => rfl
  | cons st rest ih => simp [State.applyStores, ih]

@[simp] theorem State.applyStores_ir (s : State) (sts : List Store) :
    (s.applyStores sts).ir = s.ir := by
  induction sts generalizing s with
  | nil => rfl
  | cons st rest ih => simp [State.applyStores, ih]

/-! ### The machine after phase 2 -/

@[simp] theorem State.commit_params (s : State) (outs : List LaneOut) : (s.commit outs).params = s.params := by
  simp [State.commit]

@[simp] theorem State.commit_rest (s : State) (outs : List LaneOut) : (s.commit outs).rest = s.rest := by
  simp [State.commit]

@[simp] theorem State.commit_const (s : State) (outs : List LaneOut) : (s.commit outs).const = s.const := by
  simp [State.commit]

@[simp] theorem State.commit_code (s : State) (outs : List LaneOut) : (s.commit outs).code = s.code := by
  simp [State.commit]

@[simp] theorem State.commit_clock (s : State) (outs : List LaneOut) : (s.commit outs).clock = s.clock := by
  simp [State.commit]

@[simp] theorem State.commit_ir (s : State) (outs : List LaneOut) : (s.commit outs).ir = s.ir := by
  simp [State.commit]

@[simp] theorem State.commit_warp_block (s : State) (outs : List LaneOut) :
    (s.commit outs).warp.block = s.warp.block := by
  simp [State.commit]

@[simp] theorem State.commit_warp_index (s : State) (outs : List LaneOut) :
    (s.commit outs).warp.index = s.warp.index := by
  simp [State.commit]

@[simp] theorem State.commit_warp_pc (s : State) (outs : List LaneOut) :
    (s.commit outs).warp.pc = s.warp.pc := by
  simp [State.commit]

@[simp] theorem State.commit_warp_stack (s : State) (outs : List LaneOut) :
    (s.commit outs).warp.stack = s.warp.stack := by
  simp [State.commit]

@[simp] theorem State.commit_warp_status (s : State) (outs : List LaneOut) :
    (s.commit outs).warp.status = s.warp.status := by
  simp [State.commit]

@[simp] theorem State.commit_warp_epoch (s : State) (outs : List LaneOut) :
    (s.commit outs).warp.epoch = s.warp.epoch := by
  simp [State.commit]

@[simp] theorem State.commit_warp_lanes (s : State) (outs : List LaneOut) :
    (s.commit outs).warp.lanes = outs.map LaneOut.lane := rfl

@[simp] theorem State.commit_global (s : State) (outs : List LaneOut) :
    (s.commit outs).global = (s.applyStores (storesOf outs)).global := rfl

@[simp] theorem State.commit_shared (s : State) (outs : List LaneOut) :
    (s.commit outs).shared = (s.applyStores (storesOf outs)).shared := rfl

/-! ### A warp at a barrier release -/

@[simp] theorem releaseWarp_block (b : Nat) (w : Warp) : (releaseWarp b w).block = w.block := by
  unfold releaseWarp; split <;> rfl

@[simp] theorem releaseWarp_index (b : Nat) (w : Warp) : (releaseWarp b w).index = w.index := by
  unfold releaseWarp; split <;> rfl

@[simp] theorem releaseWarp_lanes (b : Nat) (w : Warp) : (releaseWarp b w).lanes = w.lanes := by
  unfold releaseWarp; split <;> rfl

@[simp] theorem releaseWarp_stack (b : Nat) (w : Warp) : (releaseWarp b w).stack = w.stack := by
  unfold releaseWarp; split <;> rfl

/-! ### The machine with a kernel word loaded -/

@[simp] theorem State.loadCode_warp (s : State) (pc : Nat) (v : Long) : (s.loadCode pc v).warp = s.warp := rfl
@[simp] theorem State.loadCode_rest (s : State) (pc : Nat) (v : Long) : (s.loadCode pc v).rest = s.rest := rfl
@[simp] theorem State.loadCode_global (s : State) (pc : Nat) (v : Long) : (s.loadCode pc v).global = s.global := rfl
@[simp] theorem State.loadCode_shared (s : State) (pc : Nat) (v : Long) : (s.loadCode pc v).shared = s.shared := rfl
@[simp] theorem State.loadCode_const (s : State) (pc : Nat) (v : Long) : (s.loadCode pc v).const = s.const := rfl
@[simp] theorem State.loadCode_log (s : State) (pc : Nat) (v : Long) : (s.loadCode pc v).log = s.log := rfl
@[simp] theorem State.loadCode_clock (s : State) (pc : Nat) (v : Long) : (s.loadCode pc v).clock = s.clock := rfl
@[simp] theorem State.loadCode_ir (s : State) (pc : Nat) (v : Long) : (s.loadCode pc v).ir = s.ir := rfl

end Sys2Proof.Machine
end

