-- ==== Sys2Proof/Laws/Warps.lean ====
section
/-!
SUPPORT. What the control operations of a warp can do: they act on the statuses of lanes only, never on a thread;
a marker either fails on an empty stack or leaves a warp that has an active lane or has finished.
-/
namespace Sys2Proof.Machine

/-! ### Lists of lanes -/

@[simp] theorem mapLanes_length (f : Nat → Lane → Lane) (i : Nat) (ls : List Lane) :
    (mapLanes f i ls).length = ls.length := by
  induction ls generalizing i with
  | nil => rfl
  | cons l rest ih => simp [mapLanes, ih]

theorem mapLanes_getElem? (f : Nat → Lane → Lane) (i : Nat) (ls : List Lane) (j : Nat) :
    (mapLanes f i ls)[j]? = (ls[j]?).map (f (i + j)) := by
  induction ls generalizing i j with
  | nil => simp [mapLanes]
  | cons l rest ih =>
    cases j with
    | zero => simp [mapLanes]
    | succ j => simp [mapLanes, ih, Nat.add_assoc, Nat.add_comm 1]

theorem mem_lanesWhere (f : Lane → Bool) (i : Nat) (ls : List Lane) (n : Nat) :
    n ∈ lanesWhere f i ls ↔ ∃ j l, n = i + j ∧ ls[j]? = some l ∧ f l = true := by
  induction ls generalizing i with
  | nil => simp [lanesWhere]
  | cons l rest ih =>
    have key : (n ∈ lanesWhere f (i + 1) rest) ↔ ∃ j l', n = i + (j + 1) ∧ rest[j]? = some l' ∧ f l' = true := by
      rw [ih]; simp only [Nat.add_assoc, Nat.add_comm 1]
    constructor
    · intro h
      simp only [lanesWhere] at h
      split at h
      · next hf =>
        rcases List.mem_cons.mp h with rfl | h
        · exact ⟨0, l, by simp, by simp, hf⟩
        · obtain ⟨j, l', h1, h2, h3⟩ := key.mp h
          exact ⟨j + 1, l', h1, by simpa using h2, h3⟩
      · obtain ⟨j, l', h1, h2, h3⟩ := key.mp h
        exact ⟨j + 1, l', h1, by simpa using h2, h3⟩
    · rintro ⟨j, l', h1, h2, h3⟩
      simp only [lanesWhere]
      cases j with
      | zero =>
        simp at h2; subst h2
        simp [h3, h1]
      | succ j =>
        have := key.mpr ⟨j, l', h1, by simpa using h2, h3⟩
        split
        · exact List.mem_cons_of_mem _ this
        · exact this

/-- The lanes of the set `active` are the lanes whose status says so. -/
theorem Warp.mem_active (w : Warp) (n : Nat) :
    n ∈ w.active ↔ ∃ l, w.lanes[n]? = some l ∧ l.status = .active := by
  simp [Warp.active, mem_lanesWhere]

theorem Warp.hasActive_iff (w : Warp) : w.hasActive = true ↔ ∃ l ∈ w.lanes, l.status = .active := by
  simp [Warp.hasActive]

theorem Warp.hasActive_iff_getElem? (w : Warp) :
    w.hasActive = true ↔ ∃ (n : Nat) (l : Lane), w.lanes[n]? = some l ∧ l.status = .active := by
  rw [Warp.hasActive_iff]
  constructor
  · rintro ⟨l, hl, h⟩
    obtain ⟨n, hn⟩ := List.mem_iff_getElem?.mp hl
    exact ⟨n, l, hn, h⟩
  · rintro ⟨n, l, hl, h⟩
    exact ⟨l, List.mem_of_getElem? hl, h⟩

/-! ### The three changes of a lane -/

@[simp] theorem unreturnLane_thread (m : List Nat) (i : Nat) (l : Lane) :
    (unreturnLane m i l).thread = l.thread := by
  unfold unreturnLane; split <;> rfl

@[simp] theorem activateLane_thread (m : List Nat) (i : Nat) (l : Lane) :
    (activateLane m i l).thread = l.thread := by
  unfold activateLane; split <;> rfl

@[simp] theorem retireLane_thread (who : Nat → Bool) (st : LaneStatus) (i : Nat) (l : Lane) :
    (retireLane who st i l).thread = l.thread := by
  unfold retireLane; split <;> rfl

theorem unreturnLane_status (m : List Nat) (i : Nat) (l : Lane) :
    (unreturnLane m i l).status = if l.status = .returned ∧ i ∈ m then .idle else l.status := by
  unfold unreturnLane; split <;> rfl

theorem activateLane_status (m : List Nat) (i : Nat) (l : Lane) :
    (activateLane m i l).status =
      if l.status = .ended ∨ l.status = .returned then l.status else if i ∈ m then .active else .idle := by
  unfold activateLane; split <;> rfl

theorem retireLane_status (who : Nat → Bool) (st : LaneStatus) (i : Nat) (l : Lane) :
    (retireLane who st i l).status = if l.status = .active ∧ who i = true then st else l.status := by
  unfold retireLane; split <;> rfl

/-- An ended lane is left exactly as it is. -/
theorem unreturnLane_ended (m : List Nat) (i : Nat) {l : Lane} (h : l.status = .ended) :
    unreturnLane m i l = l := by
  unfold unreturnLane; simp [h]

theorem activateLane_ended (m : List Nat) (i : Nat) {l : Lane} (h : l.status = .ended) :
    activateLane m i l = l := by
  unfold activateLane; simp [h]

theorem retireLane_ended (who : Nat → Bool) (st : LaneStatus) (i : Nat) {l : Lane} (h : l.status = .ended) :
    retireLane who st i l = l := by
  unfold retireLane; simp [h]

/-! ### Threads and statuses -/

theorem mapLanes_threads {f : Nat → Lane → Lane} (h : ∀ i l, (f i l).thread = l.thread) (i : Nat)
    (ls : List Lane) : (mapLanes f i ls).map Lane.thread = ls.map Lane.thread := by
  induction ls generalizing i with
  | nil => rfl
  | cons l rest ih => simp [mapLanes, ih, h]

theorem mapLanes_statuses {f : Nat → Lane → Lane}
    (h : ∀ i l l', l.status = l'.status → (f i l).status = (f i l').status) (i : Nat) :
    ∀ {ls ls' : List Lane}, ls.map Lane.status = ls'.map Lane.status →
      (mapLanes f i ls).map Lane.status = (mapLanes f i ls').map Lane.status := by
  intro ls
  induction ls generalizing i with
  | nil => intro ls' h'; cases ls' with
    | nil => rfl
    | cons => simp at h'
  | cons l rest ih =>
    intro ls' h'
    cases ls' with
    | nil => simp at h'
    | cons l' rest' =>
      simp only [List.map_cons, List.cons.injEq] at h'
      simp only [mapLanes, List.map_cons, List.cons.injEq]
      exact ⟨h i l l' h'.1, ih (i + 1) h'.2⟩

@[simp] theorem Warp.unreturn_threads (w : Warp) (m : List Nat) : (w.unreturn m).threads = w.threads :=
  mapLanes_threads (by simp) 0 w.lanes

@[simp] theorem Warp.activate_threads (w : Warp) (m : List Nat) : (w.activate m).threads = w.threads :=
  mapLanes_threads (by simp) 0 w.lanes

@[simp] theorem Warp.retire_threads (w : Warp) (who : Nat → Bool) (st : LaneStatus) :
    (w.retire who st).threads = w.threads :=
  mapLanes_threads (by simp) 0 w.lanes

@[simp] theorem Warp.popEntry_threads (w : Warp) (e : Entry) (below : List Entry) :
    (w.popEntry e below).threads = w.threads := by
  have h1 : ∀ v : Warp, Warp.threads { v.activate e.mask with pc := e.addr } = v.threads :=
    fun v => Warp.activate_threads v e.mask
  unfold Warp.popEntry
  split
  · rw [h1, Warp.unreturn_threads]; rfl
  · rw [h1]; rfl

@[simp] theorem resumeFrom_threads (w : Warp) (es : List Entry) : (resumeFrom w es).threads = w.threads := by
  induction es generalizing w with
  | nil => rfl
  | cons e below ih =>
    simp only [resumeFrom]
    split
    · simp
    · rw [ih]; simp

@[simp] theorem Warp.resume_threads (w : Warp) : w.resume.threads = w.threads := by
  unfold Warp.resume; split <;> simp

@[simp] theorem Warp.exit_threads (w : Warp) : w.exit.threads = w.threads := by
  simp [Warp.exit]

@[simp] theorem Warp.advance_threads (w : Warp) (len : Nat) : (w.advance len).threads = w.threads := rfl

/-- No marker touches a thread. -/
theorem Warp.mark_threads {w v : Warp} {mk : Marker} (h : w.mark mk = .ok v) : v.threads = w.threads := by
  cases mk with
  | normal => cases h; rfl
  | exit => cases h; simp
  | join =>
    simp only [Warp.mark, Warp.join] at h
    split at h
    · cases h
    · cases h; simp

/-! ### Names and counters that control leaves alone -/

@[simp] theorem resumeFrom_block (w : Warp) (es : List Entry) : (resumeFrom w es).block = w.block := by
  induction es generalizing w with
  | nil => rfl
  | cons e below ih => simp only [resumeFrom]; split <;> simp [ih]

@[simp] theorem resumeFrom_index (w : Warp) (es : List Entry) : (resumeFrom w es).index = w.index := by
  induction es generalizing w with
  | nil => rfl
  | cons e below ih => simp only [resumeFrom]; split <;> simp [ih]

@[simp] theorem resumeFrom_epoch (w : Warp) (es : List Entry) : (resumeFrom w es).epoch = w.epoch := by
  induction es generalizing w with
  | nil => rfl
  | cons e below ih => simp only [resumeFrom]; split <;> simp [ih]

@[simp] theorem Warp.resume_block (w : Warp) : w.resume.block = w.block := by
  unfold Warp.resume; split <;> simp

@[simp] theorem Warp.resume_index (w : Warp) : w.resume.index = w.index := by
  unfold Warp.resume; split <;> simp

@[simp] theorem Warp.resume_epoch (w : Warp) : w.resume.epoch = w.epoch := by
  unfold Warp.resume; split <;> simp

theorem Warp.mark_names {w v : Warp} {mk : Marker} (h : w.mark mk = .ok v) :
    v.block = w.block ∧ v.index = w.index ∧ v.epoch = w.epoch := by
  cases mk with
  | normal => cases h; exact ⟨rfl, rfl, rfl⟩
  | exit => cases h; simp [Warp.exit]
  | join =>
    simp only [Warp.mark, Warp.join] at h
    split at h
    · cases h
    · cases h; simp

/-! ### Control depends on control only -/

/-- Two warps that differ at most in the registers of their threads. -/
structure SameControl (w v : Warp) : Prop where
  block : w.block = v.block
  index : w.index = v.index
  pc : w.pc = v.pc
  stack : w.stack = v.stack
  status : w.status = v.status
  epoch : w.epoch = v.epoch
  lanes : w.lanes.map Lane.status = v.lanes.map Lane.status

theorem SameControl.hasActive {w v : Warp} (h : SameControl w v) : w.hasActive = v.hasActive := by
  have key : ∀ u : Warp, u.hasActive = (u.lanes.map Lane.status).any (fun x => x == .active) := by
    intro u; simp [Warp.hasActive, List.any_map, Function.comp_def]
  rw [key, key, h.lanes]

theorem SameControl.advance {w v : Warp} (h : SameControl w v) (len : Nat) :
    SameControl (w.advance len) (v.advance len) :=
  ⟨h.block, h.index, by simp [h.pc], h.stack, h.status, h.epoch, h.lanes⟩

theorem SameControl.popEntry {w v : Warp} (h : SameControl w v) (e : Entry) (below : List Entry) :
    SameControl (w.popEntry e below) (v.popEntry e below) := by
  refine ⟨by simp [h.block], by simp [h.index], by simp, by simp, by simp [h.status], by simp [h.epoch], ?_⟩
  have act : ∀ i (l l' : Lane), l.status = l'.status →
      (activateLane e.mask i l).status = (activateLane e.mask i l').status := by
    intro i l l' h; simp only [activateLane_status, h]
  have unr : ∀ i (l l' : Lane), l.status = l'.status →
      (unreturnLane e.mask i l).status = (unreturnLane e.mask i l').status := by
    intro i l l' h; simp only [unreturnLane_status, h]
  unfold Warp.popEntry
  split
  · exact mapLanes_statuses act 0 (mapLanes_statuses unr 0 h.lanes)
  · exact mapLanes_statuses act 0 h.lanes

theorem SameControl.resumeFrom {w v : Warp} (h : SameControl w v) (es : List Entry) :
    SameControl (resumeFrom w es) (Machine.resumeFrom v es) := by
  induction es generalizing w v with
  | nil => exact ⟨h.block, h.index, h.pc, rfl, rfl, h.epoch, h.lanes⟩
  | cons e below ih =>
    simp only [Machine.resumeFrom]
    rw [(h.popEntry e below).hasActive]
    split
    · exact h.popEntry e below
    · exact ih (h.popEntry e below)

theorem SameControl.resume {w v : Warp} (h : SameControl w v) : SameControl w.resume v.resume := by
  unfold Warp.resume
  rw [h.hasActive, h.stack]
  split
  · exact h
  · exact h.resumeFrom _

theorem SameControl.exit {w v : Warp} (h : SameControl w v) : SameControl w.exit v.exit := by
  refine SameControl.resume ⟨h.block, h.index, h.pc, h.stack, h.status, h.epoch, mapLanes_statuses ?_ 0 h.lanes⟩
  intro i l l' h
  simp only [retireLane_status, h]

/-- A marker does to two warps with the same control the same. -/
theorem SameControl.mark {w v : Warp} (h : SameControl w v) {mk : Marker} {v' : Warp} (hv : v.mark mk = .ok v') :
    ∃ w', w.mark mk = .ok w' ∧ SameControl w' v' := by
  cases mk with
  | normal => cases hv; exact ⟨w, rfl, h⟩
  | exit => cases hv; exact ⟨w.exit, rfl, h.exit⟩
  | join =>
    simp only [Warp.mark, Warp.join] at hv ⊢
    rw [h.stack]
    split at hv
    · cases hv
    · next e below heq =>
      cases hv
      exact ⟨_, rfl, (h.popEntry e below).resume⟩

/-- With an entry to pop, a marker does not fail. -/
theorem Warp.mark_ready {w : Warp} {mk : Marker} (h : MarkerReady mk w) : ∃ v, w.mark mk = .ok v := by
  cases mk with
  | normal => exact ⟨w, rfl⟩
  | exit => exact ⟨w.exit, rfl⟩
  | join =>
    have hs := h rfl
    simp only [Warp.mark, Warp.join]
    split
    · next heq => exact absurd heq hs
    · exact ⟨_, rfl⟩

/-! ### Soundness of a warp -/

theorem resumeFrom_result (w : Warp) (es : List Entry) (h : w.hasActive = false) :
    ((resumeFrom w es).hasActive = true ∧ (resumeFrom w es).status = w.status ∧
        (resumeFrom w es).stack.length < es.length) ∨
      ((resumeFrom w es).hasActive = false ∧ (resumeFrom w es).status = .finished ∧
        (resumeFrom w es).stack = []) := by
  induction es generalizing w with
  | nil => exact .inr ⟨h, rfl, rfl⟩
  | cons e below ih =>
    simp only [resumeFrom]
    split
    · next ha => exact .inl ⟨ha, by simp, by simp⟩
    · next ha =>
      have ha' : (w.popEntry e below).hasActive = false := by simpa using ha
      rcases ih _ ha' with ⟨h1, h2, h3⟩ | h
      · exact .inl ⟨h1, by simpa using h2, by simp only [List.length_cons]; omega⟩
      · exact .inr h

/-- After `resume` a warp has an active lane and goes on, or has none and has finished (R140). -/
theorem Warp.resume_result (w : Warp) :
    (w.resume.hasActive = true ∧ w.resume.status = w.status ∧ w.resume.stack.length ≤ w.stack.length) ∨
      (w.resume.hasActive = false ∧ w.resume.status = .finished ∧ w.resume.stack = []) := by
  unfold Warp.resume
  split
  · next h => exact .inl ⟨h, rfl, Nat.le_refl _⟩
  · next h =>
    rcases resumeFrom_result w w.stack (by simpa using h) with ⟨h1, h2, h3⟩ | h
    · exact .inl ⟨h1, h2, Nat.le_of_lt h3⟩
    · exact .inr h

/-- A warp after `resume` is sound. -/
theorem Warp.resume_sound {p : Params} {w : Warp} (hd : w.stack.length ≤ p.stackDepth)
    (hs : w.status ≠ .finished) : w.resume.Sound p := by
  rcases w.resume_result with ⟨h1, h2, h3⟩ | ⟨h1, h2, h3⟩
  · exact ⟨Nat.le_trans h3 hd, fun _ => h1, fun h => absurd (h2.symm.trans h) hs⟩
  · exact ⟨by rw [h3]; simp, fun h => by rw [h2] at h; simp at h, fun _ => ⟨h1, h3⟩⟩

/-- A marker keeps a warp sound. -/
theorem Warp.mark_sound {p : Params} {w v : Warp} {mk : Marker} (h : w.Sound p) (hs : w.status ≠ .finished)
    (hm : w.mark mk = .ok v) : v.Sound p := by
  cases mk with
  | normal => cases hm; exact h
  | exit => cases hm; exact Warp.resume_sound (by simpa using h.depth) (by simpa using hs)
  | join =>
    simp only [Warp.mark, Warp.join] at hm
    split at hm
    · cases hm
    · next e below heq =>
      cases hm
      refine Warp.resume_sound ?_ (by simpa using hs)
      have := h.depth
      rw [heq] at this
      simp only [List.length_cons] at this
      simp only [Warp.popEntry_stack]; omega

/-! ### Ended lanes -/

/-- Every ended lane of one warp stands unchanged in another (R36). -/
def KeepsEnded (w v : Warp) : Prop :=
  ∀ (j : Nat) (l : Lane), w.lanes[j]? = some l → l.status = .ended → v.lanes[j]? = some l

theorem KeepsEnded.refl (w : Warp) : KeepsEnded w w := fun _ _ h _ => h

theorem KeepsEnded.trans {u v w : Warp} (h : KeepsEnded u v) (h' : KeepsEnded v w) : KeepsEnded u w :=
  fun j l hl he => h' j l (h j l hl he) he

theorem keepsEnded_mapLanes {w v : Warp} {f : Nat → Lane → Lane} (h : v.lanes = mapLanes f 0 w.lanes)
    (hf : ∀ i l, l.status = .ended → f i l = l) : KeepsEnded w v := by
  intro j l hl he
  rw [h, mapLanes_getElem?, hl]
  simp [hf _ _ he]

theorem Warp.popEntry_ended (w : Warp) (e : Entry) (below : List Entry) : KeepsEnded w (w.popEntry e below) := by
  unfold Warp.popEntry
  split
  · refine KeepsEnded.trans (v := Warp.unreturn { w with stack := below } e.mask) ?_ ?_
    · exact keepsEnded_mapLanes rfl fun _ _ h => unreturnLane_ended _ _ h
    · exact keepsEnded_mapLanes rfl fun _ _ h => activateLane_ended _ _ h
  · exact keepsEnded_mapLanes rfl fun _ _ h => activateLane_ended _ _ h

theorem resumeFrom_ended (w : Warp) (es : List Entry) : KeepsEnded w (resumeFrom w es) := by
  induction es generalizing w with
  | nil => exact KeepsEnded.refl w
  | cons e below ih =>
    simp only [resumeFrom]
    split
    · exact w.popEntry_ended e below
    · exact (w.popEntry_ended e below).trans (ih _)

theorem Warp.resume_ended (w : Warp) : KeepsEnded w w.resume := by
  unfold Warp.resume; split
  · exact KeepsEnded.refl w
  · exact resumeFrom_ended w w.stack

theorem Warp.retire_ended (w : Warp) (who : Nat → Bool) (st : LaneStatus) : KeepsEnded w (w.retire who st) :=
  keepsEnded_mapLanes rfl fun _ _ h => retireLane_ended _ _ _ h

theorem Warp.activate_ended (w : Warp) (m : List Nat) : KeepsEnded w (w.activate m) :=
  keepsEnded_mapLanes rfl fun _ _ h => activateLane_ended _ _ h

/-- No marker touches an ended lane. -/
theorem Warp.mark_ended {w v : Warp} {mk : Marker} (h : w.mark mk = .ok v) : KeepsEnded w v := by
  cases mk with
  | normal => cases h; exact KeepsEnded.refl w
  | exit => cases h; exact (w.retire_ended _ _).trans (Warp.resume_ended _)
  | join =>
    simp only [Warp.mark, Warp.join] at h
    split at h
    · cases h
    · cases h; exact (w.popEntry_ended _ _).trans (Warp.resume_ended _)

end Sys2Proof.Machine
end

