-- ==== Sys2Proof/Laws/Exec.lean ====
section
/-!
SUPPORT. What the shared shape of an instruction can do, said once: the lanes (`runLanes`), the accesses and stores
(`commit`), and the whole of `execLanes` in both directions.
-/
namespace Sys2Proof.Machine

/-! ### The lanes -/

theorem runLanes_ok {f : Lane → Except Cause LaneOut} {ls : List Lane} {i : Nat} {outs : List LaneOut}
    (h : runLanes f i ls = .ok outs) :
    outs.length = ls.length ∧
      ∀ (j : Nat) (l : Lane), ls[j]? = some l → ∃ o, outs[j]? = some o ∧ f l = .ok o := by
  induction ls generalizing i outs with
  | nil => simp only [runLanes] at h; cases h; simp
  | cons l rest ih =>
    simp only [runLanes] at h
    split at h
    · cases h
    · next o ho =>
      split at h
      · cases h
      · next os hos =>
        cases h
        obtain ⟨h1, h2⟩ := ih hos
        refine ⟨by simp [h1], ?_⟩
        intro j l' hl'
        cases j with
        | zero => simp at hl'; subst hl'; exact ⟨o, by simp, ho⟩
        | succ j => simpa using h2 j l' (by simpa using hl')

/-- Every outcome comes from a lane. -/
theorem runLanes_mem {f : Lane → Except Cause LaneOut} {ls : List Lane} {i : Nat} {outs : List LaneOut}
    (h : runLanes f i ls = .ok outs) {o : LaneOut} (ho : o ∈ outs) : ∃ l ∈ ls, f l = .ok o := by
  obtain ⟨hlen, hall⟩ := runLanes_ok h
  obtain ⟨j, hj⟩ := List.mem_iff_getElem?.mp ho
  have hjl : j < ls.length := by
    have := (List.getElem?_eq_some_iff.mp hj).1
    omega
  obtain ⟨o', ho', hf⟩ := hall j ls[j] (by simp [hjl])
  rw [hj] at ho'
  cases ho'
  exact ⟨ls[j], List.getElem_mem hjl, hf⟩

theorem runLanes_exists {f : Lane → Except Cause LaneOut} {ls : List Lane} (i : Nat)
    (h : ∀ l ∈ ls, ∃ o, f l = .ok o) : ∃ outs, runLanes f i ls = .ok outs := by
  induction ls generalizing i with
  | nil => exact ⟨[], rfl⟩
  | cons l rest ih =>
    obtain ⟨o, ho⟩ := h l (by simp)
    obtain ⟨os, hos⟩ := ih (i + 1) fun l' hl' => h l' (List.mem_cons_of_mem _ hl')
    exact ⟨o :: os, by simp [runLanes, ho, hos]⟩

/-- R247 (3): the first lane that faults gives the outcome. -/
theorem runLanes_fault {f : Lane → Except Cause LaneOut} {ls : List Lane} (i j : Nat) {l : Lane} {c : Cause}
    (hl : ls[j]? = some l) (hc : f l = .error c)
    (hb : ∀ k < j, ∀ l', ls[k]? = some l' → ∃ o, f l' = .ok o) : runLanes f i ls = .error (i + j, c) := by
  induction ls generalizing i j with
  | nil => simp at hl
  | cons l0 rest ih =>
    cases j with
    | zero => simp at hl; subst hl; simp [runLanes, hc]
    | succ j =>
      obtain ⟨o, ho⟩ := hb 0 (by omega) l0 (by simp)
      have := ih (i + 1) j (by simpa using hl) fun k hk l' hl' => hb (k + 1) (by omega) l' (by simpa using hl')
      simp [runLanes, ho, this, Nat.add_assoc, Nat.add_comm 1]

theorem laneOut_idle {g : Thread → Except Cause Bool} {body : Thread → Except Cause Work} {l : Lane}
    (h : l.status ≠ .active) : laneOut g body l = .ok (.skip l) := by
  simp [laneOut, h]

theorem laneOut_false {g : Thread → Except Cause Bool} {body : Thread → Except Cause Work} {l : Lane}
    (h : g l.thread = .ok false) : laneOut g body l = .ok (.skip l) := by
  unfold laneOut; split <;> simp_all

theorem laneOut_true {g : Thread → Except Cause Bool} {body : Thread → Except Cause Work} {l : Lane} {w : Work}
    (ha : l.status = .active) (hg : g l.thread = .ok true) (hb : body l.thread = .ok w) :
    laneOut g body l = .ok ⟨{ l with thread := w.thread }, w.reads, w.store⟩ := by
  simp [laneOut, ha, hg, hb]

/-- What a lane of an instruction comes to: it does nothing, or it takes part and does its work. -/
theorem laneOut_ok {g : Guard} {body : Thread → Except Cause Work} {l : Lane} {o : LaneOut}
    (h : laneOut (guardHolds g) body l = .ok o) :
    (¬ Takes g l ∧ o = .skip l) ∨
      (Takes g l ∧ ∃ w, body l.thread = .ok w ∧ o = ⟨{ l with thread := w.thread }, w.reads, w.store⟩) := by
  unfold laneOut at h
  split at h
  · next ha =>
    split at h
    · cases h
    · next hg => cases h; exact .inl ⟨fun ht => by rw [ht.2] at hg; simp at hg, rfl⟩
    · next hg =>
      split at h
      · cases h
      · next w hw => cases h; exact .inr ⟨⟨ha, hg⟩, w, hw, rfl⟩
  · next ha => cases h; exact .inl ⟨fun ht => ha ht.1, rfl⟩

/-- An instruction never changes a lane's status before its marker acts. -/
theorem laneOut_status {g : Guard} {body : Thread → Except Cause Work} {l : Lane} {o : LaneOut}
    (h : laneOut (guardHolds g) body l = .ok o) : o.lane.status = l.status := by
  rcases laneOut_ok h with ⟨_, rfl⟩ | ⟨_, w, _, rfl⟩ <;> rfl

/-! ### Accesses -/

theorem mem_addAccess (log : List Access) (a x : Access) : x ∈ addAccess log a ↔ x = a ∨ x ∈ log := by
  unfold addAccess
  split
  · next h => exact ⟨.inr, fun h' => h'.elim (fun e => e ▸ h) id⟩
  · simp

theorem mem_foldl_addAccess (as : List Access) (log : List Access) (x : Access) :
    x ∈ as.foldl addAccess log ↔ x ∈ as ∨ x ∈ log := by
  induction as generalizing log with
  | nil => simp
  | cons a rest ih => simp [ih, mem_addAccess, or_left_comm, or_assoc]

theorem mem_storesOf {outs : List LaneOut} {st : Store} :
    st ∈ storesOf outs ↔ ∃ o ∈ outs, o.store = some st := by
  induction outs with
  | nil => simp [storesOf]
  | cons o rest ih =>
    simp only [storesOf]
    split
    · next st' h => simp [ih, h, eq_comm]
    · next h => simp [ih, h]

theorem mem_readsOf {outs : List LaneOut} {r : Range} : r ∈ readsOf outs ↔ ∃ o ∈ outs, r ∈ o.reads := by
  induction outs with
  | nil => simp [readsOf]
  | cons o rest ih => simp [readsOf, ih]

theorem storesOf_eq_nil {outs : List LaneOut} (h : ∀ o ∈ outs, o.store = none) : storesOf outs = [] := by
  induction outs with
  | nil => rfl
  | cons o rest ih =>
    simp [storesOf, h o (by simp), ih fun o' ho' => h o' (List.mem_cons_of_mem _ ho')]

theorem storesClash_false {e : Endian} {sts : List Store}
    (h : ∀ st ∈ sts, ∀ st' ∈ sts, st.clash e st' = false) : storesClash e sts = false := by
  induction sts with
  | nil => rfl
  | cons st rest ih =>
    simp only [storesClash, Bool.or_eq_false_iff, List.any_eq_false]
    refine ⟨fun st' hst' => ?_, ih fun a ha b hb => h a (List.mem_cons_of_mem _ ha) b (List.mem_cons_of_mem _ hb)⟩
    simp [h st (by simp) st' (List.mem_cons_of_mem _ hst')]

/-- `Contested` is what `State.conflicts` asks of the record. -/
theorem contested_iff {s : State} {sp : Space} {addr n : Nat} {write : Bool} :
    Contested s sp addr n write ↔ ∃ old ∈ s.log, s.conflicts (s.accessBy sp addr n write) old = true := by
  refine exists_congr fun old => and_congr_right fun _ => ?_
  simp only [State.conflicts, State.accessBy, overlap, Bool.and_eq_true, Bool.or_eq_true, bne_iff_ne,
    Bool.not_eq_true', Bool.and_eq_false_iff, beq_eq_false_iff_ne, decide_eq_false_iff_not, not_and_or]
  constructor
  · rintro ⟨h2, h5, h1, h3, h4, h6⟩
    exact ⟨⟨⟨h1, ⟨decide_eq_true h2, decide_eq_true h3⟩, decide_eq_true h4⟩, h5⟩, h6⟩
  · rintro ⟨⟨⟨h1, ⟨h2, h3⟩, h4⟩, h5⟩, h6⟩
    exact ⟨of_decide_eq_true h2, h5, h1, of_decide_eq_true h3, of_decide_eq_true h4, h6⟩

/-- `Unraced` says that no range is contested. -/
theorem unraced_iff {s : State} {write : Bool} {ranges : List Range} :
    Unraced s write ranges ↔ ∀ r ∈ ranges, ¬ Contested s r.space r.addr r.bytes write := by
  simp only [contested_iff, Unraced, not_exists, not_and, Bool.not_eq_true]

/-- An instruction whose ranges meet no conflicting access, and whose stores agree, makes no race. -/
theorem races_false {s : State} {outs : List LaneOut}
    (hr : ∀ o ∈ outs, Unraced s false o.reads)
    (hw : ∀ o ∈ outs, ∀ st, o.store = some st → Unraced s true [⟨st.space, st.addr, st.bytes⟩])
    (hc : ∀ st ∈ storesOf outs, ∀ st' ∈ storesOf outs, st.clash s.params.endian st' = false) :
    s.races outs = false := by
  simp only [State.races, Bool.or_eq_false_iff]
  refine ⟨storesClash_false hc, ?_⟩
  simp only [List.any_eq_false, Bool.not_eq_true, State.accessesOf, List.mem_append, List.mem_map]
  rintro new (⟨r, hr', rfl⟩ | ⟨st, hst, rfl⟩)
  · obtain ⟨o, ho, hro⟩ := mem_readsOf.mp hr'
    simpa using hr o ho r hro
  · obtain ⟨o, ho, hso⟩ := mem_storesOf.mp hst
    simpa using hw o ho st hso ⟨st.space, st.addr, st.bytes⟩ (by simp)

/-! ### Bytes -/

/-- Which spaces an instruction can store into. -/
def Space.writable : Space → Prop
  | .global => True
  | .shared _ => True
  | .code => False
  | .const _ => False

@[simp] theorem State.byteAt_code (s : State) (a : Nat) : s.byteAt .code a = s.code.byteAt a := rfl

@[simp] theorem State.byteAt_const (s : State) (seg a : Nat) :
    s.byteAt (.const seg) a = s.const.byteAt (seg * 2 ^ 32 + a) := rfl

/-- One store: the bytes it covers hold its bytes, every other byte below 2^32 of every space reads as before. -/
theorem State.byteAt_applyStore (s : State) (st : Store) (hsp : st.space.writable)
    (hend : st.addr + st.bytes ≤ 2 ^ 32) (sp : Space) (x : Nat) (hx : x < 2 ^ 32) :
    (s.applyStore st).byteAt sp x =
      if st.space = sp ∧ st.addr ≤ x ∧ x < st.addr + st.bytes then (st.list s.params.endian)[x - st.addr]?
      else s.byteAt sp x := by
  have hlen := Store.list_length s.params.endian st
  have hread : ∀ (m : Memory) (k y : Nat), (m.setBytes k (st.list s.params.endian)).byteAt y =
      if k ≤ y ∧ y < k + st.bytes then (st.list s.params.endian)[y - k]? else m.byteAt y := by
    intro m k y
    rw [Memory.byteAt_setBytes]
    by_cases h1 : k ≤ y
    · by_cases h2 : y < k + st.bytes
      · have hk : y - k < (st.list s.params.endian).length := by omega
        rw [if_pos h1, if_pos ⟨h1, h2⟩, List.getElem?_eq_getElem hk]; rfl
      · have : (st.list s.params.endian)[y - k]? = none := by simp; omega
        simp [h1, h2, this]
    · simp [h1]
  obtain ⟨space, addr, n, v⟩ := st
  simp only at hsp hend hread hlen
  cases space with
  | code => exact absurd hsp (by simp [Space.writable])
  | const seg => exact absurd hsp (by simp [Space.writable])
  | global =>
    cases sp with
    | global => simp [State.applyStore, State.byteAt, State.memOf, Space.key, hread]
    | _ => simp [State.applyStore, State.byteAt, State.memOf]
  | shared b =>
    cases sp with
    | shared b' =>
      simp only [State.applyStore, State.byteAt, State.memOf, Space.key, hread, Space.shared.injEq]
      by_cases hb : b = b'
      · subst hb
        have h1 : (b * 2 ^ 32 + addr ≤ b * 2 ^ 32 + x ∧ b * 2 ^ 32 + x < b * 2 ^ 32 + addr + n) ↔
            (addr ≤ x ∧ x < addr + n) := by omega
        have h2 : b * 2 ^ 32 + x - (b * 2 ^ 32 + addr) = x - addr := by omega
        simp only [h1, h2, true_and]
      · have h1 : ¬ (b * 2 ^ 32 + addr ≤ b' * 2 ^ 32 + x ∧ b' * 2 ^ 32 + x < b * 2 ^ 32 + addr + n) := by
          intro h
          apply hb
          omega
        rw [if_neg h1]; simp [hb]
    | _ => simp [State.applyStore, State.byteAt, State.memOf]

/-- Stores that leave a byte alone leave it alone together. -/
theorem State.byteAt_applyStores_outside (sts : List Store) (s : State)
    (hsp : ∀ st ∈ sts, st.space.writable ∧ st.addr + st.bytes ≤ 2 ^ 32) (sp : Space) (x : Nat) (hx : x < 2 ^ 32)
    (h : ∀ st ∈ sts, ¬ (st.space = sp ∧ st.addr ≤ x ∧ x < st.addr + st.bytes)) :
    (s.applyStores sts).byteAt sp x = s.byteAt sp x := by
  induction sts generalizing s with
  | nil => rfl
  | cons st rest ih =>
    rw [State.applyStores, ih _ (fun a ha => hsp a (by simp [ha])) (fun a ha => h a (by simp [ha])),
      State.byteAt_applyStore s st (hsp st (by simp)).1 (hsp st (by simp)).2 sp x hx, if_neg (h st (by simp))]

/-- Two stores that do not clash put the same byte where both write. -/
theorem Store.clash_false {e : Endian} {st st' : Store} (h : st.clash e st' = false) (hs : st.space = st'.space)
    {x : Nat} (h1 : st.addr ≤ x) (h2 : x < st.addr + st.bytes) (h3 : st'.addr ≤ x)
    (h4 : x < st'.addr + st'.bytes) :
    (st.list e)[x - st.addr]? = (st'.list e)[x - st'.addr]? := by
  have hl := Store.list_length e st
  have hl' := Store.list_length e st'
  simp only [Store.clash, hs, decide_true, Bool.true_and, List.any_eq_false, List.mem_range] at h
  have h0 := h (x - st.addr) (by omega)
  have e1 : st.addr + (x - st.addr) = x := by omega
  rw [e1] at h0
  simp only [Store.byteAt, h1, h3, if_true] at h0
  have g1 : x - st.addr < (st.list e).length := by omega
  have g2 : x - st'.addr < (st'.list e).length := by omega
  simp only [List.getElem?_eq_getElem g1, List.getElem?_eq_getElem g2] at h0 ⊢
  simpa using h0

/-- Two stores of one size at one address clash where their bytes differ. -/
theorem Store.clash_of_ne {e : Endian} {st st' : Store} (hs : st.space = st'.space) (ha : st.addr = st'.addr)
    (hb : st.bytes = st'.bytes) (hne : st.list e ≠ st'.list e) : st.clash e st' = true := by
  by_contra h
  simp only [Bool.not_eq_true] at h
  refine hne (List.ext_getElem? fun k => ?_)
  by_cases hk : k < st.bytes
  · have := Store.clash_false h hs (x := st.addr + k) (by omega) (by omega) (by omega) (by omega)
    simpa [ha] using this
  · rw [List.getElem?_eq_none (by simp; omega), List.getElem?_eq_none (by simp; omega)]

/-- The stores of two lanes stand in the order of the lanes. -/
theorem storesClash_lanes {e : Endian} {outs : List LaneOut} {i j : Nat} {o o' : LaneOut} {st st' : Store}
    (hij : i < j) (h1 : outs[i]? = some o) (h2 : outs[j]? = some o') (hs : o.store = some st)
    (hs' : o'.store = some st') (h : st.clash e st' = true) : storesClash e (storesOf outs) = true := by
  induction outs generalizing i j with
  | nil => simp at h1
  | cons a rest ih =>
    cases j with
    | zero => omega
    | succ j =>
      have h2' : rest[j]? = some o' := by simpa using h2
      cases i with
      | zero =>
        simp at h1; subst h1
        simp only [storesOf, hs, storesClash, Bool.or_eq_true, List.any_eq_true]
        exact .inl ⟨st', mem_storesOf.mpr ⟨o', List.mem_of_getElem? h2', hs'⟩, h⟩
      | succ i =>
        have := ih (Nat.lt_of_succ_lt_succ hij) (by simpa using h1) h2'
        simp only [storesOf]
        split
        · simp [storesClash, this]
        · exact this

/-- Stores that agree: where one of them writes, its byte stands after all of them. -/
theorem State.byteAt_applyStores_inside {x : Nat} {sp : Space} (sts : List Store) : ∀ (s : State),
    (∀ a ∈ sts, a.space.writable ∧ a.addr + a.bytes ≤ 2 ^ 32) →
    (∀ a ∈ sts, ∀ b ∈ sts, a.clash s.params.endian b = false) →
    ∀ st ∈ sts, st.space = sp → st.addr ≤ x → x < st.addr + st.bytes →
      (s.applyStores sts).byteAt sp x = (st.list s.params.endian)[x - st.addr]? := by
  induction sts with
  | nil => intro s _ _ st hst; simp at hst
  | cons a0 rest ih =>
    intro s hw hc st hst hsp h1 h2
    have hx : x < 2 ^ 32 := by have := (hw st hst).2; omega
    rw [State.applyStores]
    by_cases hin : ∃ b ∈ rest, b.space = sp ∧ b.addr ≤ x ∧ x < b.addr + b.bytes
    · obtain ⟨b, hb, hbs, hb1, hb2⟩ := hin
      have := ih (s.applyStore a0) (fun a ha => hw a (by simp [ha]))
        (fun a ha c hc' => by simpa using hc a (by simp [ha]) c (by simp [hc'])) b hb hbs hb1 hb2
      rw [this]
      simpa using (Store.clash_false (hc st hst b (by simp [hb])) (hsp.trans hbs.symm) h1 h2 hb1 hb2).symm
    · have hout := State.byteAt_applyStores_outside rest (s.applyStore a0) (fun a ha => hw a (by simp [ha])) sp x hx
        (fun a ha hcon => hin ⟨a, ha, hcon.1, hcon.2.1, hcon.2.2⟩)
      have hst0 : st = a0 := by
        rcases List.mem_cons.mp hst with h | h
        · exact h
        · exact absurd ⟨st, h, hsp, h1, h2⟩ hin
      subst hst0
      rw [hout, State.byteAt_applyStore s st (hw st (by simp)).1 (hw st (by simp)).2 sp x hx,
        if_pos ⟨hsp, h1, h2⟩]

/-! ### The whole of an instruction -/

/-- What `execLanes` can do when it answers a next state: every lane did its part, nothing raced, the marker
acted, and the state is the committed one with the marked warp. -/
theorem execLanes_next {s t : State} {mk : Marker} {g : Guard} {len : Nat} {ranges : Thread → List Range}
    {body : Thread → Except Cause Work}
    (h : execLanes s mk g len ranges body = .next t) :
    ∃ outs w, runLanes (laneOut (guardHolds g) body) 0 s.warp.lanes = .ok outs ∧ s.races outs = false ∧
      ((s.commit outs).warp.advance len).mark mk = .ok w ∧ t = (s.commit outs).withWarp w := by
  simp only [execLanes] at h
  split at h
  · split at h <;> simp [State.raise] at h
  · next outs ho =>
    split at h
    · simp [State.raise] at h
    · next hr =>
      simp only [finishStep] at h
      split at h
      · simp [State.raise] at h
      · next w hw =>
        cases h
        exact ⟨outs, w, ho, by simpa using hr, hw, rfl⟩

/-- `execLanes` faults at the first lane that faults, unless a lane reads in a race (R247). -/
theorem execLanes_fault {s : State} {mk : Marker} {g : Guard} {len : Nat} {ranges : Thread → List Range}
    {body : Thread → Except Cause Work}
    {i : Nat} {l : Lane} {c : Cause} (hl : s.warp.lanes[i]? = some l)
    (hc : laneOut (guardHolds g) body l = .error c)
    (hb : ∀ k < i, ∀ l', s.warp.lanes[k]? = some l' → ∃ o, laneOut (guardHolds g) body l' = .ok o) :
    execLanes s mk g len ranges body = if s.readsRace g ranges then s.raise none .race else s.raise (some i) c := by
  have := runLanes_fault 0 i hl hc hb
  simp only [Nat.zero_add] at this
  simp [execLanes, this]

theorem takesLane_iff {g : Guard} {l : Lane} : takesLane g l = true ↔ Takes g l := by
  simp only [takesLane, Takes, Bool.and_eq_true, beq_iff_eq]
  constructor
  · rintro ⟨h1, h2⟩
    refine ⟨h1, ?_⟩
    cases hg : guardHolds g l.thread with
    | ok b => rw [hg] at h2; simp only at h2; rw [h2]
    | error c => rw [hg] at h2; simp at h2
  · rintro ⟨h1, h2⟩
    exact ⟨h1, by rw [h2]⟩

theorem State.readsRace_iff {s : State} {g : Guard} {ranges : Thread → List Range} :
    s.readsRace g ranges = true ↔ ∃ l ∈ s.warp.lanes, Takes g l ∧ ¬ Unraced s false (ranges l.thread) := by
  simp only [State.readsRace, List.any_eq_true, Bool.and_eq_true, takesLane_iff, Unraced, not_forall,
    Bool.not_eq_false, exists_prop]

/-- A lane reads in a race exactly where one of its ranges is contested. -/
theorem State.readsRace_contested {s : State} {g : Guard} {ranges : Thread → List Range} :
    s.readsRace g ranges = true ↔
      ∃ l ∈ s.warp.lanes, Takes g l ∧ ∃ r ∈ ranges l.thread, Contested s r.space r.addr r.bytes false := by
  simp only [State.readsRace_iff, unraced_iff, not_forall, not_not, exists_prop]

/-- Without a range that a lane reads before it faults, the first lane that faults gives the outcome. -/
@[simp] theorem State.readsRace_none (s : State) (g : Guard) : s.readsRace g noRanges = false := by
  simp [State.readsRace, noRanges]

/-- A read that races is reported whatever other lanes do (R247), where a lane that completes reads its ranges. -/
theorem execLanes_race {s : State} {mk : Marker} {g : Guard} {len : Nat} {ranges : Thread → List Range}
    {body : Thread → Except Cause Work} (hr : ∀ t w, body t = .ok w → ∀ r ∈ ranges t, r ∈ w.reads)
    (h : s.readsRace g ranges = true) : execLanes s mk g len ranges body = s.raise none .race := by
  simp only [execLanes]
  split
  · simp [h]
  · next outs ho =>
    suffices hraces : s.races outs = true by simp [hraces]
    obtain ⟨l, hl, ht, hun⟩ := State.readsRace_iff.mp h
    obtain ⟨j, hj⟩ := List.mem_iff_getElem?.mp hl
    obtain ⟨o, ho1, ho2⟩ := (runLanes_ok ho).2 j l hj
    rcases laneOut_ok ho2 with ⟨hn, _⟩ | ⟨_, w, hw, rfl⟩
    · exact absurd ht hn
    · simp only [Unraced, not_forall, Bool.not_eq_false, exists_prop] at hun
      obtain ⟨r, hrm, old, hold, hc⟩ := hun
      simp only [State.races, Bool.or_eq_true, List.any_eq_true]
      refine .inr ⟨s.accessBy r.space r.addr r.bytes false, ?_, old, hold, hc⟩
      simp only [State.accessesOf, List.mem_append, List.mem_map]
      exact .inl ⟨r, mem_readsOf.mpr ⟨_, List.mem_of_getElem? ho1, hr _ _ hw r hrm⟩, rfl⟩

/-- Lanes that all succeed, without a race and with an entry for a Join, give a next state. -/
theorem execLanes_exists {s : State} {mk : Marker} {g : Guard} {len : Nat} {ranges : Thread → List Range}
    {body : Thread → Except Cause Work}
    (hm : MarkerReady mk s.warp)
    (hl : ∀ l ∈ s.warp.lanes, l.status = .active →
      guardHolds g l.thread = .ok false ∨ guardHolds g l.thread = .ok true ∧ ∃ w, body l.thread = .ok w)
    (hr : ∀ outs, runLanes (laneOut (guardHolds g) body) 0 s.warp.lanes = .ok outs → s.races outs = false) :
    ∃ t, execLanes s mk g len ranges body = .next t := by
  obtain ⟨outs, ho⟩ := runLanes_exists (f := laneOut (guardHolds g) body) 0 (ls := s.warp.lanes) (by
    intro l hmem
    by_cases ha : l.status = .active
    · rcases hl l hmem ha with hg | ⟨hg, w, hw⟩
      · exact ⟨_, laneOut_false hg⟩
      · exact ⟨_, laneOut_true ha hg hw⟩
    · exact ⟨_, laneOut_idle ha⟩)
  obtain ⟨v, hv⟩ := Warp.mark_ready (w := (s.commit outs).warp.advance len) (mk := mk)
    (fun h => by simpa using hm h)
  refine ⟨(s.commit outs).withWarp v, ?_⟩
  simp [execLanes, ho, hr outs ho, finishStep, hv]

/-- A storing instruction whose lanes can all make their store is a race where a store is contested or two clash. -/
theorem execLanes_storeRace {s : State} {mk : Marker} {g : Guard} {len : Nat} {ranges : Thread → List Range}
    {body : Thread → Except Cause Work}
    (hl : LanesReady s g fun t => ∃ w, body t = .ok w)
    (h : (∃ l ∈ s.warp.lanes, Takes g l ∧ ∃ w st, body l.thread = .ok w ∧ w.store = some st ∧
        Contested s st.space st.addr st.bytes true) ∨
      ∃ (i j : Nat) (l l' : Lane) (w w' : Work) (st st' : Store), i < j ∧ s.warp.lanes[i]? = some l ∧
        s.warp.lanes[j]? = some l' ∧ Takes g l ∧ Takes g l' ∧ body l.thread = .ok w ∧ body l'.thread = .ok w' ∧
        w.store = some st ∧ w'.store = some st' ∧ st.clash s.params.endian st' = true) :
    execLanes s mk g len ranges body = s.raise none .race := by
  obtain ⟨outs, ho⟩ := runLanes_exists (f := laneOut (guardHolds g) body) 0 (ls := s.warp.lanes) (by
    intro l hmem
    by_cases ha : l.status = .active
    · rcases hl l hmem ha with hg | ⟨hg, w, hw⟩
      · exact ⟨_, laneOut_false hg⟩
      · exact ⟨_, laneOut_true ha hg hw⟩
    · exact ⟨_, laneOut_idle ha⟩)
  have out : ∀ (j : Nat) (l : Lane) (w : Work), s.warp.lanes[j]? = some l → Takes g l → body l.thread = .ok w →
      outs[j]? = some ⟨{ l with thread := w.thread }, w.reads, w.store⟩ := by
    intro j l w hj ht hw
    obtain ⟨o, ho1, ho2⟩ := (runLanes_ok ho).2 j l hj
    rw [laneOut_true ht.1 ht.2 hw] at ho2
    cases ho2
    exact ho1
  suffices hr : s.races outs = true by simp [execLanes, ho, hr]
  simp only [State.races, Bool.or_eq_true, List.any_eq_true]
  rcases h with ⟨l, hm, ht, w, st, hw, hst, hc⟩ | ⟨i, j, l, l', w, w', st, st', hij, hi, hj, ht, ht', hw, hw', hst, hst', hc⟩
  · obtain ⟨j, hj⟩ := List.mem_iff_getElem?.mp hm
    obtain ⟨old, hold, hcon⟩ := contested_iff.mp hc
    refine .inr ⟨_, ?_, old, hold, hcon⟩
    simp only [State.accessesOf, List.mem_append, List.mem_map]
    exact .inr ⟨st, mem_storesOf.mpr ⟨_, List.mem_of_getElem? (out j l w hj ht hw), hst⟩, rfl⟩
  · exact .inl (storesClash_lanes hij (out i l w hi ht hw) (out j l' w' hj ht' hw') hst hst' hc)

/-- After a committed instruction, control is what the marker makes of the warp before (R130). -/
theorem execLanes_control {s t : State} {mk : Marker} {g : Guard} {len : Nat} {ranges : Thread → List Range}
    {body : Thread → Except Cause Work}
    (h : execLanes s mk g len ranges body = .next t) : ControlAfter s t mk len := by
  obtain ⟨outs, w, ho, hr, hw, rfl⟩ := execLanes_next h
  obtain ⟨hlen, hall⟩ := runLanes_ok ho
  have hst : (outs.map LaneOut.lane).map Lane.status = s.warp.lanes.map Lane.status := by
    apply List.ext_getElem?
    intro j
    simp only [List.getElem?_map]
    cases hj : s.warp.lanes[j]? with
    | none =>
      have : s.warp.lanes.length ≤ j := List.getElem?_eq_none_iff.mp hj
      have : outs[j]? = none := List.getElem?_eq_none_iff.mpr (by omega)
      simp [this]
    | some l =>
      obtain ⟨o, h1, h2⟩ := hall j l hj
      simp [h1, laneOut_status h2]
  have hsame : SameControl (s.warp.advance len) ((s.commit outs).warp.advance len) :=
    SameControl.advance ⟨by simp, by simp, by simp, by simp, by simp, by simp, by simp [hst]⟩ len
  obtain ⟨w', hw', hc⟩ := hsame.mark hw
  exact ⟨w', hw', hc.block.symm, hc.index.symm, hc.pc.symm, hc.stack.symm, hc.status.symm, hc.epoch.symm,
    hc.lanes.symm⟩

/-- After a committed instruction, everything outside the warp and the writable memories is as before. -/
theorem execLanes_outside {s t : State} {mk : Marker} {g : Guard} {len : Nat} {ranges : Thread → List Range}
    {body : Thread → Except Cause Work}
    (h : execLanes s mk g len ranges body = .next t) : SameOutside s t := by
  obtain ⟨outs, w, ho, hr, hw, rfl⟩ := execLanes_next h
  refine ⟨by simp, by simp, by simp, by simp, by simp, by simp, ?_, ?_⟩
  · intro a ha
    exact (mem_foldl_addAccess _ _ _).mpr (.inr ha)
  · intro a ha
    rcases (mem_foldl_addAccess _ _ _).mp ha with ha | ha
    · right
      simp only [State.accessesOf, List.mem_append, List.mem_map] at ha
      rcases ha with ⟨r, _, rfl⟩ | ⟨st, _, rfl⟩ <;> exact ⟨rfl, rfl⟩
    · exact .inl ha

/-- After a committed instruction, the record holds what it held and the accesses of the lanes that took part. -/
theorem execLanes_log {s t : State} {mk : Marker} {g : Guard} {len : Nat} {ranges : Thread → List Range}
    {body : Thread → Except Cause Work} (h : execLanes s mk g len ranges body = .next t) :
    LogAfter s t g fun th a => ∃ w, body th = .ok w ∧
      ((∃ r ∈ w.reads, a = s.accessBy r.space r.addr r.bytes false) ∨
        ∃ st, w.store = some st ∧ a = s.accessBy st.space st.addr st.bytes true) := by
  obtain ⟨outs, w, ho, _, _, rfl⟩ := execLanes_next h
  have hmem : ∀ P : LaneOut → Prop, (∀ l, ¬ P (.skip l)) → ((∃ o ∈ outs, P o) ↔
      ∃ l ∈ s.warp.lanes, Takes g l ∧ ∃ w, body l.thread = .ok w ∧
        P ⟨{ l with thread := w.thread }, w.reads, w.store⟩) := by
    intro P hskip
    constructor
    · rintro ⟨o, ho', hp⟩
      obtain ⟨l, hl, hf⟩ := runLanes_mem ho ho'
      rcases laneOut_ok hf with ⟨_, rfl⟩ | ⟨ht, wk, hwk, rfl⟩
      · exact absurd hp (hskip l)
      · exact ⟨l, hl, ht, wk, hwk, hp⟩
    · rintro ⟨l, hl, ht, wk, hwk, hp⟩
      obtain ⟨j, hj⟩ := List.mem_iff_getElem?.mp hl
      obtain ⟨o, h1, h2⟩ := (runLanes_ok ho).2 j l hj
      rw [laneOut_true ht.1 ht.2 hwk] at h2
      cases h2
      exact ⟨_, List.mem_of_getElem? h1, hp⟩
  intro a
  have e1 := hmem (fun o => ∃ r ∈ o.reads, a = s.accessBy r.space r.addr r.bytes false) (by simp [LaneOut.skip])
  have e2 := hmem (fun o => ∃ st, o.store = some st ∧ a = s.accessBy st.space st.addr st.bytes true)
    (by simp [LaneOut.skip])
  have e3 : a ∈ s.accessesOf outs ↔ (∃ o ∈ outs, ∃ r ∈ o.reads, a = s.accessBy r.space r.addr r.bytes false) ∨
      ∃ o ∈ outs, ∃ st, o.store = some st ∧ a = s.accessBy st.space st.addr st.bytes true := by
    simp only [State.accessesOf, List.mem_append, List.mem_map, mem_readsOf, mem_storesOf]
    constructor
    · rintro (⟨r, ⟨o, ho, hr⟩, rfl⟩ | ⟨st, ⟨o, ho, hs⟩, rfl⟩)
      · exact .inl ⟨o, ho, r, hr, rfl⟩
      · exact .inr ⟨o, ho, st, hs, rfl⟩
    · rintro (⟨o, ho, r, hr, rfl⟩ | ⟨o, ho, st, hs, rfl⟩)
      · exact .inl ⟨r, ⟨o, ho, hr⟩, rfl⟩
      · exact .inr ⟨st, ⟨o, ho, hs⟩, rfl⟩
  rw [show ((s.commit outs).withWarp w).log = (s.accessesOf outs).foldl addAccess s.log from rfl,
    mem_foldl_addAccess, e3, e1, e2, or_comm]
  refine or_congr_right ?_
  constructor
  · rintro (⟨l, hl, ht, w, hw, h⟩ | ⟨l, hl, ht, w, hw, h⟩)
    · exact ⟨l, hl, ht, w, hw, .inl h⟩
    · exact ⟨l, hl, ht, w, hw, .inr h⟩
  · rintro ⟨l, hl, ht, w, hw, h | h⟩
    · exact .inl ⟨l, hl, ht, w, hw, h⟩
    · exact .inr ⟨l, hl, ht, w, hw, h⟩

theorem LogAfter.congr {s t : State} {g : Guard} {made made' : Thread → Access → Prop} (h : LogAfter s t g made)
    (hm : ∀ l ∈ s.warp.lanes, Takes g l → ∀ a, made l.thread a ↔ made' l.thread a) : LogAfter s t g made' := by
  intro a
  rw [h a]
  refine or_congr_right ?_
  constructor
  · rintro ⟨l, hl, ht, ha⟩; exact ⟨l, hl, ht, (hm l hl ht a).mp ha⟩
  · rintro ⟨l, hl, ht, ha⟩; exact ⟨l, hl, ht, (hm l hl ht a).mpr ha⟩

/-- After a committed instruction, each lane's registers are what its work made of them. -/
theorem execLanes_lanes {s t : State} {mk : Marker} {g : Guard} {len : Nat} {ranges : Thread → List Range}
    {body : Thread → Except Cause Work}
    (h : execLanes s mk g len ranges body = .next t) :
    LanesAfter g (fun old new => ∃ w, body old = .ok w ∧ new = w.thread) s t := by
  obtain ⟨outs, w, ho, hr, hw, rfl⟩ := execLanes_next h
  obtain ⟨hlen, hall⟩ := runLanes_ok ho
  have hth : w.lanes.map Lane.thread = outs.map fun o => o.lane.thread := by
    have := Warp.mark_threads hw
    simpa [Warp.threads, Function.comp_def] using this
  have hlen2 : w.lanes.length = outs.length := by simpa using congrArg List.length hth
  refine ⟨by simp only [hlen2, hlen], ?_⟩
  intro j l l' hl hl'
  obtain ⟨o, h1, h2⟩ := hall j l hl
  have hl'' : l'.thread = o.lane.thread := by
    have := congrArg (fun x => x[j]?) hth
    simp only [List.getElem?_map, h1] at this
    rw [hl'] at this
    simpa using this
  rcases laneOut_ok h2 with ⟨hn, rfl⟩ | ⟨ht, wk, hwk, rfl⟩
  · exact ⟨fun ht => absurd ht hn, fun _ => hl''⟩
  · exact ⟨fun _ => ⟨wk, hwk, hl''⟩, fun hn => absurd ht hn⟩

theorem LanesAfter.mono {g : Guard} {R R' : Thread → Thread → Prop} {s t : State} (h : LanesAfter g R s t)
    (hR : ∀ l ∈ s.warp.lanes, Takes g l → ∀ new, R l.thread new → R' l.thread new) : LanesAfter g R' s t :=
  ⟨h.1, fun j l l' hl hl' => ⟨fun ht => hR l (List.mem_of_getElem? hl) ht _ ((h.2 j l l' hl hl').1 ht),
    (h.2 j l l' hl hl').2⟩⟩

/-- An instruction none of whose lanes stores leaves every byte of memory as it was. -/
theorem execLanes_memory {s t : State} {mk : Marker} {g : Guard} {len : Nat} {ranges : Thread → List Range}
    {body : Thread → Except Cause Work}
    (h : execLanes s mk g len ranges body = .next t)
    (hb : ∀ l ∈ s.warp.lanes, Takes g l → ∀ w, body l.thread = .ok w → w.store = none) : SameMemory s t := by
  obtain ⟨outs, w, ho, hr, hw, rfl⟩ := execLanes_next h
  have hnone : storesOf outs = [] := storesOf_eq_nil (by
    intro o hmem
    obtain ⟨l, hl, hf⟩ := runLanes_mem ho hmem
    rcases laneOut_ok hf with ⟨_, rfl⟩ | ⟨ht, wk, hwk, rfl⟩
    · rfl
    · exact hb l hl ht wk hwk)
  intro sp a
  cases sp <;> simp [State.byteAt, State.memOf, hnone, State.applyStores]

/-- A register instruction that is ready completes: the lemma behind every `Completes`. -/
theorem execLanes_completes {s : State} {mk : Marker} {g : Guard} {len : Nat} {ranges : Thread → List Range}
    {body : Thread → Except Cause Work}
    {reads : Thread → Range → Prop} {R : Thread → Thread → Prop} (hm : MarkerReady mk s.warp)
    (hl : ∀ l ∈ s.warp.lanes, l.status = .active → guardHolds g l.thread = .ok false ∨
      guardHolds g l.thread = .ok true ∧ ∃ w, body l.thread = .ok w ∧ w.store = none ∧ Unraced s false w.reads ∧
        (∀ r, reads l.thread r ↔ r ∈ w.reads) ∧ R l.thread w.thread) :
    ∃ t, execLanes s mk g len ranges body = .next t ∧ ControlAfter s t mk len ∧ SameOutside s t ∧ SameMemory s t ∧
      LogAfter s t g (fun th a => ∃ r, reads th r ∧ a = s.accessBy r.space r.addr r.bytes false) ∧
      LanesAfter g R s t := by
  have hwork : ∀ l ∈ s.warp.lanes, Takes g l → ∀ w, body l.thread = .ok w →
      w.store = none ∧ Unraced s false w.reads ∧ (∀ r, reads l.thread r ↔ r ∈ w.reads) ∧ R l.thread w.thread := by
    intro l hmem ht w hw
    rcases hl l hmem ht.1 with hg | ⟨_, w', hw', h⟩
    · rw [ht.2] at hg; simp at hg
    · rw [hw] at hw'; cases hw'; exact h
  obtain ⟨t, ht⟩ := execLanes_exists (s := s) (mk := mk) (g := g) (len := len) (ranges := ranges) (body := body) hm
    (fun l hmem ha => (hl l hmem ha).imp id fun ⟨hg, w, hw, _⟩ => ⟨hg, w, hw⟩)
    (by
      intro outs ho
      have hnone : storesOf outs = [] := storesOf_eq_nil (by
        intro o hmem
        obtain ⟨l, hl', hf⟩ := runLanes_mem ho hmem
        rcases laneOut_ok hf with ⟨_, rfl⟩ | ⟨ht, wk, hwk, rfl⟩
        · rfl
        · exact (hwork l hl' ht wk hwk).1)
      refine races_false ?_ ?_ (by simp [hnone])
      · intro o hmem
        obtain ⟨l, hl', hf⟩ := runLanes_mem ho hmem
        rcases laneOut_ok hf with ⟨_, rfl⟩ | ⟨ht, wk, hwk, rfl⟩
        · simp [Unraced, LaneOut.skip]
        · exact (hwork l hl' ht wk hwk).2.1
      · intro o hmem st hst
        exact absurd (mem_storesOf.mpr ⟨o, hmem, hst⟩) (by simp [hnone]))
  refine ⟨t, ht, execLanes_control ht, execLanes_outside ht,
    execLanes_memory ht fun l hmem htk w hw => (hwork l hmem htk w hw).1, ?_, ?_⟩
  · refine (execLanes_log ht).congr fun l hmem htk a => ?_
    obtain ⟨_, w, hw, _⟩ := (hl l hmem htk.1).resolve_left fun hg => by rw [htk.2] at hg; simp at hg
    obtain ⟨h1, _, h3, _⟩ := hwork l hmem htk w hw
    simp [hw, h1, h3]
  · refine (execLanes_lanes ht).mono ?_
    rintro l hmem htk new ⟨w, hw, rfl⟩
    exact (hwork l hmem htk w hw).2.2.2

/-- A storing instruction that is ready completes: the lemma behind `StoresBytes`. -/
theorem execLanes_stores {s : State} {mk : Marker} {g : Guard} {len : Nat} {ranges : Thread → List Range}
    {body : Thread → Except Cause Work}
    {store : Thread → Store → Prop} (hfun : ∀ t st st', store t st → store t st' → st = st')
    (hready : StoreReady s mk g store)
    (hbody : ∀ l ∈ s.warp.lanes, Takes g l → ∀ st, store l.thread st → st.addr % st.bytes = 0 →
      st.addr + st.bytes ≤ spaceSize s.params st.space → body l.thread = .ok ⟨l.thread, [], some st⟩)
    (hspace : ∀ l ∈ s.warp.lanes, Takes g l → ∀ st, store l.thread st →
      st.space.writable ∧ st.addr + st.bytes ≤ 2 ^ 32) :
    ∃ t, execLanes s mk g len ranges body = .next t ∧ ControlAfter s t mk len ∧ SameOutside s t ∧
      BytesStored s t g store ∧
      LogAfter s t g (fun th a => ∃ st, store th st ∧ a = s.accessBy st.space st.addr st.bytes true) ∧
      LanesAfter g (fun old new => new = old) s t := by
  obtain ⟨hm, hl, hc⟩ := hready
  have hstore : ∀ l ∈ s.warp.lanes, Takes g l → ∃ st, store l.thread st ∧
      body l.thread = .ok ⟨l.thread, [], some st⟩ ∧ Unraced s true [⟨st.space, st.addr, st.bytes⟩] := by
    intro l hmem ht
    rcases hl l hmem ht.1 with hg | ⟨_, st, h1, h2, h3, h4⟩
    · rw [ht.2] at hg; simp at hg
    · exact ⟨st, h1, hbody l hmem ht st h1 h2 h3, h4⟩
  have houts : ∀ outs, runLanes (laneOut (guardHolds g) body) 0 s.warp.lanes = .ok outs →
      (∀ o ∈ outs, o.reads = []) ∧
      (∀ st, st ∈ storesOf outs ↔ ∃ l ∈ s.warp.lanes, Takes g l ∧ body l.thread = .ok ⟨l.thread, [], some st⟩) := by
    intro outs ho
    obtain ⟨hlen, hall⟩ := runLanes_ok ho
    refine ⟨?_, ?_⟩
    · intro o hmem
      obtain ⟨l, hl', hf⟩ := runLanes_mem ho hmem
      rcases laneOut_ok hf with ⟨_, rfl⟩ | ⟨ht, wk, hwk, rfl⟩
      · rfl
      · obtain ⟨st, _, hb, _⟩ := hstore l hl' ht
        rw [hwk] at hb; cases hb; rfl
    · intro st
      rw [mem_storesOf]
      constructor
      · rintro ⟨o, hmem, hst⟩
        obtain ⟨l, hl', hf⟩ := runLanes_mem ho hmem
        rcases laneOut_ok hf with ⟨_, rfl⟩ | ⟨ht, wk, hwk, rfl⟩
        · simp [LaneOut.skip] at hst
        · obtain ⟨st', _, hb, _⟩ := hstore l hl' ht
          rw [hwk] at hb; cases hb
          simp only at hst; cases hst
          exact ⟨l, hl', ht, hwk⟩
      · rintro ⟨l, hl', ht, hb⟩
        obtain ⟨j, hj⟩ := List.mem_iff_getElem?.mp hl'
        obtain ⟨o, h1, h2⟩ := hall j l hj
        rw [laneOut_true ht.1 ht.2 hb] at h2
        cases h2
        exact ⟨_, List.mem_of_getElem? h1, rfl⟩
  have huniq : ∀ l ∈ s.warp.lanes, Takes g l → ∀ st, store l.thread st → ∀ st',
      body l.thread = .ok ⟨l.thread, [], some st'⟩ → ∃ st'', store l.thread st'' ∧ st'' = st' := by
    intro l hmem ht st hst st' hb
    obtain ⟨st'', h1, h2, _⟩ := hstore l hmem ht
    rw [h2] at hb
    simp only [Except.ok.injEq, Work.mk.injEq, Option.some.injEq, true_and] at hb
    exact ⟨st'', h1, hb⟩
  have hclash : ∀ outs, runLanes (laneOut (guardHolds g) body) 0 s.warp.lanes = .ok outs →
      ∀ st ∈ storesOf outs, ∀ st' ∈ storesOf outs, st.clash s.params.endian st' = false := by
    intro outs ho st hst st' hst'
    obtain ⟨l, hl1, ht1, hb1⟩ := ((houts outs ho).2 st).mp hst
    obtain ⟨l', hl2, ht2, hb2⟩ := ((houts outs ho).2 st').mp hst'
    obtain ⟨a, ha, _⟩ := hstore l hl1 ht1
    obtain ⟨a', ha', _⟩ := hstore l' hl2 ht2
    obtain ⟨b, hb, rfl⟩ := huniq l hl1 ht1 a ha st hb1
    obtain ⟨b', hb', rfl⟩ := huniq l' hl2 ht2 a' ha' st' hb2
    exact hc l hl1 l' hl2 ht1 ht2 b b' hb hb'
  obtain ⟨t, ht⟩ := execLanes_exists (s := s) (mk := mk) (g := g) (len := len) (ranges := ranges) (body := body) hm
    (fun l hmem ha => (hl l hmem ha).imp id fun ⟨hg, st, h1, h2, h3, h4⟩ =>
      ⟨hg, _, hbody l hmem ⟨ha, hg⟩ st h1 h2 h3⟩)
    (by
      intro outs ho
      refine races_false ?_ ?_ (hclash outs ho)
      · intro o hmem; rw [(houts outs ho).1 o hmem]; simp [Unraced]
      · intro o hmem st hst
        obtain ⟨l, hl1, ht1, hb1⟩ := ((houts outs ho).2 st).mp (mem_storesOf.mpr ⟨o, hmem, hst⟩)
        obtain ⟨a, _, h2, h3⟩ := hstore l hl1 ht1
        rw [hb1] at h2
        simp only [Except.ok.injEq, Work.mk.injEq, Option.some.injEq, true_and] at h2
        subst h2; exact h3)
  refine ⟨t, ht, execLanes_control ht, execLanes_outside ht, ?_, ?_, ?_⟩
  · obtain ⟨outs, w, ho, hr, hw, rfl⟩ := execLanes_next ht
    have hst := (houts outs ho).2
    have hwr : ∀ st ∈ storesOf outs, st.space.writable ∧ st.addr + st.bytes ≤ 2 ^ 32 := by
      intro st hmem
      obtain ⟨l, hl1, ht1, hb1⟩ := (hst st).mp hmem
      obtain ⟨a, ha, _⟩ := hstore l hl1 ht1
      obtain ⟨b, hb, rfl⟩ := huniq l hl1 ht1 a ha st hb1
      exact hspace l hl1 ht1 b hb
    have hmemory : ∀ sp x, State.byteAt ((s.commit outs).withWarp w) sp x =
        (s.applyStores (storesOf outs)).byteAt sp x := by
      intro sp x; cases sp <;> simp [State.byteAt, State.memOf]
    refine ⟨?_, ?_⟩
    · intro l hmem htk st hs k hk
      rw [hmemory]
      obtain ⟨st', h1, hb, _⟩ := hstore l hmem htk
      cases hfun _ _ _ hs h1
      have hin : st ∈ storesOf outs := (hst st).mpr ⟨l, hmem, htk, hb⟩
      have := State.byteAt_applyStores_inside (x := st.addr + k) _ s hwr (hclash outs ho) st hin rfl (by omega)
        (by omega)
      simpa [Store.list] using this
    · intro sp x hx hnot
      rw [hmemory]
      refine State.byteAt_applyStores_outside _ s hwr sp x hx ?_
      intro st hmem
      obtain ⟨l, hl1, ht1, hb1⟩ := (hst st).mp hmem
      obtain ⟨a, ha, _⟩ := hstore l hl1 ht1
      obtain ⟨b, hb, rfl⟩ := huniq l hl1 ht1 a ha st hb1
      exact hnot l hl1 ht1 b hb
  · refine (execLanes_log ht).congr fun l hmem htk a => ?_
    obtain ⟨st, h1, hb, _⟩ := hstore l hmem htk
    have : ∀ st', store l.thread st' ↔ st' = st := fun st' => ⟨fun h => hfun _ _ _ h h1, fun h => h ▸ h1⟩
    simp [hb, this]
  · refine (execLanes_lanes ht).mono ?_
    rintro l hmem htk new ⟨w, hw, rfl⟩
    obtain ⟨st, _, hb, _⟩ := hstore l hmem htk
    rw [hw] at hb; cases hb; rfl

end Sys2Proof.Machine
end

