-- ==== Sys2Proof/Laws/Results.lean ====
section
/-!
SUPPORT. What the writes of registers do, and what the ends of the instructions (`putResult`, `putReg`, `putAreg`)
can do; from them, the lemmas behind `Delivers` and the address-register writes.
-/
namespace Sys2Proof.Machine

/-! ### One register after a write -/

theorem Thread.gprAt_setGpr (t : Thread) (n : Nat) (v : Word) (hn : n < 124) (m : Nat) :
    (t.setGpr n v).gprAt m = if m = n then ⟨v, true, true⟩ else t.gprAt m := by
  simp only [Thread.gprAt, Thread.setGpr, Vector.getElem?_setIfInBounds]
  by_cases h : m = n
  · subst h; simp [hn]
  · have h' : ¬ n = m := fun e => h e.symm
    simp [h, h']

@[simp] theorem Thread.predAt_setGpr (t : Thread) (n : Nat) (v : Word) (q : BitVec 2) :
    (t.setGpr n v).predAt q = t.predAt q := rfl

@[simp] theorem Thread.aregAt_setGpr (t : Thread) (n : Nat) (v : Word) (a : Nat) :
    (t.setGpr n v).aregAt a = t.aregAt a := rfl

theorem Thread.gprAt_setHalf (t : Thread) (k : Nat) (v : Half) (hk : k / 2 < 124) (m : Nat) :
    (t.setHalf k v).gprAt m =
      if m = k / 2 then
        if k % 2 = 0 then
          ⟨(t.gprAt (k / 2)).val.extractLsb' 16 16 ++ v, true, (t.gprAt (k / 2)).hiWritten⟩
        else ⟨v ++ (t.gprAt (k / 2)).val.extractLsb' 0 16, (t.gprAt (k / 2)).loWritten, true⟩
      else t.gprAt m := by
  have key : ∀ r : Gpr, (Thread.mk (t.gpr.setIfInBounds (k / 2) r) t.pred t.areg).gprAt m =
      if m = k / 2 then r else t.gprAt m := by
    intro r
    simp only [Thread.gprAt, Vector.getElem?_setIfInBounds]
    generalize k / 2 = n at hk
    by_cases h : m = n
    · subst h; simp [hk]
    · have h' : ¬ n = m := fun e => h e.symm
      simp [h, h']
  exact key _

@[simp] theorem Thread.predAt_setHalf (t : Thread) (k : Nat) (v : Half) (q : BitVec 2) :
    (t.setHalf k v).predAt q = t.predAt q := rfl

@[simp] theorem Thread.aregAt_setHalf (t : Thread) (k : Nat) (v : Half) (a : Nat) :
    (t.setHalf k v).aregAt a = t.aregAt a := rfl

theorem Thread.predAt_setPred (t : Thread) (p : BitVec 2) (f : Flags) (q : BitVec 2) :
    (t.setPred p f).predAt q = if q = p then ⟨f, true⟩ else t.predAt q := by
  simp only [Thread.predAt, Thread.setPred, Vector.getElem_set]
  by_cases h : q = p
  · subst h; simp
  · have h' : ¬ p.toNat = q.toNat := fun e => h (BitVec.eq_of_toNat_eq e).symm
    simp [h, h']

@[simp] theorem Thread.gprAt_setPred (t : Thread) (p : BitVec 2) (f : Flags) (n : Nat) :
    (t.setPred p f).gprAt n = t.gprAt n := rfl

@[simp] theorem Thread.aregAt_setPred (t : Thread) (p : BitVec 2) (f : Flags) (a : Nat) :
    (t.setPred p f).aregAt a = t.aregAt a := rfl

theorem Thread.aregAt_setAreg (t : Thread) (a : Nat) (v : Word) (ha : 0 < a ∧ a < 16) (b : Nat) (hb : 0 < b) :
    (t.setAreg a v).aregAt b = if b = a then ⟨v, true⟩ else t.aregAt b := by
  simp only [Thread.aregAt, Thread.setAreg, Vector.getElem?_setIfInBounds]
  have h16 : a < 16 := ha.2
  by_cases h : b = a
  · subst h
    have : b - 1 < 15 := by omega
    simp [this]
  · have h' : ¬ a - 1 = b - 1 := by omega
    simp [h, h']

@[simp] theorem Thread.gprAt_setAreg (t : Thread) (a : Nat) (v : Word) (n : Nat) :
    (t.setAreg a v).gprAt n = t.gprAt n := rfl

@[simp] theorem Thread.predAt_setAreg (t : Thread) (a : Nat) (v : Word) (q : BitVec 2) :
    (t.setAreg a v).predAt q = t.predAt q := rfl

@[simp] theorem setp_gprAt (t : Thread) (set : PredSet) (f : Flags) (n : Nat) :
    (setp t set f).gprAt n = t.gprAt n := by
  unfold setp; split <;> rfl

@[simp] theorem setp_aregAt (t : Thread) (set : PredSet) (f : Flags) (a : Nat) :
    (setp t set f).aregAt a = t.aregAt a := by
  unfold setp; split <;> rfl

theorem setp_predAt (t : Thread) (set : PredSet) (f : Flags) (q : BitVec 2) :
    (setp t set f).predAt q = if set.pe = true ∧ q = set.ps then ⟨f, true⟩ else t.predAt q := by
  unfold setp
  by_cases h : set.pe = true
  · simp [h, Thread.predAt_setPred]
  · simp [h]

/-! ### The writes of a register field -/

theorem halves_low (a b : Half) : BitVec.extractLsb' (n := 32) 0 16 (a ++ b) = b := by
  apply BitVec.eq_of_toNat_eq
  have h := b.isLt
  simp only [BitVec.extractLsb'_toNat, BitVec.toNat_append, Nat.shiftLeft_eq, Nat.shiftRight_zero]
  rw [Nat.or_comm, ← Nat.mul_comm, Nat.or_comm, ← Nat.two_pow_add_eq_or_of_lt h]
  omega

theorem halves_high (a b : Half) : BitVec.extractLsb' (n := 32) 16 16 (a ++ b) = a := by
  apply BitVec.eq_of_toNat_eq
  have h := b.isLt
  have h2 := a.isLt
  simp only [BitVec.extractLsb'_toNat, BitVec.toNat_append, Nat.shiftLeft_eq, Nat.shiftRight_eq_div_pow]
  rw [← Nat.mul_comm, ← Nat.two_pow_add_eq_or_of_lt h]
  omega

theorem aregCount_le (p : Params) : aregCount p ≤ 16 := Nat.min_le_right _ _

theorem gprCount_le (p : Params) : gprCount p ≤ 124 := Nat.min_le_right _ _

/-- A write of a register field that exists: the field holds the value, everything else is as before. -/
theorem writeReg_exists {p : Params} (t : Thread) (sz : Size) {k : Nat} (v : BitVec sz.bits)
    (h : FieldExists p sz k) :
    ∃ t', writeReg p t sz k v = .ok t' ∧ FieldAfter sz k v t t' ∧ (∀ q, t'.predAt q = t.predAt q) ∧
      ∀ a, t'.aregAt a = t.aregAt a := by
  have hle := gprCount_le p
  cases sz with
  | b32 =>
    simp only [FieldExists] at h
    refine ⟨t.setGpr k v, by simp [writeReg, writeGpr, h], ?_, by simp, by simp⟩
    intro n
    exact Thread.gprAt_setGpr t k v (by omega) n
  | b16 =>
    simp only [FieldExists] at h
    have hk : k / 2 < 124 := by omega
    refine ⟨t.setHalf k v, by simp [writeReg, writeHalf, h], ⟨?_, ?_⟩, by simp, by simp⟩
    · intro n hn
      simp [Thread.gprAt_setHalf t k v hk n, hn]
    · have e := Thread.gprAt_setHalf t k v hk (k / 2)
      rw [if_pos rfl] at e
      rw [e]
      change BitVec 16 at v
      by_cases hk2 : k % 2 = 0
      · simp only [hk2, if_true]
        exact ⟨halves_low _ _, halves_high _ _, trivial, trivial⟩
      · simp only [hk2, if_false]
        exact ⟨halves_high _ _, halves_low _ _, trivial, trivial⟩

/-- The end of an instruction with a result (R90, R107): it completes, and `RegsAfter` says what it left. -/
theorem putResult_exists {p : Params} (t : Thread) (sz : Size) (d : Dst) (set : PredSet) (v : BitVec sz.bits)
    (c o : Bool) (reads : List Range) (h : DstExists p sz d) :
    ∃ t', putResult p t sz d set v c o reads = .ok ⟨t', reads, none⟩ ∧ RegsAfter sz d set v c o t t' := by
  have flags : flagsOf v c o = ⟨decide (v = 0#sz.bits), v.msb, c, o⟩ := by
    simp only [flagsOf]; congr 1
  cases d with
  | discard =>
    refine ⟨setp t set (flagsOf v c o), rfl, ?_, ?_, ?_⟩
    · simp
    · intro q; rw [setp_predAt, flags]
    · simp
  | reg k =>
    obtain ⟨t', ht', hf, hp, ha⟩ := writeReg_exists t sz v h
    refine ⟨setp t' set (flagsOf v c o), by simp [putResult, writeDst, ht'], ?_, ?_, ?_⟩
    · cases sz with
      | b32 => intro n; rw [setp_gprAt]; exact hf n
      | b16 => simpa only [FieldAfter, setp_gprAt] using hf
    · intro q; rw [setp_predAt, flags, hp]
    · intro a; rw [setp_aregAt, ha]

/-- The end of an instruction that only writes a register field is the same with no predicate write. -/
theorem putReg_eq (p : Params) (t : Thread) (sz : Size) (k : BitVec 7) (v : BitVec sz.bits) (c o : Bool)
    (reads : List Range) :
    putReg p t sz k.toNat v reads = putResult p t sz (.reg k) noSet v c o reads := by
  simp [putReg, putResult, writeDst, setp]

theorem putAreg_exists (p : Params) (t : Thread) {a : Nat} (v : Word) (h : 0 < a ∧ a < aregCount p) :
    ∃ t', putAreg p t a v = .ok ⟨t', [], none⟩ ∧ AregAfter a v t t' := by
  refine ⟨t.setAreg a v, by simp [putAreg, writeAreg, h], by simp, by simp, ?_⟩
  exact fun b hb => Thread.aregAt_setAreg t a v ⟨h.1, h.2.trans_le (aregCount_le p)⟩ b hb

/-! ### Instructions that deliver -/

/-- The lemma behind every `Delivers`: an instruction whose lane work ends in `putResult` of the result. -/
theorem delivers_of {i : Instr} {s : State} {mk : Marker} {g : Guard} {len : Nat} {sz : Size} {d : Dst} {set : PredSet}
    {result : Thread → Res sz → Prop} {ranges : Thread → List Range} {body : Thread → Except Cause Work}
    (hexec : exec i s = execLanes s mk g len ranges body)
    (hbody : ∀ t r, result t r →
      body t = putResult s.params t sz d set r.val r.carry r.overflow r.reads) :
    Delivers i s mk g len sz d set result := by
  intro ⟨hm, hl⟩
  have := execLanes_completes (s := s) (mk := mk) (g := g) (len := len) (ranges := ranges) (body := body)
    (reads := fun th range => ∃ r, result th r ∧ range ∈ r.reads)
    (R := fun old new => ∃ r, result old r ∧ RegsAfter sz d set r.val r.carry r.overflow old new) hm (by
      intro l hmem ha
      refine (hl l hmem ha).imp id ?_
      rintro ⟨hg, hd, r, hr, hu⟩
      obtain ⟨t', ht', hafter⟩ := putResult_exists l.thread sz d set r.val r.carry r.overflow r.reads hd
      refine ⟨hg, ⟨t', r.reads, none⟩, by rw [hbody _ _ hr, ht'], rfl, hu, ?_, r, hr, hafter⟩
      refine fun range => ⟨?_, fun h => ⟨r, hr, h⟩⟩
      rintro ⟨r', hr', h⟩
      obtain ⟨t'', ht'', _⟩ := putResult_exists l.thread sz d set r'.val r'.carry r'.overflow r'.reads hd
      have := (hbody _ _ hr).symm.trans (hbody _ _ hr')
      rw [ht', ht''] at this
      simp only [Except.ok.injEq, Work.mk.injEq] at this
      rwa [this.2.1])
  rw [← hexec] at this
  exact this

/-- The same for an instruction that ends in `putReg`. -/
theorem delivers_reg {i : Instr} {s : State} {mk : Marker} {g : Guard} {len : Nat} {sz : Size} {d : BitVec 7}
    {result : Thread → Res sz → Prop} {ranges : Thread → List Range} {body : Thread → Except Cause Work}
    (hexec : exec i s = execLanes s mk g len ranges body)
    (hbody : ∀ t r, result t r → body t = putReg s.params t sz d.toNat r.val r.reads) :
    Delivers i s mk g len sz (.reg d) noSet result :=
  delivers_of hexec fun t r h => by rw [hbody t r h, putReg_eq _ _ _ _ _ r.carry r.overflow]

theorem low_toNat (d : BitVec 6) : (d.setWidth 7).toNat = d.toNat := by
  have := d.isLt
  simp; omega

/-- The same for an instruction whose destination field has 6 bits. -/
theorem delivers_low {i : Instr} {s : State} {mk : Marker} {g : Guard} {len : Nat} {d : BitVec 6}
    {result : Thread → Res .b32 → Prop} {ranges : Thread → List Range} {body : Thread → Except Cause Work}
    (hexec : exec i s = execLanes s mk g len ranges body)
    (hbody : ∀ t r, result t r → body t = putReg s.params t .b32 d.toNat r.val r.reads) :
    Delivers i s mk g len .b32 (lowDst d) noSet result :=
  delivers_reg hexec fun t r h => by rw [hbody t r h, low_toNat]

/-- The same for a write of an address register. -/
theorem completes_areg {i : Instr} {s : State} {mk : Marker} {g : Guard} {len : Nat} {a : Nat}
    {value : Thread → Word → Prop} {ranges : Thread → List Range} {body : Thread → Except Cause Work}
    (hexec : exec i s = execLanes s mk g len ranges body)
    (hbody : ∀ t v, value t v → body t = putAreg s.params t a v) (hready : AregReady s mk g a value) :
    Completes i s mk g len noReads fun old new => ∃ v, value old v ∧ AregAfter a v old new := by
  obtain ⟨hm, hl⟩ := hready
  have := execLanes_completes (s := s) (mk := mk) (g := g) (len := len) (ranges := ranges) (body := body)
    (reads := noReads) (R := fun old new => ∃ v, value old v ∧ AregAfter a v old new) hm (by
      intro l hmem hac
      refine (hl l hmem hac).imp id ?_
      rintro ⟨hg, ha, v, hv⟩
      obtain ⟨t', ht', hafter⟩ := putAreg_exists s.params l.thread v ha
      exact ⟨hg, ⟨t', [], none⟩, by rw [hbody _ _ hv, ht'], rfl, by simp [Unraced], by simp [noReads], v, hv, hafter⟩)
  rw [← hexec] at this
  exact this

/-- A read that succeeds hands its value on. -/
theorem ok_bind {α β : Type} (a : α) (f : α → Except Cause β) :
    ((Except.ok a : Except Cause α) >>= f) = f a := rfl

/-- R72, R74: the effective address of an operand, as a number. -/
theorem effAddr_eq (base : Word) (off n : Nat) : effAddr base off n = (base.toNat + off * n) % 2 ^ 32 := by
  simp [effAddr]

/-- A check that finds nothing lets the instruction run. -/
@[simp] theorem State.unless_none (s : State) (k : Out) : s.unless none k = k := rfl

@[simp] theorem State.unless_some (s : State) (r : Reject) (k : Out) : s.unless (some r) k = s.refuse r := rfl

end Sys2Proof.Machine
end

