-- ==== Sys2Proof/Laws/Shape.lean ====
section
/-!
SUPPORT. The shape of every instruction, said once: it is declined, or it is a flow instruction, or it runs its
lanes with work that stores only in GST and R2G and writes an address register only in R2A and ADA. And what each
flow instruction can do.
-/
namespace Sys2Proof.Machine

/-- Whatever work a lane computes has a property. -/
def Yields (P : Work → Prop) (x : Except Cause Work) : Prop := ∀ w, x = .ok w → P w

theorem yields_bind {α : Type} {P : Work → Prop} {x : Except Cause α} {f : α → Except Cause Work}
    (h : ∀ a, Yields P (f a)) : Yields P (x >>= f) := by
  cases x with
  | error e => intro w hw; cases hw
  | ok a => exact h a

theorem yields_bind_ok {α : Type} {P : Work → Prop} {x : Except Cause α} {f : α → Except Cause Work}
    (h : ∀ a, x = .ok a → Yields P (f a)) : Yields P (x >>= f) := by
  cases x with
  | error e => intro w hw; cases hw
  | ok a => exact h a rfl


theorem setp_areg (t : Thread) (set : PredSet) (f : Flags) : (setp t set f).areg = t.areg := by
  unfold setp; split <;> rfl

theorem writeReg_areg {p : Params} {t t' : Thread} {sz : Size} {k : Nat} {v : BitVec sz.bits}
    (h : writeReg p t sz k v = .ok t') : t'.areg = t.areg := by
  cases sz with
  | b32 =>
    simp only [writeReg, writeGpr] at h
    split at h
    · cases h; rfl
    · cases h
  | b16 =>
    simp only [writeReg, writeHalf] at h
    split at h
    · cases h; rfl
    · cases h

/-- A lane's work that stores nothing and leaves the address registers. -/
def Quiet (t : Thread) (w : Work) : Prop := w.store = none ∧ w.thread.areg = t.areg

theorem quiet_putResult {p : Params} {t : Thread} {sz : Size} {d : Dst} {set : PredSet} {v : BitVec sz.bits}
    {c o : Bool} {reads : List Range} : Yields (Quiet t) (putResult p t sz d set v c o reads) := by
  intro w h
  simp only [putResult] at h
  split at h
  · cases h
  · next t' ht =>
    cases h
    refine ⟨rfl, ?_⟩
    rw [setp_areg]
    cases d with
    | discard => cases ht; rfl
    | reg k => exact writeReg_areg ht

theorem quiet_putReg {p : Params} {t : Thread} {sz : Size} {k : Nat} {v : BitVec sz.bits} {reads : List Range} :
    Yields (Quiet t) (putReg p t sz k v reads) := by
  intro w h
  simp only [putReg] at h
  split at h
  · cases h
  · next t' ht => cases h; exact ⟨rfl, writeReg_areg ht⟩

theorem storeless_putAreg {p : Params} {t : Thread} {a : Nat} {v : Word} :
    Yields (fun w => w.store = none) (putAreg p t a v) := by
  intro w h
  simp only [putAreg] at h
  split at h
  · cases h
  · cases h; rfl

/-! ### Ranges -/

/-- A shared operand reads the range that `sharedRange` tells. -/
theorem readShared_reads {s : State} {t : Thread} {off : Nat} {ty : ElemTy} {a : Nat} {v : Val 32}
    (h : readShared s t off ty a = .ok v) : v.reads = sharedRange s t off ty a := by
  simp only [readShared] at h
  split at h
  · cases h
  · next base hb =>
    split at h
    · cases h
    · next raw hr =>
      cases h
      simp only [State.load] at hr
      split at hr
      · cases hr
      · next hc => simp only [sharedRange, hb, State.rangeRead, hc]

theorem readSrc1_reads {s : State} {t : Thread} {sz : Size} {s1 : Src1} {v : Val sz.bits}
    (h : readSrc1 s t sz s1 = .ok v) : v.reads = src1Ranges s s1 t := by
  cases s1 with
  | reg k => simp only [readSrc1, readRegVal] at h; split at h <;> cases h; rfl
  | shared off ty a =>
    simp only [readSrc1, readSharedVal] at h
    split at h
    · cases h
    · next v hv => cases h; exact readShared_reads hv

theorem readSrcS_reads {s : State} {t : Thread} {sz : Size} {s1 : SrcS} {v : Val sz.bits}
    (h : readSrcS s t sz s1 = .ok v) : v.reads = srcSRanges s s1 t := by
  cases s1 with
  | reg k => simp only [readSrcS, readRegVal] at h; split at h <;> cases h; rfl
  | shared off ty a =>
    simp only [readSrcS, readSharedVal] at h
    split at h
    · cases h
    · next v hv => cases h; exact readShared_reads hv

theorem readCvt_reads {s : State} {t : Thread} {ty : CvtTy} {s1 : Src1} {v : Val 32}
    (h : readCvt s t s1 ty = .ok v) : v.reads = src1Ranges s s1 t := by
  cases s1 with
  | reg k =>
    cases ty <;> simp only [readCvt, bind, Except.bind] at h <;> split at h <;> cases h <;> rfl
  | shared off ety a =>
    simp only [readCvt, bind, Except.bind] at h
    split at h
    · cases h
    · next v hv => cases h; exact readShared_reads (v := v) hv

/-- The work of a lane has the ranges as its reads. -/
abbrev Reads (ranges : List Range) (x : Except Cause Work) : Prop := Yields (fun w => w.reads = ranges) x

theorem reads_putResult {p : Params} {t : Thread} {sz : Size} {d : Dst} {set : PredSet} {v : BitVec sz.bits}
    {c o : Bool} {reads : List Range} : Reads reads (putResult p t sz d set v c o reads) := by
  intro w h
  simp only [putResult] at h
  split at h
  · cases h
  · cases h; rfl

theorem reads_putReg {p : Params} {t : Thread} {sz : Size} {k : Nat} {v : BitVec sz.bits} {reads : List Range} :
    Reads reads (putReg p t sz k v reads) := by
  intro w h
  simp only [putReg] at h
  split at h
  · cases h
  · cases h; rfl

/-- What the work of an instruction's lanes may do. -/
structure BodySpec (i : Instr) (s : State) (body : Thread → Except Cause Work) : Prop where
  store : ∀ t w st, body t = .ok w → w.store = some st →
    (∃ ctl dreg areg ty, i = .gst ctl dreg areg ty) ∧ st.space = .global ∨
    (∃ ctl off a s3 sz sg, i = .r2g ctl off a s3 sz sg) ∧ st.space = .shared s.warp.block
  areg : ∀ t w, body t = .ok w → w.thread.areg = t.areg ∨
    (∃ ctl da s1 imm, i = .r2a ctl da s1 imm) ∨ ∃ ctl da a imm, i = .ada ctl da a imm

theorem BodySpec.of_quiet {i : Instr} {s : State} {body : Thread → Except Cause Work}
    (h : ∀ t, Yields (Quiet t) (body t)) : BodySpec i s body where
  store := fun t w st hw hst => by rw [(h t w hw).1] at hst; cases hst
  areg := fun t w hw => .inl (h t w hw).2

/-- The shape of an instruction that is not a flow instruction. -/
def LaneShape (i : Instr) (s : State) : Prop :=
  (∃ why, exec i s = s.refuse why) ∨
    ∃ mk g len ranges body, exec i s = execLanes s mk g len ranges body ∧ BodySpec i s body

theorem LaneShape.of_exec {i : Instr} {s : State} {mk : Marker} {g : Guard} {len : Nat}
    {ranges : Thread → List Range} {body : Thread → Except Cause Work}
    (h : exec i s = execLanes s mk g len ranges body) (hb : BodySpec i s body) :
    LaneShape i s := .inr ⟨mk, g, len, ranges, body, h, hb⟩

theorem LaneShape.of_unless {i : Instr} {s : State} {problem : Option Reject} {mk : Marker} {g : Guard} {len : Nat}
    {ranges : Thread → List Range} {body : Thread → Except Cause Work}
    (h : exec i s = s.unless problem (execLanes s mk g len ranges body))
    (hb : BodySpec i s body) : LaneShape i s := by
  cases problem with
  | none => exact .inr ⟨mk, g, len, ranges, body, h, hb⟩
  | some why => exact .inl ⟨why, h⟩

/-- The flow instructions and NOP. -/
def Instr.flows : Instr → Prop
  | .bra _ _ => True
  | .cal _ => True
  | .ret _ => True
  | .bar => True
  | .trap => True
  | .ssy _ _ _ => True
  | .nop _ => True
  | _ => False

/-- Every instruction is a flow instruction, or has the lane shape. -/
theorem exec_shape (i : Instr) (s : State) : Instr.flows i ∨ LaneShape i s := by
  cases i with
  | bra | cal | ret | bar | trap | ssy | nop => exact .inl trivial
  | i2i =>
    exact .inr (.of_unless rfl (.of_quiet fun t => yields_bind fun _ => quiet_putResult))
  | imul | iset | iadd | fadd | fmul | mvc | fset | imul24 =>
    right
    first
      | exact .of_exec rfl (.of_quiet fun t => yields_bind fun _ => yields_bind fun _ => quiet_putResult)
      | exact .of_unless rfl (.of_quiet fun t => yields_bind fun _ => yields_bind fun _ => quiet_putResult)
  | imul32 d s1 s2 u24 =>
    right
    cases u24
    · exact .of_exec rfl (.of_quiet fun t => yields_bind fun _ => yields_bind fun _ => quiet_putReg)
    · exact .of_unless rfl (.of_quiet fun t => yields_bind fun _ => yields_bind fun _ => quiet_putReg)
  | imul32i | iadd32i | mov | mov32 | a2r | fadd32i | fmul32i | rcp32 =>
    exact .inr (.of_exec rfl (.of_quiet fun t => yields_bind fun _ => quiet_putReg))
  | shl | shr =>
    exact .inr (.of_unless rfl (.of_quiet fun t => yields_bind fun _ => yields_bind fun _ => quiet_putReg))
  | iaddc | imad | imad24 | fmad =>
    exact .inr (.of_unless rfl (.of_quiet fun t =>
      yields_bind fun _ => yields_bind fun _ => yields_bind fun _ => quiet_putResult))
  | lop =>
    exact .inr (.of_unless rfl (.of_quiet fun t => yields_bind fun _ => yields_bind fun _ => quiet_putResult))
  | iadd32 | gld | fadd32 | fmul32 | imad32i | fmad32i =>
    exact .inr (.of_exec rfl (.of_quiet fun t => yields_bind fun _ => yields_bind fun _ => quiet_putReg))
  | imad32 =>
    exact .inr (.of_exec rfl (.of_quiet fun t =>
      yields_bind fun _ => yields_bind fun _ => yields_bind fun _ => quiet_putReg))
  | fmad32 =>
    exact .inr (.of_unless rfl (.of_quiet fun t =>
      yields_bind fun _ => yields_bind fun _ => yields_bind fun _ => quiet_putReg))
  | mvi => exact .inr (.of_exec rfl (.of_quiet fun t => quiet_putReg))
  | f2f | f2i | i2f | rcp =>
    exact .inr (.of_exec rfl (.of_quiet fun t => yields_bind fun _ => quiet_putResult))
  | rsq | lg2 | sin | cos | ex2 | rro =>
    exact .inr (.of_unless rfl (.of_quiet fun t => yields_bind fun _ => quiet_putResult))
  | r2a ctl da s1 imm =>
    refine .inr (.of_unless rfl ⟨fun t w st hw hst => ?_, fun _ _ _ => .inr (.inl ⟨ctl, da, s1, imm, rfl⟩)⟩)
    have := yields_bind (P := fun w => w.store = none) (fun _ => storeless_putAreg) w hw
    rw [this] at hst; cases hst
  | ada ctl da a imm =>
    refine .inr (.of_unless rfl ⟨fun t w st hw hst => ?_, fun _ _ _ => .inr (.inr ⟨ctl, da, a, imm, rfl⟩)⟩)
    have := yields_bind (P := fun w => w.store = none) (fun _ => storeless_putAreg) w hw
    rw [this] at hst; cases hst
  | gst ctl dreg areg ty =>
    refine .inr (.of_exec rfl ⟨fun t w st hw hst => ?_, fun t w hw => ?_⟩)
    · refine .inl ⟨⟨ctl, dreg, areg, ty, rfl⟩, ?_⟩
      exact yields_bind (P := fun w => ∀ st, w.store = some st → st.space = .global) (fun addr =>
        yields_bind fun v => yields_bind fun _ w hw st hst => by cases hw; cases hst; rfl) w hw st hst
    · refine .inl ?_
      exact yields_bind (P := fun w => w.thread.areg = t.areg) (fun addr =>
        yields_bind fun v => yields_bind fun _ w hw => by cases hw; rfl) w hw
  | r2g ctl off a s3 sz sg =>
    refine .inr (.of_exec rfl ⟨fun t w st hw hst => ?_, fun t w hw => ?_⟩)
    · refine .inr ⟨⟨ctl, off, a, s3, sz, sg, rfl⟩, ?_⟩
      exact yields_bind (P := fun w => ∀ st, w.store = some st → st.space = .shared s.warp.block) (fun base =>
        yields_bind fun v => yields_bind fun _ w hw st hst => by cases hw; cases hst; rfl) w hw st hst
    · refine .inl ?_
      exact yields_bind (P := fun w => w.thread.areg = t.areg) (fun base =>
        yields_bind fun v => yields_bind fun _ w hw => by cases hw; rfl) w hw

/-- An instruction that obeys a guard is BRA, RET, or one of the lane shape with that guard, which only the launch
can decline. -/
theorem guarded_shape {g : Guard} {i j : Instr} (h : guarded g i = some j) :
    (∃ tgt, j = .bra tgt g) ∨ j = .ret g ∨
    ∃ mk, ∃ problem : Params → Option Reject, ∃ ranges : State → Thread → List Range,
      ∃ body : State → Thread → Except Cause Work, ∀ s, exec j s = s.unless (problem s.params) (execLanes s mk g 8 (ranges s) (body s)) := by
  cases i <;> simp only [guarded, withCtl, Option.some.injEq, reduceCtorEq] at h <;> subst h
  case bra => exact .inl ⟨_, rfl⟩
  case ret => exact .inr (.inl rfl)
  case i2i => exact .inr (.inr ⟨_, fun _ => _, _, _, fun s => rfl⟩)
  case r2a ctl da s1 imm => exact .inr (.inr ⟨_, fun p => r2aProblem p da imm, _, _, fun s => rfl⟩)
  case iadd ctl d set s1 s3 sz neg2 => exact .inr (.inr ⟨_, fun p => srcSegProblem p s3, _, _, fun s => rfl⟩)
  case imul24 => exact .inr (.inr ⟨_, fun p => if p.mul24 then none else some .mul24Absent, _, _, fun s => rfl⟩)
  case imad ctl d set s1 s2 s3 _ _ => exact .inr (.inr ⟨_, fun p => srcSegProblem p s2, _, _, fun s => rfl⟩)
  case imad24 ctl d set s1 s2 s3 =>
    exact .inr (.inr ⟨_, fun p => (if p.mul24 then srcSegProblem p s2 else some .mul24Absent), _, _, fun s => rfl⟩)
  case lop ctl d set s1 s2 _ _ _ _ _ => exact .inr (.inr ⟨_, fun p => srcSegProblem p s2, _, _, fun s => rfl⟩)
  case iset ctl d set s1 s2 _ _ _ => exact .inr (.inr ⟨_, fun p => srcSegProblem p s2, _, _, fun s => rfl⟩)
  case mvc ctl d set seg _ _ _ _ _ => exact .inr (.inr ⟨_, fun p => segProblem p seg, _, _, fun s => rfl⟩)
  case fadd ctl d set s1 s2 _ _ _ => exact .inr (.inr ⟨_, fun p => srcSegProblem p s2, _, _, fun s => rfl⟩)
  case fmul ctl d set s1 s2 _ _ _ => exact .inr (.inr ⟨_, fun p => srcSegProblem p s2, _, _, fun s => rfl⟩)
  case fset ctl d set s1 s2 _ _ => exact .inr (.inr ⟨_, fun p => srcSegProblem p s2, _, _, fun s => rfl⟩)
  case fmad ctl d set s1 s2 s3 _ _ =>
    exact .inr (.inr ⟨_, fun p => firstProblem [srcSegProblem p s2, srcSegProblem p s3], _, _, fun s => rfl⟩)
  case rsq | lg2 | sin | cos | ex2 | rro =>
    exact .inr (.inr ⟨_, fun p => if p.sfu then none else some .sfuAbsent, _, _, fun s => rfl⟩)
  case ada | shl | shr => exact .inr (.inr ⟨_, fun _ => _, _, _, fun s => rfl⟩)
  all_goals exact .inr (.inr ⟨_, fun _ => none, _, _, fun s => rfl⟩)

/-- An instruction with a shared operand runs its lanes, unless the launch declines it, and each lane reads the
operand. -/
theorem operand_shape {i : Instr} {x : SharedOperand} (h : sharedOperand i = some x) :
    ∃ mk g len, ∃ problem : Params → Option Reject, ∃ ranges : State → Thread → List Range,
      ∃ body : State → Thread → Except Cause Work, (∀ l, TakesPart i l → Takes g l) ∧
        (∀ s t, ranges s t = sharedRange s t x.off x.ty x.a) ∧
        ∀ s, exec i s = s.unless (problem s.params) (execLanes s mk g len (ranges s) (body s)) ∧
          ∀ t, Reads (ranges s t) (body s t) := by
  have long : ∀ {s1 : Src1}, Src1.operand s1 = some x →
      ∀ s t, src1Ranges s s1 t = sharedRange s t x.off x.ty x.a := by
    intro s1 h s t; cases s1 <;> cases h; rfl
  have short : ∀ {s1 : SrcS}, SrcS.operand s1 = some x →
      ∀ s t, srcSRanges s s1 t = sharedRange s t x.off x.ty x.a := by
    intro s1 h s t; cases s1 <;> cases h; rfl
  have opn : ∀ {j : Instr} (l : Lane), TakesPart j l → Takes Guard.open l := fun l h => ⟨h.1, rfl⟩
  have part : ∀ {j : Instr} {g : Guard}, guarded g j = some j → ∀ l, TakesPart j l → Takes g l :=
    fun h0 l h => ⟨h.1, h.2 _ h0⟩
  cases i <;> simp only [sharedOperand, reduceCtorEq] at h
  case i2i =>
    exact ⟨_, _, _, fun _ => _, _, _, part rfl, long h, fun s => ⟨rfl, fun t =>
      yields_bind_ok fun _ ha => readCvt_reads ha ▸ reads_putResult⟩⟩
  case imul =>
    exact ⟨_, _, _, fun _ => none, _, _, part rfl, long h, fun s => ⟨rfl, fun t =>
      yields_bind_ok fun _ ha => yields_bind fun _ => readSrc1_reads ha ▸ reads_putResult⟩⟩
  case imul24 =>
    exact ⟨_, _, _, fun p => if p.mul24 then none else some .mul24Absent, _, _, part rfl, long h, fun s => ⟨rfl,
      fun t => yields_bind_ok fun _ ha => yields_bind fun _ => readSrc1_reads ha ▸ reads_putResult⟩⟩
  case imul32 d s1 s2 u24 =>
    cases u24
    · exact ⟨_, _, _, fun _ => none, _, _, opn, short h, fun s => ⟨rfl, fun t =>
        yields_bind_ok fun _ ha => yields_bind fun _ => readSrcS_reads ha ▸ reads_putReg⟩⟩
    · exact ⟨_, _, _, fun p => if p.mul24 then none else some .mul24Absent, _, _, opn, short h, fun s => ⟨rfl,
        fun t => yields_bind_ok fun _ ha => yields_bind fun _ => readSrcS_reads ha ▸ reads_putReg⟩⟩
  case shl | shr =>
    exact ⟨_, _, _, fun _ => _, _, _, part rfl, long h, fun s => ⟨rfl, fun t =>
      yields_bind_ok fun _ ha => yields_bind fun _ => readSrc1_reads ha ▸ reads_putReg⟩⟩
  case iaddc ctl pr d set s1 s3 sz =>
    exact ⟨_, _, _, fun p => srcSegProblem p s3, _, _, fun l h => ⟨h.1, rfl⟩, long h, fun s => ⟨rfl, fun t =>
      yields_bind_ok fun _ ha => yields_bind fun _ => yields_bind fun _ => readSrc1_reads ha ▸ reads_putResult⟩⟩
  case iadd32 | fadd32 | fmul32 =>
    exact ⟨_, _, _, fun _ => none, _, _, opn, short h, fun s => ⟨rfl, fun t =>
      yields_bind_ok fun _ ha => yields_bind fun _ => readSrcS_reads ha ▸ reads_putReg⟩⟩
  case iadd32i | mov32 =>
    exact ⟨_, _, _, fun _ => none, _, _, opn, short h, fun s => ⟨rfl, fun t =>
      yields_bind_ok fun _ ha => readSrcS_reads ha ▸ reads_putReg⟩⟩
  case mov =>
    exact ⟨_, _, _, fun _ => none, _, _, part rfl, long h, fun s => ⟨rfl, fun t =>
      yields_bind_ok fun _ ha => readSrc1_reads ha ▸ reads_putReg⟩⟩
  case fmad32 =>
    exact ⟨_, _, _, fun p => if p.fmad32 then none else some .fmad32Absent, _, _, opn, short h, fun s => ⟨rfl,
      fun t => yields_bind_ok fun _ ha => yields_bind fun _ => yields_bind fun _ => readSrcS_reads ha ▸ reads_putReg⟩⟩
  case iadd ctl d set s1 s2 _ _ | iset ctl d set s1 s2 _ _ _ | fadd ctl d set s1 s2 _ _ _
      | fmul ctl d set s1 s2 _ _ _ =>
    exact ⟨_, _, _, fun p => srcSegProblem p s2, _, _, part rfl, long h, fun s => ⟨rfl, fun t =>
      yields_bind_ok fun _ ha => yields_bind fun _ => readSrc1_reads ha ▸ reads_putResult⟩⟩
  case imad ctl d set s1 s2 _ _ _ =>
    exact ⟨_, _, _, fun p => srcSegProblem p s2, _, _, part rfl, long h, fun s => ⟨rfl, fun t =>
      yields_bind_ok fun _ ha => yields_bind fun _ => yields_bind fun _ => readSrc1_reads ha ▸ reads_putResult⟩⟩
  case imad24 ctl d set s1 s2 _ =>
    exact ⟨_, _, _, fun p => if p.mul24 then srcSegProblem p s2 else some .mul24Absent, _, _, part rfl, long h,
      fun s => ⟨rfl, fun t => yields_bind_ok fun _ ha => yields_bind fun _ => yields_bind fun _ =>
        readSrc1_reads ha ▸ reads_putResult⟩⟩
  case fmad ctl d set s1 s2 s3 _ _ =>
    exact ⟨_, _, _, fun p => firstProblem [srcSegProblem p s2, srcSegProblem p s3], _, _, part rfl, long h,
      fun s => ⟨rfl, fun t => yields_bind_ok fun _ ha => yields_bind fun _ => yields_bind fun _ =>
        readSrc1_reads ha ▸ reads_putResult⟩⟩
  case lop ctl d set s1 s2 op _ _ _ _ =>
    split at h
    · cases h
    · next hop =>
      refine ⟨_, _, _, fun p => srcSegProblem p s2, fun s => lopRanges s op s1, _, part rfl,
        fun s t => (if_neg hop).trans (long h s t), fun s => ⟨rfl, fun t => yields_bind_ok fun a ha => ?_⟩⟩
      have e : lopRanges s op s1 t = a.reads :=
        (if_neg hop).trans (readSrc1_reads ((if_neg hop).symm.trans ha)).symm
      exact yields_bind fun _ => e ▸ reads_putResult

end Sys2Proof.Machine
end

