-- ==== Sys2Proof/Laws/Flow.lean ====
section
/-!
SUPPORT. What the flow instructions can do, and what any instruction can do to the whole machine.
-/
namespace Sys2Proof.Machine

/-! ### The lanes that take a branch -/

theorem takenFrom_ok {g : Guard} {ls : List Lane} {i : Nat} {T : List Nat} (h : takenFrom g i ls = .ok T) :
    T = lanesWhere (takesLane g) i ls := by
  induction ls generalizing i T with
  | nil => cases h; rfl
  | cons l rest ih =>
    simp only [takenFrom] at h
    simp only [lanesWhere]
    split at h
    · next ha =>
      split at h
      · cases h
      · next b hb =>
        split at h
        · cases h
        · next t ht =>
          cases h
          rw [← ih ht]
          have : takesLane g l = b := by simp [takesLane, ha, hb]
          rw [this]
    · next ha =>
      have : takesLane g l = false := by simp [takesLane, ha]
      rw [this]
      exact ih h

theorem takenFrom_exists {g : Guard} {ls : List Lane} (i : Nat)
    (h : ∀ l ∈ ls, l.status = .active → ∃ b, guardHolds g l.thread = .ok b) : ∃ T, takenFrom g i ls = .ok T := by
  induction ls generalizing i with
  | nil => exact ⟨[], rfl⟩
  | cons l rest ih =>
    obtain ⟨T, hT⟩ := ih (i + 1) fun l' hl' => h l' (List.mem_cons_of_mem _ hl')
    by_cases ha : l.status = .active
    · obtain ⟨b, hb⟩ := h l (by simp) ha
      exact ⟨if b then i :: T else T, by simp [takenFrom, ha, hb, hT]⟩
    · exact ⟨T, by simp [takenFrom, ha, hT]⟩

/-- With readable guards the set T of a warp is known. -/
theorem Warp.taken_eq {s : State} {g : Guard} {ok : Thread → Prop} (h : LanesReady s g ok) :
    s.warp.taken g = .ok (lanesWhere (takesLane g) 0 s.warp.lanes) := by
  obtain ⟨T, hT⟩ := takenFrom_exists (g := g) (ls := s.warp.lanes) 0 fun l hl ha =>
    (h l hl ha).elim (fun hg => ⟨false, hg⟩) fun hg => ⟨true, hg.1⟩
  rw [Warp.taken, hT, takenFrom_ok hT]

theorem mem_taken {w : Warp} {g : Guard} {n : Nat} :
    n ∈ lanesWhere (takesLane g) 0 w.lanes ↔ ∃ l, w.lanes[n]? = some l ∧ Takes g l := by
  simp only [mem_lanesWhere, Nat.zero_add, takesLane_iff]
  constructor
  · rintro ⟨j, l, rfl, h⟩; exact ⟨l, h⟩
  · rintro ⟨l, h⟩; exact ⟨n, l, rfl, h⟩

theorem takenFrom_fault {g : Guard} {ls : List Lane} (i j : Nat) {l : Lane} {c : Cause} (hl : ls[j]? = some l)
    (ha : l.status = .active) (hc : guardHolds g l.thread = .error c)
    (hb : ∀ k < j, ∀ l', ls[k]? = some l' → l'.status ≠ .active) : takenFrom g i ls = .error (i + j, c) := by
  induction ls generalizing i j with
  | nil => simp at hl
  | cons l0 rest ih =>
    cases j with
    | zero => simp at hl; subst hl; simp [takenFrom, ha, hc]
    | succ j =>
      have h0 := hb 0 (by omega) l0 (by simp)
      have := ih (i + 1) j (by simpa using hl) fun k hk l' hl' => hb (k + 1) (by omega) l' (by simpa using hl')
      simp [takenFrom, h0, this, Nat.add_assoc, Nat.add_comm 1]

/-! ### Sets of lanes after an activation -/

/-- Two selections of the same lanes are the same list. -/
theorem lanesWhere_congr {f g : Lane → Bool} {ls ls' : List Lane} (i : Nat) (hlen : ls.length = ls'.length)
    (h : ∀ (j : Nat) (l l' : Lane), ls[j]? = some l → ls'[j]? = some l' → f l = g l') :
    lanesWhere f i ls = lanesWhere g i ls' := by
  induction ls generalizing i ls' with
  | nil => cases ls' with
    | nil => rfl
    | cons => simp at hlen
  | cons l rest ih =>
    cases ls' with
    | nil => simp at hlen
    | cons l' rest' =>
      have h0 := h 0 l l' (by simp) (by simp)
      have := ih (i + 1) (ls' := rest') (by simpa using hlen) fun j a b ha hb => h (j + 1) a b (by simpa using ha)
        (by simpa using hb)
      simp [lanesWhere, h0, this]

/-- The other active lanes, N of R131. -/
theorem active_filter_not_taken (w : Warp) (g : Guard) :
    (w.active.filter fun i => !(lanesWhere (takesLane g) 0 w.lanes).contains i) =
      lanesWhere (fun l => l.status == .active && !takesLane g l) 0 w.lanes := by
  have gen : ∀ (ls : List Lane) (i : Nat), ((lanesWhere (fun l => l.status == .active) i ls).filter fun n =>
      !(lanesWhere (takesLane g) i ls).contains n) =
      lanesWhere (fun l => l.status == .active && !takesLane g l) i ls := by
    intro ls
    induction ls with
    | nil => intro i; rfl
    | cons l rest ih =>
      intro i
      have hge : ∀ (f : Lane → Bool) (k n : Nat) (xs : List Lane), n ∈ lanesWhere f k xs → k ≤ n := by
        intro f k n xs hn
        obtain ⟨j, _, rfl, _⟩ := (mem_lanesWhere f k xs n).mp hn
        omega
      have hrest : ((lanesWhere (fun l => l.status == .active) (i + 1) rest).filter fun n =>
          !(lanesWhere (takesLane g) i (l :: rest)).contains n) =
          lanesWhere (fun l => l.status == .active && !takesLane g l) (i + 1) rest := by
        rw [← ih (i + 1)]
        apply List.filter_congr
        intro n hn
        have hn' := hge _ _ _ _ hn
        have hne : ¬ n = i := by omega
        simp only [lanesWhere]
        split
        · simp [hne]
        · rfl
      have hself : (lanesWhere (takesLane g) i (l :: rest)).contains i = takesLane g l := by
        have hnot : i ∉ lanesWhere (takesLane g) (i + 1) rest := fun hc => by have := hge _ _ _ _ hc; omega
        simp only [lanesWhere]
        split
        · next h => simp [h]
        · next h => simpa [h] using hnot
      by_cases ha : l.status = .active
      · have hl : lanesWhere (fun l => l.status == .active) i (l :: rest) =
            i :: lanesWhere (fun l => l.status == .active) (i + 1) rest := by simp [lanesWhere, ha]
        rw [hl, List.filter_cons, hself, hrest]
        cases ht : takesLane g l <;> simp [lanesWhere, ha, ht]
      · have hl : lanesWhere (fun l => l.status == .active) i (l :: rest) =
            lanesWhere (fun l => l.status == .active) (i + 1) rest := by simp [lanesWhere, ha]
        rw [hl, hrest]
        simp [lanesWhere, ha]
  exact gen w.lanes 0

/-! ### Pushing -/

theorem Warp.push_ok {w w' : Warp} {depth : Nat} {e : Entry} (h : w.push depth e = .ok w') :
    w.stack.length < depth ∧ w' = { w with stack := e :: w.stack } := by
  simp only [Warp.push] at h
  split at h
  · cases h
  · next hd => cases h; exact ⟨by omega, rfl⟩

theorem Warp.push_room {w : Warp} {depth : Nat} (e : Entry) (h : w.stack.length < depth) :
    w.push depth e = .ok { w with stack := e :: w.stack } := by
  have : ¬ depth ≤ w.stack.length := by omega
  simp [Warp.push, this]

theorem Warp.push_full {w : Warp} {depth : Nat} (e : Entry) (h : depth ≤ w.stack.length) :
    w.push depth e = .error .stackOverflow := by
  simp [Warp.push, h]

/-! ### What a flow instruction can do -/

/-- What a step of a warp keeps of it, whatever it runs. -/
structure Follows (p : Params) (w w' : Warp) : Prop where
  block : w'.block = w.block
  index : w'.index = w.index
  epoch : w'.epoch = w.epoch
  ended : KeepsEnded w w'
  sound : w.Sound p → w.status = .running → w'.Sound p

theorem Warp.hasActive_activate {w : Warp} {m : List Nat} {n : Nat} {l : Lane} (hl : w.lanes[n]? = some l)
    (hm : n ∈ m) (ha : l.status = .active) : (w.activate m).hasActive = true := by
  rw [Warp.hasActive_iff_getElem?]
  refine ⟨n, activateLane m (0 + n) l, ?_, ?_⟩
  · simp [Warp.activate, mapLanes_getElem?, hl]
  · simp [activateLane_status, ha, hm]

theorem Warp.hasActive_congr_lanes {w w' : Warp} (h : w'.lanes = w.lanes) : w'.hasActive = w.hasActive := by
  simp [Warp.hasActive, h]

/-- A change of pc, stack and status only. -/
theorem Follows.of_lanes {p : Params} {w w' : Warp} (hl : w'.lanes = w.lanes) (hb : w'.block = w.block)
    (hi : w'.index = w.index) (he : w'.epoch = w.epoch)
    (hd : w.stack.length ≤ p.stackDepth → w'.stack.length ≤ p.stackDepth)
    (hs : w.status = .running → w'.status ≠ .finished) : Follows p w w' where
  block := hb
  index := hi
  epoch := he
  ended := fun j l h _ => by rw [hl]; exact h
  sound := fun h hr => ⟨hd h.depth, fun _ => by rw [Warp.hasActive_congr_lanes hl]; exact h.alive (.inl hr),
    fun hf => absurd hf (hs hr)⟩

theorem finishStep_next {s s1 t : State} {mk : Marker} {len : Nat} (h : finishStep s s1 mk len = .next t) :
    ∃ w, (s1.warp.advance len).mark mk = .ok w ∧ t = s1.withWarp w := by
  simp only [finishStep] at h
  split at h
  · simp [State.raise] at h
  · next w hw => cases h; exact ⟨w, hw, rfl⟩

theorem Follows.of_mark {p : Params} {w w' : Warp} {mk : Marker} {len : Nat}
    (h : (w.advance len).mark mk = .ok w') : Follows p w w' := by
  obtain ⟨h1, h2, h3⟩ := Warp.mark_names h
  exact ⟨h1, h2, h3, (Warp.mark_ended h : KeepsEnded (w.advance len) w'), fun hs hr =>
    Warp.mark_sound (w := w.advance len) ⟨hs.depth, hs.alive, hs.spent⟩ (by simp [hr]) h⟩

theorem diverge_next {p : Params} {w w' : Warp} {tgt : Nat} {T N : List Nat} (h : diverge p w tgt T N = .ok w') :
    w.stack.length < p.stackDepth ∧
      ∃ m e a, w' = { (Warp.activate { w with stack := e :: w.stack } m) with pc := a } ∧ (m = T ∨ m = N) := by
  simp only [diverge] at h
  split at h
  · split at h
    · cases h
    · next w1 hw1 =>
      obtain ⟨hd, rfl⟩ := Warp.push_ok hw1
      cases h
      exact ⟨hd, T, _, tgt, rfl, .inl rfl⟩
  · split at h
    · cases h
    · next w1 hw1 =>
      obtain ⟨hd, rfl⟩ := Warp.push_ok hw1
      cases h
      exact ⟨hd, N, _, w.pc + 8, rfl, .inr rfl⟩

theorem lanesWhere_empty {f : Lane → Bool} {ls : List Lane} {i : Nat} (h : lanesWhere f i ls ≠ []) :
    ∃ (j : Nat) (l : Lane), i + j ∈ lanesWhere f i ls ∧ ls[j]? = some l ∧ f l = true := by
  obtain ⟨n, hn⟩ := List.exists_mem_of_ne_nil _ h
  obtain ⟨j, l, rfl, hl, hf⟩ := (mem_lanesWhere f i ls n).mp hn
  exact ⟨j, l, hn, hl, hf⟩

/-- A divergent branch leaves a sound warp sound: each side holds an active lane. -/
theorem Follows.of_diverge {s : State} {g : Guard} {tgt : Nat} {T : List Nat} {w : Warp}
    (hT : s.warp.taken g = .ok T) (hTne : T ≠ [])
    (hNne : (s.warp.active.filter fun i => !T.contains i) ≠ [])
    (hw : diverge s.params s.warp tgt T (s.warp.active.filter fun i => !T.contains i) = .ok w) :
    Follows s.params s.warp w := by
  have hTe : T = lanesWhere (takesLane g) 0 s.warp.lanes := takenFrom_ok hT
  obtain ⟨hd, m, e, a, rfl, hm⟩ := diverge_next hw
  refine ⟨rfl, rfl, rfl, Warp.activate_ended { s.warp with stack := e :: s.warp.stack } m, fun hs hr => ?_⟩
  have hact : (Warp.activate { s.warp with stack := e :: s.warp.stack } m).hasActive = true := by
    rcases hm with rfl | rfl
    · rw [hTe] at hTne
      obtain ⟨j, l, hj, hl, hf⟩ := lanesWhere_empty hTne
      rw [← hTe] at hj
      exact Warp.hasActive_activate (n := 0 + j) (by simpa using hl) hj (takesLane_iff.mp hf).1
    · have hN := hNne
      rw [hTe, active_filter_not_taken] at hN
      obtain ⟨j, l, hj, hl, hf⟩ := lanesWhere_empty hN
      rw [← active_filter_not_taken, ← hTe] at hj
      simp only [Bool.and_eq_true, beq_iff_eq] at hf
      exact Warp.hasActive_activate (n := 0 + j) (by simpa using hl) hj hf.1
  exact ⟨by simp only [Warp.activate_stack, List.length_cons]; omega, fun _ => hact,
    fun hf => by simp [hr] at hf⟩

theorem Follows.of_ret {p : Params} {w : Warp} {who : Nat → Bool} {st : LaneStatus} :
    Follows p w (if (w.retire who st).hasActive then (w.retire who st).advance 8 else (w.retire who st).resume) := by
  have he := w.retire_ended who st
  split
  · next ha =>
    exact ⟨rfl, rfl, rfl, he, fun hs hr =>
      ⟨hs.depth, fun _ => ha, fun hf => by simp [hr] at hf⟩⟩
  · next ha =>
    exact ⟨by simp, by simp, by simp, he.trans (Warp.resume_ended _), fun hs hr =>
      Warp.resume_sound (by simpa using hs.depth) (by simp [hr])⟩

/-- A flow instruction that answers a next state changes its warp only, and no thread. -/
theorem flow_next {i : Instr} {s t : State} (hi : Instr.flows i) (h : exec i s = .next t) :
    ∃ w, t = s.withWarp w ∧ w.threads = s.warp.threads ∧ Follows s.params s.warp w := by
  cases i with
  | bra tgt g =>
    simp only [exec, execBra] at h
    split at h
    · simp [State.raise] at h
    · next T hT =>
      split at h
      · cases h
        exact ⟨_, rfl, rfl, .of_lanes rfl rfl rfl rfl id (fun hr => by simp [hr])⟩
      · next hN =>
        split at h
        · cases h
          exact ⟨_, rfl, rfl, .of_lanes rfl rfl rfl rfl id (fun hr => by simp [hr])⟩
        · next hTne =>
          split at h
          · simp [State.raise] at h
          · next w hw =>
            cases h
            refine ⟨w, rfl, ?_, .of_diverge hT hTne hN hw⟩
            obtain ⟨_, m, e, a, rfl, _⟩ := diverge_next hw
            exact Warp.activate_threads { s.warp with stack := e :: s.warp.stack } m
  | cal tgt =>
    simp only [exec, execCal] at h
    split at h
    · cases h
      exact ⟨_, rfl, rfl, .of_lanes rfl rfl rfl rfl id (fun hr => by simp [hr])⟩
    · split at h
      · simp [State.raise] at h
      · next w hw =>
        obtain ⟨hd, rfl⟩ := Warp.push_ok hw
        cases h
        exact ⟨_, rfl, rfl, .of_lanes rfl rfl rfl rfl
          (fun _ => by simp only [List.length_cons]; omega) (fun hr => by simp [hr])⟩
  | ret g =>
    simp only [exec, execRet] at h
    split at h
    · simp [State.raise] at h
    · next T hT =>
      cases h
      refine ⟨_, rfl, ?_, .of_ret⟩
      generalize (if s.warp.inCall s.params then LaneStatus.returned else LaneStatus.ended) = st
      split
      · exact Warp.retire_threads _ _ _
      · rw [Warp.resume_threads, Warp.retire_threads]
  | bar =>
    simp only [exec, execBar] at h
    split at h
    · split at h
      · cases h
        exact ⟨_, rfl, rfl, .of_lanes rfl rfl rfl rfl id (fun hr => by simp [hr])⟩
      · cases h
        exact ⟨_, rfl, rfl, .of_lanes rfl rfl rfl rfl id (fun hr => by simp)⟩
    · simp [State.raise] at h
  | trap =>
    cases h
    exact ⟨_, rfl, rfl, .of_lanes rfl rfl rfl rfl id (fun hr => by simp)⟩
  | ssy tgt cc pr =>
    simp only [exec, execSsy] at h
    split at h
    · simp [State.raise] at h
    · next w hw =>
      obtain ⟨hd, rfl⟩ := Warp.push_ok hw
      cases h
      exact ⟨_, rfl, rfl, .of_lanes rfl rfl rfl rfl
        (fun _ => by simp only [Warp.advance_stack, List.length_cons]; omega) (fun hr => by simp [hr])⟩
  | nop mk =>
    obtain ⟨w, hw, rfl⟩ := finishStep_next (s := s) (s1 := s) h
    exact ⟨w, rfl, by simpa using Warp.mark_threads hw, .of_mark hw⟩
  | _ => exact False.elim hi

/-! ### What any instruction can do -/

/-- The warp of an instruction with lanes after its step. -/
theorem Follows.of_commit {s : State} {outs : List LaneOut} {g : Guard} {body : Thread → Except Cause Work}
    (ho : runLanes (laneOut (guardHolds g) body) 0 s.warp.lanes = .ok outs) {mk : Marker} {len : Nat} {w : Warp}
    (hw : ((s.commit outs).warp.advance len).mark mk = .ok w) : Follows s.params s.warp w := by
  have h1 : Follows s.params (s.commit outs).warp w := .of_mark hw
  obtain ⟨hlen, hall⟩ := runLanes_ok ho
  refine ⟨by rw [h1.block]; simp, by rw [h1.index]; simp, by rw [h1.epoch]; simp, ?_, ?_⟩
  · intro j l hl he
    obtain ⟨o, h2, h3⟩ := hall j l hl
    rw [laneOut_idle (by rw [he]; simp)] at h3
    cases h3
    exact h1.ended j l (by simp [h2, LaneOut.skip]) he
  · intro hs hr
    refine h1.sound ⟨by simpa using hs.depth, fun hst => ?_, fun hf => by simp [hr] at hf⟩ (by simpa using hr)
    obtain ⟨n, l, hl, ha⟩ := (Warp.hasActive_iff_getElem? _).mp (hs.alive (.inl hr))
    obtain ⟨o, h2, h3⟩ := hall n l hl
    exact (Warp.hasActive_iff_getElem? _).mpr ⟨n, o.lane, by simp [h2], by rw [laneOut_status h3, ha]⟩

/-- The memories stay canonical under the stores of an instruction. -/
theorem State.applyStores_wf (sts : List Store) : ∀ (s : State), s.global.wf = true → s.shared.wf = true →
    (s.applyStores sts).global.wf = true ∧ (s.applyStores sts).shared.wf = true := by
  induction sts with
  | nil => intro s h1 h2; exact ⟨h1, h2⟩
  | cons st rest ih =>
    intro s h1 h2
    refine ih (s.applyStore st) ?_ ?_
    · unfold State.applyStore
      split
      · exact Memory.setBytes_wf _ h1 _
      all_goals exact h1
    · unfold State.applyStore
      split
      · exact h2
      · exact Memory.setBytes_wf _ h2 _
      all_goals exact h2

/-- What any instruction can do, when it answers a next state. -/
theorem exec_next {i : Instr} {s t : State} (h : exec i s = .next t) :
    t.params = s.params ∧ t.rest = s.rest ∧ t.const = s.const ∧ t.code = s.code ∧ t.clock = s.clock ∧ t.ir = s.ir ∧
      Follows s.params s.warp t.warp ∧
      (s.global.wf = true → s.shared.wf = true → t.global.wf = true ∧ t.shared.wf = true) := by
  rcases exec_shape i s with hf | ⟨why, hw⟩ | ⟨mk, g, len, ranges, body, hb, _⟩
  · obtain ⟨w, rfl, _, hfo⟩ := flow_next hf h
    exact ⟨rfl, rfl, rfl, rfl, rfl, rfl, hfo, fun h1 h2 => ⟨h1, h2⟩⟩
  · rw [hw] at h; simp [State.refuse] at h
  · rw [hb] at h
    obtain ⟨outs, w, ho, hr, hw, rfl⟩ := execLanes_next h
    exact ⟨by simp, by simp, by simp, by simp, by simp, by simp, .of_commit ho hw,
      fun h1 h2 => State.applyStores_wf _ s h1 h2⟩

theorem finishStep_fault {s s1 : State} {mk : Marker} {len : Nat} {f : Fault} (h : finishStep s s1 mk len = .fault f) :
    ∃ c site, f = .raised c site := by
  simp only [finishStep] at h
  split at h
  · cases h; exact ⟨_, _, rfl⟩
  · cases h

/-- An instruction's own faults are raised ones (R240). -/
theorem exec_fault {i : Instr} {s : State} {f : Fault} (h : exec i s = .fault f) : ∃ c site, f = .raised c site := by
  rcases exec_shape i s with hf | ⟨why, hw⟩ | ⟨mk, g, len, ranges, body, hb, _⟩
  · cases i with
    | nop mk => exact finishStep_fault (s := s) (s1 := s) h
    | bra tgt g =>
      simp only [exec, execBra] at h
      split at h
      · cases h; exact ⟨_, _, rfl⟩
      · split at h
        · cases h
        · split at h
          · cases h
          · split at h
            · cases h; exact ⟨_, _, rfl⟩
            · cases h
    | cal tgt =>
      simp only [exec, execCal] at h
      split at h
      · cases h
      · split at h
        · cases h; exact ⟨_, _, rfl⟩
        · cases h
    | ret g =>
      simp only [exec, execRet] at h
      split at h
      · cases h; exact ⟨_, _, rfl⟩
      · cases h
    | bar =>
      simp only [exec, execBar] at h
      split at h
      · split at h <;> cases h
      · cases h; exact ⟨_, _, rfl⟩
    | trap => cases h
    | ssy tgt cc pr =>
      simp only [exec, execSsy] at h
      split at h
      · cases h; exact ⟨_, _, rfl⟩
      · cases h
    | _ => exact False.elim hf
  · rw [hw] at h; simp [State.refuse] at h
  · rw [hb] at h
    simp only [execLanes] at h
    split at h
    · split at h <;> cases h <;> exact ⟨_, _, rfl⟩
    · split at h
      · cases h; exact ⟨_, _, rfl⟩
      · exact finishStep_fault h

end Sys2Proof.Machine
end

