-- ==== Sys2Proof/Laws/Turn.lean ====
section
/-!
SUPPORT. What the choice of the next transition can do, and from it what a step can do.
-/
namespace Sys2Proof.Machine

/-! ### The warps in order -/

theorem insertWarp_perm (w : Warp) (l : List Warp) : (insertWarp w l).Perm (w :: l) := by
  induction l with
  | nil => exact .refl _
  | cons v rest ih =>
    simp only [insertWarp]
    split
    · exact .refl _
    · exact (ih.cons v).trans (.swap w v rest)

theorem State.warps_perm (s : State) : s.warps.Perm s.everyWarp := insertWarp_perm _ _

theorem State.mem_warps (s : State) (w : Warp) : w ∈ s.warps ↔ w ∈ s.everyWarp := s.warps_perm.mem_iff

/-- The warps are distinct by name. -/
def State.Named (s : State) : Prop := s.everyWarp.Pairwise Warp.Differs

theorem Warp.Differs.symm {v w : Warp} (h : v.Differs w) : w.Differs v :=
  fun ⟨h1, h2⟩ => h ⟨h1.symm, h2.symm⟩

theorem State.named_warps (s : State) : s.warps.Pairwise Warp.Differs ↔ s.Named :=
  s.warps_perm.pairwise_iff fun h => h.symm

/-- Taking a warp by name out of a list with distinct names. -/
theorem find_filter_perm {l : List Warp} {b i : Nat} {w : Warp} (hd : l.Pairwise Warp.Differs)
    (h : l.find? (fun w => w.hasId b i) = some w) : (w :: l.filter fun v => !v.hasId b i).Perm l := by
  induction l with
  | nil => simp at h
  | cons v rest ih =>
    obtain ⟨h1, h2⟩ := List.pairwise_cons.mp hd
    by_cases hv : v.hasId b i = true
    · have hw : v = w := by simpa [List.find?_cons, hv] using h
      subst hw
      have hall : ∀ u ∈ rest, u.hasId b i = false := by
        intro u hu
        by_contra hc
        simp only [Bool.not_eq_false] at hc
        simp only [Warp.hasId, Bool.and_eq_true, beq_iff_eq] at hv hc
        exact h1 u hu ⟨hv.1.trans hc.1.symm, hv.2.trans hc.2.symm⟩
      have : rest.filter (fun u => !u.hasId b i) = rest := by
        apply List.filter_eq_self.mpr
        intro u hu; simp [hall u hu]
      simp [hv, this]
    · have hf : rest.find? (fun w => w.hasId b i) = some w := by simpa [List.find?_cons, hv] using h
      have := ih h2 hf
      simp only [Bool.not_eq_true] at hv
      simp only [List.filter_cons, hv, Bool.not_false, if_true]
      exact (List.Perm.swap v w _).trans (this.cons v)

/-! ### Selecting a warp -/

/-- The fields that selecting a warp leaves alone. -/
theorem State.select_fields (s : State) (b i : Nat) :
    (s.select b i).params = s.params ∧ (s.select b i).global = s.global ∧ (s.select b i).shared = s.shared ∧
      (s.select b i).const = s.const ∧ (s.select b i).code = s.code ∧ (s.select b i).log = s.log ∧
      (s.select b i).clock = s.clock ∧ (s.select b i).ir = s.ir := by
  unfold State.select
  split
  · simp
  · split <;> simp

/-- Selecting a warp only reorders the warps. -/
theorem State.select_perm {s : State} (hd : s.Named) (b i : Nat) : (s.select b i).everyWarp.Perm s.everyWarp := by
  unfold State.select
  split
  · exact .refl _
  · split
    · next w hw =>
      exact (find_filter_perm ((s.named_warps).mpr hd) hw).trans s.warps_perm
    · exact .refl _

/-- A selected warp that exists is the one in turn. -/
theorem State.select_warp {s : State} {w : Warp} (hd : s.Named) (hw : w ∈ s.everyWarp) :
    (s.select w.block w.index).warp = w := by
  have huniq : ∀ u ∈ s.warps, u.hasId w.block w.index = true → u = w := by
    intro u hu hid
    simp only [Warp.hasId, Bool.and_eq_true, beq_iff_eq] at hid
    by_contra hne
    have := (s.named_warps).mpr hd
    have _ : Std.Symm Warp.Differs := ⟨fun _ _ h => h.symm⟩
    exact this.forall hu ((s.mem_warps w).mpr hw) hne ⟨hid.1, hid.2⟩
  unfold State.select
  split
  · next h => exact huniq _ ((s.mem_warps _).mpr (by simp)) h
  · split
    · next u hu => exact huniq u (List.mem_of_find?_eq_some hu) (by simpa using List.find?_some hu)
    · next h =>
      have := (List.find?_eq_none.mp h) w ((s.mem_warps w).mpr hw)
      simp [Warp.hasId] at this

/-! ### The choice -/

theorem mem_runsOf {l : List Warp} {b i : Nat} :
    Choice.run b i ∈ runsOf l ↔ ∃ w ∈ l, w.status = .running ∧ w.block = b ∧ w.index = i := by
  induction l with
  | nil => simp [runsOf]
  | cons w rest ih =>
    simp only [runsOf]
    split
    · next h => simp [ih, h, eq_comm]
    · next h => simp [ih, h]

theorem release_not_mem_runsOf {l : List Warp} {b : Nat} : Choice.release b ∉ runsOf l := by
  induction l with
  | nil => simp [runsOf]
  | cons w rest ih => simp only [runsOf]; split <;> simp [ih]

theorem run_not_mem_releases {s : State} {l : List Warp} {b i : Nat} : Choice.run b i ∉ s.releases l := by
  induction l with
  | nil => simp [State.releases]
  | cons w rest ih => simp only [State.releases]; split <;> simp [ih]

theorem mem_releases {s : State} {l : List Warp} {b : Nat} (h : Choice.release b ∈ s.releases l) :
    s.releasable b = true := by
  induction l with
  | nil => simp [State.releases] at h
  | cons w rest ih =>
    simp only [State.releases] at h
    split at h
    · next hc =>
      rcases List.mem_cons.mp h with h | h
      · cases h; exact hc.2.1
      · exact ih h
    · exact ih h

/-- A block that waits and may be released has its release among the choices. -/
theorem releases_complete {s : State} {b : Nat} (hr : s.releasable b = true) {l : List Warp}
    (h : ∃ w ∈ l, w.status = .atBarrier ∧ w.block = b) : Choice.release b ∈ s.releases l := by
  induction l with
  | nil => simp at h
  | cons w rest ih =>
    simp only [State.releases]
    by_cases hrest : ∃ v ∈ rest, v.status = .atBarrier ∧ v.block = b
    · split
      · exact List.mem_cons_of_mem _ (ih hrest)
      · exact ih hrest
    · obtain ⟨v, hv, hst, hb⟩ := h
      have hvw : v = w := by
        rcases List.mem_cons.mp hv with h | h
        · exact h
        · exact absurd ⟨v, h, hst, hb⟩ hrest
      subst hvw
      have : (rest.all fun u => u.block != v.block || u.status != .atBarrier) = true := by
        simp only [List.all_eq_true, Bool.or_eq_true, bne_iff_ne, ne_eq]
        intro u hu
        by_contra hc
        push Not at hc
        exact hrest ⟨u, hu, hc.2, hc.1.trans hb⟩
      rw [if_pos ⟨hst, by rw [hb]; exact hr, this⟩, hb]
      simp

/-- A choice that is picked is one of those enabled; only the counter moves. -/
theorem State.pick_some {s s' : State} {c : Choice} (h : s.pick = some (c, s')) :
    c ∈ s.choices ∧ ∃ k, s' = { s with clock := k } := by
  simp only [State.pick] at h
  split at h
  · cases h
  · next c' hc =>
    simp only [Option.some.injEq, Prod.mk.injEq] at h
    obtain ⟨rfl, rfl⟩ := h
    exact ⟨by rw [hc]; simp, s.clock, rfl⟩
  · next c' cs _ hc =>
    simp only [Option.some.injEq, Prod.mk.injEq] at h
    obtain ⟨h1, rfl⟩ := h
    refine ⟨?_, _, rfl⟩
    rw [hc]
    have hlt : Config.schedule s.clock % (cs.length + 1) < (c' :: cs).length := by
      simp only [List.length_cons]; exact Nat.mod_lt _ (by omega)
    rw [List.getElem?_eq_getElem hlt] at h1
    simp only [Option.getD_some] at h1
    rw [← h1]
    exact List.getElem_mem hlt

/-- A warp in turn to step is a running warp of the machine. -/
theorem State.turn_run {s s' : State} (h : s.turn = .run s') :
    ∃ b i k, s' = State.select { s with clock := k } b i ∧
      (∃ w ∈ s.everyWarp, w.status = .running ∧ w.block = b ∧ w.index = i) := by
  simp only [State.turn] at h
  split at h
  · cases h
  · split at h
    · cases h
    · cases h
    · next b i s1 hp =>
      cases h
      obtain ⟨hc, k, rfl⟩ := State.pick_some hp
      refine ⟨b, i, k, rfl, ?_⟩
      simp only [State.choices, List.mem_append] at hc
      rcases hc with hc | hc
      · obtain ⟨w, hw, h1, h2, h3⟩ := mem_runsOf.mp hc
        exact ⟨w, (s.mem_warps w).mp hw, h1, h2, h3⟩
      · exact absurd hc run_not_mem_releases

theorem State.turn_release {s s' : State} (h : s.turn = .release s') :
    ∃ b k, s' = State.release { s with clock := k } b ∧ s.releasable b = true := by
  simp only [State.turn] at h
  split at h
  · cases h
  · split at h
    · cases h
    · next b s1 hp =>
      cases h
      obtain ⟨hc, k, rfl⟩ := State.pick_some hp
      refine ⟨b, k, rfl, ?_⟩
      simp only [State.choices, List.mem_append] at hc
      rcases hc with hc | hc
      · exact absurd hc release_not_mem_runsOf
      · exact mem_releases hc
    · cases h

/-- With distinct names: the warp in turn runs, the warps are the same, and only the counter moves. -/
theorem State.turn_run_named {s s' : State} (hd : s.Named) (h : s.turn = .run s') :
    s'.warp.status = .running ∧ s'.everyWarp.Perm s.everyWarp ∧ s'.params = s.params ∧ s'.global = s.global ∧
      s'.shared = s.shared ∧ s'.const = s.const ∧ s'.code = s.code := by
  obtain ⟨b, i, k, rfl, w, hw, hr, rfl, rfl⟩ := State.turn_run h
  have hd' : State.Named { s with clock := k } := hd
  obtain ⟨h1, h2, h3, h4, h5, _⟩ := State.select_fields { s with clock := k } w.block w.index
  refine ⟨?_, State.select_perm hd' _ _, h1, h2, h3, h4, h5⟩
  rw [State.select_warp hd' hw]
  exact hr

/-! ### A step -/

/-- What a step can do when it answers a next state: a barrier release, or one instruction of the warp in turn. -/
theorem step_next {s t : State} (h : step s = .next t) :
    (∃ b k, t = State.release { s with clock := k } b ∧ s.releasable b = true) ∨
      ∃ s' w i, s.turn = .run s' ∧ s'.fetch = .ok w ∧ decodeWord w = .ok i ∧ exec i (s'.withIr w) = .next t := by
  simp only [step] at h
  split at h
  · cases h
  · next s' hs => cases h; exact .inl (State.turn_release hs)
  · next s' hs =>
    split at h
    · simp [State.raise] at h
    · next w hw =>
      split at h
      · simp [State.refuse] at h
      · next i hi => exact .inr ⟨s', w, i, hs, hw, hi, h⟩

theorem State.firstEnd_none {s : State} {l : List Warp} :
    s.firstEnd l = none ↔ ∀ w ∈ l, w.status = .running ∨ w.status = .atBarrier ∨ w.status = .finished := by
  induction l with
  | nil => simp [State.firstEnd]
  | cons w rest ih =>
    simp only [State.firstEnd]
    split
    · next f hf =>
      simp only [reduceCtorEq, List.mem_cons, forall_eq_or_imp, false_iff, not_and]
      intro hw
      simp only [State.endOf] at hf
      rcases hw with hw | hw | hw <;> simp [hw] at hf
    · next hf =>
      rw [ih]
      simp only [List.mem_cons, forall_eq_or_imp, iff_and_self]
      intro _
      simp only [State.endOf] at hf
      split at hf <;> simp_all

end Sys2Proof.Machine
end

