-- ==== Sys2Proof/Laws/Fair.lean ====
section
/-!
SUPPORT. What weak fairness (R284) gives: in an endless fair run every running warp is stepped, so that no running
warp stands at a TRAP for ever.
-/
namespace Sys2Proof.Machine

theorem State.moves_of_run {s s' : State} (h : s.turn = .run s') :
    ∃ b i k, s.moves = some (.run b i) ∧ s' = State.select { s with clock := k } b i ∧
      ∃ w ∈ s.everyWarp, w.status = .running ∧ w.block = b ∧ w.index = i := by
  simp only [State.turn] at h
  split at h
  · cases h
  · next he =>
    split at h
    · cases h
    · cases h
    · next b' i' s1 hp =>
      obtain ⟨hc, k', rfl⟩ := State.pick_some hp
      refine ⟨b', i', k', by simp [State.moves, he, hp], (Turn.run.inj h).symm, ?_⟩
      simp only [State.choices, List.mem_append] at hc
      rcases hc with hc | hc
      · obtain ⟨w, hw, h1, h2, h3⟩ := mem_runsOf.mp hc
        exact ⟨w, (s.mem_warps w).mp hw, h1, h2, h3⟩
      · exact absurd hc run_not_mem_releases

theorem releaseWarp_running {b : Nat} {w : Warp} (h : w.status = .running) : releaseWarp b w = w := by
  simp [releaseWarp, h]

theorem Warp.Differs.congr {v w v' w' : Warp} (h : v.Differs w) (hb : v'.block = v.block) (hi : v'.index = v.index)
    (hb' : w'.block = w.block) (hi' : w'.index = w.index) : v'.Differs w' := by
  simpa only [Warp.Differs, hb, hi, hb', hi'] using h

/-- A step keeps the names of the warps apart. -/
theorem step_named {s t : State} (hd : s.Named) (h : step s = .next t) : t.Named := by
  rcases step_next h with ⟨b, k, rfl, _⟩ | ⟨s', wd, i, hs, _, _, he⟩
  · have hmap : (State.release { s with clock := k } b).everyWarp = s.everyWarp.map (releaseWarp b) := rfl
    have hname : ∀ w : Warp, (releaseWarp b w).block = w.block ∧ (releaseWarp b w).index = w.index := by
      intro w; unfold releaseWarp; split <;> exact ⟨rfl, rfl⟩
    rw [State.Named, hmap, List.pairwise_map]
    exact hd.imp fun h => h.congr (hname _).1 (hname _).2 (hname _).1 (hname _).2
  · obtain ⟨_, hp, _⟩ := State.turn_run_named hd hs
    have hd' : s'.Named := (hp.pairwise_iff fun h => Warp.Differs.symm h).mpr hd
    obtain ⟨_, hr, _, _, _, _, hf, _⟩ := exec_next he
    obtain ⟨h1, h2⟩ := List.pairwise_cons.mp hd'
    rw [State.Named, State.everyWarp, hr]
    exact List.pairwise_cons.mpr ⟨fun v hv => (h1 v hv).congr hf.block hf.index rfl rfl, h2⟩

/-- A step that is not the step of a running warp leaves that warp as it is. -/
theorem step_keeps_other {s t : State} (hd : s.Named) (h : step s = .next t) {w : Warp} (hw : w ∈ s.everyWarp)
    (hr : w.status = .running) (hm : s.moves ≠ some (.run w.block w.index)) : w ∈ t.everyWarp := by
  rcases step_next h with ⟨b, k, rfl, _⟩ | ⟨s', wd, i, hs, _, _, he⟩
  · exact List.mem_map.mpr ⟨w, hw, releaseWarp_running hr⟩
  · obtain ⟨b, i', k, hmv, rfl, v, hv, _, rfl, rfl⟩ := State.moves_of_run hs
    have hd' : State.Named { s with clock := k } := hd
    have hsel : (State.select { s with clock := k } v.block v.index).warp = v := State.select_warp hd' hv
    have hin := (State.select_perm hd' v.block v.index).mem_iff.mpr hw
    obtain ⟨_, hrest, _⟩ := exec_next he
    rcases List.mem_cons.mp hin with hin | hin
    · rw [hsel] at hin; subst hin; exact absurd hmv hm
    · exact List.mem_cons_of_mem _ (hrest ▸ hin)

/-- A running warp is among the transitions enabled. -/
theorem State.run_mem_choices {s : State} {w : Warp} (hw : w ∈ s.everyWarp) (hr : w.status = .running) :
    Choice.run w.block w.index ∈ s.choices :=
  List.mem_append_left _ (mem_runsOf.mpr ⟨w, (s.mem_warps w).mpr hw, hr, rfl, rfl⟩)

theorem EndlessRun.named {r : Nat → State} (hr : EndlessRun r) (hd : (r 0).Named) (n : Nat) : (r n).Named := by
  induction n with
  | zero => exact hd
  | succ n ih => exact step_named ih (hr n)

theorem EndlessRun.stays {r : Nat → State} (hr : EndlessRun r) (hd : (r 0).Named) {n : Nat} {w : Warp}
    (hw : w ∈ (r n).everyWarp) (hrun : w.status = .running) (k : Nat)
    (hno : ∀ m, n ≤ m → m < n + k → (r m).moves ≠ some (.run w.block w.index)) : w ∈ (r (n + k)).everyWarp := by
  induction k with
  | zero => exact hw
  | succ k ih =>
    have := ih fun m h1 h2 => hno m h1 (by omega)
    exact step_keeps_other (hr.named hd (n + k)) (hr (n + k)) this hrun (hno (n + k) (by omega) (by omega))

/-- R284: in an endless fair run a running warp is stepped, as it stands. -/
theorem EndlessRun.warp_steps {r : Nat → State} (hr : EndlessRun r) (hf : WeaklyFair r) (hd : (r 0).Named) {n : Nat}
    {w : Warp} (hw : w ∈ (r n).everyWarp) (hrun : w.status = .running) :
    ∃ m, n ≤ m ∧ (r m).moves = some (.run w.block w.index) ∧ w ∈ (r m).everyWarp := by
  have hex : ∃ m, n ≤ m ∧ (r m).moves = some (.run w.block w.index) := by
    by_contra hno
    push Not at hno
    obtain ⟨m, h1, h2⟩ := hf (.run w.block w.index) n fun m hm => by
      obtain ⟨k, rfl⟩ := Nat.exists_eq_add_of_le hm
      exact State.run_mem_choices (hr.stays hd hw hrun k fun m h1 _ => hno m h1) hrun
    exact hno m h1 h2
  classical
  obtain ⟨h1, h2⟩ := Nat.find_spec hex
  refine ⟨Nat.find hex, h1, h2, ?_⟩
  obtain ⟨k, hk⟩ := Nat.exists_eq_add_of_le h1
  rw [hk]
  refine hr.stays hd hw hrun k fun m h3 h4 h5 => ?_
  exact Nat.find_min hex (by omega) ⟨h3, h5⟩

/-- What a fetch looks at. -/
theorem State.fetch_congr {s s' : State} (hw : s'.warp.pc = s.warp.pc) (hc : s'.code = s.code)
    (hp : s'.params = s.params) : s'.fetch = s.fetch := by
  simp only [State.fetch, State.codeWord, hw, hc, hp]

theorem EndlessRun.code {r : Nat → State} (hr : EndlessRun r) (hd : (r 0).Named) (n : Nat) :
    (r n).code = (r 0).code ∧ (r n).params = (r 0).params := by
  induction n with
  | zero => exact ⟨rfl, rfl⟩
  | succ n ih =>
    rcases step_next (hr n) with ⟨b, k, h, _⟩ | ⟨s', wd, i, hs, _, _, he⟩
    · rw [h]; exact ih
    · obtain ⟨hp, _, _, hc, _⟩ := exec_next he
      obtain ⟨_, _, h1, _, _, _, h2⟩ := State.turn_run_named (hr.named hd n) hs
      exact ⟨(hc.trans h2).trans ih.1, (hp.trans h1).trans ih.2⟩

/-- The warp whose step is the transition taken is the one in turn. -/
theorem State.turn_of_moves {s : State} {b i : Nat} (h : s.moves = some (.run b i)) :
    ∃ k, s.turn = .run (State.select { s with clock := k } b i) := by
  simp only [State.moves] at h
  split at h
  · cases h
  · next he =>
    obtain ⟨⟨c, s1⟩, hp, hc⟩ := Option.map_eq_some_iff.mp h
    obtain ⟨_, k, rfl⟩ := State.pick_some hp
    simp only at hc
    subst hc
    exact ⟨k, by simp [State.turn, he, hp]⟩

/-- A machine with a trapped warp in turn takes no further step (R248). -/
theorem step_trapped {s : State} (h : s.warp.status = .trapped) (t : State) : step s ≠ .next t := by
  intro ht
  have hend : ∃ f, s.ended = some f := by
    unfold State.ended
    cases hfe : s.firstEnd s.warps with
    | some f => exact ⟨f, rfl⟩
    | none =>
      have := State.firstEnd_none.mp hfe s.warp ((s.mem_warps _).mpr (by simp))
      simp [h] at this
  obtain ⟨f, hend⟩ := hend
  simp [step, State.turn, hend] at ht

/-- R284, R248: no endless fair run leaves a running warp at a TRAP. -/
theorem EndlessRun.no_trap {r : Nat → State} (hr : EndlessRun r) (hf : WeaklyFair r) (hd : (r 0).Named) {n : Nat}
    {w : Warp} (hw : w ∈ (r n).everyWarp) (hrun : w.status = .running) {wd : Long}
    (hfetch : State.fetch { r 0 with warp := w } = .ok wd) : decodeWord wd ≠ .ok .trap := by
  intro htrap
  obtain ⟨m, _, hmv, hin⟩ := hr.warp_steps hf hd hw hrun
  obtain ⟨k, hturn⟩ := State.turn_of_moves hmv
  have hd' : State.Named { r m with clock := k } := hr.named hd m
  have hsel : (State.select { r m with clock := k } w.block w.index).warp = w := State.select_warp hd' hin
  obtain ⟨f1, _, _, _, f5, _⟩ := State.select_fields { r m with clock := k } w.block w.index
  have hfe : (State.select { r m with clock := k } w.block w.index).fetch = .ok wd := by
    rw [← hfetch]
    exact State.fetch_congr (by rw [hsel]) (f5.trans (hr.code hd m).1) (f1.trans (hr.code hd m).2)
  have hstep := hr m
  simp only [step, hturn, hfe, htrap, exec, execTrap, Host.Outcome.next.injEq] at hstep
  exact step_trapped (by rw [← hstep]) _ (hr (m + 1))

end Sys2Proof.Machine
end

