-- ==== Sys2Proof/Laws/Float.lean ====
section
/-!
SUPPORT. What the conversions between integers and binary32 can give: the number in a word as the meanings of F2I and
I2F take it apart, what rounding a magnitude gives, and the grid on which the numbers of binary32 lie.
-/
namespace Sys2Proof.Machine

theorem f32Den_pos (a : Word) : 0 < f32Den a := Nat.two_pow_pos _

/-- The number in a word, by its sign bit, numerator and denominator. -/
theorem f32Value_eq (a : Word) :
    f32Value a = (if a.msb then -1 else 1) * ((f32Num a : ℚ) / f32Den a) := by
  have hm : a.getLsbD 31 = a.msb := by simp [BitVec.msb_eq_getLsbD_last]
  simp only [f32Value, f32Num, f32Den, hm, mul_assoc]
  generalize (a.extractLsb' 23 8).toNat = e
  generalize (a.extractLsb' 0 23).toNat = f
  congr 1
  rcases Nat.lt_or_ge e 150 with he | he
  · have h0 : e - 150 = 0 := by omega
    have : ((max e 1 : ℕ) - 150 : ℤ) = -((150 - max e 1 : ℕ) : ℤ) := by omega
    rw [this, zpow_neg, zpow_natCast, h0, div_eq_mul_inv]
    split <;> push_cast <;> ring
  · have h0 : 150 - max e 1 = 0 := by omega
    have : ((max e 1 : ℕ) - 150 : ℤ) = ((e - 150 : ℕ) : ℤ) := by omega
    rw [this, zpow_natCast, h0, if_neg (by omega), if_neg (by omega)]
    push_cast; ring

theorem f32Finite_iff (a : Word) : F32Finite a ↔ f32Special a = false := by
  simp [F32Finite, f32Special]

/-- The range test of F2I is that the number in the word lies between the destination's bounds. -/
theorem f2iInRange_iff (sg : Bool) (a : Word) :
    f2iInRange sg a.msb 32 (f32Num a) (f32Den a) = true ↔ intLow sg ≤ f32Value a ∧ f32Value a ≤ intHigh sg := by
  rw [f32Value_eq]
  have hd0 := f32Den_pos a
  generalize f32Num a = n at *
  generalize f32Den a = d at *
  have hd : (0:ℚ) < d := Nat.cast_pos.2 hd0
  have hq : (0:ℚ) ≤ n / d := by positivity
  have key (B : ℕ) : n ≤ B * d ↔ (n : ℚ) / d ≤ B := by
    rw [div_le_iff₀ hd]; norm_cast
  have hz : n = 0 ↔ (n : ℚ) / d ≤ 0 := by
    have := key 0
    simpa using this
  cases sg <;> cases a.msb <;> simp only [f2iInRange, decide_eq_true_eq, key, hz, intLow, intHigh] <;>
    generalize (n : ℚ) / d = v at * <;> norm_num <;> intros <;> linarith

/-- Rounding toward zero gives the integer part; rounding to nearest an integer at most a half away. -/
theorem roundMagnitude_spec (rm : Rm) (tie : Bool) (n d : Nat) (hd : 0 < d) :
    (rm = .zero → (roundMagnitude rm tie n d : ℚ) ≤ n / d ∧ (n / d : ℚ) < roundMagnitude rm tie n d + 1) ∧
      (rm = .nearest → |(roundMagnitude rm tie n d : ℚ) - n / d| ≤ 1 / 2) := by
  have hd' : (0 : ℚ) < d := by exact_mod_cast hd
  have hn : (n : ℚ) = d * (n / d : ℕ) + (n % d : ℕ) := by exact_mod_cast (Nat.div_add_mod n d).symm
  have hr : ((n % d : ℕ) : ℚ) < d := by exact_mod_cast Nat.mod_lt n hd
  have hr0 : (0 : ℚ) ≤ (n % d : ℕ) := by positivity
  have hlo : ((n / d : ℕ) : ℚ) ≤ n / d := by rw [le_div_iff₀ hd']; linarith
  have hhi : (n : ℚ) / d < (n / d : ℕ) + 1 := by rw [div_lt_iff₀ hd']; linarith
  refine ⟨fun h => by subst h; simpa [roundMagnitude] using ⟨hlo, hhi⟩, fun h => ?_⟩
  subst h
  simp only [roundMagnitude]
  rw [abs_le]
  by_cases h1 : d < 2 * (n % d)
  · have h1' : (d : ℚ) < 2 * (n % d : ℕ) := by exact_mod_cast h1
    have : ((n / d : ℕ) : ℚ) + 1 / 2 ≤ n / d := by rw [le_div_iff₀ hd']; linarith
    simp only [h1, decide_true, Bool.true_or, Bool.toNat_true]
    push_cast
    constructor <;> linarith
  · have h1' : 2 * ((n % d : ℕ) : ℚ) ≤ d := by exact_mod_cast Nat.not_lt.mp h1
    have hmid : (n : ℚ) / d ≤ (n / d : ℕ) + 1 / 2 := by rw [div_le_iff₀ hd']; linarith
    simp only [h1, decide_false, Bool.false_or]
    cases h2 : decide (2 * (n % d) = d) && tie
    · simp only [Bool.toNat_false, add_zero]; constructor <;> linarith
    · have h2' : 2 * ((n % d : ℕ) : ℚ) = d := by
        exact_mod_cast of_decide_eq_true ((Bool.and_eq_true_iff.mp h2).1)
      have : ((n / d : ℕ) : ℚ) + 1 / 2 ≤ n / d := by rw [le_div_iff₀ hd']; linarith
      simp only [Bool.toNat_true]
      push_cast
      constructor <;> linarith

/-- Rounding does not pass an integer. -/
theorem roundMagnitude_le {rm : Rm} {tie : Bool} {n d b : Nat} (hd : 0 < d) (h : n ≤ b * d) :
    roundMagnitude rm tie n d ≤ b := by
  have hq : n / d ≤ b := Nat.div_le_of_le_mul (by rwa [mul_comm])
  rcases Nat.lt_or_ge (n / d) b with hlt | hge
  · exact (Nat.add_le_add_left (Bool.toNat_le _) _).trans (by omega)
  · have hz : n % d = 0 := by
      have := Nat.div_add_mod n d
      have : d * b ≤ d * (n / d) := Nat.mul_le_mul_left _ hge
      have : b * d = d * b := mul_comm _ _
      omega
    have hd0 : ¬ (0 = d) := by omega
    cases rm <;> simp [roundMagnitude, hz, hd0, hq]

/-- A number of binary32 that is at least 2^l is a multiple of 2^(l-23). -/
theorem f32Value_grid (w : Word) (l : Nat) (h : (2 : ℚ) ^ l ≤ |f32Value w|) :
    ∃ k : Nat, |f32Value w| = k * 2 ^ ((l : ℤ) - 23) := by
  obtain ⟨s, e, hs, hv⟩ : ∃ (s : Nat) (e : ℤ), s < 2 ^ 24 ∧ |f32Value w| = s * 2 ^ e := by
    have hf := (w.extractLsb' 0 23).isLt
    refine ⟨if (w.extractLsb' 23 8).toNat = 0 then (w.extractLsb' 0 23).toNat
      else 2 ^ 23 + (w.extractLsb' 0 23).toNat, (max (w.extractLsb' 23 8).toNat 1 : ℕ) - 150, by split <;> omega, ?_⟩
    simp only [f32Value, abs_mul]
    rw [abs_of_pos (show (0 : ℚ) < 2 ^ (_ : ℤ) by positivity)]
    rw [abs_of_nonneg (a := if (w.extractLsb' 23 8).toNat = 0 then ((w.extractLsb' 0 23).toNat : ℚ) else _)
      (by split <;> positivity)]
    congr 1
    split <;> split <;> simp <;> norm_num
  have hle : (l : ℤ) - 23 ≤ e := by
    by_contra hc
    have h1 : (s : ℚ) < 2 ^ (24 : ℤ) := by exact_mod_cast hs
    have h2 : (2 : ℚ) ^ e ≤ 2 ^ ((l : ℤ) - 24) := zpow_le_zpow_right₀ (by norm_num) (by omega)
    have h3 : (s : ℚ) * 2 ^ e < 2 ^ (24 : ℤ) * 2 ^ ((l : ℤ) - 24) := by
      apply mul_lt_mul h1 h2 (by positivity) (by positivity)
    rw [← zpow_add₀ (by norm_num), show (24 : ℤ) + (l - 24) = l by ring, zpow_natCast] at h3
    rw [hv] at h
    linarith
  refine ⟨s * 2 ^ (e - (l - 23)).toNat, ?_⟩
  rw [hv]
  push_cast
  rw [← zpow_natCast, Int.toNat_of_nonneg (by omega), mul_assoc, ← zpow_add₀ (by norm_num)]
  congr 2; ring

/-- The number whose fields are put together by addition: a 24-bit significand, or 2^24, times 2^(l-23). -/
theorem f32Value_pack (neg : Bool) (l sig : Nat) (hl : l < 127) (h0 : 2 ^ 23 ≤ sig) (h1 : sig ≤ 2 ^ 24) :
    let w : Word := BitVec.ofNat 32 ((if neg then 2 ^ 31 else 0) + (l + 126) * 2 ^ 23 + sig)
    F32Finite w ∧ f32Value w = (if neg then -1 else 1) * (sig * 2 ^ ((l : ℤ) - 23)) := by
  intro w
  have hw : w.toNat = (if neg then 2 ^ 31 else 0) + (l + 126) * 2 ^ 23 + sig := by
    simp only [w, BitVec.toNat_ofNat]; split <;> omega
  have he : (w.extractLsb' 23 8).toNat = l + 126 + sig / 2 ^ 23 := by
    rw [BitVec.extractLsb'_toNat, hw, Nat.shiftRight_eq_div_pow]; split <;> omega
  have hf : (w.extractLsb' 0 23).toNat = sig % 2 ^ 23 := by
    rw [BitVec.extractLsb'_toNat, hw, Nat.shiftRight_zero]; split <;> omega
  have hs : w.getLsbD 31 = neg := by
    rw [BitVec.getLsbD, hw, Nat.testBit_eq_decide_div_mod_eq]
    cases neg <;> simp <;> omega
  refine ⟨fun h => ?_, ?_⟩
  · have := congrArg BitVec.toNat h
    rw [he] at this
    simp at this
    omega
  · simp only [f32Value, he, hf, hs]
    rw [if_neg (show ¬ l + 126 + sig / 2 ^ 23 = 0 by omega), show max (l + 126 + sig / 2 ^ 23) 1 = l + 126 + sig / 2 ^ 23 by omega, mul_assoc]
    congr 1
    rcases Nat.lt_or_ge sig (2 ^ 24) with h | h
    · have hd : sig / 2 ^ 23 = 1 := by omega
      have hm : sig % 2 ^ 23 = sig - 2 ^ 23 := by omega
      rw [hd, hm, Nat.cast_sub h0]
      push_cast
      rw [show ((l : ℤ) + 126 + 1 - 150) = l - 23 by ring]
      ring
    · have hs : sig = 2 ^ 24 := by omega
      subst hs
      norm_num
      rw [show ((l : ℤ) + 126 + 2 - 150) = (l - 23) + 1 by ring, zpow_add₀ (by norm_num)]
      ring

end Sys2Proof.Machine
end

