-- ==== Sys2Proof/Laws/PerInstr.lean ====
section
/-!
SUPPORT. The family of statements about every instruction as syntax: bit 0 of its word says how long it is (R80).
-/
namespace Sys2Proof

/-! ### Bit 0 of a layout -/

theorem getLsbD_zero {n : Nat} (w : BitVec n) : w.getLsbD 0 = flag (w.extractLsb' 0 1) := by
  have h : (w.extractLsb' 0 1).getLsbD 0 = w.getLsbD 0 := by simp
  rw [← h]
  rcases BitVec.eq_zero_or_eq_one (w.extractLsb' 0 1) with e | e <;> rw [e] <;> rfl

theorem RawL.toWord_bit0 (r : RawL) : r.toWord.getLsbD 0 = flag r.lng := by
  rw [getLsbD_zero]
  exact congrArg (fun x : RawL => flag x.lng) (RawL.ofWord_toWord r)

theorem RawS.toWord_bit0 (r : RawS) : (r.toWord.setWidth 64).getLsbD 0 = flag r.lng := by
  have h : (r.toWord.setWidth 64).getLsbD 0 = r.toWord.getLsbD 0 := by simp
  rw [h, getLsbD_zero]
  exact congrArg (fun x : RawS => flag x.lng) (RawS.ofWord_toWord r)

theorem RawI.toWord_bit0 (r : RawI) : r.toWord.getLsbD 0 = flag r.lng := by
  rw [getLsbD_zero]
  exact congrArg (fun x : RawI => flag x.lng) (RawI.ofWord_toWord r)

theorem RawF.toWord_bit0 (r : RawF) : r.toWord.getLsbD 0 = flag r.lng := by
  rw [getLsbD_zero]
  exact congrArg (fun x : RawF => flag x.lng) (RawF.ofWord_toWord r)

/-! ### The operand groups keep bit 0 -/

@[simp] theorem RawL.withCtl_lng (r : RawL) (c : Ctl) : (r.withCtl c).lng = r.lng := rfl
@[simp] theorem RawL.withSet_lng (r : RawL) (s : PredSet) : (r.withSet s).lng = r.lng := rfl
@[simp] theorem RawL.withDst_lng (r : RawL) (d : Dst) : (r.withDst d).lng = r.lng := by cases d <;> rfl
@[simp] theorem RawL.withSrc1_lng (r : RawL) (s : Src1) : (r.withSrc1 s).lng = r.lng := by cases s <;> rfl
@[simp] theorem RawL.withSrc2_lng (r : RawL) (s : SrcB) : (r.withSrc2 s).lng = r.lng := by cases s <;> rfl
@[simp] theorem RawL.withSrc3_lng (r : RawL) (s : SrcB) : (r.withSrc3 s).lng = r.lng := by cases s <;> rfl
@[simp] theorem RawL.blank_lng (op : BitVec 4) (sub : BitVec 3) : (RawL.blank op sub).lng = 1#1 := rfl

end Sys2Proof

/-! ### The family -/

/-- R80: bit 0 of the word of an instruction is 1 exactly when it is long. -/
def Sys2Proof.Laws.EncodedLength.Statement (i : Sys2Proof.Instr) : Prop :=
  (Sys2Proof.encode i).getLsbD 0 = !i.isShort

namespace Sys2Proof

theorem encodedLength_normal {i : Instr} {r : RawL} (h : encodeRaw i = .normal r) (hl : r.lng = 1#1)
    (hs : i.isShort = false) : Laws.EncodedLength.Statement i := by
  rw [Laws.EncodedLength.Statement, encode, h, Encoded.word, RawL.toWord_bit0, hl, hs]
  rfl

theorem encodedLength_short {i : Instr} {r : RawS} (h : encodeRaw i = .short r) (hl : r.lng = 0#1)
    (hs : i.isShort = true) : Laws.EncodedLength.Statement i := by
  rw [Laws.EncodedLength.Statement, encode, h, Encoded.word, RawS.toWord_bit0, hl, hs]
  rfl

theorem encodedLength_imm {i : Instr} {r : RawI} (h : encodeRaw i = .imm r) (hl : r.lng = 1#1)
    (hs : i.isShort = false) : Laws.EncodedLength.Statement i := by
  rw [Laws.EncodedLength.Statement, encode, h, Encoded.word, RawI.toWord_bit0, hl, hs]
  rfl

theorem encodedLength_flow {i : Instr} {r : RawF} (h : encodeRaw i = .flow r) (hl : r.lng = 1#1)
    (hs : i.isShort = false) : Laws.EncodedLength.Statement i := by
  rw [Laws.EncodedLength.Statement, encode, h, Encoded.word, RawF.toWord_bit0, hl, hs]
  rfl

end Sys2Proof

section
open Sys2Proof

theorem Sys2Proof.Laws.EncodedLength.bra (tgt : BitVec 18) (g : Guard) :
    Sys2Proof.Laws.EncodedLength.Statement (.bra tgt g) :=
  encodedLength_flow rfl rfl rfl

theorem Sys2Proof.Laws.EncodedLength.cal (tgt : BitVec 19) :
    Sys2Proof.Laws.EncodedLength.Statement (.cal tgt) :=
  encodedLength_flow rfl rfl rfl

theorem Sys2Proof.Laws.EncodedLength.ret (g : Guard) :
    Sys2Proof.Laws.EncodedLength.Statement (.ret g) :=
  encodedLength_flow rfl rfl rfl

theorem Sys2Proof.Laws.EncodedLength.bar :
    Sys2Proof.Laws.EncodedLength.Statement (.bar) :=
  rfl

theorem Sys2Proof.Laws.EncodedLength.trap :
    Sys2Proof.Laws.EncodedLength.Statement (.trap) :=
  rfl

theorem Sys2Proof.Laws.EncodedLength.ssy (tgt : BitVec 16) (cc : BitVec 5) (pr : BitVec 2) :
    Sys2Proof.Laws.EncodedLength.Statement (.ssy tgt cc pr) :=
  encodedLength_flow rfl rfl rfl

theorem Sys2Proof.Laws.EncodedLength.nop (mk : Marker) :
    Sys2Proof.Laws.EncodedLength.Statement (.nop mk) :=
  encodedLength_normal rfl (by simp [encNop]) rfl

theorem Sys2Proof.Laws.EncodedLength.i2i (ctl : Ctl) (d : Dst) (set : PredSet) (s1 : Src1) (t : CvtTy) (sz : Size)
    (sg neg : Bool) :
    Sys2Proof.Laws.EncodedLength.Statement (.i2i ctl d set s1 t sz sg neg) :=
  encodedLength_normal rfl (by simp [encI2i]) rfl

theorem Sys2Proof.Laws.EncodedLength.imul (ctl : Ctl) (d : Dst) (set : PredSet) (s1 : Src1) (s2 : BitVec 7) :
    Sys2Proof.Laws.EncodedLength.Statement (.imul ctl d set s1 s2) :=
  encodedLength_normal rfl (by simp [encImulForm]) rfl

theorem Sys2Proof.Laws.EncodedLength.imul24 (ctl : Ctl) (d : Dst) (set : PredSet) (s1 : Src1) (s2 : BitVec 7) :
    Sys2Proof.Laws.EncodedLength.Statement (.imul24 ctl d set s1 s2) :=
  encodedLength_normal rfl (by simp [encImulForm]) rfl

theorem Sys2Proof.Laws.EncodedLength.imul32 (d : BitVec 6) (s1 : SrcS) (s2 : BitVec 6) (u24 : Bool) :
    Sys2Proof.Laws.EncodedLength.Statement (.imul32 d s1 s2 u24) :=
  encodedLength_short rfl rfl rfl

theorem Sys2Proof.Laws.EncodedLength.imul32i (signed : Bool) (d s1 : BitVec 6) (imm : Word) :
    Sys2Proof.Laws.EncodedLength.Statement (.imul32i signed d s1 imm) :=
  encodedLength_imm rfl rfl rfl

theorem Sys2Proof.Laws.EncodedLength.shl (ctl : Ctl) (d : BitVec 7) (s1 : Src1) (amt : Amount) (sz : Size)
    (sg : Bool) :
    Sys2Proof.Laws.EncodedLength.Statement (.shl ctl d s1 amt sz sg) :=
  encodedLength_normal rfl (by cases amt <;> simp [encShift]) rfl

theorem Sys2Proof.Laws.EncodedLength.shr (ctl : Ctl) (d : BitVec 7) (s1 : Src1) (amt : Amount) (sz : Size)
    (sg : Bool) :
    Sys2Proof.Laws.EncodedLength.Statement (.shr ctl d s1 amt sz sg) :=
  encodedLength_normal rfl (by cases amt <;> simp [encShift]) rfl

theorem Sys2Proof.Laws.EncodedLength.iadd (ctl : Ctl) (d : Dst) (set : PredSet) (s1 : Src1) (s3 : SrcB) (sz : Size)
    (neg2 : Bool) :
    Sys2Proof.Laws.EncodedLength.Statement (.iadd ctl d set s1 s3 sz neg2) :=
  encodedLength_normal rfl (by simp [encIadd]) rfl

theorem Sys2Proof.Laws.EncodedLength.iaddc (mk : Marker) (pr : BitVec 2) (d : Dst) (set : PredSet) (s1 : Src1)
    (s3 : SrcB) (sz : Size) :
    Sys2Proof.Laws.EncodedLength.Statement (.iaddc mk pr d set s1 s3 sz) :=
  encodedLength_normal rfl (by simp [encIaddc]) rfl

theorem Sys2Proof.Laws.EncodedLength.iadd32 (d : BitVec 7) (s1 : SrcS) (s2 : BitVec 6) (sz : Size) :
    Sys2Proof.Laws.EncodedLength.Statement (.iadd32 d s1 s2 sz) :=
  encodedLength_short rfl rfl rfl

theorem Sys2Proof.Laws.EncodedLength.iadd32i (d : BitVec 7) (s1 : SrcS) (imm : Word) :
    Sys2Proof.Laws.EncodedLength.Statement (.iadd32i d s1 imm) :=
  encodedLength_imm rfl rfl rfl

theorem Sys2Proof.Laws.EncodedLength.imad (ctl : Ctl) (d : Dst) (set : PredSet) (s1 : Src1) (s2 : SrcB) (s3 : BitVec 7)
    (neg1 neg3 : Bool) :
    Sys2Proof.Laws.EncodedLength.Statement (.imad ctl d set s1 s2 s3 neg1 neg3) :=
  encodedLength_normal rfl (by simp [encImad]) rfl

theorem Sys2Proof.Laws.EncodedLength.imad24 (ctl : Ctl) (d : Dst) (set : PredSet) (s1 : Src1) (s2 : SrcB)
    (s3 : BitVec 7) :
    Sys2Proof.Laws.EncodedLength.Statement (.imad24 ctl d set s1 s2 s3) :=
  encodedLength_normal rfl (by simp [encImad24]) rfl

theorem Sys2Proof.Laws.EncodedLength.imad32 (d s1 s2 : BitVec 6) :
    Sys2Proof.Laws.EncodedLength.Statement (.imad32 d s1 s2) :=
  encodedLength_short rfl rfl rfl

theorem Sys2Proof.Laws.EncodedLength.imad32i (signed : Bool) (d s1 : BitVec 6) (imm : Word) :
    Sys2Proof.Laws.EncodedLength.Statement (.imad32i signed d s1 imm) :=
  encodedLength_imm rfl rfl rfl

theorem Sys2Proof.Laws.EncodedLength.lop (ctl : Ctl) (d : Dst) (set : PredSet) (s1 : Src1) (s2 : SrcB) (op : LogicOp)
    (inv1 inv2 : Bool) (sz : Size) (sg : Bool) :
    Sys2Proof.Laws.EncodedLength.Statement (.lop ctl d set s1 s2 op inv1 inv2 sz sg) :=
  encodedLength_normal rfl (by simp [encLop]) rfl

theorem Sys2Proof.Laws.EncodedLength.iset (ctl : Ctl) (d : Dst) (set : PredSet) (s1 : Src1) (s2 : SrcB) (cmp : CmpSet)
    (sz : Size) (sg : Bool) :
    Sys2Proof.Laws.EncodedLength.Statement (.iset ctl d set s1 s2 cmp sz sg) :=
  encodedLength_normal rfl (by simp [encIset]) rfl

theorem Sys2Proof.Laws.EncodedLength.mvc (ctl : Ctl) (d : BitVec 7) (set : PredSet) (seg : BitVec 4) (off : BitVec 7)
    (a : BitVec 3) (width : Width) (sz : Size) (sg : Bool) :
    Sys2Proof.Laws.EncodedLength.Statement (.mvc ctl d set seg off a width sz sg) :=
  encodedLength_normal rfl (by simp [encMvc]) rfl

theorem Sys2Proof.Laws.EncodedLength.gld (ctl : Ctl) (d areg : BitVec 7) (ty : GlobalTy) :
    Sys2Proof.Laws.EncodedLength.Statement (.gld ctl d areg ty) :=
  encodedLength_normal rfl (by simp [encGlobal]) rfl

theorem Sys2Proof.Laws.EncodedLength.gst (ctl : Ctl) (dreg areg : BitVec 7) (ty : GlobalTy) :
    Sys2Proof.Laws.EncodedLength.Statement (.gst ctl dreg areg ty) :=
  encodedLength_normal rfl (by simp [encGlobal]) rfl

theorem Sys2Proof.Laws.EncodedLength.mov (ctl : Ctl) (d : BitVec 7) (s1 : Src1) (sz : Size) (sg : Bool) :
    Sys2Proof.Laws.EncodedLength.Statement (.mov ctl d s1 sz sg) :=
  encodedLength_normal rfl (by simp [encMov]) rfl

theorem Sys2Proof.Laws.EncodedLength.mov32 (d : BitVec 7) (s1 : SrcS) (sz : Size) :
    Sys2Proof.Laws.EncodedLength.Statement (.mov32 d s1 sz) :=
  encodedLength_short rfl rfl rfl

theorem Sys2Proof.Laws.EncodedLength.mvi (d : BitVec 7) (imm : Word) :
    Sys2Proof.Laws.EncodedLength.Statement (.mvi d imm) :=
  encodedLength_imm rfl rfl rfl

theorem Sys2Proof.Laws.EncodedLength.r2g (ctl : Ctl) (off : BitVec 14) (a : BitVec 3) (s3 : BitVec 7) (sz : Size)
    (sg : Bool) :
    Sys2Proof.Laws.EncodedLength.Statement (.r2g ctl off a s3 sz sg) :=
  encodedLength_normal rfl (by simp [encR2g]) rfl

theorem Sys2Proof.Laws.EncodedLength.r2a (ctl : Ctl) (da s1 : BitVec 7) (imm : BitVec 12) :
    Sys2Proof.Laws.EncodedLength.Statement (.r2a ctl da s1 imm) :=
  encodedLength_normal rfl (by simp [encR2a]) rfl

theorem Sys2Proof.Laws.EncodedLength.a2r (ctl : Ctl) (d : BitVec 7) (a : BitVec 2) (imm : BitVec 10) :
    Sys2Proof.Laws.EncodedLength.Statement (.a2r ctl d a imm) :=
  encodedLength_normal rfl (by simp [encA2r]) rfl

theorem Sys2Proof.Laws.EncodedLength.ada (ctl : Ctl) (da : BitVec 7) (a : BitVec 2) (imm : BitVec 14) :
    Sys2Proof.Laws.EncodedLength.Statement (.ada ctl da a imm) :=
  encodedLength_normal rfl (by simp [encAda]) rfl

theorem Sys2Proof.Laws.EncodedLength.fadd32 (d : BitVec 7) (s1 : SrcS) (s2 : BitVec 6) (neg1 neg2 : Bool) :
    Sys2Proof.Laws.EncodedLength.Statement (.fadd32 d s1 s2 neg1 neg2) :=
  encodedLength_short rfl rfl rfl

theorem Sys2Proof.Laws.EncodedLength.fadd (ctl : Ctl) (d : Dst) (set : PredSet) (s1 : Src1) (s3 : SrcB) (rm : Rm)
    (neg1 neg2 : Bool) :
    Sys2Proof.Laws.EncodedLength.Statement (.fadd ctl d set s1 s3 rm neg1 neg2) :=
  encodedLength_normal rfl (by simp [encFadd]) rfl

theorem Sys2Proof.Laws.EncodedLength.fadd32i (d : BitVec 7) (s1 : BitVec 6) (imm : Word) :
    Sys2Proof.Laws.EncodedLength.Statement (.fadd32i d s1 imm) :=
  encodedLength_imm rfl rfl rfl

theorem Sys2Proof.Laws.EncodedLength.fmul (ctl : Ctl) (d : Dst) (set : PredSet) (s1 : Src1) (s2 : SrcB) (rm : Rm)
    (neg1 neg2 : Bool) :
    Sys2Proof.Laws.EncodedLength.Statement (.fmul ctl d set s1 s2 rm neg1 neg2) :=
  encodedLength_normal rfl (by simp [encFmul]) rfl

theorem Sys2Proof.Laws.EncodedLength.fmul32 (d : BitVec 7) (s1 : SrcS) (s2 : BitVec 6) (neg1 neg2 : Bool) :
    Sys2Proof.Laws.EncodedLength.Statement (.fmul32 d s1 s2 neg1 neg2) :=
  encodedLength_short rfl rfl rfl

theorem Sys2Proof.Laws.EncodedLength.fmul32i (d : BitVec 7) (s1 : BitVec 6) (imm : Word) :
    Sys2Proof.Laws.EncodedLength.Statement (.fmul32i d s1 imm) :=
  encodedLength_imm rfl rfl rfl

theorem Sys2Proof.Laws.EncodedLength.fmad (ctl : Ctl) (d : Dst) (set : PredSet) (s1 : Src1) (s2 s3 : SrcB)
    (neg1 neg3 : Bool) :
    Sys2Proof.Laws.EncodedLength.Statement (.fmad ctl d set s1 s2 s3 neg1 neg3) :=
  encodedLength_normal rfl (by simp [encFmad]) rfl

theorem Sys2Proof.Laws.EncodedLength.fmad32 (d : BitVec 7) (s1 : SrcS) (s2 : BitVec 6) (neg1 : Bool) :
    Sys2Proof.Laws.EncodedLength.Statement (.fmad32 d s1 s2 neg1) :=
  encodedLength_short rfl rfl rfl

theorem Sys2Proof.Laws.EncodedLength.fmad32i (d : BitVec 7) (s1 : BitVec 6) (neg1 : Bool) (imm : Word) :
    Sys2Proof.Laws.EncodedLength.Statement (.fmad32i d s1 neg1 imm) :=
  encodedLength_imm rfl rfl rfl

theorem Sys2Proof.Laws.EncodedLength.f2f (ctl : Ctl) (d : Dst) (set : PredSet) (s1 : BitVec 7) (rm : Rm)
    (abs neg : Bool) :
    Sys2Proof.Laws.EncodedLength.Statement (.f2f ctl d set s1 rm abs neg) :=
  encodedLength_normal rfl (by simp [encF2f]) rfl

theorem Sys2Proof.Laws.EncodedLength.f2i (ctl : Ctl) (d : Dst) (set : PredSet) (s1 : BitVec 7) (rm : Rm) (sg : Bool) :
    Sys2Proof.Laws.EncodedLength.Statement (.f2i ctl d set s1 rm sg) :=
  encodedLength_normal rfl (by simp [encF2i]) rfl

theorem Sys2Proof.Laws.EncodedLength.i2f (ctl : Ctl) (d : Dst) (set : PredSet) (s1 : BitVec 7) (rm : Rm)
    (signed : Bool) :
    Sys2Proof.Laws.EncodedLength.Statement (.i2f ctl d set s1 rm signed) :=
  encodedLength_normal rfl (by simp [encI2f]) rfl

theorem Sys2Proof.Laws.EncodedLength.fset (ctl : Ctl) (d : Dst) (set : PredSet) (s1 : BitVec 7) (s2 : SrcB)
    (cmp : CmpSet) (abs : Bool) :
    Sys2Proof.Laws.EncodedLength.Statement (.fset ctl d set s1 s2 cmp abs) :=
  encodedLength_normal rfl (by simp [encFset]) rfl

theorem Sys2Proof.Laws.EncodedLength.rcp (ctl : Ctl) (d : Dst) (set : PredSet) (s1 : BitVec 7) :
    Sys2Proof.Laws.EncodedLength.Statement (.rcp ctl d set s1) :=
  encodedLength_normal rfl (by simp [encUnary]) rfl

theorem Sys2Proof.Laws.EncodedLength.rcp32 (d : BitVec 7) (s1 : BitVec 6) :
    Sys2Proof.Laws.EncodedLength.Statement (.rcp32 d s1) :=
  encodedLength_short rfl rfl rfl

theorem Sys2Proof.Laws.EncodedLength.rsq (ctl : Ctl) (d : Dst) (set : PredSet) (s1 : BitVec 7) :
    Sys2Proof.Laws.EncodedLength.Statement (.rsq ctl d set s1) :=
  encodedLength_normal rfl (by simp [encUnary]) rfl

theorem Sys2Proof.Laws.EncodedLength.lg2 (ctl : Ctl) (d : Dst) (set : PredSet) (s1 : BitVec 7) :
    Sys2Proof.Laws.EncodedLength.Statement (.lg2 ctl d set s1) :=
  encodedLength_normal rfl (by simp [encUnary]) rfl

theorem Sys2Proof.Laws.EncodedLength.sin (ctl : Ctl) (d : Dst) (set : PredSet) (s1 : BitVec 7) :
    Sys2Proof.Laws.EncodedLength.Statement (.sin ctl d set s1) :=
  encodedLength_normal rfl (by simp [encUnary]) rfl

theorem Sys2Proof.Laws.EncodedLength.cos (ctl : Ctl) (d : Dst) (set : PredSet) (s1 : BitVec 7) :
    Sys2Proof.Laws.EncodedLength.Statement (.cos ctl d set s1) :=
  encodedLength_normal rfl (by simp [encUnary]) rfl

theorem Sys2Proof.Laws.EncodedLength.ex2 (ctl : Ctl) (d : Dst) (set : PredSet) (s1 : BitVec 7) :
    Sys2Proof.Laws.EncodedLength.Statement (.ex2 ctl d set s1) :=
  encodedLength_normal rfl (by simp [encUnary]) rfl

theorem Sys2Proof.Laws.EncodedLength.rro (ctl : Ctl) (d : Dst) (set : PredSet) (s1 : BitVec 7) (method : RroMethod) :
    Sys2Proof.Laws.EncodedLength.Statement (.rro ctl d set s1 method) :=
  encodedLength_normal rfl (by simp [encRro]) rfl

end
end

