-- ==== Sys2Proof/Tests/Slice0.lean ====
section
/-!
SUPPORT. Small tests: ill-formed terms, one written word for every instruction, single steps, and a state that meets
the hypotheses of each statement for the provers. Expected words and results are those of spec/95_test_vectors.md,
or written by hand from the encoding tables and the formulas of the rule named.
-/
section
open Sys2Proof Sys2Proof.Machine
set_option maxRecDepth 20000

/-! ### Ill-formed terms: one for each check of WellFormed -/

/-- R122. -/
theorem test_wf_marker : (Instr.mvc ⟨.exit, ⟨.lg, 0#2⟩⟩ 0#7 ⟨false, 0#2⟩ 1#4 0#7 0#3 .w32 .b32 false).problem =
    some .marker := by decide

/-- R90. -/
theorem test_wf_discard : (Instr.rcp ⟨.normal, Guard.open⟩ (.reg 127#7) ⟨false, 0#2⟩ 0#7).problem =
    some .discardPair := by decide

/-- R90, R241: the same in the instructions whose destination is never the discard. -/
theorem test_wf_discard_plain : (Instr.shl ⟨.normal, Guard.open⟩ 127#7 (.reg 0#7) (.imm 0#5) .b16 false).problem =
      some .discardPair ∧
    (Instr.shr ⟨.normal, Guard.open⟩ 127#7 (.reg 0#7) (.imm 0#5) .b32 true).problem = some .discardPair ∧
    (Instr.mvc ⟨.normal, Guard.open⟩ 127#7 ⟨true, 0#2⟩ 1#4 0#7 0#3 .w16 .b16 false).problem = some .discardPair ∧
    (Instr.gld ⟨.normal, Guard.open⟩ 127#7 0#7 .u32).problem = some .discardPair ∧
    (Instr.a2r ⟨.normal, Guard.open⟩ 127#7 0#2 0#10).problem = some .discardPair := by decide

/-- R98: a 32-bit element and a 16-bit operation. -/
theorem test_wf_size : (Instr.mov ⟨.normal, Guard.open⟩ 0#7 (.shared 0#5 .u32 0#3) .b16 false).problem =
    some .sharedType := by decide

/-- R98: an instruction that takes whole elements. -/
theorem test_wf_whole : (Instr.fadd ⟨.normal, Guard.open⟩ (.reg 0#7) ⟨false, 0#2⟩ (.shared 0#5 .u16 0#3) (.reg 0#7)
    .nearest false false).problem = some .sharedType := by decide

/-- R98, the short layouts. -/
theorem test_wf_whole_short : (Instr.fadd32 0#7 (.shared 0#4 .s16 0#2) 0#6 false false).problem =
    some .sharedType := by decide

/-- R156, R157, R171: the shared source of IMUL and IMAD is a `.U16` element, not a byte and not a signed half. -/
theorem test_wf_half_long : (Instr.imul ⟨.normal, Guard.open⟩ (.reg 0#7) ⟨false, 0#2⟩ (.shared 0#5 .u8 0#3)
      0#7).problem = some .sharedType ∧
    (Instr.imad ⟨.normal, Guard.open⟩ (.reg 0#7) ⟨false, 0#2⟩ (.shared 0#5 .s16 0#3) (.reg 0#7) 0#7 false
      false).problem = some .sharedType := by decide

/-- R159. -/
theorem test_wf_half : (Instr.imul32 0#6 (.shared 0#4 .u32 0#2) 0#6 false).problem = some .sharedType := by decide

/-- R93. -/
theorem test_wf_short_size : (Instr.iadd32 0#7 (.shared 0#4 .u32 0#2) 0#6 .b16).problem =
    some .sharedType := by decide

/-- R87. -/
theorem test_wf_no_addr : (Instr.iadd32i 0#7 (.shared 0#4 .u32 1#2) 0#32).problem = some .reservedBits := by decide

/-- R120: `w[56]` in IMAD. -/
theorem test_wf_imad_seg : (Instr.imad ⟨.normal, Guard.open⟩ (.reg 0#7) ⟨false, 0#2⟩ (.reg 0#7) (.const 4#4 0#7) 0#7
    false false).problem = some .reservedBits := by decide

/-- R171. -/
theorem test_wf_imad_sign : (Instr.imad ⟨.normal, Guard.open⟩ (.reg 0#7) ⟨false, 0#2⟩ (.reg 0#7) (.reg 0#7) 0#7
    true true).problem = some .signBits := by decide

/-- R154: no byte comes from a register. -/
theorem test_wf_cvt_reg : (Instr.i2i ⟨.normal, Guard.open⟩ (.reg 0#7) ⟨false, 0#2⟩ (.reg 0#7) .u8 .b32 false
    false).problem = some .dataType := by decide

/-- R154: the element must be of the source type. -/
theorem test_wf_cvt_shared : (Instr.i2i ⟨.normal, Guard.open⟩ (.reg 0#7) ⟨false, 0#2⟩ (.shared 0#5 .u16 0#3) .s16 .b32
    false false).problem = some .sharedType := by decide

/-- R211. -/
theorem test_wf_two_constants : (Instr.fmad ⟨.normal, Guard.open⟩ (.reg 0#7) ⟨false, 0#2⟩ (.reg 0#7) (.const 1#4 0#7)
    (.const 1#4 1#7) false false).problem = some .twoConstants := by decide

/-- R181. -/
theorem test_wf_width : (Instr.mvc ⟨.normal, Guard.open⟩ 0#7 ⟨false, 0#2⟩ 1#4 0#7 0#3 .w32 .b16 false).problem =
    some .accessSize := by decide

/-- R161. -/
theorem test_wf_amount : Amount.problem (.reg 0#5) .b16 = some .shiftAmount := by decide

/-! ### Decoding: one word for every instruction -/

/-- Whether a word decodes to an instruction. -/
def decodesTo (w : Long) (i : Instr) : Bool :=
  match decodeWord w with
  | .ok j => j == i
  | .error _ => false

/-- Whether a word is rejected for a reason. -/
def rejects (w : Long) (r : Reject) : Bool :=
  match decodeWord w with
  | .ok _ => false
  | .error q => q == r

/-- R131, vector 2: BRA C0.NE, 0xe8. -/
theorem test_decode_bra : decodesTo 0x000002801001D003#64 (.bra 0xe8#18 ⟨.lg, 0#2⟩) = true := by decide

/-- R139, vector 12: CAL 0xF0. -/
theorem test_decode_cal : decodesTo 0x000000002001E003#64 (.cal 0xf0#19) = true := by decide

/-- R136, vector 6: RET C0.EQ. -/
theorem test_decode_ret : decodesTo 0x0000010030000003#64 (.ret ⟨.e, 0#2⟩) = true := by decide

/-- R134, vector 3. -/
theorem test_decode_bar : decodesTo 0x00000000861FFE03#64 (.bar) = true := by decide

/-- R138, vector 11. -/
theorem test_decode_trap : decodesTo 0x0000000090000003#64 (.trap) = true := by decide

/-- R133, vector 8: SSY 0xe8. -/
theorem test_decode_ssy : decodesTo 0x00000000A001D003#64 (.ssy 0xe8#16 0#5 0#2) = true := by decide

/-- R137, vector 10: NOP.S. -/
theorem test_decode_nop : decodesTo 0xE0000002F0000001#64 (.nop .join) = true := by decide

/-- R154, vector 15: I2I.S32.S32 R1, -R1. -/
theorem test_decode_i2i : decodesTo 0x2C014780A0000205#64
    (.i2i ⟨.normal, Guard.open⟩ (.reg 1#7) ⟨false, 0#2⟩ (.reg 1#7) .s32 .b32 true true) = true := by decide

/-- R157, vector 17: IMUL.U16.U16 R4, R1L, R3H. -/
theorem test_decode_imul : decodesTo 0x0000078040070411#64
    (.imul ⟨.normal, Guard.open⟩ (.reg 4#7) ⟨false, 0#2⟩ (.reg 2#7) 7#7) = true := by decide

/-- R158: as vector 16 with w[28] = 1. -/
theorem test_decode_imul24 : decodesTo 0x0000078050020809#64
    (.imul24 ⟨.normal, Guard.open⟩ (.reg 2#7) ⟨false, 0#2⟩ (.reg 4#7) 2#7) = true := by decide

/-- R159, vector 18: IMUL32.U16.U16 R8, R6H, R1L. -/
theorem test_decode_imul32 : decodesTo 0x0000000040021A20#64
    (.imul32 8#6 (.reg 13#6) 2#6 false) = true := by decide

/-- R160: d = 2, s1 = 4, immediate 5. -/
theorem test_decode_imul32i : decodesTo 0x0000000340050809#64 (.imul32i false 2#6 4#6 5#32) = true := by decide

/-- R162, vector 25: SHL R0 (C0.EQU), R0, 0x2. -/
theorem test_decode_shl : decodesTo 0xC410050030020001#64
    (.shl ⟨.normal, ⟨.eu, 0#2⟩⟩ 0#7 (.reg 0#7) (.imm 2#5) .b32 false) = true := by decide

/-- R163, vector 29: SHR.U16 R1H, R0H, 0xA. -/
theorem test_decode_shr : decodesTo 0xE0100780300A020D#64
    (.shr ⟨.normal, Guard.open⟩ 3#7 (.reg 1#7) (.imm 10#5) .b16 false) = true := by decide

/-- R166, vector 33: IADD.C1 R0, g [0x4], R7. -/
theorem test_decode_iadd : decodesTo 0x0421C7D02000C801#64
    (.iadd ⟨.normal, Guard.open⟩ (.reg 0#7) ⟨true, 1#2⟩ (.shared 4#5 .u32 0#3) (.reg 7#7) .b32 false) = true := by decide

/-- R167, vector 35: IADD.CARRY1 R1, R1, R124. -/
theorem test_decode_iaddc : decodesTo 0x041F178030400205#64
    (.iaddc .normal 1#2 (.reg 1#7) ⟨false, 0#2⟩ (.reg 1#7) (.reg 124#7) .b32) = true := by decide

/-- R168, vector 37: IADD32 R0, g [0x5], R3. -/
theorem test_decode_iadd32 : decodesTo 0x000000002103EA00#64
    (.iadd32 0#7 (.shared 5#4 .u32 0#2) 3#6 .b32) = true := by decide

/-- R169, vector 41: IADD32I R9, R4, 0x40C. -/
theorem test_decode_iadd32i : decodesTo 0x00000043200C8825#64
    (.iadd32i 9#7 (.reg 4#6) 0x40C#32) = true := by decide

/-- R171, vector 49: IMAD.U16.C2 o[0x7f], R0L, R1L, R5. -/
theorem test_decode_imad : decodesTo 0x000147E8600201FD#64
    (.imad ⟨.normal, Guard.open⟩ .discard ⟨true, 2#2⟩ (.reg 0#7) (.reg 2#7) 5#7 false false) = true := by decide

/-- R172, the word of vector 51. -/
theorem test_decode_imad24 : decodesTo 0x0000078070010405#64
    (.imad24 ⟨.normal, Guard.open⟩ (.reg 1#7) ⟨false, 0#2⟩ (.reg 2#7) (.reg 1#7) 0#7) = true := by decide

/-- R173, vector 53. -/
theorem test_decode_imad32 : decodesTo 0x00000000603C242C#64 (.imad32 11#6 18#6 60#6) = true := by decide

/-- R174, vector 54: IMAD32I.S16 R2, R4H, 0x25634, R2. -/
theorem test_decode_imad32i : decodesTo 0x0000256360341109#64
    (.imad32i true 2#6 8#6 0x25634#32) = true := by decide

/-- R176, vector 57: LOP.AND.U16 R0H, R0H, c[0x1][0x0]. -/
theorem test_decode_lop : decodesTo 0x00400780D0800205#64
    (.lop ⟨.normal, Guard.open⟩ (.reg 1#7) ⟨false, 0#2⟩ (.reg 1#7) (.const 1#4 0#7) .and false false .b16 false) = true := by decide

/-- R178, vector 61: ISET.S32.C0 o [0x7f], R2, R124, GT. -/
theorem test_decode_iset : decodesTo 0x6C0107C8307C05FD#64
    (.iset ⟨.normal, Guard.open⟩ .discard ⟨true, 0#2⟩ (.reg 2#7) (.reg 124#7) ⟨false, false, true, false⟩ .b32 true) = true := by decide

/-- R181, vector 63: MVC R1 (C3.EQU), c [0x1] [0x1]. -/
theorem test_decode_mvc : decodesTo 0x2440F50010000205#64
    (.mvc ⟨.normal, ⟨.eu, 3#2⟩⟩ 1#7 ⟨false, 0#2⟩ 1#4 1#7 0#3 .w32 .b32 false) = true := by decide

/-- R182, vector 70: GLD.U8 R0, global14[R0]. -/
theorem test_decode_gld : decodesTo 0x80000780D00E0001#64
    (.gld ⟨.normal, Guard.open⟩ 0#7 0#7 .u8) = true := by decide

/-- R183, vector 76: GST.U32 global14[R0], R10, with Exit. -/
theorem test_decode_gst : decodesTo 0xA0C00781D00E0029#64
    (.gst ⟨.exit, Guard.open⟩ 10#7 0#7 .u32) = true := by decide

/-- R185, vector 81: MOV R10, R124. -/
theorem test_decode_mov : decodesTo 0x0403C7801000F829#64
    (.mov ⟨.normal, Guard.open⟩ 10#7 (.reg 124#7) .b32 false) = true := by decide

/-- R186, vector 87: MOV32 R1, g [0x8]. -/
theorem test_decode_mov32 : decodesTo 0x000000001100F004#64
    (.mov32 1#7 (.shared 8#4 .u32 0#2) .b32) = true := by decide

/-- R187, vector 91: MVI R11, 0x1. -/
theorem test_decode_mvi : decodesTo 0x000000031001802D#64 (.mvi 11#7 1#32) = true := by decide

/-- R188, vector 94: R2G.U32.U32 g[A1+0xc], R11. -/
theorem test_decode_r2g : decodesTo 0xE422C78004001801#64
    (.r2g ⟨.normal, Guard.open⟩ 0xc#14 1#3 11#7 .b32 false) = true := by decide

/-- R196, vector 96: R2A A1, R10, 0x2. -/
theorem test_decode_r2a : decodesTo 0xC000078000021405#64
    (.r2a ⟨.normal, Guard.open⟩ 1#7 10#7 2#12) = true := by decide

/-- R197, vector 99: A2R R3, A1. -/
theorem test_decode_a2r : decodesTo 0x400007800400000D#64
    (.a2r ⟨.normal, Guard.open⟩ 3#7 1#2 0#10) = true := by decide

/-- R198, vector 100: ADA A4, A2, 0x1b0. -/
theorem test_decode_ada : decodesTo 0x20000780D8036011#64
    (.ada ⟨.normal, Guard.open⟩ 4#7 2#2 0x1b0#14) = true := by decide

/-- R205, vector 102: FADD32 R3, R3, R0. -/
theorem test_decode_fadd32 : decodesTo 0x00000000B000060C#64
    (.fadd32 3#7 (.reg 3#6) 0#6 false false) = true := by decide

/-- R206, vector 105: FADD R6, R7, -R6. -/
theorem test_decode_fadd : decodesTo 0x08018780B0000E19#64
    (.fadd ⟨.normal, Guard.open⟩ (.reg 6#7) ⟨false, 0#2⟩ (.reg 7#7) (.reg 6#7) .nearest false true) = true := by decide

/-- R207, vector 108: FADD32I R7, R7, 0x3f000000. -/
theorem test_decode_fadd32i : decodesTo 0x03F00003B0000E1D#64 (.fadd32i 7#7 7#6 0x3f000000#32) = true := by decide

/-- R208, vector 111: FMUL R6, R7, R6. -/
theorem test_decode_fmul : decodesTo 0x00000780C0060E19#64
    (.fmul ⟨.normal, Guard.open⟩ (.reg 6#7) ⟨false, 0#2⟩ (.reg 7#7) (.reg 6#7) .nearest false false) = true := by decide

/-- R209, vector 115: FMUL32 R3, R3, R0. -/
theorem test_decode_fmul32 : decodesTo 0x00000000C000060C#64
    (.fmul32 3#7 (.reg 3#6) 0#6 false false) = true := by decide

/-- R210, vector 118: FMUL32I R7, R7, 0x3f000000. -/
theorem test_decode_fmul32i : decodesTo 0x03F00003C0000E1D#64 (.fmul32i 7#7 7#6 0x3f000000#32) = true := by decide

/-- R211, vector 121: FMAD R0, -g [A2+0x1], R2, R0. -/
theorem test_decode_fmad : decodesTo 0x04200780E802C201#64
    (.fmad ⟨.normal, Guard.open⟩ (.reg 0#7) ⟨false, 0#2⟩ (.shared 1#5 .u32 2#3) (.reg 2#7) (.reg 0#7) true false) = true := by decide

/-- R212: d = 3, s1 = 3, s2 = 0, w[15] = 1. -/
theorem test_decode_fmad32 : decodesTo 0x00000000E000860C#64 (.fmad32 3#7 (.reg 3#6) 0#6 true) = true := by decide

/-- R213, vector 125: FMAD32I R1, -R3, 0x39fd8000, R1. -/
theorem test_decode_fmad32i : decodesTo 0x039FD803E0008605#64
    (.fmad32i 1#7 3#6 true 0x39fd8000#32) = true := by decide

/-- R214, vector 128: F2F.F32.F32 R4, -R4. -/
theorem test_decode_f2f : decodesTo 0xE4004780A0000811#64
    (.f2f ⟨.normal, Guard.open⟩ (.reg 4#7) ⟨false, 0#2⟩ 4#7 .nearest false true) = true := by decide

/-- R215, vector 132: F2I.S32.F32 R1, R0. -/
theorem test_decode_f2i : decodesTo 0x8C004780A0000005#64
    (.f2i ⟨.normal, Guard.open⟩ (.reg 1#7) ⟨false, 0#2⟩ 0#7 .nearest true) = true := by decide

/-- R216, vector 135: I2F.F32.S32 R2, R4. -/
theorem test_decode_i2f : decodesTo 0x44014780A0000809#64
    (.i2f ⟨.normal, Guard.open⟩ (.reg 2#7) ⟨false, 0#2⟩ 4#7 .nearest true) = true := by decide

/-- R217, vector 139: FSET.C0 o[0x7f], |R2|, c[0x1][0xb], EQ. -/
theorem test_decode_fset : decodesTo 0x605087C8B08B05FD#64
    (.fset ⟨.normal, Guard.open⟩ .discard ⟨true, 0#2⟩ 2#7 (.const 1#4 0xb#7) ⟨false, true, false, false⟩ true) = true := by decide

/-- R218, vector 143: RCP R0, R0. -/
theorem test_decode_rcp : decodesTo 0x0000078090000001#64
    (.rcp ⟨.normal, Guard.open⟩ (.reg 0#7) ⟨false, 0#2⟩ 0#7) = true := by decide

/-- R219, vector 145: RCP32 R1, R1. -/
theorem test_decode_rcp32 : decodesTo 0x0000000090000204#64 (.rcp32 1#7 1#6) = true := by decide

/-- R236, vector 157: RSQ with d = 2, s1 = 0. -/
theorem test_decode_rsq : decodesTo 0x4000078090000009#64
    (.rsq ⟨.normal, Guard.open⟩ (.reg 2#7) ⟨false, 0#2⟩ 0#7) = true := by decide

/-- R234, vector 153: LG2 R0, R0. -/
theorem test_decode_lg2 : decodesTo 0x6000078090000001#64
    (.lg2 ⟨.normal, Guard.open⟩ (.reg 0#7) ⟨false, 0#2⟩ 0#7) = true := by decide

/-- R231, vector 147: SIN R1, R1. -/
theorem test_decode_sin : decodesTo 0x8000078090000205#64
    (.sin ⟨.normal, Guard.open⟩ (.reg 1#7) ⟨false, 0#2⟩ 1#7) = true := by decide

/-- R232, vector 149: COS R11, R11. -/
theorem test_decode_cos : decodesTo 0xA00007809000162D#64
    (.cos ⟨.normal, Guard.open⟩ (.reg 11#7) ⟨false, 0#2⟩ 11#7) = true := by decide

/-- R235, vector 155: EX2 R3, R3. -/
theorem test_decode_ex2 : decodesTo 0xC00007809000060D#64
    (.ex2 ⟨.normal, Guard.open⟩ (.reg 3#7) ⟨false, 0#2⟩ 3#7) = true := by decide

/-- R233, vector 151: RRO R12, R12, SIN. -/
theorem test_decode_rro : decodesTo 0xC0000780B0001831#64
    (.rro ⟨.normal, Guard.open⟩ (.reg 12#7) ⟨false, 0#2⟩ 12#7 .sin) = true := by decide

/-! ### Words that are refused, by reason -/

/-- R119: opcode 8 of format L. -/
theorem test_reject_opcode : rejects 0x0000078080000001#64 .undefinedOpcode = true := by decide

/-- R120: w[60] in RCP. -/
theorem test_reject_reserved : rejects 0x1000078090000001#64 .reservedBits = true := by decide

/-- R121: guard code 0x14. -/
theorem test_reject_condition : rejects 0x00000A0090000001#64 .conditionCode = true := by decide

/-- R122: Exit with a guard that is not 0x0f. -/
theorem test_reject_marker : rejects 0x0000028190000001#64 .marker = true := by decide

/-- R122: a marker on BRA. -/
theorem test_reject_flow_marker : rejects 0x000007811001E003#64 .flowMarker = true := by decide

/-- R81: a short word with w[1] = 1. -/
theorem test_reject_short_flow : rejects 0x0000000030000002#64 .shortFlow = true := by decide

/-- R90: od with d = 3. -/
theorem test_reject_discard : rejects 0x000007889000000D#64 .discardPair = true := by decide

/-- R90, R241: MOV R127, R124. -/
theorem test_reject_discard_mov : rejects 0x0403C7801000F9FD#64 .discardPair = true := by decide

/-- R121: comparison 0x10. -/
theorem test_reject_comparison : rejects 0x6C0407C8307C05FD#64 .comparisonCode = true := by decide

/-- R201: rounding 01. -/
theorem test_reject_rounding : rejects 0x00004780C0060E19#64 .rounding = true := by decide

/-- R104: source type 011. -/
theorem test_reject_data_type : rejects 0x0400C780A0000001#64 .dataType = true := by decide

/-- R182: the 64-bit code. -/
theorem test_reject_access_size : rejects 0x80800780D00E0001#64 .accessSize = true := by decide

/-- R211. -/
theorem test_reject_two_constants : rejects 0x00400780E1800001#64 .twoConstants = true := by decide

/-! ### Single steps -/

/-- A thread: R1 = 0x00030005 (R1L = 5, R1H = 3), R2 = 7, R3 = 0xFFFFFFFF, R4 = 0x80000000, C1 with S and C set, A1 = 4,
the rest 0. -/
def tA : Thread :=
  ((((Thread.zero.setGpr 1 0x00030005#32).setGpr 2 7#32).setGpr 3 0xFFFFFFFF#32).setGpr 4 0x80000000#32).setPred 1#2
    ⟨false, true, true, false⟩ |>.setAreg 1 4#32

/-- Another one: as the first, but C1 has only Z set and R2 is 8. -/
def tB : Thread := (tA.setGpr 2 8#32).setPred 1#2 ⟨true, false, false, false⟩

/-- The bytes 44 33 22 91 01 80 FF 7F from an address on. -/
def eight (a : Nat) : Memory := Memory.setBytes [] a [0x44#8, 0x33#8, 0x22#8, 0x91#8, 0x01#8, 0x80#8, 0xFF#8, 0x7F#8]

/-- A launch of one block whose one warp has as many threads as lanes. -/
def machine (lanes : Nat) (thread : Nat → Thread) : State :=
  State.launch { Params.default with warpSize := lanes, blockThreads := lanes, codeSize := 64 } (fun _ => thread)
    (eight 0) (eight 0) (eight (2 ^ 32)) []

/-- One lane. -/
def s1 : State := machine 1 fun _ => tA

/-- Two lanes, one of each thread. -/
def s2 : State := machine 2 fun i => if i = 0 then tA else tB

/-- A state with some of its warp changed. -/
def with_ (s : State) (stack : List Entry) (status : Status) : State :=
  { s with warp := { s.warp with stack := stack, status := status } }

/-- A register of a lane after a step. -/
def gprAfter (o : Out) (lane n : Nat) : Option Word :=
  match o with
  | .next t => t.warp.lanes[lane]?.map fun l => (l.thread.gprAt n).val
  | _ => none

/-- A predicate register of lane 0 after a step. -/
def predAfter (o : Out) (q : BitVec 2) : Option Flags :=
  match o with
  | .next t => t.warp.lanes[0]?.map fun l => (l.thread.predAt q).flags
  | _ => none

/-- An address register of lane 0 after a step. -/
def aregAfter (o : Out) (a : Nat) : Option Word :=
  match o with
  | .next t => t.warp.lanes[0]?.map fun l => (l.thread.aregAt a).val
  | _ => none

/-- Bytes of a space after a step. -/
def bytesAfter (o : Out) (sp : Space) (a : Nat) : List (Option Byte) :=
  match o with
  | .next t => [t.byteAt sp a, t.byteAt sp (a + 1), t.byteAt sp (a + 2), t.byteAt sp (a + 3)]
  | _ => []

/-- The pc, the status, the active lanes and the stack of the warp after a step. -/
def warpAfter (o : Out) : Option (Nat × Status × List Nat × List Entry) :=
  match o with
  | .next t => some (t.warp.pc, t.warp.status, t.warp.active, t.warp.stack)
  | _ => none

/-- The guard and marker of most tests. -/
abbrev ca : Ctl := ⟨.normal, Guard.open⟩

/-- R154: -(sext R1L). -/
theorem test_i2i_neg : gprAfter (exec (.i2i ca (.reg 6#7) noSet (.reg 2#7) .s16 .b32 true true) s1) 0 6 =
    some 0xFFFFFFFB#32 := by decide

/-- R154: a signed byte of shared memory. -/
theorem test_i2i_byte : gprAfter (exec (.i2i ca (.reg 6#7) noSet (.shared 3#5 .u8 0#3) .s8 .b32 true false) s1) 0 6 =
    some 0xFFFFFF91#32 := by decide

/-- R157: R1L * R1H. -/
theorem test_imul : gprAfter (exec (.imul ca (.reg 6#7) noSet (.reg 2#7) 3#7) s1) 0 6 = some 15#32 := by decide

/-- R159. -/
theorem test_imul32 : gprAfter (exec (.imul32 6#6 (.reg 2#6) 3#6 false) s1) 0 6 = some 15#32 := by decide

/-- R160, signed: -1 * 5. -/
theorem test_imul32i : gprAfter (exec (.imul32i true 6#6 6#6 0x20005#32) s1) 0 6 = some 0xFFFFFFFB#32 := by decide

/-- R158: the parameter of the launch says what is delivered. -/
theorem test_imul24 : gprAfter (exec (.imul24 ca (.reg 6#7) noSet (.reg 1#7) 2#7) s1) 0 6 =
    some (Config.mul24 0x00030005#32 7#32) := by rfl

/-- R162. -/
theorem test_shl : gprAfter (exec (.shl ca 6#7 (.reg 2#7) (.imm 4#5) .b32 false) s1) 0 6 = some 0x70#32 := by decide

/-- R161: an amount of 32 or more. -/
theorem test_shl_all : gprAfter (exec (.shl ca 6#7 (.reg 2#7) (.reg 4#5) .b32 false) s1) 0 6 = some 0#32 := by decide

/-- R163. -/
theorem test_shr_signed : gprAfter (exec (.shr ca 6#7 (.reg 4#7) (.imm 4#5) .b32 true) s1) 0 6 =
    some 0xF8000000#32 := by decide

/-- R163: a half, the other half kept. -/
theorem test_shr_half : gprAfter (exec (.shr ca 3#7 (.reg 6#7) (.imm 4#5) .b16 false) s1) 0 1 =
    some 0x0FFF0005#32 := by decide

/-- R165, R166: carry out, no overflow. -/
theorem test_iadd_flags : predAfter (exec (.iadd ca .discard ⟨true, 2#2⟩ (.reg 3#7) (.reg 2#7) .b32 false) s1) 2#2 =
    some ⟨false, false, true, false⟩ := by decide

/-- R166: 7 - 7, no borrow. -/
theorem test_isub_flags : predAfter (exec (.iadd ca .discard ⟨true, 2#2⟩ (.reg 2#7) (.reg 2#7) .b32 true) s1) 2#2 =
    some ⟨true, false, true, false⟩ := by decide

/-- R167: 7 + 7 + C1.C. -/
theorem test_iaddc : gprAfter (exec (.iaddc .normal 1#2 (.reg 6#7) noSet (.reg 2#7) (.reg 2#7) .b32) s1) 0 6 =
    some 15#32 := by decide

/-- R168: shared bytes 0 to 3 plus R2. -/
theorem test_iadd32 : gprAfter (exec (.iadd32 6#7 (.shared 0#4 .u32 0#2) 2#6 .b32) s1) 0 6 =
    some 0x9122334B#32 := by decide

/-- R169. -/
theorem test_iadd32i : gprAfter (exec (.iadd32i 6#7 (.reg 3#6) 2#32) s1) 0 6 = some 1#32 := by decide

/-- R171: R1L * R1H + R2. -/
theorem test_imad : gprAfter (exec (.imad ca (.reg 6#7) noSet (.reg 2#7) (.reg 3#7) 2#7 false false) s1) 0 6 =
    some 22#32 := by decide

/-- R171: -(R1L * R1H) + R2. -/
theorem test_imad_neg : gprAfter (exec (.imad ca (.reg 6#7) noSet (.reg 2#7) (.reg 3#7) 2#7 true false) s1) 0 6 =
    some 0xFFFFFFF8#32 := by decide

/-- R172. -/
theorem test_imad24 : gprAfter (exec (.imad24 ca (.reg 6#7) noSet (.reg 1#7) (.reg 2#7) 4#7) s1) 0 6 =
    some (Config.mad24 0x00030005#32 7#32 0x80000000#32) := by rfl

/-- R173. -/
theorem test_imad32 : gprAfter (exec (.imad32 2#6 2#6 3#6) s1) 0 2 = some 22#32 := by decide

/-- R174, signed: -1 * 5 + 7. -/
theorem test_imad32i : gprAfter (exec (.imad32i true 2#6 6#6 5#32) s1) 0 2 = some 2#32 := by decide

/-- R176: R1 AND NOT R2. -/
theorem test_lop_and : gprAfter (exec (.lop ca (.reg 6#7) noSet (.reg 1#7) (.reg 2#7) .and false true .b32 false) s1)
    0 6 = some 0x00030000#32 := by decide

/-- R175, R176: PASS_B of NOT R2. -/
theorem test_lop_pass : gprAfter (exec (.lop ca (.reg 6#7) noSet (.reg 1#7) (.reg 2#7) .passB false true .b32 false)
    s1) 0 6 = some 0xFFFFFFF8#32 := by decide

/-- R178: 0x80000000 < 7 as signed numbers. -/
theorem test_iset_signed : gprAfter (exec (.iset ca (.reg 6#7) noSet (.reg 4#7) (.reg 2#7) ⟨true, false, false, false⟩
    .b32 true) s1) 0 6 = some 0xFFFFFFFF#32 := by decide

/-- R178: not as unsigned ones. -/
theorem test_iset_unsigned : gprAfter (exec (.iset ca (.reg 6#7) noSet (.reg 4#7) (.reg 2#7)
    ⟨true, false, false, false⟩ .b32 false) s1) 0 6 = some 0#32 := by decide

/-- R181: the signed halfword at 2. -/
theorem test_mvc_signed : gprAfter (exec (.mvc ca 6#7 noSet 1#4 1#7 0#3 .w16 .b32 true) s1) 0 6 =
    some 0xFFFF9122#32 := by decide

/-- R181: the halfword at A1 + 2. -/
theorem test_mvc_base : gprAfter (exec (.mvc ca 6#7 noSet 1#4 1#7 1#3 .w16 .b32 true) s1) 0 6 =
    some 0x7FFF#32 := by decide

/-- R182. -/
theorem test_gld : gprAfter (exec (.gld ca 6#7 0#7 .u32) s1) 0 6 = some 0x91223344#32 := by decide

/-- R182, signed byte at 7. -/
theorem test_gld_byte : gprAfter (exec (.gld ca 6#7 2#7 .s8) s1) 0 6 = some 0x7F#32 := by decide

/-- R183: two bytes at 0, the next two as before. -/
theorem test_gst : bytesAfter (exec (.gst ca 1#7 0#7 .u16) s1) .global 0 =
    [some 0x05#8, some 0x00#8, some 0x22#8, some 0x91#8] := by decide

/-- R188: R1 at A1 + 4. -/
theorem test_r2g : bytesAfter (exec (.r2g ca 1#14 1#3 1#7 .b32 false) s1) (.shared 0) 8 =
    [some 0x05#8, some 0x00#8, some 0x03#8, some 0x00#8] := by decide

/-- R185: number 124 reads 0. -/
theorem test_mov : gprAfter (exec (.mov ca 1#7 (.reg 124#7) .b32 false) s1) 0 1 = some 0#32 := by decide

/-- R186: a half. -/
theorem test_mov32 : gprAfter (exec (.mov32 13#7 (.reg 2#6) .b16) s1) 0 6 = some 0x00050000#32 := by decide

/-- R187. -/
theorem test_mvi : gprAfter (exec (.mvi 6#7 0xDEADBEEF#32) s1) 0 6 = some 0xDEADBEEF#32 := by decide

/-- R196 with `R2A_IMM_OP = add`. -/
theorem test_r2a : aregAfter (exec (.r2a ca 2#7 2#7 2#12) s1) 2 = some 9#32 := by decide

/-- R197. -/
theorem test_a2r : gprAfter (exec (.a2r ca 6#7 1#2 3#10) s1) 0 6 = some 7#32 := by decide

/-- R198. -/
theorem test_ada : aregAfter (exec (.ada ca 3#7 1#2 0x10#14) s1) 3 = some 0x14#32 := by decide

/-- R205: the sign bit of source 2. -/
theorem test_fadd32 : gprAfter (exec (.fadd32 6#7 (.reg 2#6) 4#6 false true) s1) 0 6 =
    some (Config.fpAdd .nearest 7#32 0#32) := by rfl

/-- R206. -/
theorem test_fadd : gprAfter (exec (.fadd ca (.reg 6#7) noSet (.reg 2#7) (.reg 1#7) .zero true false) s1) 0 6 =
    some (Config.fpAdd .zero 0x80000007#32 0x00030005#32) := by rfl

/-- R207. -/
theorem test_fadd32i : gprAfter (exec (.fadd32i 6#7 2#6 0x3f000000#32) s1) 0 6 =
    some (Config.fpAdd .nearest 7#32 0x3f000000#32) := by rfl

/-- R208. -/
theorem test_fmul : gprAfter (exec (.fmul ca (.reg 6#7) noSet (.reg 2#7) (.const 1#4 0#7) .nearest false true) s1) 0 6 =
    some (Config.fpMul .nearest 7#32 0x11223344#32) := by rfl

/-- R209. -/
theorem test_fmul32 : gprAfter (exec (.fmul32 6#7 (.reg 2#6) 1#6 false false) s1) 0 6 =
    some (Config.fpMul .nearest 7#32 0x00030005#32) := by rfl

/-- R210. -/
theorem test_fmul32i : gprAfter (exec (.fmul32i 6#7 2#6 5#32) s1) 0 6 =
    some (Config.fpMul .nearest 7#32 5#32) := by rfl

/-- R211. -/
theorem test_fmad : gprAfter (exec (.fmad ca (.reg 6#7) noSet (.reg 2#7) (.reg 1#7) (.reg 4#7) false true) s1) 0 6 =
    some (Config.fpMad 7#32 0x00030005#32 0#32) := by rfl

/-- R212: the destination is the addend. -/
theorem test_fmad32 : gprAfter (exec (.fmad32 2#7 (.reg 1#6) 3#6 false) s1) 0 2 =
    some (Config.fpMad 0x00030005#32 0xFFFFFFFF#32 7#32) := by rfl

/-- R213. -/
theorem test_fmad32i : gprAfter (exec (.fmad32i 2#7 1#6 true 9#32) s1) 0 2 =
    some (Config.fpMad 0x80030005#32 9#32 7#32) := by rfl

/-- R214: the negative of an absolute value. -/
theorem test_f2f : gprAfter (exec (.f2f ca (.reg 6#7) noSet 3#7 .nearest true true) s1) 0 6 =
    some 0xFFFFFFFF#32 := by decide

/-- R215: the least numbers above zero round to zero. -/
theorem test_f2i : gprAfter (exec (.f2i ca (.reg 6#7) noSet 2#7 .zero true) s1) 0 6 =
    some 0#32 := by decide

/-- R216: -1. -/
theorem test_i2f : gprAfter (exec (.i2f ca (.reg 6#7) noSet 3#7 .nearest true) s1) 0 6 =
    some 0xBF800000#32 := by decide

/-- R217: with every relation in the set, all ones whatever `FP.cmp` finds. -/
theorem test_fset : gprAfter (exec (.fset ca (.reg 6#7) noSet 2#7 (.reg 1#7) ⟨true, true, true, true⟩ false) s1) 0 6 =
    some 0xFFFFFFFF#32 := by
  have h : ∀ r, maskOf 32 (cmpHolds ⟨true, true, true, true⟩ r) = 0xFFFFFFFF#32 := by intro r; cases r <;> rfl
  exact congrArg some (h _)

/-- R218. -/
theorem test_rcp : gprAfter (exec (.rcp ca (.reg 6#7) noSet 2#7) s1) 0 6 = some (Config.fpRcp 7#32) := by rfl

/-- R219. -/
theorem test_rcp32 : gprAfter (exec (.rcp32 6#7 2#6) s1) 0 6 = some (Config.fpRcp 7#32) := by rfl

/-- R230, R233. -/
theorem test_rro : gprAfter (exec (.rro ca (.reg 6#7) noSet 2#7 .ex2) s1) 0 6 =
    some (Config.sfuRro .ex2 7#32) := by rfl

/-- R105: lane 1 alone has C1.Z, so lane 0 keeps R6. -/
theorem test_guard : gprAfter (exec (.mvi 6#7 1#32) s2) 0 6 = some 1#32 ∧
    gprAfter (exec (.mov ⟨.normal, ⟨.e, 1#2⟩⟩ 6#7 (.reg 2#7) .b32 false) s2) 0 6 = some 0#32 ∧
    gprAfter (exec (.mov ⟨.normal, ⟨.e, 1#2⟩⟩ 6#7 (.reg 2#7) .b32 false) s2) 1 6 = some 8#32 := by decide

/-- R132: lane 1 takes the branch first, lane 0 waits at the next instruction. -/
theorem test_bra : warpAfter (exec (.bra 0x20#18 ⟨.e, 1#2⟩) s2) =
    some (0x20, .running, [1], [⟨.diverge, 8, [0]⟩]) := by decide

/-- R139 with `CAL_LINK = stack`. -/
theorem test_cal : warpAfter (exec (.cal 0x20#19) s2) = some (0x20, .running, [0, 1], [⟨.call, 8, [0, 1]⟩]) := by decide

/-- R133. -/
theorem test_ssy : warpAfter (exec (.ssy 0x20#16 0#5 0#2) s2) =
    some (8, .running, [0, 1], [⟨.sync, 0x20, [0, 1]⟩]) := by decide

/-- R136, R140: a subroutine returns to the instruction after its CAL. -/
theorem test_ret_call : warpAfter (exec (.ret Guard.open) (with_ s2 [⟨.call, 0x18, [0, 1]⟩] .running)) =
    some (0x18, .running, [0, 1], []) := by decide

/-- R136: one lane ends, the other goes on. -/
theorem test_ret_one : warpAfter (exec (.ret ⟨.e, 1#2⟩) s2) = some (8, .running, [0], []) := by decide

/-- R137, R141: NOP with Exit ends the warp. -/
theorem test_nop_exit : warpAfter (exec (.nop .exit) s2) = some (8, .finished, [], []) := by decide

/-- R135: Join takes the entry at the top. -/
theorem test_nop_join : warpAfter (exec (.nop .join) (with_ s2 [⟨.diverge, 0x30, [1]⟩] .running)) =
    some (0x30, .running, [1], []) := by decide

/-- R134 with `BAR_SCOPE = block`. -/
theorem test_bar : warpAfter (exec .bar s2) = some (0, .atBarrier, [0, 1], []) := by decide

/-- R138. -/
theorem test_trap : warpAfter (exec .trap s2) = some (0, .trapped, [0, 1], []) := by decide

/-- A state in which another block has written byte 11 of global memory. -/
def raced (s : State) : State := { s with log := [⟨.global, 11, 1, 1, 0, 0, true⟩] }

/-- R247: lane 0 faults, and the load of lane 1 races: `Race` is reported; without a conflict the first fault is. -/
theorem test_race_first : exec (.gld ca 6#7 2#7 .u32) (raced s2) = (raced s2).raise none .race ∧
    exec (.gld ca 6#7 2#7 .u32) s2 = s2.raise (some 0) (.misalignedAccess .global 7 4) := ⟨rfl, rfl⟩

/-- R65: what a load and a store record. -/
theorem test_log : (∃ t, exec (.gld ca 6#7 0#7 .u16) s1 = .next t ∧ t.log = [⟨.global, 0, 2, 0, 0, 0, false⟩]) ∧
    ∃ t, exec (.gst ca 2#7 0#7 .u32) s1 = .next t ∧ t.log = [⟨.global, 0, 4, 0, 0, 0, true⟩] :=
  ⟨⟨_, rfl, rfl⟩, _, rfl, rfl⟩

/-- A word put where the next step fetches is the instruction that runs. -/
theorem test_step_first : gprAfter (step (s1.withFetchWord 64 0x000000031001802D)) 0 11 = some 1#32 := by decide

/-! ### A state that meets the hypotheses: instructions with lanes -/

/-- What every lane of `s1` is. -/
theorem lane_s1 {l : Lane} (h : l ∈ s1.warp.lanes) : l = ⟨.active, tA⟩ := by
  have e : s1.warp.lanes = [⟨.active, tA⟩] := rfl
  rw [e] at h
  exact List.mem_singleton.mp h

/-- A condition that holds of the thread of `s1` holds of every lane that takes part. -/
theorem lanes_one {g : Guard} {ok : Thread → Prop} (hg : guardHolds g tA = .ok true) (h : ok tA) :
    LanesReady s1 g ok := fun l hl _ => by
  rw [lane_s1 hl]
  exact .inr ⟨hg, h⟩

/-- No access has been recorded in `s1`. -/
theorem unraced_one (w : Bool) (ranges : List Range) : Unraced s1 w ranges := fun _ _ old h => by
  have e : s1.log = [] := rfl
  rw [e] at h
  cases h

/-- `ResultReady` in `s1`. -/
theorem ready_one {g : Guard} {sz : Size} {d : Dst} {result : Thread → Res sz → Prop}
    (hg : guardHolds g tA = .ok true) (hd : DstExists s1.params sz d) (h : ∃ r, result tA r) :
    ResultReady s1 .normal g sz d result :=
  ⟨(fun h => by cases h), lanes_one hg ⟨hd, h.elim fun r hr => ⟨r, hr, unraced_one _ _⟩⟩⟩

/-- I2iConverts, the sources: a half and a whole register, and with A1 = 4 the byte, half and word of shared memory. -/
theorem witness_i2i_sources : readHalf s1.params tA (2#7).toNat = .ok 5#16 ∧
    readGpr s1.params tA (2#7).toNat = .ok 7#32 ∧ readAreg s1.params tA (1#3).toNat = .ok 4#32 ∧
    s1.load (.shared s1.warp.block) (((4#32).toNat + (1#5).toNat) % 2 ^ 32) 1 = .ok 0x80#32 ∧
    s1.load (.shared s1.warp.block) (((4#32).toNat + (1#5).toNat * 2) % 2 ^ 32) 2 = .ok 0x7FFF#32 ∧
    s1.load (.shared s1.warp.block) (((4#32).toNat + (0#5).toNat * 4) % 2 ^ 32) 4 = .ok 0x7FFF8001#32 ∧
    Src1.cvtProblem (.reg 2#7) .s8 = some .dataType ∧ Src1.cvtProblem (.shared 0#5 .s16 0#3) .u16 = some .sharedType :=
  ⟨rfl, rfl, rfl, rfl, rfl, rfl, rfl, rfl⟩

/-- I2iConverts. -/
theorem witness_i2i :
    Src1.cvtProblem (.reg 2#7) .s16 = none ∧ ResultReady s1 .normal Guard.open .b32 (.reg 6#7) (fun t r => ∃ x,
      readCvt s1 t (.reg 2#7) .s16 = .ok x ∧ r = ⟨(if true then -x.val else x.val).setWidth Size.b32.bits,
      false, false, x.reads⟩) :=
  ⟨by decide, ready_one rfl (show _ < _ by decide) ⟨_, _, rfl, rfl⟩⟩

/-- MultipliesHalves. -/
theorem witness_imul :
    ResultReady s1 .normal Guard.open .b32 (.reg 6#7) (fun t r => ∃ a b, readSrc1 s1 t .b16 (.reg 2#7) = .ok a ∧
      readHalf s1.params t (3#7).toNat = .ok b ∧ r = ⟨BitVec.ofNat 32 (a.val.toNat * b.toNat), false, false,
      a.reads⟩) :=
  ready_one rfl (show _ < _ by decide) ⟨_, _, _, rfl, rfl, rfl⟩

/-- MultipliesHalves. -/
theorem witness_imul32 :
    ResultReady s1 .normal Guard.open .b32 (lowDst 6#6) (fun t r => ∃ a b, readSrcS s1 t .b16 (.reg 2#6) = .ok a
      ∧ readHalf s1.params t (3#6).toNat = .ok b ∧ r = ⟨BitVec.ofNat 32 (a.val.toNat * b.toNat), false, false,
      a.reads⟩) :=
  ready_one rfl (show _ < _ by decide) ⟨_, _, _, rfl, rfl, rfl⟩

/-- MultipliesHalves. -/
theorem witness_imul32i :
    ResultReady s1 .normal Guard.open .b32 (lowDst 6#6) (fun t r => ∃ a, readHalf s1.params t (6#6).toNat = .ok
      a ∧ r = ⟨if true then BitVec.ofInt 32 (a.toInt * ((0x20005#32).extractLsb' 0 16).toInt) else BitVec.ofNat
      32 (a.toNat * ((0x20005#32).toNat % 2 ^ 16)), false, false, []⟩) :=
  ready_one rfl (show _ < _ by decide) ⟨_, _, rfl, rfl⟩

/-- TwentyFourBitForms. -/
theorem witness_imul24 :
    s1.params.mul24 = true ∧ ResultReady s1 .normal Guard.open .b32 (.reg 6#7) (fun t r => ∃ a b, readSrc1 s1 t
      .b32 (.reg 1#7) = .ok a ∧ readGpr s1.params t (2#7).toNat = .ok b ∧ r = ⟨Config.mul24 a.val b, false,
      false, a.reads⟩) :=
  ⟨by decide, ready_one rfl (show _ < _ by decide) ⟨_, _, _, rfl, rfl, rfl⟩⟩

/-- TwentyFourBitForms. -/
theorem witness_imul32_24 :
    s1.params.mul24 = true ∧ ResultReady s1 .normal Guard.open .b32 (lowDst 6#6) (fun t r => ∃ a b, readSrcS s1
      t .b32 (.reg 1#6) = .ok a ∧ readGpr s1.params t (2#6).toNat = .ok b ∧ r = ⟨Config.mul24 a.val b, false,
      false, a.reads⟩) :=
  ⟨by decide, ready_one rfl (show _ < _ by decide) ⟨_, _, _, rfl, rfl, rfl⟩⟩

/-- TwentyFourBitForms. -/
theorem witness_imad24 :
    s1.params.mul24 = true ∧ srcSegProblem s1.params (.reg 2#7) = none ∧ ResultReady s1 .normal Guard.open .b32
      (.reg 6#7) (fun t r => ∃ a b c, readSrc1 s1 t .b32 (.reg 1#7) = .ok a ∧ readSrcB s1 t .b32 (.reg 2#7) =
      .ok b ∧ readGpr s1.params t (3#7).toNat = .ok c ∧ r = ⟨Config.mad24 a.val b c, false, false, a.reads⟩) :=
  ⟨by decide, by decide, ready_one rfl (show _ < _ by decide) ⟨_, _, _, _, rfl, rfl, rfl, rfl⟩⟩

/-- ShiftsDeliver: an amount from a register. -/
theorem witness_amount : readGpr s1.params tA (4#5).toNat = .ok 0x80000000#32 := rfl

/-- ShiftsDeliver. -/
theorem witness_shl :
    Amount.problem (.imm 31#5) .b32 = none ∧ ResultReady s1 .normal Guard.open .b32 (.reg 6#7) (fun t r => ∃ x
      m, readSrc1 s1 t Size.b32 (.reg 2#7) = .ok x ∧ readAmount s1 t (.imm 31#5) = .ok m ∧ r = ⟨BitVec.ofNat
      Size.b32.bits (x.val.toNat * 2 ^ m), false, false, x.reads⟩) :=
  ⟨by decide, ready_one rfl (show _ < _ by decide) ⟨_, _, _, rfl, rfl, rfl⟩⟩

/-- ShiftsDeliver. -/
theorem witness_shr :
    Amount.problem (.reg 4#5) .b32 = none ∧ ResultReady s1 .normal Guard.open .b32 (.reg 6#7) (fun t r => ∃ x m,
      readSrc1 s1 t Size.b32 (.reg 2#7) = .ok x ∧ readAmount s1 t (.reg 4#5) = .ok m ∧ r = ⟨if true then
      BitVec.ofInt Size.b32.bits (x.val.toInt / 2 ^ m) else BitVec.ofNat Size.b32.bits (x.val.toNat / 2 ^ m),
      false, false, x.reads⟩) :=
  ⟨by decide, ready_one rfl (show _ < _ by decide) ⟨_, _, _, rfl, rfl, rfl⟩⟩

/-- IaddAddsWithFlags. -/
theorem witness_iadd :
    srcSegProblem s1.params (.const 1#4 0#7) = none ∧ ResultReady s1 .normal Guard.open .b32 .discard (fun t r
      => ∃ a b, readSrc1 s1 t Size.b32 (.reg 3#7) = .ok a ∧ readSrcB s1 t Size.b32 (.const 1#4 0#7) = .ok b ∧ r
      = ⟨a.val + b, decide (2 ^ Size.b32.bits ≤ a.val.toNat + b.toNat), decide ((a.val + b).toInt ≠ a.val.toInt
      + b.toInt), a.reads⟩) :=
  ⟨by decide, ready_one rfl trivial ⟨_, _, _, rfl, rfl, rfl⟩⟩

/-- IaddAddsWithFlags. -/
theorem witness_isub :
    srcSegProblem s1.params (.reg 3#7) = none ∧ ResultReady s1 .normal Guard.open .b16 (.reg 12#7) (fun t r => ∃
      a b, readSrc1 s1 t Size.b16 (.reg 2#7) = .ok a ∧ readSrcB s1 t Size.b16 (.reg 3#7) = .ok b ∧ r = ⟨a.val -
      b, decide (b.toNat ≤ a.val.toNat), decide ((a.val - b).toInt ≠ a.val.toInt - b.toInt), a.reads⟩) :=
  ⟨by decide, ready_one rfl (show _ < _ by decide) ⟨_, _, _, rfl, rfl, rfl⟩⟩

/-- IaddAddsWithFlags. -/
theorem witness_iaddc :
    srcSegProblem s1.params (.reg 2#7) = none ∧ ResultReady s1 .normal ⟨.always, 1#2⟩ .b32 (.reg 6#7) (fun t r
      => ∃ a b f, readSrc1 s1 t Size.b32 (.reg 2#7) = .ok a ∧ readSrcB s1 t Size.b32 (.reg 2#7) = .ok b ∧
      readPred t (1#2) = .ok f ∧ r.val = BitVec.ofNat Size.b32.bits (a.val.toNat + b.toNat + f.c.toNat) ∧
      r.carry = decide (2 ^ Size.b32.bits ≤ a.val.toNat + b.toNat + f.c.toNat) ∧ r.overflow = decide
      (r.val.toInt ≠ a.val.toInt + b.toInt + f.c.toNat) ∧ r.reads = a.reads) :=
  ⟨by decide, ready_one rfl (show _ < _ by decide) ⟨⟨_, _, _, _⟩, _, _, _, rfl, rfl, rfl, rfl, rfl, rfl, rfl⟩⟩

/-- ShortAdditions. -/
theorem witness_iadd32 :
    ResultReady s1 .normal Guard.open .b32 (.reg 6#7) (fun t r => ∃ a b, readSrcS s1 t Size.b32 (.shared 0#4
      .u32 0#2) = .ok a ∧ readReg s1.params t Size.b32 (2#6).toNat = .ok b ∧ r = ⟨BitVec.ofNat Size.b32.bits
      (a.val.toNat + b.toNat), false, false, a.reads⟩) :=
  ready_one rfl (show _ < _ by decide) ⟨_, _, _, rfl, rfl, rfl⟩

/-- ShortAdditions. -/
theorem witness_iadd32i :
    ResultReady s1 .normal Guard.open .b32 (.reg 6#7) (fun t r => ∃ a, readSrcS s1 t .b32 (.reg 3#6) = .ok a ∧ r
      = ⟨BitVec.ofNat 32 (a.val.toNat + (2#32).toNat), false, false, a.reads⟩) :=
  ready_one rfl (show _ < _ by decide) ⟨_, _, rfl, rfl⟩

/-- ImadDelivers. -/
theorem witness_imad :
    srcSegProblem s1.params (.reg 3#7) = none ∧ ResultReady s1 .normal Guard.open .b32 (.reg 6#7) (fun t r => ∃
      (a : Val 16) (b : Half) (c p q : Word), readSrc1 s1 t .b16 (.reg 2#7) = .ok a ∧ readSrcB s1 t .b16 (.reg
      3#7) = .ok b ∧ readGpr s1.params t (2#7).toNat = .ok c ∧ p = (if true then -BitVec.ofNat 32 (a.val.toNat *
      b.toNat) else BitVec.ofNat 32 (a.val.toNat * b.toNat)) ∧ q = (if false then -c else c) ∧ r = ⟨p + q,
      decide (2 ^ 32 ≤ p.toNat + q.toNat), false, a.reads⟩) :=
  ⟨by decide, ready_one rfl (show _ < _ by decide) ⟨_, _, _, _, _, _, rfl, rfl, rfl, rfl, rfl, rfl⟩⟩

/-- ShortMultiplyAdds. -/
theorem witness_imad32 :
    ResultReady s1 .normal Guard.open .b32 (lowDst 2#6) (fun t r => ∃ a b c, readHalf s1.params t (imad32Field
      s1.params (2#6)) = .ok a ∧ readHalf s1.params t (imad32Field s1.params (3#6)) = .ok b ∧ readGpr s1.params
      t (2#6).toNat = .ok c ∧ r = ⟨BitVec.ofNat 32 (a.toNat * b.toNat + c.toNat), false, false, []⟩) :=
  ready_one rfl (show _ < _ by decide) ⟨_, _, _, _, rfl, rfl, rfl, rfl⟩

/-- ShortMultiplyAdds. -/
theorem witness_imad32i :
    ResultReady s1 .normal Guard.open .b32 (lowDst 2#6) (fun t r => ∃ a c, readHalf s1.params t (imad32Field
      s1.params (6#6)) = .ok a ∧ readGpr s1.params t (2#6).toNat = .ok c ∧ r = ⟨if true then BitVec.ofInt 32
      (a.toInt * ((5#32).extractLsb' 0 16).toInt + c.toInt) else BitVec.ofNat 32 (a.toNat * ((5#32).toNat % 2 ^
      16) + c.toNat), false, false, []⟩) :=
  ready_one rfl (show _ < _ by decide) ⟨_, _, _, rfl, rfl, rfl⟩

/-- LopBitwise. -/
theorem witness_lop :
    srcSegProblem s1.params (.reg 2#7) = none ∧ ResultReady s1 .normal Guard.open .b32 (.reg 6#7) (fun t r => ∃
      (b : BitVec Size.b32.bits), readSrcB s1 t Size.b32 (.reg 2#7) = .ok b ∧ r.carry = false ∧ r.overflow =
      false ∧ ((LogicOp.and = .passB ∧ r.reads = [] ∧ ∀ i < Size.b32.bits, r.val.getLsbD i = (b.getLsbD i ^^
      true)) ∨ ∃ a, readSrc1 s1 t Size.b32 (.reg 1#7) = .ok a ∧ r.reads = a.reads ∧ ∀ i < Size.b32.bits,
      (LogicOp.and = .and ∧ r.val.getLsbD i = ((a.val.getLsbD i ^^ false) && (b.getLsbD i ^^ true))) ∨
      (LogicOp.and = .or ∧ r.val.getLsbD i = ((a.val.getLsbD i ^^ false)
      || (b.getLsbD i ^^ true))) ∨ (LogicOp.and = .xor ∧ r.val.getLsbD i = ((a.val.getLsbD i ^^ false) ^^
      (b.getLsbD i ^^ true))))) :=
  ⟨by decide, ready_one rfl (show _ < _ by decide) ⟨⟨0x00030005#32 &&& ~~~7#32, false, false, []⟩, _, rfl, rfl, rfl, .inr ⟨_, rfl, rfl, fun i hi => .inl ⟨rfl, by interval_cases i <;> rfl⟩⟩⟩⟩

/-- LopBitwise. -/
theorem witness_lop_pass :
    srcSegProblem s1.params (.reg 2#7) = none ∧ ResultReady s1 .normal Guard.open .b32 (.reg 6#7) (fun t r => ∃
      (b : BitVec Size.b32.bits), readSrcB s1 t Size.b32 (.reg 2#7) = .ok b ∧ r.carry = false ∧ r.overflow =
      false ∧ ((LogicOp.passB = .passB ∧ r.reads = [] ∧ ∀ i < Size.b32.bits, r.val.getLsbD i = (b.getLsbD i ^^
      false)) ∨ ∃ a, readSrc1 s1 t Size.b32 (.reg 127#7) = .ok a ∧ r.reads = a.reads ∧ ∀ i < Size.b32.bits,
      (LogicOp.passB = .and ∧ r.val.getLsbD i = ((a.val.getLsbD i ^^ false) && (b.getLsbD i ^^ false))) ∨
      (LogicOp.passB = .or ∧ r.val.getLsbD i = ((a.val.getLsbD i ^^ false)
      || (b.getLsbD i ^^ false))) ∨ (LogicOp.passB = .xor ∧ r.val.getLsbD i = ((a.val.getLsbD i ^^ false) ^^
      (b.getLsbD i ^^ false))))) :=
  ⟨by decide, ready_one rfl (show _ < _ by decide) ⟨⟨7#32, false, false, []⟩, _, rfl, rfl, rfl, .inl ⟨rfl, rfl, fun i hi => by interval_cases i <;> rfl⟩⟩⟩

/-- IsetCompares. -/
theorem witness_iset :
    srcSegProblem s1.params (.reg 2#7) = none ∧ ResultReady s1 .normal Guard.open .b32 (.reg 6#7) (fun t r => ∃
      a b, readSrc1 s1 t Size.b32 (.reg 4#7) = .ok a ∧ readSrcB s1 t Size.b32 (.reg 2#7) = .ok b ∧ r.carry =
      false ∧ r.overflow = false ∧ r.reads = a.reads ∧ ∃ x y : Int, (x = if true then a.val.toInt else
      (a.val.toNat : Int)) ∧ (y = if true then b.toInt else (b.toNat : Int)) ∧ r.val = if ((CmpSet.mk true false
      false false).less = true ∧ x < y) ∨ ((CmpSet.mk true false false false).equal = true ∧ x = y) ∨
      ((CmpSet.mk true false false false).greater = true ∧ y < x) then BitVec.allOnes Size.b32.bits else
      0#Size.b32.bits) :=
  ⟨by decide, ready_one rfl (show _ < _ by decide) ⟨⟨BitVec.allOnes 32, false, false, []⟩, _, _, rfl, rfl, rfl, rfl, rfl, _, _, rfl, rfl, by decide⟩⟩

/-- MvcLoadsConstant: constants of segment 1 that hold a value, and the last one, which does not. -/
theorem witness_const : s1.load (.const (1#4).toNat) ((1#7).toNat * 4) 4 = .ok 0x7FFF8001#32 ∧
    s1.load (.const (1#4).toNat) ((1#7).toNat * 2) 2 = .ok 0x9122#32 ∧
    s1.load (.const (1#4).toNat) ((127#7).toNat * 4) 4 = .error (.uninitialisedMemory (.const 1) 508) ∧
    s1.load (.const (1#4).toNat) ((127#7).toNat * 2) 2 = .error (.uninitialisedMemory (.const 1) 254) :=
  ⟨rfl, rfl, rfl, rfl⟩

/-- MvcLoadsConstant. -/
theorem witness_mvc :
    segProblem s1.params 1#4 = none ∧ ResultReady s1 .normal Guard.open .b32 (.reg 6#7) (fun t r => ∃ (base raw
      x : Word), readAreg s1.params t (1#3).toNat = .ok base ∧ s1.load (.const (1#4).toNat) ((base.toNat + (1#7).toNat *
      widthBytes Width.w16) % 2 ^ 32) (widthBytes Width.w16) = .ok raw ∧ x = (match Width.w16 with
      | .w8 => if true then (raw.setWidth 8).signExtend 32 else (raw.setWidth 8).setWidth 32
      | .w16 => if true then (raw.setWidth 16).signExtend 32 else (raw.setWidth 16).setWidth 32
      | .w32 => raw) ∧ r = ⟨x.setWidth Size.b32.bits, false, false, []⟩) :=
  ⟨by decide, ready_one rfl (show _ < _ by decide) ⟨_, _, _, _, rfl, rfl, rfl, rfl⟩⟩

/-- GldLoadsGlobal: a load that completes; a well-formed load; a word with the size code 100. -/
theorem witness_gld_words : (∃ t, exec (.gld ca 6#7 0#7 .u32) s1 = .next t) ∧
    (Instr.gld ⟨.join, Guard.open⟩ 126#7 127#7 .s16).wf ∧
    (0x80800780D00E0001#64).extractLsb' 0 2 = 1#2 ∧ (0x80800780D00E0001#64).extractLsb' 28 4 = 0xD#4 ∧
    (0x80800780D00E0001#64).extractLsb' 61 3 = 4#3 ∧ (0x80800780D00E0001#64).extractLsb' 32 2 ≠ 3#2 ∧
    (0x80800780D00E0001#64).extractLsb' 53 3 = 4#3 ∧ rejects 0x80800780D00E0001#64 .accessSize = true :=
  ⟨⟨_, rfl⟩, by decide, by decide, by decide, by decide, by decide, by decide, by decide⟩

/-- GldLoadsGlobal. -/
theorem witness_gld :
    ResultReady s1 .normal Guard.open .b32 (.reg 6#7) (fun t r => ∃ (addr raw x : Word), readGpr s1.params t
      (2#7).toNat = .ok addr ∧ s1.load .global addr.toNat (globalBytes GlobalTy.s8) = .ok raw ∧ x = (match
      GlobalTy.s8 with
      | .u8 => (raw.setWidth 8).setWidth 32
      | .s8 => (raw.setWidth 8).signExtend 32
      | .u16 => (raw.setWidth 16).setWidth 32
      | .s16 => (raw.setWidth 16).signExtend 32
      | .u32 => raw
      | .s32 => raw) ∧ r = ⟨x, false, false, [⟨.global, addr.toNat, globalBytes GlobalTy.s8⟩]⟩) :=
  ready_one rfl (show _ < _ by decide) ⟨_, _, _, _, rfl, rfl, rfl, rfl⟩

/-- MovesDeliver. -/
theorem witness_mov :
    ResultReady s1 .normal Guard.open .b32 (.reg 123#7) (fun t r => ∃ x, readSrc1 s1 t Size.b32 (.reg 124#7) =
      .ok x ∧ r = ⟨x.val, false, false, x.reads⟩) :=
  ready_one rfl (show _ < _ by decide) ⟨_, _, rfl, rfl⟩

/-- MovesDeliver. -/
theorem witness_mov32 :
    ResultReady s1 .normal Guard.open .b16 (.reg 13#7) (fun t r => ∃ x, readSrcS s1 t Size.b16 (.reg 2#6) = .ok
      x ∧ r = ⟨x.val, false, false, x.reads⟩) :=
  ready_one rfl (show _ < _ by decide) ⟨_, _, rfl, rfl⟩

/-- MoveImmediate. -/
theorem witness_mvi :
    ResultReady s1 .normal Guard.open .b32 (.reg 6#7) (fun _ r => r = ⟨(5#32), false, false, []⟩) :=
  ready_one rfl (show _ < _ by decide) ⟨_, rfl⟩

/-- AddressRegistersMove. -/
theorem witness_a2r :
    ResultReady s1 .normal Guard.open .b32 (.reg 6#7) (fun t r => ∃ x, readAreg s1.params t (1#2).toNat = .ok x ∧ r =
      ⟨BitVec.ofNat 32 (x.toNat + (3#10).toNat), false, false, []⟩) :=
  ready_one rfl (show _ < _ by decide) ⟨_, _, rfl, rfl⟩

/-- FloatAdditions. -/
theorem witness_fadd :
    srcSegProblem s1.params (.reg 1#7) = none ∧ ResultReady s1 .normal Guard.open .b32 (.reg 6#7) (fun t r => ∃
      (a : Val 32) (b : Word), readSrc1 s1 t .b32 (.reg 2#7) = .ok a ∧ readSrcB s1 t .b32 (.reg 1#7) = .ok b ∧ r
      = ⟨Config.fpAdd .zero (if true then a.val ^^^ 0x80000000#32 else a.val) (if false then b ^^^ 0x80000000#32
      else b), false, false, a.reads⟩) :=
  ⟨by decide, ready_one rfl (show _ < _ by decide) ⟨_, _, _, rfl, rfl, rfl⟩⟩

/-- FloatAdditions. -/
theorem witness_fadd32 :
    ResultReady s1 .normal Guard.open .b32 (.reg 6#7) (fun t r => ∃ (a : Val 32) (b : Word), readSrcS s1 t .b32
      (.reg 2#6) = .ok a ∧ readGpr s1.params t (4#6).toNat = .ok b ∧ r = ⟨Config.fpAdd .nearest (if false then
      a.val ^^^ 0x80000000#32 else a.val) (if true then b ^^^ 0x80000000#32 else b), false, false, a.reads⟩) :=
  ready_one rfl (show _ < _ by decide) ⟨_, _, _, rfl, rfl, rfl⟩

/-- FloatAdditions. -/
theorem witness_fadd32i :
    ResultReady s1 .normal Guard.open .b32 (.reg 6#7) (fun t r => ∃ a, readGpr s1.params t (2#6).toNat = .ok a ∧
      r = ⟨Config.fpAdd .nearest a (5#32), false, false, []⟩) :=
  ready_one rfl (show _ < _ by decide) ⟨_, _, rfl, rfl⟩

/-- FloatMultiplications. -/
theorem witness_fmul :
    srcSegProblem s1.params (.const 1#4 0#7) = none ∧ ResultReady s1 .normal Guard.open .b32 (.reg 6#7) (fun t r
      => ∃ (a : Val 32) (b : Word), readSrc1 s1 t .b32 (.reg 2#7) = .ok a ∧ readSrcB s1 t .b32 (.const 1#4 0#7)
      = .ok b ∧ r = ⟨Config.fpMul .nearest (if false then a.val ^^^ 0x80000000#32 else a.val) (if true then b
      ^^^ 0x80000000#32 else b), false, false, a.reads⟩) :=
  ⟨by decide, ready_one rfl (show _ < _ by decide) ⟨_, _, _, rfl, rfl, rfl⟩⟩

/-- FloatMultiplications. -/
theorem witness_fmul32 :
    ResultReady s1 .normal Guard.open .b32 (.reg 6#7) (fun t r => ∃ (a : Val 32) (b : Word), readSrcS s1 t .b32
      (.reg 2#6) = .ok a ∧ readGpr s1.params t (1#6).toNat = .ok b ∧ r = ⟨Config.fpMul .nearest (if false then
      a.val ^^^ 0x80000000#32 else a.val) (if false then b ^^^ 0x80000000#32 else b), false, false, a.reads⟩) :=
  ready_one rfl (show _ < _ by decide) ⟨_, _, _, rfl, rfl, rfl⟩

/-- FloatMultiplications. -/
theorem witness_fmul32i :
    ResultReady s1 .normal Guard.open .b32 (.reg 6#7) (fun t r => ∃ a, readGpr s1.params t (2#6).toNat = .ok a ∧
      r = ⟨Config.fpMul .nearest a (5#32), false, false, []⟩) :=
  ready_one rfl (show _ < _ by decide) ⟨_, _, rfl, rfl⟩

/-- FloatMultiplyAdds. -/
theorem witness_fmad :
    srcSegProblem s1.params (.reg 1#7) = none ∧ srcSegProblem s1.params (.const 1#4 0#7) = none ∧ ResultReady s1
      .normal Guard.open .b32 (.reg 6#7) (fun t r => ∃ (a : Val 32) (b c : Word), readSrc1 s1 t .b32 (.reg 2#7)
      = .ok a ∧ readSrcB s1 t .b32 (.reg 1#7) = .ok b ∧ readSrcB s1 t .b32 (.const 1#4 0#7) = .ok c ∧ r =
      ⟨Config.fpMad (if false then a.val ^^^ 0x80000000#32 else a.val) b (if true then c ^^^ 0x80000000#32 else
      c), false, false, a.reads⟩) :=
  ⟨by decide, by decide, ready_one rfl (show _ < _ by decide) ⟨_, _, _, _, rfl, rfl, rfl, rfl⟩⟩

/-- FloatMultiplyAdds. -/
theorem witness_fmad32 :
    s1.params.fmad32 = true ∧ ResultReady s1 .normal Guard.open .b32 (.reg 2#7) (fun t r => ∃ (a : Val 32) (b c
      : Word), readSrcS s1 t .b32 (.reg 1#6) = .ok a ∧ readGpr s1.params t (3#6).toNat = .ok b ∧ readGpr
      s1.params t (2#7).toNat = .ok c ∧ r = ⟨Config.fpMad (if false then a.val ^^^ 0x80000000#32 else a.val) b
      c, false, false, a.reads⟩) :=
  ⟨by decide, ready_one rfl (show _ < _ by decide) ⟨_, _, _, _, rfl, rfl, rfl, rfl⟩⟩

/-- FloatMultiplyAdds. -/
theorem witness_fmad32i :
    ResultReady s1 .normal Guard.open .b32 (.reg 2#7) (fun t r => ∃ a c, readGpr s1.params t (1#6).toNat = .ok a
      ∧ readGpr s1.params t (2#7).toNat = .ok c ∧ r = ⟨Config.fpMad (if true then a ^^^ 0x80000000#32 else a)
      (9#32) c, false, false, []⟩) :=
  ready_one rfl (show _ < _ by decide) ⟨_, _, _, rfl, rfl, rfl⟩

/-- FloatConversions. -/
theorem witness_f2f :
    ResultReady s1 .normal Guard.open .b32 (.reg 6#7) (fun t r => ∃ a x : Word, readGpr s1.params t (3#7).toNat
      = .ok a ∧ (∀ i < 31, x.getLsbD i = a.getLsbD i) ∧ x.getLsbD 31 = ((a.getLsbD 31 && !true) ^^ true) ∧ r =
      ⟨if Rm.nearest = .nearest then x else Config.fpF2f .zero x, false, false, []⟩) :=
  ready_one rfl (show _ < _ by decide) ⟨_, _, 0xFFFFFFFF#32, rfl, by decide, by decide, rfl⟩

/-- FloatConversions. -/
theorem witness_f2i :
    ResultReady s1 .normal Guard.open .b32 (.reg 6#7) (fun t r => ∃ a, readGpr s1.params t (2#7).toNat = .ok a ∧
      r = ⟨f2iValue .zero true 32 a, false, false, []⟩) :=
  ready_one rfl (show _ < _ by decide) ⟨_, _, rfl, rfl⟩

/-- FloatConversions. -/
theorem witness_i2f :
    ResultReady s1 .normal Guard.open .b32 (.reg 6#7) (fun t r => ∃ a, readGpr s1.params t (3#7).toNat = .ok a ∧
      r = ⟨i2fValue .nearest true (intValue true a), false, false, []⟩) :=
  ready_one rfl (show _ < _ by decide) ⟨_, _, rfl, rfl⟩

/-- FsetCompares. -/
theorem witness_fset :
    srcSegProblem s1.params (.reg 1#7) = none ∧ ResultReady s1 .normal Guard.open .b32 .discard (fun t r => ∃ (a
      b : Word) (rel : FRel), readGpr s1.params t (2#7).toNat = .ok a ∧ readSrcB s1 t .b32 (.reg 1#7) = .ok b ∧
      rel = Config.fpCmp (if true then a &&& 0x7FFFFFFF#32 else a) b ∧ r.carry = false ∧ r.overflow = false ∧
      r.reads = [] ∧ r.val = if (rel = .less ∧ (CmpSet.mk true false false true).less = true) ∨ (rel = .equal ∧
      (CmpSet.mk true false false true).equal = true) ∨ (rel = .greater ∧ (CmpSet.mk true false false
      true).greater = true) ∨ (rel = .unordered ∧ (CmpSet.mk true false false true).unordered = true) then
      0xFFFFFFFF#32 else 0#32) :=
  ⟨by decide, ready_one rfl trivial ⟨⟨_, _, _, _⟩, _, _, _, rfl, rfl, rfl, rfl, rfl, rfl, rfl⟩⟩

/-- FunctionsOfOneSource. -/
theorem witness_rcp :
    ResultReady s1 .normal Guard.open .b32 (.reg 6#7) (fun t r => ∃ a, readGpr s1.params t (2#7).toNat = .ok a ∧
      r = ⟨Config.fpRcp a, false, false, []⟩) :=
  ready_one rfl (show _ < _ by decide) ⟨_, _, rfl, rfl⟩

/-- FunctionsOfOneSource. -/
theorem witness_rcp32 :
    ResultReady s1 .normal Guard.open .b32 (.reg 6#7) (fun t r => ∃ a, readGpr s1.params t (2#6).toNat = .ok a ∧
      r = ⟨Config.fpRcp a, false, false, []⟩) :=
  ready_one rfl (show _ < _ by decide) ⟨_, _, rfl, rfl⟩

/-- FunctionsOfOneSource. -/
theorem witness_sfu :
    s1.params.sfu = true ∧ ResultReady s1 .normal Guard.open .b32 (.reg 6#7) (fun t r => ∃ a, readGpr s1.params
      t (2#7).toNat = .ok a ∧ r = ⟨Config.sfuSin a, false, false, []⟩) :=
  ⟨by decide, ready_one rfl (show _ < _ by decide) ⟨_, _, rfl, rfl⟩⟩

/-! ### A state that meets the hypotheses: stores and address registers -/

/-- `StoreReady` in `s1`, where only one lane stores. -/
theorem store_one {g : Guard} {store : Thread → Store → Prop} (hg : guardHolds g tA = .ok true) (st : Store)
    (h : ∀ x, store tA x ↔ x = st) (ha : st.addr % st.bytes = 0)
    (hr : st.addr + st.bytes ≤ spaceSize s1.params st.space) (hc : st.clash s1.params.endian st = false) :
    StoreReady s1 .normal g store := by
  refine ⟨(fun h => by cases h), lanes_one hg ⟨st, (h st).2 rfl, ha, hr, unraced_one _ _⟩, ?_⟩
  intro l hl l' hl' _ _ x y hx hy
  rw [lane_s1 hl] at hx
  rw [lane_s1 hl'] at hy
  rw [(h x).1 hx, (h y).1 hy]
  exact hc

/-- GstStoresGlobal: 4 bytes of R1 at 0. -/
theorem witness_gst : StoreReady s1 .normal Guard.open fun t st =>
    ∃ addr v, readGpr s1.params t (0#7).toNat = .ok addr ∧ readGpr s1.params t (1#7).toNat = .ok v ∧
      st = ⟨.global, addr.toNat, globalBytes .u32, v⟩ := by
  refine store_one rfl ⟨.global, 0, 4, 0x00030005#32⟩ (fun x => ?_) (by decide) (by decide) (by decide)
  constructor
  · rintro ⟨a, v, ha, hv, rfl⟩
    cases ha
    cases hv
    rfl
  · rintro rfl
    exact ⟨_, _, rfl, rfl, rfl⟩

/-- R2gStoresShared: R1 at A1 + 4. -/
theorem witness_r2g : StoreReady s1 .normal Guard.open fun t st =>
    ∃ (base : Word) (v : BitVec Size.b32.bits), readAreg s1.params t (1#3).toNat = .ok base ∧
      readReg s1.params t .b32 (1#7).toNat = .ok v ∧
      st = ⟨.shared s1.warp.block, (base.toNat + (1#14).toNat * Size.b32.bytes) % 2 ^ 32, Size.b32.bytes,
        v.setWidth 32⟩ := by
  refine store_one rfl ⟨.shared 0, 8, 4, 0x00030005#32⟩ (fun x => ?_) (by decide) (by decide) (by decide)
  constructor
  · rintro ⟨a, v, ha, hv, rfl⟩
    cases ha
    cases hv
    rfl
  · rintro rfl
    exact ⟨_, _, rfl, rfl, rfl⟩

/-- AddressRegistersMove, R2A into A4. -/
theorem witness_r2a : r2aProblem s1.params 4#7 2#12 = none ∧
    AregReady s1 .normal Guard.open (4#7).toNat (fun t v => ∃ x, readGpr s1.params t (2#7).toNat = .ok x ∧
      v = match s1.params.r2aImmOp with
        | .add => BitVec.ofNat 32 (x.toNat + (2#12).toNat)
        | .shl => BitVec.ofNat 32 (x.toNat * 2 ^ (2#12).toNat)) :=
  ⟨by decide, (fun h => by cases h), lanes_one rfl ⟨by decide, _, _, rfl, rfl⟩⟩

/-- AddressRegistersMove, ADA into A1. -/
theorem witness_ada : (1#7 ≠ 0#7) ∧
    AregReady s1 .normal Guard.open (1#7).toNat (fun t v => ∃ x, readAreg s1.params t (1#2).toNat = .ok x ∧
      v = BitVec.ofNat 32 (x.toNat + (0x10#14).toNat)) :=
  ⟨by decide, (fun h => by cases h), lanes_one rfl ⟨by decide, _, _, rfl, rfl⟩⟩

/-- SharedOperandReads: the halfword at A1 + 2, long and short, the one at 2 without a register; a register and a half. -/
theorem witness_shared : readAreg s1.params tA (1#3).toNat = .ok 4#32 ∧ readAreg s1.params tA (1#2).toNat = .ok 4#32 ∧
    s1.load (.shared s1.warp.block) (((4#32).toNat + (1#5).toNat * elemBytes .s16) % 2 ^ 32) (elemBytes .s16) =
      .ok 0x7FFF#32 ∧
    s1.load (.shared s1.warp.block) (((0#32).toNat + (1#4).toNat * elemBytes .s16) % 2 ^ 32) (elemBytes .s16) =
      .ok 0x9122#32 ∧
    readGpr s1.params tA (2#7).toNat = .ok 7#32 ∧ readHalf s1.params tA (2#6).toNat = .ok 5#16 :=
  ⟨rfl, rfl, rfl, rfl, rfl, rfl⟩

/-! ### A state that meets the hypotheses: the step and the decoder -/

/-- `s1` with MVI R11, 0x1 in the last 8 bytes of its code, and there in turn. -/
def s3 : State := ({ s1 with warp := { s1.warp with pc := 56 } } : State).withFetchWord 64 0x000000031001802D

/-- StepRunsDecoded. -/
theorem witness_step : s3.turn = .run s3 ∧ s3.fetch = .ok 0x000000031001802D#64 ∧
    decodeWord 0x000000031001802D#64 = .ok (.mvi 11#7 1#32) ∧ s3.rest = [] ∧ s3.warp.status = .running :=
  ⟨rfl, rfl, rfl, rfl, rfl⟩

/-- StepRunsStoredBytes, at the end of the code. -/
theorem witness_step_bytes : s3.rest = [] ∧ s3.warp.status = .running ∧ s3.params.endian = .little ∧
    (Instr.mvi 11#7 1#32).wf ∧ s3.warp.pc % 4 = 0 ∧
    s3.warp.pc + (Instr.mvi 11#7 1#32).length ≤ spaceSize s3.params .code ∧
    ∀ k < (Instr.mvi 11#7 1#32).length, s3.code.byteAt (s3.warp.pc + k) = (encodeBytes (.mvi 11#7 1#32))[k]? := by
  decide

/-- ShortAndLongWords: RCP32 R1, R1 at the pc, a long word there, and the low half of a long word at the end of the code. -/
theorem witness_fetch : ∃ s : State, s.warp.pc % 4 = 0 ∧ s.codeWord s.warp.pc s.warp.pc = .ok 0x90000204#32 ∧
    s3.warp.pc % 4 = 0 ∧ s3.codeWord s3.warp.pc s3.warp.pc = .ok 0x1001802D#32 ∧
    s3.codeWord s3.warp.pc (s3.warp.pc + 4) = .ok 0x00000003#32 ∧
    ∃ s' : State, s'.warp.pc % 4 = 0 ∧ s'.codeWord s'.warp.pc s'.warp.pc = .ok 0x1001802D#32 ∧
      s'.codeWord s'.warp.pc (s'.warp.pc + 4) = .error (.fetchOutOfRange 56) :=
  ⟨s1.withFetchWord 32 0x90000204, rfl, rfl, rfl, rfl, rfl,
    { s3 with params := { s3.params with codeSize := 60 } }, rfl, rfl, rfl⟩

/-- MoveImmediate, the words: d = 127 and an immediate with all bits set. -/
theorem witness_mvi_word : decodesTo 0x0FFFFFFF103F81FD#64 (.mvi 127#7 0xFFFFFFFF#32) = true := by decide

/-- DecodeOfEncode and ShortAndLongWords. -/
theorem witness_wf : (Instr.fmad ⟨.join, Guard.open⟩ (.reg 126#7) ⟨true, 3#2⟩ (.shared 31#5 .u32 7#3)
    (.const 15#4 127#7) (.reg 127#7) true true).wf := by decide

/-- EncodeOfDecode, a long and a short word. -/
theorem witness_word : decodeWord 0x000000031001802D#64 = .ok (.mvi 11#7 1#32) ∧
    decodeWord 0xFFFFFFFF90000204#64 = .ok (.rcp32 1#7 1#6) := ⟨rfl, rfl⟩

/-! ### A state that meets the hypotheses: the whole machine -/

/-- Two lanes, one thread: lane 1 is in `done`. MVI R11, 0x1 stands where the step fetches. -/
def s4 : State :=
  (State.launch { Params.default with warpSize := 2, codeSize := 64 } (fun _ _ => tA) (eight 0) (eight 0)
    (eight (2 ^ 32)) []).withFetchWord 64 0x000000031001802D

/-- StepKeepsInv, EndedLanesStay: the invariant, in a state that is not the reset state. -/
theorem witness_inv : s4.Inv := by
  have e : s4.everyWarp = [s4.warp] := rfl
  refine ⟨by decide, by decide, by decide, by decide, fun w hw => ?_, ?_⟩
  · rw [e] at hw
    rw [List.mem_singleton.mp hw]
    exact ⟨by decide, fun _ => by decide, fun h => by cases h⟩
  · rw [e]
    exact List.pairwise_singleton _ _

/-- StepKeepsInv, EndedLanesStay, CodeAndConstantsFixed. -/
theorem witness_step_next : (∃ t, step s4 = .next t) ∧ ∃ l, s4.warp.lanes[1]? = some l ∧ l.status = .ended :=
  ⟨⟨_, rfl⟩, _, rfl, rfl⟩

/-- OnlyTheirWritersWrite, OnlyActiveLanesChange. -/
theorem witness_exec_next : (∃ t, exec (.mvi 11#7 1#32) s4 = .next t) ∧
    ∃ l, s4.warp.lanes[1]? = some l ∧ l.status ≠ .active :=
  ⟨⟨_, rfl⟩, _, rfl, by decide⟩

/-- FinishedOrGoesOn, the two sides: every warp finished, and one that is not. -/
theorem witness_finished : (∀ w ∈ (with_ s1 [] .finished).everyWarp, w.status = .finished) ∧
    ¬ ∀ w ∈ s1.everyWarp, w.status = .finished :=
  ⟨by decide, by decide⟩

/-! ### A state that meets the hypotheses: control flow -/

/-- The lanes of `s2`. -/
theorem lanes_s2 : s2.warp.lanes = [⟨.active, tA⟩, ⟨.active, tB⟩] := rfl

/-- The guard that lane 1 of `s2` takes and lane 0 does not. -/
abbrev gE : Guard := ⟨.e, 1#2⟩

/-- Every guard of `s2` can be evaluated. -/
theorem ready_two (s : State) (h : s.warp.lanes = [⟨.active, tA⟩, ⟨.active, tB⟩]) :
    LanesReady s gE (fun _ => True) := by
  intro l hl _
  rw [h] at hl
  rcases List.mem_cons.mp hl with rfl | hl
  · exact .inl rfl
  · rw [List.mem_singleton.mp hl]
    exact .inr ⟨rfl, trivial⟩

/-- BraUniform, both clauses. -/
theorem witness_bra_uniform : (∀ l ∈ s2.warp.lanes, l.status = .active → guardHolds Guard.open l.thread = .ok true) ∧
    s2.warp.hasActive = true ∧
    ∀ l ∈ s2.warp.lanes, l.status = .active → guardHolds ⟨.never, 0#2⟩ l.thread = .ok false :=
  ⟨fun _ _ _ => rfl, rfl, fun _ _ _ => rfl⟩

/-- BraDiverges, with room on the stack (one place) and without, and for both values of `DIVERGE_FIRST`. -/
theorem witness_bra_diverges : ∃ s s' s'' : State,
    (LanesReady s gE (fun _ => True) ∧ (∃ l ∈ s.warp.lanes, Takes gE l) ∧
      (∃ l ∈ s.warp.lanes, l.status = .active ∧ ¬ Takes gE l) ∧ s.warp.stack.length + 1 = s.params.stackDepth ∧
      s.params.divergeFirst = .taken) ∧
    (LanesReady s' gE (fun _ => True) ∧ (∃ l ∈ s'.warp.lanes, Takes gE l) ∧
      (∃ l ∈ s'.warp.lanes, l.status = .active ∧ ¬ Takes gE l) ∧ s'.warp.stack.length + 1 = s'.params.stackDepth ∧
      s'.params.divergeFirst = .notTaken) ∧
    (LanesReady s'' gE (fun _ => True) ∧ (∃ l ∈ s''.warp.lanes, Takes gE l) ∧
      (∃ l ∈ s''.warp.lanes, l.status = .active ∧ ¬ Takes gE l) ∧ s''.params.stackDepth = s''.warp.stack.length) := by
  have a : ∃ l ∈ [(⟨.active, tA⟩ : Lane), ⟨.active, tB⟩], Takes gE l := ⟨⟨.active, tB⟩, List.mem_cons_of_mem _ List.mem_cons_self, rfl, rfl⟩
  have b : ∃ l ∈ [(⟨.active, tA⟩ : Lane), ⟨.active, tB⟩], l.status = .active ∧ ¬ Takes gE l :=
    ⟨⟨.active, tA⟩, List.mem_cons_self, rfl, fun h => by cases h.2⟩
  let es := List.replicate 7 (⟨.sync, 0, [0, 1]⟩ : Entry)
  exact ⟨with_ s2 es .running,
    { with_ s2 es .running with params := { s2.params with divergeFirst := .notTaken } },
    with_ s2 (⟨.sync, 0, [0, 1]⟩ :: es) .running,
    ⟨ready_two _ rfl, a, b, rfl, rfl⟩, ⟨ready_two _ rfl, a, b, rfl, rfl⟩, ready_two _ rfl, a, b, rfl⟩

/-- SsyAndCalPush: the last free place of the stack, and both values of `CAL_LINK`. -/
theorem witness_push : ∃ s s' : State, s.warp.stack.length + 1 = s.params.stackDepth ∧ s.params.calLink = .stack ∧
    s'.params.calLink = .none :=
  ⟨with_ s1 (List.replicate 7 ⟨.sync, 0, [0]⟩) .running, { s1 with params := { s1.params with calLink := .none } },
    rfl, rfl, rfl⟩

/-- RetRetiresLanes: some lanes return, and all of them. -/
theorem witness_ret : LanesReady s2 gE (fun _ => True) ∧ s2.warp.hasActive = true ∧
    (∃ l ∈ s2.warp.lanes, l.status = .active ∧ ¬ Takes gE l) ∧
    LanesReady s2 Guard.open (fun _ => True) ∧ ∀ l ∈ s2.warp.lanes, l.status = .active → Takes Guard.open l :=
  ⟨ready_two _ rfl, rfl, ⟨_, List.mem_cons_self, rfl, fun h => by cases h.2⟩, fun _ _ _ => .inr ⟨rfl, trivial⟩,
    fun _ _ h => ⟨h, rfl⟩⟩

/-- PopAndResume: a warp without an active lane, with an empty stack and with an entry. -/
theorem witness_resume : (s2.warp.retire (fun _ => true) .ended).hasActive = false ∧
    (s2.warp.retire (fun _ => true) .ended).stack = [] ∧
    ((with_ s2 [⟨.call, 8, [0]⟩] .running).warp.retire (fun _ => true) .returned).hasActive = false ∧
    ((with_ s2 [⟨.call, 8, [0]⟩] .running).warp.retire (fun _ => true) .returned).stack = [⟨.call, 8, [0]⟩] :=
  ⟨rfl, rfl, rfl, rfl⟩

/-- PopAndResume, the lanes of a pop: ended, returned and kept, returned and freed, idle and freed. -/
theorem witness_pop : ∃ w : Warp, w.lanes.map Lane.status = [.ended, .returned, .returned, .idle] ∧
    (w.popEntry ⟨.call, 8, [0, 2, 3]⟩ []).lanes.map Lane.status = [.ended, .returned, .active, .active] :=
  ⟨{ s1.warp with lanes := [⟨.ended, tA⟩, ⟨.returned, tA⟩, ⟨.returned, tA⟩, ⟨.idle, tA⟩] }, rfl, rfl⟩

/-- NopMarkers: a stack with an entry, and an empty one. -/
theorem witness_nop : (with_ s2 [⟨.sync, 8, [0]⟩] .running).warp.stack = ⟨.sync, 8, [0]⟩ :: [] ∧
    s2.warp.stack = [] := ⟨rfl, rfl⟩

/-- BarWaits: a lane that waits for a stack entry, and none. -/
theorem witness_bar : (∃ s : State, ∃ l ∈ s.warp.lanes, l.status ≠ .active ∧ l.status ≠ .ended) ∧
    ∀ l ∈ s4.warp.lanes, l.status = .active ∨ l.status = .ended := by
  refine ⟨⟨{ s1 with warp := { s1.warp with lanes := [⟨.idle, tA⟩] } }, ⟨.idle, tA⟩, List.mem_singleton.mpr rfl,
    by decide, by decide⟩, by decide⟩

/-- Two warps of one block, one of which may wait. -/
def s5 (status : Status) : State := { with_ s1 [] status with rest := [{ s1.warp with index := 1, status := .finished }] }

/-- BarrierReleases. -/
theorem witness_release : (∀ w ∈ (s5 .atBarrier).everyWarp, w.status = .finished ∨
    (w.status = .atBarrier ∧ w.block = 0)) ∧ ∃ w ∈ (s5 .atBarrier).everyWarp, w.status = .atBarrier := by
  decide

/-- TrapEndsRun. -/
theorem witness_trapped : (s5 .trapped).warp.status = .trapped ∧
    ∀ w ∈ (s5 .trapped).rest, w.status = .running ∨ w.status = .atBarrier ∨ w.status = .finished := by
  decide

/-- StackFaults: a GST that completes with the marker Normal. -/
theorem witness_stack_join : s1.warp.stack = [] ∧
    marked .normal (.gst ca 2#7 0#7 .u32) = some (.gst ca 2#7 0#7 .u32) ∧
    marked .join (.gst ca 2#7 0#7 .u32) = some (.gst ⟨.join, Guard.open⟩ 2#7 0#7 .u32) ∧
    ∃ t, exec (.gst ca 2#7 0#7 .u32) s1 = .next t := ⟨rfl, rfl, rfl, _, rfl⟩

/-- StackFaults: a full stack, and an empty one at a Join marker. -/
theorem witness_stack : (∃ s : State, s.params.stackDepth = s.warp.stack.length ∧ s.params.calLink = .stack) ∧
    s1.warp.stack = [] ∧ LanesReady s1 Guard.open (fun t => FieldExists s1.params .b32 (6#7).toNat ∧
      ∃ v, readGpr s1.params t (2#7).toNat = .ok v) :=
  ⟨⟨with_ s1 (List.replicate 8 ⟨.sync, 0, [0]⟩) .running, rfl, rfl⟩, rfl,
    lanes_one rfl ⟨(show _ < _ by decide), _, rfl⟩⟩

/-! ### A state that meets the hypotheses: faults and refusals -/

/-- ConditionsAfterSubtract needs nothing; its ends: 0x80000000 - 7 overflows, 7 - 7 does not. -/
theorem witness_conditions : (addN 0x80000000#32 (~~~7#32) true).overflow = true ∧
    (addN 7#32 (~~~7#32) true).val = 0#32 := by decide

/-- ConditionsAfterSubtract, the codes at the ends of the two ranges. -/
theorem witness_codes : decCond 0x00#5 = .ok .never ∧ decCond 0x13#5 = .ok .s ∧
    decCond 0x14#5 = .error .conditionCode ∧ decCond 0x1b#5 = .error .conditionCode ∧ decCond 0x1c#5 = .ok .ns ∧
    decCond 0x1f#5 = .ok .no := ⟨rfl, rfl, rfl, rfl, rfl, rfl⟩

/-- LoadReadsBytes, for each size at the last place of shared memory that it fits, and for a value. -/
theorem witness_load : s1.params.endian = .little ∧ (∀ n, n = 1 ∨ n = 2 ∨ n = 4 → (0x4000 - n) % n = 0 ∧
    (0x4000 - n) + n ≤ spaceSize s1.params (.shared 0)) ∧ s1.load (.shared 0) 0 4 = .ok 0x91223344#32 := by
  refine ⟨rfl, ?_, rfl⟩
  rintro n (rfl | rfl | rfl) <;> decide

/-- MixedWidths, at the last word of global and of shared memory. -/
theorem witness_widths : s1.params.endian = .little ∧ (2 ^ 32 - 4) % 4 = 0 ∧
    2 ^ 32 - 4 + 4 ≤ spaceSize s1.params .global ∧ 0x3FFC % 4 = 0 ∧
    0x3FFC + 4 ≤ spaceSize s1.params (.shared 0) := by decide

/-- AlignmentRule: an odd address, one that is even only, and a pc between two words. -/
theorem witness_alignment : 1 % 2 = 1 ∧ 2 % 4 ≠ 0 ∧ 2 % 2 = 0 ∧ (4#32).toNat % 4 = 0 ∧ (7#32).toNat % 2 ≠ 0 ∧
    ∃ s : State, s.warp.pc % 4 ≠ 0 :=
  ⟨by decide, by decide, by decide, by decide, by decide, { s1 with warp := { s1.warp with pc := 2 } }, by decide⟩

/-- AlignmentRule: the pc at the end of the code, and a long word of which only the first half is inside. -/
theorem witness_fetch_range : (∃ s : State, s.warp.pc % 4 = 0 ∧ spaceSize s.params .code < s.warp.pc + 4) ∧
    ∃ s : State, s.warp.pc % 4 = 0 ∧ s.codeWord s.warp.pc s.warp.pc = .ok 0x1001802D#32 ∧
      (0x1001802D#32).getLsbD 0 = true ∧ spaceSize s.params .code < s.warp.pc + 8 ∧ s.turn = .run s ∧
      s.fetch = .error (.fetchOutOfRange 56) :=
  ⟨⟨{ s1 with warp := { s1.warp with pc := 64 } }, by decide, by decide⟩,
    { s3 with params := { s3.params with codeSize := 60 } }, rfl, rfl, rfl, by decide, rfl, rfl⟩

/-- GlobalAccessFaults: no access is recorded in `s1`, so that no load there races. -/
theorem witness_calm : ∀ l' ∈ s1.warp.lanes, Takes Guard.open l' → ∀ x, readGpr s1.params l'.thread (2#7).toNat = .ok x →
    x.toNat % globalBytes .u16 = 0 → x.toNat + globalBytes .u16 ≤ s1.params.globalSize →
    Unraced s1 false [⟨.global, x.toNat, globalBytes .u16⟩] := fun _ _ _ _ _ _ _ => unraced_one _ _

/-- GlobalAccessFaults: lane 0 of `s1` with its three addresses: misaligned at R2 = 7; out of range at R3 = 0xFFFFFFFF
of a global memory one byte shorter; in range with no byte at R4. -/
theorem witness_global : ∃ l : Lane, s1.warp.lanes[0]? = some l ∧ Takes Guard.open l ∧
    readGpr s1.params l.thread 2 = .ok 7#32 ∧ (7#32).toNat % globalBytes .u16 ≠ 0 ∧
    readGpr s1.params l.thread 3 = .ok 0xFFFFFFFF#32 ∧ (0xFFFFFFFF#32).toNat % globalBytes .u8 = 0 ∧
    2 ^ 32 - 1 < (0xFFFFFFFF#32).toNat + globalBytes .u8 ∧
    readGpr s1.params l.thread 4 = .ok 0x80000000#32 ∧ (0x80000000#32).toNat % globalBytes .u32 = 0 ∧
    (0x80000000#32).toNat + globalBytes .u32 ≤ s1.params.globalSize ∧
    s1.byteAt .global ((0x80000000#32).toNat + 0) = none :=
  ⟨⟨.active, tA⟩, rfl, ⟨rfl, rfl⟩, rfl, by decide, rfl, by decide, by decide, rfl, by decide, by decide, rfl⟩

/-- No access has been recorded in `s2`. -/
theorem calm_two (sp : Space) (addr n : Nat) (w : Bool) : ¬ Contested s2 sp addr n w := fun ⟨_, h, _⟩ => by
  have e : s2.log = [] := rfl
  rw [e] at h
  cases h

/-- GldLoadsGlobal, its faults in lane 1 of `s2` after a lane with a false guard: the address register 126; misaligned
at R1 = 0x00030005; out of range at R3 = 0xFFFFFFFF of a global memory one byte shorter; in range with no byte at R4;
and, with bytes at R0 = 0, the destination 126. -/
theorem witness_gld_faults : s2.warp.lanes[1]? = some ⟨.active, tB⟩ ∧ Takes gE ⟨.active, tB⟩ ∧
    (∀ k < 1, ∀ l', s2.warp.lanes[k]? = some l' → guardHolds gE l'.thread = .ok false) ∧
    (∀ addr n, ¬ Contested s2 .global addr n false) ∧
    readGpr s2.params tB 126 = .error (.invalidRegister .general 126) ∧
    readGpr s2.params tB 1 = .ok 0x00030005#32 ∧ (0x00030005#32).toNat % globalBytes .u16 ≠ 0 ∧
    readGpr s2.params tB 3 = .ok 0xFFFFFFFF#32 ∧ (0xFFFFFFFF#32).toNat % globalBytes .u8 = 0 ∧
    2 ^ 32 - 1 < (0xFFFFFFFF#32).toNat + globalBytes .u8 ∧
    readGpr s2.params tB 4 = .ok 0x80000000#32 ∧ (0x80000000#32).toNat % globalBytes .u32 = 0 ∧
    (0x80000000#32).toNat + globalBytes .u32 ≤ s2.params.globalSize ∧
    s2.byteAt .global ((0x80000000#32).toNat + 0) = none ∧
    readGpr s2.params tB 0 = .ok 0#32 ∧ (∀ k < globalBytes .u32, s2.byteAt .global ((0#32).toNat + k) ≠ none) ∧
    ¬ FieldExists s2.params .b32 (126#7).toNat := by
  refine ⟨rfl, ⟨rfl, rfl⟩, fun k hk l' h => ?_, fun _ _ => calm_two _ _ _ _, rfl, rfl, by decide, rfl, by decide,
    by decide, rfl, by decide, by decide, rfl, rfl, by decide, (by decide : ¬ (126#7).toNat < gprCount s2.params)⟩
  obtain rfl : k = 0 := by omega
  cases h
  rfl

/-- Where an instruction completes in some state, its launch does not decline it. -/
theorem not_declined {i : Instr} {s t : State} (h : exec i s = .next t) : ¬ Declined i s.params := fun ⟨_, hw⟩ => by
  rw [hw s rfl] at h
  cases h

/-- UnreadableGuardFaults: after a lane with a false guard, C1 of an unwritten thread. -/
theorem witness_guard : ∃ s : State, s.params = s2.params ∧ s.warp.lanes[1]? = some ⟨.active, Thread.unwritten⟩ ∧
    (Thread.unwritten.predAt 1#2).written = false ∧
    (∀ k < 1, ∀ l', s.warp.lanes[k]? = some l' → guardHolds gE l'.thread = .ok false) ∧
    guarded gE (.mov ca 6#7 (.reg 2#7) .b32 false) = some (.mov ⟨.normal, gE⟩ 6#7 (.reg 2#7) .b32 false) ∧
    ¬ Declined (.mov ⟨.normal, gE⟩ 6#7 (.reg 2#7) .b32 false) s2.params := by
  have hn : ∃ t, exec (.mov ⟨.normal, gE⟩ 6#7 (.reg 2#7) .b32 false) s2 = .next t := ⟨_, rfl⟩
  refine ⟨machine 2 fun i => if i = 0 then tA else Thread.unwritten, rfl, rfl, rfl, fun k hk l' h => ?_, rfl,
    hn.elim fun _ => not_declined⟩
  obtain rfl : k = 0 := by omega
  cases h
  rfl

/-- RegisterNumbers: the last register and the first number that names none, with and without `R124_IS_ZERO`; a written
register and an unwritten one. -/
theorem witness_registers : s1.params.r124IsZero = true ∧ 123 < gprCount s1.params ∧ gprCount s1.params ≤ 124 ∧
    gprCount s1.params ≤ 125 ∧ (125 ≠ 124 ∨ s1.params.r124IsZero = false) ∧
    gprCount { s1.params with numGpr := 16, r124IsZero := false } ≤ 16 ∧
    (tA.gprAt 123).loWritten = true ∧ (tA.gprAt 123).hiWritten = true ∧
    (Thread.unwritten.gprAt 123).loWritten = false := by decide

/-- RegisterNumbers: A4 and A5 with `NUM_AREG` 5, A15 and A16 with all of them; a written one and an unwritten one. -/
theorem witness_address_registers : 4 < min s1.params.numAreg 16 ∧ min s1.params.numAreg 16 ≤ 5 ∧
    15 < min { s1.params with numAreg := 127 }.numAreg 16 ∧ min { s1.params with numAreg := 127 }.numAreg 16 ≤ 16 ∧
    (tA.aregAt 4).written = true ∧ (Thread.unwritten.aregAt 15).written = false := by decide

/-- FloatConversions: 2^31 - 128 and -2^31 lie inside the signed range, 2^32 - 256 and 0 inside the unsigned one; an
infinity, 2^31 and the least negative number lie outside; the bounds of the integers of I2F. -/
theorem witness_float_range :
    (F32Finite 0x4EFFFFFF#32 ∧ intLow true ≤ f32Value 0x4EFFFFFF#32 ∧ f32Value 0x4EFFFFFF#32 ≤ intHigh true) ∧
    (F32Finite 0xCF000000#32 ∧ intLow true ≤ f32Value 0xCF000000#32 ∧ f32Value 0xCF000000#32 ≤ intHigh true) ∧
    (F32Finite 0x4F7FFFFF#32 ∧ intLow false ≤ f32Value 0x4F7FFFFF#32 ∧ f32Value 0x4F7FFFFF#32 ≤ intHigh false) ∧
    (F32Finite 0#32 ∧ intLow false ≤ f32Value 0#32 ∧ f32Value 0#32 ≤ intHigh false) ∧
    ¬ F32Finite 0x7F800000#32 ∧
    (f32Value 0x4F000000#32 < intLow true ∨ intHigh true < f32Value 0x4F000000#32) ∧
    (f32Value 0x80000001#32 < intLow false ∨ intHigh false < f32Value 0x80000001#32) ∧
    (-2 ^ 31 ≤ intValue true 0x80000000#32 ∧ intValue false 0xFFFFFFFF#32 < 2 ^ 32) := by
  have inside (sg : Bool) (a : Word) (hf : F32Finite a)
      (h : f2iInRange sg a.msb 32 (f32Num a) (f32Den a) = true) :
      F32Finite a ∧ intLow sg ≤ f32Value a ∧ f32Value a ≤ intHigh sg := ⟨hf, (f2iInRange_iff sg a).1 h⟩
  have outside (sg : Bool) (a : Word) (h : f2iInRange sg a.msb 32 (f32Num a) (f32Den a) = false) :
      f32Value a < intLow sg ∨ intHigh sg < f32Value a := by
    by_contra hc
    simp only [not_or, not_lt] at hc
    exact absurd ((f2iInRange_iff sg a).2 hc) (by simp [h])
  exact ⟨inside _ _ (by decide) (by decide), inside _ _ (by decide) (by decide), inside _ _ (by decide) (by decide),
    inside _ _ (by decide) (by decide), by decide, outside _ _ (by decide), outside _ _ (by decide), by decide⟩

/-- R201, R215: 3.75 to nearest is 4, toward zero 3. -/
theorem test_f2i_nearest : f2iValue .nearest true 32 0x40700000#32 = 4#32 ∧
    f2iValue .zero true 32 0x40700000#32 = 3#32 := by decide

/-- R216: 2^24 + 3 toward zero; 2^32 - 256 is held exactly whatever the rounding. -/
theorem test_i2f_exact : i2fValue .zero true 0x1000003 = 0x4B800001#32 ∧
    i2fValue .nearest false 0xFFFFFF00 = 0x4F7FFFFF#32 := by decide

/-- HalfRegisters: the last register. -/
theorem witness_halves : 123 < gprCount s1.params := by decide

/-- `s1` after another warp's access to byte 7 of the block's shared memory. -/
def shared7 (w : Bool) : State := { s1 with log := [⟨.shared 0, 7, 1, 0, 1, 0, w⟩] }

/-- RacesStop: lane 1 of `s2` is to read 4 bytes at R2 = 8, of which another block has written the last; lane 0 stands
at R2 = 7, which is misaligned. -/
theorem witness_race_load : ∃ l ∈ (raced s2).warp.lanes, Takes Guard.open l ∧ ∃ addr : Word,
    readGpr (raced s2).params l.thread (2#7).toNat = .ok addr ∧ addr.toNat % globalBytes .u32 = 0 ∧
    addr.toNat + globalBytes .u32 ≤ (raced s2).params.globalSize ∧
    Contested (raced s2) .global addr.toNat (globalBytes .u32) false :=
  ⟨⟨.active, tB⟩, List.mem_cons_of_mem _ List.mem_cons_self, ⟨rfl, rfl⟩, 8#32, rfl, by decide, by decide, _,
    List.mem_singleton.mpr rfl, rfl, .inl rfl, .inl (by decide), by decide, by decide, by decide⟩

/-- RacesStop: a MOV of the shared word at A1 + 0 = 4, of which another warp of the block has written the last byte. -/
theorem witness_race_shared :
    sharedOperand (.mov ca 6#7 (.shared 0#5 .u32 1#3) .b32 false) = some ⟨0, .u32, 1⟩ ∧
    ¬ Declined (.mov ca 6#7 (.shared 0#5 .u32 1#3) .b32 false) (shared7 true).params ∧
    ∃ l ∈ (shared7 true).warp.lanes, TakesPart (.mov ca 6#7 (.shared 0#5 .u32 1#3) .b32 false) l ∧
      ∃ base, readAreg (shared7 true).params l.thread 1 = .ok base ∧
        let addr := (base.toNat + 0 * elemBytes .u32) % 2 ^ 32
        addr % elemBytes .u32 = 0 ∧ addr + elemBytes .u32 ≤ (shared7 true).params.sharedSize ∧
          Contested (shared7 true) (.shared (shared7 true).warp.block) addr (elemBytes .u32) false := by
  have hn : ∃ t, exec (.mov ca 6#7 (.shared 0#5 .u32 1#3) .b32 false) s1 = .next t := ⟨_, rfl⟩
  refine ⟨rfl, hn.elim fun _ h => not_declined (s := s1) h, ⟨.active, tA⟩, List.mem_singleton.mpr rfl,
    ⟨rfl, fun g h => ?_⟩, 4#32, rfl, by decide, by decide, _, List.mem_singleton.mpr rfl, rfl, .inl rfl,
    .inr (by decide), by decide, by decide, by decide⟩
  simp only [guarded, withCtl, ca, Option.some.injEq, Instr.mov.injEq, Ctl.mk.injEq, true_and, and_true] at h
  rw [h]
  rfl

/-- RacesStop: a GST of R2 to the word at 0, of which another block has read byte 3. -/
theorem witness_race_gst : ∃ s : State,
    LanesReady s Guard.open (fun t => ∃ addr v, readGpr s.params t (0#7).toNat = .ok addr ∧
      readGpr s.params t (2#7).toNat = .ok v ∧ addr.toNat % globalBytes .u32 = 0 ∧
      addr.toNat + globalBytes .u32 ≤ s.params.globalSize) ∧
    ∃ l ∈ s.warp.lanes, Takes Guard.open l ∧ ∃ addr, readGpr s.params l.thread (0#7).toNat = .ok addr ∧
      Contested s .global addr.toNat (globalBytes .u32) true :=
  ⟨{ s1 with log := [⟨.global, 3, 1, 1, 0, 0, false⟩] },
    fun l hl _ => lane_s1 hl ▸ .inr ⟨rfl, 0#32, 7#32, rfl, rfl, by decide, by decide⟩, ⟨.active, tA⟩, List.mem_singleton.mpr rfl, ⟨rfl, rfl⟩,
    0#32, rfl, _, List.mem_singleton.mpr rfl, rfl, .inr rfl, .inl (by decide), by decide, by decide, by decide⟩

/-- RacesStop: an R2G of R2 to the word at A1 + 0 = 4, of which another warp of the block has read the last byte. -/
theorem witness_race_r2g :
    LanesReady (shared7 false) Guard.open (fun t => ∃ (base : Word) (v : BitVec Size.b32.bits),
      readAreg (shared7 false).params t (1#3).toNat = .ok base ∧
      readReg (shared7 false).params t .b32 (2#7).toNat = .ok v ∧
      (base.toNat + (0#14).toNat * Size.b32.bytes) % 2 ^ 32 % Size.b32.bytes = 0 ∧
      (base.toNat + (0#14).toNat * Size.b32.bytes) % 2 ^ 32 + Size.b32.bytes ≤ (shared7 false).params.sharedSize) ∧
    ∃ l ∈ (shared7 false).warp.lanes, Takes Guard.open l ∧ ∃ base : Word,
      readAreg (shared7 false).params l.thread (1#3).toNat = .ok base ∧
      Contested (shared7 false) (.shared (shared7 false).warp.block)
        ((base.toNat + (0#14).toNat * Size.b32.bytes) % 2 ^ 32) Size.b32.bytes true :=
  ⟨fun l hl _ => lane_s1 hl ▸ .inr ⟨rfl, 4#32, _, rfl, rfl, by decide, by decide⟩, ⟨.active, tA⟩, List.mem_singleton.mpr rfl, ⟨rfl, rfl⟩,
    4#32, rfl, _, List.mem_singleton.mpr rfl, rfl, .inr rfl, .inr (by decide), by decide, by decide, by decide⟩

/-- RacesStop: the two lanes of `s2` store the low bytes of R2 = 7 and R2 = 8 at 0. -/
theorem witness_race_store :
    LanesReady s2 Guard.open (fun t => ∃ addr v, readGpr s2.params t (0#7).toNat = .ok addr ∧
      readGpr s2.params t (2#7).toNat = .ok v ∧ addr.toNat % globalBytes .u8 = 0 ∧
      addr.toNat + globalBytes .u8 ≤ s2.params.globalSize) ∧
    ∃ (i j : Nat) (l l' : Lane) (addr addr' v v' : Word), i < j ∧ s2.warp.lanes[i]? = some l ∧
      s2.warp.lanes[j]? = some l' ∧ Takes Guard.open l ∧ Takes Guard.open l' ∧
      readGpr s2.params l.thread (0#7).toNat = .ok addr ∧ readGpr s2.params l'.thread (0#7).toNat = .ok addr' ∧
      readGpr s2.params l.thread (2#7).toNat = .ok v ∧ readGpr s2.params l'.thread (2#7).toNat = .ok v' ∧
      addr.toNat < addr'.toNat + globalBytes .u8 ∧ addr'.toNat < addr.toNat + globalBytes .u8 ∧
      v.toNat % 2 ^ (8 * globalBytes .u8) ≠ v'.toNat % 2 ^ (8 * globalBytes .u8) := by
  constructor
  · intro l hl _
    rw [lanes_s2] at hl
    rcases List.mem_cons.mp hl with rfl | hl
    · exact .inr ⟨rfl, 0#32, 7#32, rfl, rfl, by decide, by decide⟩
    · rw [List.mem_singleton.mp hl]
      exact .inr ⟨rfl, 0#32, 8#32, rfl, rfl, by decide, by decide⟩
  · exact ⟨0, 1, _, _, 0#32, 0#32, 7#32, 8#32, by decide, rfl, rfl, ⟨rfl, rfl⟩, ⟨rfl, rfl⟩, rfl, rfl, rfl, rfl,
      by decide, by decide, by decide⟩

/-- RacesStop: the two lanes of `s2` store R2L = 7 and R2L = 8 at A1 + 2 = 6 of shared memory. -/
theorem witness_race_lanes :
    LanesReady s2 Guard.open (fun t => ∃ (base : Word) (v : BitVec Size.b16.bits),
      readAreg s2.params t (1#3).toNat = .ok base ∧ readReg s2.params t .b16 (4#7).toNat = .ok v ∧
      (base.toNat + (1#14).toNat * Size.b16.bytes) % 2 ^ 32 % Size.b16.bytes = 0 ∧
      (base.toNat + (1#14).toNat * Size.b16.bytes) % 2 ^ 32 + Size.b16.bytes ≤ s2.params.sharedSize) ∧
    ∃ (i j : Nat) (l l' : Lane) (v v' : BitVec Size.b16.bits), i < j ∧ s2.warp.lanes[i]? = some l ∧
      s2.warp.lanes[j]? = some l' ∧ Takes Guard.open l ∧ Takes Guard.open l' ∧
      readAreg s2.params l.thread (1#3).toNat = .ok 4#32 ∧ readAreg s2.params l'.thread (1#3).toNat = .ok 4#32 ∧
      readReg s2.params l.thread .b16 (4#7).toNat = .ok v ∧ readReg s2.params l'.thread .b16 (4#7).toNat = .ok v' ∧
      v ≠ v' := by
  constructor
  · intro l hl _
    rw [lanes_s2] at hl
    rcases List.mem_cons.mp hl with rfl | hl
    · exact .inr ⟨rfl, 4#32, _, rfl, rfl, by decide, by decide⟩
    · rw [List.mem_singleton.mp hl]
      exact .inr ⟨rfl, 4#32, _, rfl, rfl, by decide, by decide⟩
  · exact ⟨0, 1, _, _, 7#16, 8#16, by decide, rfl, rfl, ⟨rfl, rfl⟩, ⟨rfl, rfl⟩, rfl, rfl, rfl, rfl, by decide⟩

/-- OptionsDeclined: the first segment that the launch does not have, and a shift by 32 in a launch that shifts. -/
theorem witness_declined : s1.params.constSize.length ≤ (2#4).toNat ∧ (1#7 ≠ 0#7) ∧ 32 ≤ (32#12).toNat ∧
    ∃ s : State, s.params.r2aImmOp = .shl :=
  ⟨by decide, by decide, by decide, { s1 with params := { s1.params with r2aImmOp := .shl } }, rfl⟩

/-- TwentyFourBitForms, FloatMultiplyAdds, FunctionsOfOneSource: a launch without the parameter. -/
theorem witness_absent : ∃ s : State, s.params.mul24 = false ∧ s.params.fmad32 = false ∧ s.params.sfu = false :=
  ⟨{ s1 with params := { s1.params with mul24 := false, fmad32 := false, sfu := false } }, rfl, rfl, rfl⟩

/-- LaunchStartsWarps: a launch with a block and lanes; a lane that holds a thread and one that does not, at the end
of the block. -/
theorem witness_launch : 0 < s4.params.gridBlocks ∧ 0 < s4.params.warpSize ∧
    0 * s4.params.warpSize + 0 < s4.params.blockThreads ∧
    ¬ 0 * s4.params.warpSize + 1 < s4.params.blockThreads := by decide
end
end

section
/-!
The 24-bit forms (R158, R159, R172). Two rules say what a check before the lanes does to an instruction, one what a
read that succeeds hands on; with them each form follows from `delivers_of` or `delivers_low`.
-/
namespace Sys2Proof.Machine

/-- An instruction whose check finds nothing runs its lanes. -/
theorem exec_of_unless_none {i : Instr} {s : State} {problem : Option Reject} {k : Out}
    (hexec : exec i s = s.unless problem k) (hnone : problem = none) : exec i s = k := by
  rw [hexec, hnone, State.unless_none]

/-- An instruction whose check finds a problem is declined. -/
theorem exec_of_unless_some {i : Instr} {s : State} {problem : Option Reject} {k : Out} {why : Reject}
    (hexec : exec i s = s.unless problem k) (hsome : problem = some why) : exec i s = s.refuse why := by
  rw [hexec, hsome, State.unless_some]

/-- `ok_bind`, for a read that is known to succeed. -/
theorem bind_of_ok {α β : Type} {x : Except Cause α} {a : α} {f : α → Except Cause β} (h : x = .ok a) :
    (x >>= f) = f a := by
  rw [h, ok_bind]

/-- The check for the parameter `MUL24` (R8) in a launch that does not take it. -/
theorem mul24_check_absent {p : Params} (h : p.mul24 = false) (q : Option Reject) :
    (if p.mul24 then q else some .mul24Absent) = some .mul24Absent :=
  if_neg (Bool.eq_false_iff.mp h)

/-- Settles O28: the check that each form makes before its lanes run finds nothing where the launch takes `MUL24`,
and there the lane's reads hand on exactly the operands that the result names; else it is the refusal. -/
theorem twentyFourBitForms : Obligations.TwentyFourBitForms := by
  unfold Obligations.TwentyFourBitForms
  refine ⟨fun ctl d set s1 s2 s => ⟨fun htakes => ?imul24, fun habsent => ?imul24Absent⟩,
    fun d s1 s2 s => ⟨fun htakes => ?imul32, fun habsent => ?imul32Absent⟩,
    fun ctl d set s1 s2 s3 s => ⟨fun htakes hseg => ?imad24, fun habsent => ?imad24Absent⟩⟩
  case imul24 =>
    refine delivers_of (exec_of_unless_none rfl (if_pos htakes)) ?_
    rintro t r ⟨a, b, ha, hb, rfl⟩
    exact (bind_of_ok ha).trans (bind_of_ok hb)
  case imul32 =>
    refine delivers_low (exec_of_unless_none rfl (if_pos htakes)) ?_
    rintro t r ⟨a, b, ha, hb, rfl⟩
    exact (bind_of_ok ha).trans (bind_of_ok hb)
  case imad24 =>
    refine delivers_of (exec_of_unless_none rfl ((if_pos htakes).trans hseg)) ?_
    rintro t r ⟨a, b, c, ha, hb, hc, rfl⟩
    exact (bind_of_ok ha).trans ((bind_of_ok hb).trans (bind_of_ok hc))
  case imul24Absent => exact exec_of_unless_some rfl (mul24_check_absent habsent _)
  case imul32Absent => exact exec_of_unless_some rfl (mul24_check_absent habsent _)
  case imad24Absent => exact exec_of_unless_some rfl (mul24_check_absent habsent _)

end Sys2Proof.Machine
end

section
/-!
Steps of the machine (R35, R36, R41, R130, R134, R140). A step is a barrier release, which moves every warp by
`releaseWarp`, or one instruction of a warp selected to run, which `exec_next` describes; each statement about steps
is proved for these two cases.
-/
namespace Sys2Proof.Machine

/-! ### What a release and an instruction keep of a warp -/

theorem State.release_everyWarp (s : State) (b : Nat) :
    (s.release b).everyWarp = s.everyWarp.map (releaseWarp b) := rfl

/-- A warp that leaves a barrier is running, and its active lane is the one it waited with. -/
theorem releaseWarp_sound {p : Params} {b : Nat} {w : Warp} (h : w.Sound p) : (releaseWarp b w).Sound p := by
  unfold releaseWarp
  split
  · next hwaits => exact ⟨h.depth, fun _ => h.alive (.inr hwaits.2), fun hfin => by cases hfin⟩
  · exact h

/-- The lanes of a warp keep their number, whatever instruction it runs. -/
theorem exec_lanes_length {i : Instr} {s t : State} (h : exec i s = .next t) :
    t.warp.lanes.length = s.warp.lanes.length := by
  rcases exec_shape i s with hflow | ⟨why, hwhy⟩ | ⟨mk, g, len, ranges, body, hexec, _⟩
  · obtain ⟨w, rfl, hthreads, _⟩ := flow_next hflow h
    simpa [Warp.threads] using congrArg List.length hthreads
  · rw [hwhy] at h
    cases h
  · exact (execLanes_lanes (hexec ▸ h)).1

/-! ### The invariant -/

/-- A barrier release keeps the invariant; the counter of choices has no part in it. -/
theorem State.Inv.release {s : State} (h : s.Inv) (b k : Nat) : (State.release { s with clock := k } b).Inv where
  global := h.global
  shared := h.shared
  const := h.const
  code := h.code
  warps := by
    intro w hw
    obtain ⟨v, hv, rfl⟩ := List.mem_map.mp (State.release_everyWarp _ b ▸ hw)
    exact releaseWarp_sound (h.warps v hv)
  names := by
    rw [State.release_everyWarp, List.pairwise_map]
    exact h.names.imp fun hd => hd.congr (by simp) (by simp) (by simp) (by simp)

/-- The warp whose turn it is to run stands in a state that meets the invariant and is running. -/
theorem State.Inv.turn_run {s s' : State} (h : s.Inv) (hturn : s.turn = .run s') :
    s'.Inv ∧ s'.warp.status = .running := by
  obtain ⟨hrun, hperm, hparams, hglobal, hshared, hconst, hcode⟩ := State.turn_run_named h.names hturn
  refine ⟨⟨hglobal ▸ h.global, hshared ▸ h.shared, hconst ▸ h.const, hcode ▸ h.code, fun w hw => ?_, ?_⟩, hrun⟩
  · exact hparams ▸ h.warps w (hperm.mem_iff.mp hw)
  · exact (hperm.pairwise_iff fun hd => hd.symm).mpr h.names

/-- An instruction of a running warp keeps the invariant. -/
theorem State.Inv.exec {s t : State} {i : Instr} (h : s.Inv) (hrun : s.warp.status = .running)
    (hexec : exec i s = .next t) : t.Inv := by
  obtain ⟨hparams, hrest, hconst, hcode, _, _, hfollows, hwf⟩ := exec_next hexec
  obtain ⟨hglobal, hshared⟩ := hwf h.global h.shared
  obtain ⟨hfirst, hothers⟩ := List.pairwise_cons.mp h.names
  refine ⟨hglobal, hshared, hconst ▸ h.const, hcode ▸ h.code, fun w hw => ?_, ?_⟩
  · rw [hparams]
    rcases List.mem_cons.mp hw with rfl | hw
    · exact hfollows.sound (h.warps s.warp List.mem_cons_self) hrun
    · exact h.warps w (List.mem_cons_of_mem _ (hrest ▸ hw))
  · rw [State.everyWarp, hrest]
    exact List.pairwise_cons.mpr ⟨fun v hv => (hfirst v hv).congr hfollows.block hfollows.index rfl rfl, hothers⟩

/-- Settles O8: the invariant through a barrier release, and through the selection of a running warp and its
instruction. -/
theorem stepKeepsInv : Obligations.StepKeepsInv := by
  unfold Obligations.StepKeepsInv
  intro s t hinv hstep
  rcases step_next hstep with ⟨b, k, rfl, _⟩ | ⟨s', w, i, hturn, _, _, hexec⟩
  · exact hinv.release b k
  · obtain ⟨⟨hglobal, hshared, hconst, hcode, hwarps, hnames⟩, hrun⟩ := hinv.turn_run hturn
    exact State.Inv.exec (s := s'.withIr w) ⟨hglobal, hshared, hconst, hcode, hwarps, hnames⟩ hrun hexec

/-! ### Ended lanes -/

/-- R36, for one warp: `v` is the same warp later, its lanes as many and those that have ended as they were. -/
structure EndedStay (w v : Warp) : Prop where
  block : v.block = w.block
  index : v.index = w.index
  length : v.lanes.length = w.lanes.length
  ended : KeepsEnded w v

theorem EndedStay.refl (w : Warp) : EndedStay w w := ⟨rfl, rfl, rfl, .refl w⟩

theorem EndedStay.release (b : Nat) (w : Warp) : EndedStay w (releaseWarp b w) where
  block := releaseWarp_block b w
  index := releaseWarp_index b w
  length := by rw [releaseWarp_lanes]
  ended := fun j l hl _ => by rw [releaseWarp_lanes, hl]

theorem EndedStay.exec {i : Instr} {s t : State} (h : exec i s = .next t) : EndedStay s.warp t.warp := by
  obtain ⟨_, _, _, _, _, _, hfollows, _⟩ := exec_next h
  exact ⟨hfollows.block, hfollows.index, exec_lanes_length h, hfollows.ended⟩

/-- After a step every warp is still there, with its ended lanes. -/
theorem step_endedStay {s t : State} (hnamed : s.Named) (h : step s = .next t) {w : Warp} (hw : w ∈ s.everyWarp) :
    ∃ v ∈ t.everyWarp, EndedStay w v := by
  rcases step_next h with ⟨b, k, rfl, _⟩ | ⟨s', wd, i, hturn, _, _, hexec⟩
  · exact ⟨releaseWarp b w, List.mem_map_of_mem hw, .release b w⟩
  · obtain ⟨_, hperm, _⟩ := State.turn_run_named hnamed hturn
    obtain ⟨_, hrest, _⟩ := exec_next hexec
    rcases List.mem_cons.mp (hperm.mem_iff.mpr hw) with rfl | hother
    · exact ⟨t.warp, List.mem_cons_self, .exec (s := s'.withIr wd) hexec⟩
    · exact ⟨w, List.mem_cons_of_mem _ (hrest ▸ hother), .refl w⟩

/-- Settles O11: `step_endedStay`, which needs of the invariant that the warps have different names. -/
theorem endedLanesStay : Obligations.EndedLanesStay := by
  unfold Obligations.EndedLanesStay
  intro s t hinv hstep w hw
  obtain ⟨v, hv, hblock, hindex, hlength, hended⟩ := step_endedStay hinv.names hstep hw
  exact ⟨v, hv, hblock, hindex, hlength, hended⟩

/-! ### What no step changes -/

/-- Settles O12: neither a release, nor the selection of a warp, nor an instruction writes these fields. -/
theorem codeAndConstantsFixed : Obligations.CodeAndConstantsFixed := by
  unfold Obligations.CodeAndConstantsFixed
  intro s t hstep
  rcases step_next hstep with ⟨b, k, rfl, _⟩ | ⟨s', w, i, hturn, _, _, hexec⟩
  · exact ⟨rfl, rfl, rfl⟩
  · obtain ⟨b, n, k, rfl, _⟩ := State.turn_run hturn
    obtain ⟨hparams, _, _, hconst, hcode, _⟩ := State.select_fields { s with clock := k } b n
    obtain ⟨hparams', _, hconst', hcode', _⟩ := exec_next hexec
    exact ⟨hcode'.trans hcode, hconst'.trans hconst, hparams'.trans hparams⟩

end Sys2Proof.Machine
end

section
/-!
Which instructions write global memory, shared memory and the address registers (R33, R180). `exec_shape` says in
which space an instruction with lanes stores and when it leaves the address registers; here its stores are applied.
-/
namespace Sys2Proof.Machine

/-- Stores to other spaces leave global memory. -/
theorem State.applyStores_global (sts : List Store) : ∀ s : State, (∀ st ∈ sts, st.space ≠ .global) →
    (s.applyStores sts).global = s.global := by
  induction sts with
  | nil => exact fun _ _ => rfl
  | cons st rest ih =>
    intro s h
    rw [State.applyStores, ih _ fun a ha => h a (List.mem_cons_of_mem _ ha)]
    cases hsp : st.space with
    | global => exact absurd hsp (h st List.mem_cons_self)
    | code | shared | const => simp only [State.applyStore, hsp]

/-- Stores to other spaces leave the shared memories. -/
theorem State.applyStores_shared (sts : List Store) : ∀ s : State, (∀ st ∈ sts, ∀ b, st.space ≠ .shared b) →
    (s.applyStores sts).shared = s.shared := by
  induction sts with
  | nil => exact fun _ _ => rfl
  | cons st rest ih =>
    intro s h
    rw [State.applyStores, ih _ fun a ha => h a (List.mem_cons_of_mem _ ha)]
    cases hsp : st.space with
    | shared b => exact absurd hsp (h st List.mem_cons_self b)
    | code | global | const => simp only [State.applyStore, hsp]

/-- Every store of an instruction's lanes is the work of a lane. -/
theorem mem_storesOf_runLanes {g : Guard} {body : Thread → Except Cause Work} {ls : List Lane} {outs : List LaneOut}
    (ho : runLanes (laneOut (guardHolds g) body) 0 ls = .ok outs) {st : Store} (hst : st ∈ storesOf outs) :
    ∃ t w, body t = .ok w ∧ w.store = some st := by
  obtain ⟨o, hmem, hstore⟩ := mem_storesOf.mp hst
  obtain ⟨l, _, hlane⟩ := runLanes_mem ho hmem
  rcases laneOut_ok hlane with ⟨_, rfl⟩ | ⟨_, w, hw, rfl⟩
  · cases hstore
  · exact ⟨l.thread, w, hw, hstore⟩

/-- A warp with the threads of another has each lane's registers. -/
theorem Warp.thread_of_threads {w v : Warp} (h : v.threads = w.threads) {j : Nat} {l l' : Lane}
    (hl : w.lanes[j]? = some l) (hl' : v.lanes[j]? = some l') : l'.thread = l.thread := by
  have hj := congrArg (·[j]?) h
  simpa [Warp.threads, hl, hl'] using hj

/-- Settles O13: a flow instruction writes neither memory nor thread; the lanes of any other store and write address
registers only as `BodySpec` says. -/
theorem onlyTheirWritersWrite : Obligations.OnlyTheirWritersWrite := by
  unfold Obligations.OnlyTheirWritersWrite
  intro i s t h
  rcases exec_shape i s with hflow | ⟨why, hwhy⟩ | ⟨mk, g, len, ranges, body, hexec, hspec⟩
  · obtain ⟨w, rfl, hthreads, _⟩ := flow_next hflow h
    exact ⟨fun _ => rfl, fun _ => rfl, fun _ _ j l l' hl hl' => by
      rw [Warp.thread_of_threads hthreads hl hl']⟩
  · rw [hwhy] at h
    cases h
  · rw [hexec] at h
    refine ⟨fun hgst => ?global, fun hr2g => ?shared, fun hr2a hada j l l' hl hl' => ?areg⟩
    case global =>
      obtain ⟨outs, w, ho, _, _, rfl⟩ := execLanes_next h
      refine State.applyStores_global _ s fun st hst hglobal => ?_
      obtain ⟨th, wk, hwk, hstore⟩ := mem_storesOf_runLanes ho hst
      rcases hspec.store th wk st hwk hstore with ⟨⟨ctl, dreg, areg, ty, hi⟩, _⟩ | ⟨_, hshared⟩
      · exact hgst ctl dreg areg ty hi
      · exact absurd (hglobal.symm.trans hshared) (by simp)
    case shared =>
      obtain ⟨outs, w, ho, _, _, rfl⟩ := execLanes_next h
      refine State.applyStores_shared _ s fun st hst b hshared => ?_
      obtain ⟨th, wk, hwk, hstore⟩ := mem_storesOf_runLanes ho hst
      rcases hspec.store th wk st hwk hstore with ⟨_, hglobal⟩ | ⟨⟨ctl, off, a, s3, sz, sg, hi⟩, _⟩
      · exact absurd (hglobal.symm.trans hshared) (by simp)
      · exact hr2g ctl off a s3 sz sg hi
    case areg =>
      obtain ⟨htakes, hother⟩ := (execLanes_lanes h).2 j l l' hl hl'
      by_cases ht : Takes g l
      · obtain ⟨wk, hwk, hthread⟩ := htakes ht
        rcases hspec.areg l.thread wk hwk with hsame | ⟨ctl, da, s1, imm, hi⟩ | ⟨ctl, da, a, imm, hi⟩
        · rw [hthread, hsame]
        · exact absurd hi (hr2a ctl da s1 imm)
        · exact absurd hi (hada ctl da a imm)
      · rw [hother ht]

end Sys2Proof.Machine
end

section
/-!
A guard that cannot be evaluated (R30, R105, R242). It is the fault of the first active lane that meets it: in
`takenFrom` for BRA and RET, in `laneOut` for the instructions with lanes.
-/
namespace Sys2Proof.Machine

/-- R30, R242: a guard that looks at an unwritten predicate register is a fault. -/
theorem guardHolds_of_unwritten {g : Guard} {t : Thread} (hnever : g.cc ≠ .never) (halways : g.cc ≠ .always)
    (h : (t.predAt g.pr).written = false) : guardHolds g t = .error (.uninitialisedPredicate g.pr.toNat) := by
  simp [guardHolds, readPred, hnever, halways, h]

/-- The lanes before the one that faults are asked for their guards, and each answers or is not active. -/
theorem takenFrom_error {g : Guard} {ls : List Lane} {j : Nat} {l : Lane} {c : Cause} (i : Nat)
    (hl : ls[j]? = some l) (hactive : l.status = .active) (hc : guardHolds g l.thread = .error c)
    (hbefore : ∀ k < j, ∀ l', ls[k]? = some l' → l'.status ≠ .active ∨ ∃ b, guardHolds g l'.thread = .ok b) :
    takenFrom g i ls = .error (i + j, c) := by
  induction ls generalizing i j with
  | nil => simp at hl
  | cons l0 rest ih =>
    cases j with
    | zero =>
      obtain rfl : l0 = l := by simpa using hl
      simp [takenFrom, hactive, hc]
    | succ j =>
      have hrest : takenFrom g (i + 1) rest = .error (i + (j + 1), c) := by
        rw [ih (i + 1) (by simpa using hl) fun k hk l' hl' => hbefore (k + 1) (by omega) l' (by simpa using hl')]
        simp only [Nat.add_assoc, Nat.add_comm 1]
      rcases hbefore 0 (by omega) l0 (by simp) with hidle | ⟨b, hb⟩
      · simp [takenFrom, hidle, hrest]
      · by_cases hact : l0.status = .active
        · simp [takenFrom, hact, hb, hrest]
        · simp [takenFrom, hact, hrest]

theorem execBra_of_taken_error {s : State} {g : Guard} {n : Nat} {c : Cause}
    (h : s.warp.taken g = .error (n, c)) (tgt : BitVec 18) : exec (.bra tgt g) s = s.raise (some n) c := by
  simp only [exec, execBra, h]

theorem execRet_of_taken_error {s : State} {g : Guard} {n : Nat} {c : Cause}
    (h : s.warp.taken g = .error (n, c)) : exec (.ret g) s = s.raise (some n) c := by
  simp only [exec, execRet, h]

/-- A lane whose guard faults faults. -/
theorem laneOut_error {g : Thread → Except Cause Bool} {body : Thread → Except Cause Work} {l : Lane} {c : Cause}
    (hactive : l.status = .active) (hc : g l.thread = .error c) : laneOut g body l = .error c := by
  simp only [laneOut, hactive, if_true, hc]

/-- R247: after lanes that do nothing, a guard that faults is the outcome of an instruction with lanes, unless a lane
reads in a race. -/
theorem execLanes_guard_fault {s : State} {mk : Marker} {g : Guard} {len : Nat} {ranges : Thread → List Range}
    {body : Thread → Except Cause Work} {n : Nat} {l : Lane} {c : Cause} (hl : s.warp.lanes[n]? = some l)
    (hactive : l.status = .active) (hc : guardHolds g l.thread = .error c)
    (hbefore : ∀ k < n, ∀ l', s.warp.lanes[k]? = some l' →
      l'.status ≠ .active ∨ guardHolds g l'.thread = .ok false) :
    execLanes s mk g len ranges body = s.raise (some n) c ∨
      execLanes s mk g len ranges body = s.raise none .race ∧
        ∃ l' ∈ s.warp.lanes, Takes g l' ∧ ∃ sp addr bytes, Contested s sp addr bytes false := by
  have hfault := execLanes_fault (mk := mk) (len := len) (ranges := ranges) hl
    (laneOut_error (body := body) hactive hc)
    fun k hk l' hl' => ⟨_, (hbefore k hk l' hl').elim laneOut_idle laneOut_false⟩
  by_cases hrace : s.readsRace g ranges = true
  · obtain ⟨l', hmem, htakes, r, _, hcontested⟩ := State.readsRace_contested.mp hrace
    exact .inr ⟨hfault.trans (if_pos hrace), l', hmem, htakes, r.space, r.addr, r.bytes, hcontested⟩
  · exact .inl (hfault.trans (if_neg hrace))

/-- What only the launch can decline has, in a launch that does not, no problem. -/
theorem problem_none_of_not_declined {i : Instr} {p : Params} {problem : Params → Option Reject} {k : State → Out}
    (hexec : ∀ s, exec i s = s.unless (problem s.params) (k s)) (h : ¬ Declined i p) : problem p = none := by
  cases hp : problem p with
  | none => rfl
  | some why => exact absurd ⟨why, fun s hs => exec_of_unless_some (hexec s) (hs ▸ hp)⟩ h

/-- Settles O50: the guard of the lane faults, in `takenFrom` for BRA and RET, in `execLanes` for the others. -/
theorem unreadableGuardFaults : Obligations.UnreadableGuardFaults := by
  unfold Obligations.UnreadableGuardFaults
  intro g s n l hnever halways hl hactive hunwritten
  have hguard := guardHolds_of_unwritten hnever halways hunwritten
  have flow : (∀ k < n, ∀ l', s.warp.lanes[k]? = some l' →
      l'.status ≠ .active ∨ ∃ b, guardHolds g l'.thread = .ok b) →
      s.warp.taken g = .error (n, .uninitialisedPredicate g.pr.toNat) := fun hbefore => by
    rw [Warp.taken, takenFrom_error 0 hl hactive hguard hbefore, Nat.zero_add]
  refine ⟨fun hbefore => ⟨execBra_of_taken_error (flow hbefore), execRet_of_taken_error (flow hbefore)⟩,
    fun hbefore i j hj hlaunch => ?_⟩
  have hflow := flow fun k hk l' hl' => (hbefore k hk l' hl').imp_right fun hfalse => ⟨false, hfalse⟩
  rcases guarded_shape hj with ⟨tgt, rfl⟩ | rfl | ⟨mk, problem, ranges, body, hexec⟩
  · exact .inl (execBra_of_taken_error hflow tgt)
  · exact .inl (execRet_of_taken_error hflow)
  · rw [exec_of_unless_none (hexec s) (problem_none_of_not_declined hexec hlaunch)]
    exact execLanes_guard_fault hl hactive hguard hbefore

end Sys2Proof.Machine
end

section
/-!
The launch (R44, R258, R270): its lanes, its warps block by block, and the invariant of the state it makes.
-/
namespace Sys2Proof.Machine

/-! ### One warp -/

/-- Lane j of the last n lanes of a launched warp. -/
theorem launchLanes_getElem? (p : Params) (thread : Nat → Thread) (index : Nat) : ∀ n j : Nat, n ≤ p.warpSize →
    (launchLanes p thread index n)[j]? = if j < n then
      some ⟨if index * p.warpSize + (p.warpSize - n + j) < p.blockThreads then .active else .ended,
        thread (index * p.warpSize + (p.warpSize - n + j))⟩
      else none := by
  intro n
  induction n with
  | zero => intro j _; rfl
  | succ n ih =>
    intro j hn
    cases j with
    | zero => simp [launchLanes]
    | succ j =>
      have hlane : p.warpSize - (n + 1) + (j + 1) = p.warpSize - n + j := by omega
      simp only [launchLanes, List.getElem?_cons_succ, ih j (by omega), Nat.add_lt_add_iff_right, hlane]

@[simp] theorem launchLanes_length (p : Params) (thread : Nat → Thread) (index n : Nat) :
    (launchLanes p thread index n).length = n := by
  induction n with
  | zero => rfl
  | succ n ih => rw [launchLanes, List.length_cons, ih]

/-- R44: lane i of a launched warp. -/
theorem launchWarp_getElem? (p : Params) (thread : Nat → Nat → Thread) (b index : Nat) {i : Nat}
    (hi : i < p.warpSize) :
    (launchWarp p thread b index).lanes[i]? = some
      ⟨if index * p.warpSize + i < p.blockThreads then .active else .ended,
        thread b (index * p.warpSize + i)⟩ := by
  rw [launchWarp, launchLanes_getElem? _ _ _ _ _ le_rfl, if_pos hi, Nat.sub_self, Nat.zero_add]

/-! ### The warps -/

/-- The pairs of a block and a number below two bounds, in order. -/
theorem launchWarps_eq (p : Params) (thread : Nat → Nat → Thread) :
    launchWarps p thread = ((List.range p.gridBlocks) ×ˢ (List.range p.warpsPerBlock)).map
      fun bi => launchWarp p thread bi.1 bi.2 := by
  simp [launchWarps, SProd.sprod, List.product, List.map_flatMap, Function.comp_def]

theorem mem_launchWarps {p : Params} {thread : Nat → Nat → Thread} {w : Warp} :
    w ∈ launchWarps p thread ↔
      ∃ b < p.gridBlocks, ∃ i < p.warpsPerBlock, launchWarp p thread b i = w := by
  simp [launchWarps]

theorem launchWarps_length (p : Params) (thread : Nat → Nat → Thread) :
    (launchWarps p thread).length = p.gridBlocks * p.warpsPerBlock := by
  rw [launchWarps_eq, List.length_map, List.length_product, List.length_range, List.length_range]

/-- No two warps of a launch have one name: a block and a number stand once among the pairs. -/
theorem launchWarps_named (p : Params) (thread : Nat → Nat → Thread) :
    (launchWarps p thread).Pairwise Warp.Differs := by
  rw [launchWarps_eq, List.pairwise_map]
  exact (List.nodup_range.product List.nodup_range).imp fun hne hname => hne (Prod.ext hname.1 hname.2)

theorem launchWarps_nodup (p : Params) (thread : Nat → Nat → Thread) : (launchWarps p thread).Nodup :=
  (launchWarps_named p thread).imp fun hdiffers heq => hdiffers ⟨congrArg _ heq, congrArg _ heq⟩

theorem warpsPerBlock_pos (p : Params) : 0 < p.warpsPerBlock := Nat.le_max_left 1 _

/-- The first warp of a launch is warp 0 of block 0. -/
theorem launch_everyWarp {p : Params} (thread : Nat → Nat → Thread) (global shared const code : Memory)
    (h : 0 < p.gridBlocks) :
    (State.launch p thread global shared const code).everyWarp = launchWarps p thread := by
  have hhead : (launchWarps p thread).head? = some (launchWarp p thread 0 0) := by
    obtain ⟨n, hn⟩ := Nat.exists_eq_succ_of_ne_zero h.ne'
    obtain ⟨m, hm⟩ := Nat.exists_eq_succ_of_ne_zero (warpsPerBlock_pos p).ne'
    simp [launchWarps, hn, hm, List.range_succ_eq_map]
  exact List.cons_head?_tail hhead

/-- In a list without repetitions a member has one place. -/
theorem existsUnique_getElem? {α : Type} {l : List α} (hnodup : l.Nodup) {a : α} (h : a ∈ l) :
    ∃! k : Nat, l[k]? = some a := by
  obtain ⟨k, hk⟩ := List.mem_iff_getElem?.mp h
  refine ⟨k, hk, fun m hm => ?_⟩
  obtain ⟨hlt, _⟩ := List.getElem?_eq_some_iff.mp hm
  exact (List.getElem?_inj hlt hnodup).mp (hm.trans hk.symm)

/-- R258: as many warps as the threads of a block need, and at least one. -/
theorem warpsPerBlock_bounds {p : Params} (h : 0 < p.warpSize) :
    p.blockThreads ≤ p.warpsPerBlock * p.warpSize ∧
      (p.warpsPerBlock = 1 ∨ (p.warpsPerBlock - 1) * p.warpSize < p.blockThreads) := by
  have hceil : (p.blockThreads + p.warpSize - 1) / p.warpSize = p.blockThreads ⌈/⌉ p.warpSize := rfl
  have hup : p.blockThreads ≤ (p.blockThreads ⌈/⌉ p.warpSize) * p.warpSize := by
    rw [mul_comm]; exact le_smul_ceilDiv h
  rw [Params.warpsPerBlock, hceil]
  refine ⟨hup.trans (Nat.mul_le_mul_right _ (Nat.le_max_right 1 _)), ?_⟩
  rcases le_or_gt (p.blockThreads ⌈/⌉ p.warpSize) 1 with hone | hmore
  · exact .inl (max_eq_left hone)
  · have hfewer : ¬ p.blockThreads ⌈/⌉ p.warpSize ≤ p.blockThreads ⌈/⌉ p.warpSize - 1 := by omega
    rw [ceilDiv_le_iff_le_smul h, smul_eq_mul, mul_comm] at hfewer
    rw [max_eq_right hmore.le]
    exact .inr (Nat.not_le.mp hfewer)

/-- Settles O9: one warp of a launch, the list of its warps, and how many warps a block has. -/
theorem launchStartsWarps : Obligations.LaunchStartsWarps := by
  unfold Obligations.LaunchStartsWarps
  refine ⟨fun p thread b index => ?warp, fun p thread global shared const code hblocks => ?warps,
    fun p hsize => warpsPerBlock_bounds hsize⟩
  case warp =>
    exact ⟨rfl, rfl, rfl, launchLanes_length _ _ _ _, rfl, rfl,
      fun i hi => ⟨_, launchWarp_getElem? p thread b index hi, rfl, rfl⟩⟩
  case warps =>
    intro s
    rw [show s.everyWarp = _ from launch_everyWarp thread global shared const code hblocks]
    refine ⟨rfl, launchWarps_length p thread, fun w hw => ?_, fun b hb i hi => ?_⟩
    · obtain ⟨b, hb, i, hi, hwarp⟩ := mem_launchWarps.mp hw
      exact ⟨b, hb, i, hi, hwarp.symm⟩
    · exact existsUnique_getElem? (launchWarps_nodup p thread) (mem_launchWarps.mpr ⟨b, hb, i, hi, rfl⟩)

/-! ### The invariant -/

/-- A launched warp with a thread is sound: its first lane holds one. -/
theorem launchWarp_sound {p : Params} (thread : Nat → Nat → Thread) (b : Nat) {index : Nat} (hsize : 0 < p.warpSize)
    (h : index * p.warpSize < p.blockThreads) : (launchWarp p thread b index).Sound p where
  depth := Nat.zero_le _
  alive := fun _ => (Warp.hasActive_iff_getElem? _).mpr
    ⟨0, _, launchWarp_getElem? p thread b index hsize, if_pos h⟩
  spent := fun hfin => by cases hfin

/-- Every warp of a block with a thread has one. -/
theorem warp_has_thread {p : Params} {index : Nat} (hsize : 0 < p.warpSize) (hthreads : 0 < p.blockThreads)
    (h : index < p.warpsPerBlock) : index * p.warpSize < p.blockThreads := by
  rcases (warpsPerBlock_bounds hsize).2 with hone | hlast
  · obtain rfl : index = 0 := by omega
    rwa [Nat.zero_mul]
  · exact (Nat.mul_le_mul_right _ (Nat.le_sub_one_of_lt h)).trans_lt hlast

/-- A launch of at least one block, thread and lane, with memories in canonical form, meets the invariant. -/
theorem launch_inv {p : Params} (thread : Nat → Nat → Thread) {global shared const code : Memory}
    (hblocks : 0 < p.gridBlocks) (hsize : 0 < p.warpSize) (hthreads : 0 < p.blockThreads)
    (hglobal : global.wf = true) (hshared : shared.wf = true) (hconst : const.wf = true) (hcode : code.wf = true) :
    (State.launch p thread global shared const code).Inv where
  global := hglobal
  shared := hshared
  const := hconst
  code := hcode
  warps := by
    rw [launch_everyWarp thread global shared const code hblocks]
    intro w hw
    obtain ⟨b, _, i, hi, rfl⟩ := mem_launchWarps.mp hw
    exact launchWarp_sound thread b hsize (warp_has_thread hsize hthreads hi)
  names := by
    rw [launch_everyWarp thread global shared const code hblocks]
    exact launchWarps_named p thread

/-- Settles O7: the reset state is a launch with one block, one thread, 32 lanes and empty memories. -/
theorem resetMeetsInv : Obligations.ResetMeetsInv :=
  launch_inv _ (by decide) (by decide) (by decide) rfl rfl rfl rfl

end Sys2Proof.Machine
end

section
/-!
Registers by number (R21, R22, R24, R31, R33, R190, R242): what a read gives where the number names a register and
the mark says written, and what a write leaves of every other register.
-/
namespace Sys2Proof.Machine

/-! ### General registers and their halves -/

theorem readGpr_of_written {p : Params} {t : Thread} {n : Nat} (hn : n < gprCount p)
    (hlo : (t.gprAt n).loWritten = true) (hhi : (t.gprAt n).hiWritten = true) :
    readGpr p t n = .ok (t.gprAt n).val := by
  simp [readGpr, hn, hlo, hhi]

theorem readGpr_of_unwritten {p : Params} {t : Thread} {n : Nat} (hn : n < gprCount p)
    (h : (t.gprAt n).loWritten = false ∨ (t.gprAt n).hiWritten = false) :
    readGpr p t n = .error (.uninitialisedRegister .general n) := by
  rcases h with h | h <;> simp [readGpr, hn, h]

/-- A number above the registers reads 0 as R124 where the launch says so, and is else a fault. -/
theorem readGpr_of_count_le {p : Params} {t : Thread} {n : Nat} (hn : gprCount p ≤ n) :
    readGpr p t n = if n = 124 ∧ p.r124IsZero = true then .ok 0#32 else .error (.invalidRegister .general n) :=
  if_neg (Nat.not_lt.mpr hn)

theorem writeGpr_of_count_le {p : Params} {t : Thread} {n : Nat} (hn : gprCount p ≤ n) (v : Word) :
    writeGpr p t n v = .error (.invalidRegister .general n) :=
  if_neg (Nat.not_lt.mpr hn)

/-- Half 2n is the low half of register n. -/
theorem readHalf_low {p : Params} {n : Nat} (hn : n < gprCount p) (t : Thread) :
    readHalf p t (2 * n) = if (t.gprAt n).loWritten then .ok ((t.gprAt n).val.extractLsb' 0 16)
      else .error (.uninitialisedRegister .general n) := by
  have hdiv : 2 * n / 2 = n := by omega
  have hmod : 2 * n % 2 = 0 := by omega
  simp only [readHalf, hdiv, hmod, hn, if_true]

/-- Half 2n + 1 is the high half of register n. -/
theorem readHalf_high {p : Params} {n : Nat} (hn : n < gprCount p) (t : Thread) :
    readHalf p t (2 * n + 1) = if (t.gprAt n).hiWritten then .ok ((t.gprAt n).val.extractLsb' 16 16)
      else .error (.uninitialisedRegister .general n) := by
  have hdiv : (2 * n + 1) / 2 = n := by omega
  have hmod : (2 * n + 1) % 2 = 1 := by omega
  simp only [readHalf, hdiv, hmod, hn, if_true, Nat.one_ne_zero, if_false]

/-- A write of half 2n: the low half holds the value, the high half and its mark stay. -/
theorem writeHalf_low {p : Params} {n : Nat} (hn : n < gprCount p) (t : Thread) (v : Half) :
    ∃ t', writeHalf p t (2 * n) v = .ok t' ∧
      t'.gprAt n = ⟨(t.gprAt n).val.extractLsb' 16 16 ++ v, true, (t.gprAt n).hiWritten⟩ := by
  have hdiv : 2 * n / 2 = n := by omega
  have hmod : 2 * n % 2 = 0 := by omega
  refine ⟨t.setHalf (2 * n) v, if_pos (hdiv.symm ▸ hn), ?_⟩
  rw [Thread.gprAt_setHalf _ _ _ (hdiv.symm ▸ hn.trans_le (gprCount_le p)), hdiv, if_pos rfl, if_pos hmod]

/-- A write of half 2n + 1: the high half holds the value, the low half and its mark stay. -/
theorem writeHalf_high {p : Params} {n : Nat} (hn : n < gprCount p) (t : Thread) (v : Half) :
    ∃ t', writeHalf p t (2 * n + 1) v = .ok t' ∧
      t'.gprAt n = ⟨v ++ (t.gprAt n).val.extractLsb' 0 16, (t.gprAt n).loWritten, true⟩ := by
  have hdiv : (2 * n + 1) / 2 = n := by omega
  have hmod : ¬ (2 * n + 1) % 2 = 0 := by omega
  refine ⟨t.setHalf (2 * n + 1) v, if_pos (hdiv.symm ▸ hn), ?_⟩
  rw [Thread.gprAt_setHalf _ _ _ (hdiv.symm ▸ hn.trans_le (gprCount_le p)), hdiv, if_pos rfl, if_neg hmod]

/-- Two halves joined are the number they write. -/
theorem halves_toNat (hi lo : Half) : hi ++ lo = BitVec.ofNat 32 (hi.toNat * 2 ^ 16 + lo.toNat) := by
  apply BitVec.eq_of_toNat_eq
  rw [BitVec.toNat_append, BitVec.toNat_ofNat, ← Nat.shiftLeft_add_eq_or_of_lt lo.isLt, Nat.shiftLeft_eq,
    Nat.mod_eq_of_lt (by omega)]

/-- Settles O52: the register after each of the two writes, read by its halves and whole. -/
theorem halfRegisters : Obligations.HalfRegisters := by
  unfold Obligations.HalfRegisters
  intro p t n lo hi hn
  obtain ⟨t1, hw1, hr1⟩ := writeHalf_low hn t lo
  obtain ⟨t2, hw2, hr2⟩ := writeHalf_high hn t1 hi
  have hr2' : t2.gprAt n = ⟨hi ++ lo, true, true⟩ := by rw [hr2, hr1, halves_low]
  refine ⟨t1, t2, hw1, hw2, ?_, ?_, ?_, ?_, ?_⟩
  · rw [readHalf_low hn, hr1, if_pos rfl, halves_low]
  · rw [readHalf_high hn, readHalf_high hn, hr1, halves_high]
  · rw [readHalf_low hn, hr2', if_pos rfl, halves_low]
  · rw [readHalf_high hn, hr2', if_pos rfl, halves_high]
  · rw [readGpr_of_written hn (by rw [hr2']) (by rw [hr2']), hr2', halves_toNat]

/-! ### Address registers -/

/-- A read of an address register looks at that register only. -/
theorem readAreg_congr {p : Params} {t t' : Thread} {a : Nat} (h : 0 < a → t'.aregAt a = t.aregAt a) :
    readAreg p t' a = readAreg p t a := by
  rcases Nat.eq_zero_or_pos a with rfl | ha
  · rfl
  · simp only [readAreg, h ha]

theorem readAreg_of_count_le {p : Params} {t : Thread} {a : Nat} (ha : 0 < a) (h : aregCount p ≤ a) :
    readAreg p t a = .error (.invalidRegister .address a) := by
  rw [readAreg, if_neg ha.ne', if_neg (Nat.not_lt.mpr h)]

theorem readAreg_of_lt {p : Params} {t : Thread} {a : Nat} (ha : 0 < a) (h : a < aregCount p) :
    readAreg p t a = if (t.aregAt a).written then .ok (t.aregAt a).val
      else .error (.uninitialisedRegister .address a) := by
  rw [readAreg, if_neg ha.ne', if_pos h]

theorem writeAreg_of_count_le {p : Params} {t : Thread} {a : Nat} (h : aregCount p ≤ a) (v : Word) :
    writeAreg p t a v = .error (.invalidRegister .address a) :=
  if_neg fun hlt => Nat.not_lt.mpr h hlt.2

/-- A write of an address register is read back and changes no other. -/
theorem writeAreg_of_lt {p : Params} {t : Thread} {a : Nat} (ha : 0 < a) (h : a < aregCount p) (v : Word) :
    ∃ t', writeAreg p t a v = .ok t' ∧ readAreg p t' a = .ok v ∧ ∀ m ≠ a, readAreg p t' m = readAreg p t m := by
  have hset := Thread.aregAt_setAreg t a v ⟨ha, h.trans_le (aregCount_le p)⟩
  refine ⟨t.setAreg a v, if_pos ⟨ha, h⟩, ?_, fun m hm => readAreg_congr fun hpos => ?_⟩
  · rw [readAreg_of_lt ha h, hset a ha, if_pos rfl, if_pos rfl]
  · rw [hset m hpos, if_neg hm]

/-- Settles O51: the general registers by the reads and writes at and above `NUM_GPR`, the address registers by
those at and above `NUM_AREG`. -/
theorem registerNumbers : Obligations.RegisterNumbers := by
  unfold Obligations.RegisterNumbers
  intro p t n
  refine ⟨fun hzero => ?r124, fun hn hnot => ?nothing, writeGpr_of_count_le, readGpr_of_written,
    readGpr_of_unwritten, fun hpos hn => ⟨readAreg_of_count_le hpos hn, writeAreg_of_count_le hn⟩,
    fun hpos hn => ⟨fun hw => ?unwritten, fun hw => ?written, writeAreg_of_lt hpos hn⟩⟩
  case r124 => rw [readGpr_of_count_le (gprCount_le p), if_pos ⟨rfl, hzero⟩]
  case nothing =>
    rw [readGpr_of_count_le hn, if_neg]
    rintro ⟨h124, hzero⟩
    exact hnot.elim (· h124) fun hfalse => Bool.false_ne_true (hfalse.symm.trans hzero)
  case unwritten => rw [readAreg_of_lt hpos hn, hw]; rfl
  case written => rw [readAreg_of_lt hpos hn, hw]; rfl

end Sys2Proof.Machine
end

section
/-!
A well-formed instruction is read back from its word (R10, R80 to R111). For each operand group of format L: the
fields it is written into, and the reader that gives it back from those fields. A word is then taken format by
format: which of the four it is, and that its reader finds the instruction.
-/
namespace Sys2Proof

/-! ### The operand groups of format L, field by field -/

/-- The `d` field of a destination (R90). -/
def Dst.field : Dst → BitVec 7
  | .reg d => d
  | .discard => 127#7

/-- The `od` field of a destination (R90). -/
def Dst.od : Dst → BitVec 1
  | .reg _ => 0#1
  | .discard => 1#1

/-- The `s1` field of a source 1 (R96, R98). -/
def Src1.field : Src1 → BitVec 7
  | .reg k => k
  | .shared off ty _ => encElemTy ty ++ off

/-- The `sh` field of a source 1 (R96). -/
def Src1.sh : Src1 → BitVec 1
  | .reg _ => 0#1
  | .shared _ _ _ => 1#1

/-- The address register of a source 1, 0 for a register (R94). -/
def Src1.areg : Src1 → BitVec 3
  | .reg _ => 0#3
  | .shared _ _ a => a

/-- The `s2` or `s3` field of a source 2 or 3 (R97, R101). -/
def SrcB.field : SrcB → BitVec 7
  | .reg k => k
  | .const _ off => off

/-- The `c2` or `c3` field of a source 2 or 3 (R97, R101). -/
def SrcB.isConst : SrcB → BitVec 1
  | .reg _ => 0#1
  | .const _ _ => 1#1

/-- The `seg` field of a source 2 or 3, 0 for a register (R99). -/
def SrcB.seg : SrcB → BitVec 4
  | .reg _ => 0#4
  | .const seg _ => seg

/-! ### Writing an operand group -/

@[simp] theorem RawL.withCtl_eq (r : RawL) (c : Ctl) :
    r.withCtl c = { r with marker := encMarker c.marker, cc := encCond c.guard.cc, pr := c.guard.pr } := rfl

@[simp] theorem RawL.withSet_eq (r : RawL) (s : PredSet) : r.withSet s = { r with pe := bit s.pe, ps := s.ps } := rfl

@[simp] theorem RawL.withDst_eq (r : RawL) (d : Dst) : r.withDst d = { r with d := d.field, od := d.od } := by
  cases d <;> rfl

@[simp] theorem RawL.withSrc1_eq {r : RawL} (hlo : r.alo = 0#2) (hhi : r.ahi = 0#1) (s : Src1) :
    r.withSrc1 s = { r with
      s1 := s.field, sh := s.sh, alo := s.areg.extractLsb' 0 2, ahi := s.areg.extractLsb' 2 1 } := by
  cases s with
  | reg k => cases r; simp_all [RawL.withSrc1, Src1.field, Src1.sh, Src1.areg]
  | shared off ty a => rfl

@[simp] theorem RawL.withSrc2_eq {r : RawL} (hc : r.c2 = 0#1) (hs : r.seg = 0#4) (s : SrcB) :
    r.withSrc2 s = { r with s2 := s.field, c2 := s.isConst, seg := s.seg } := by
  cases s with
  | reg k => cases r; simp_all [RawL.withSrc2, SrcB.field, SrcB.isConst, SrcB.seg]
  | const seg off => rfl

@[simp] theorem RawL.withSrc3_eq {r : RawL} (hc : r.c3 = 0#1) (hs : r.seg = 0#4) (s : SrcB) :
    r.withSrc3 s = { r with s3 := s.field, c3 := s.isConst, seg := s.seg } := by
  cases s with
  | reg k => cases r; simp_all [RawL.withSrc3, SrcB.field, SrcB.isConst, SrcB.seg]
  | const seg off => rfl

/-! ### Reading an operand group from its fields -/

theorem RawL.ctl_of {r : RawL} (c : Ctl) (hmarker : r.marker = encMarker c.marker)
    (hcc : r.cc = encCond c.guard.cc) (hpr : r.pr = c.guard.pr) : r.ctl = .ok c := by
  simp only [RawL.ctl, hmarker, hcc, hpr, decMarker_encMarker, decCond_encCond]
  rfl

theorem RawL.dst_of {r : RawL} (d : Dst) (hd : r.d = d.field) (ho : r.od = d.od) : r.dst = .ok d := by
  cases d <;> simp_all [RawL.dst, Dst.field, Dst.od]

theorem RawL.src1_of {r : RawL} (s : Src1) (hf : r.s1 = s.field) (hs : r.sh = s.sh)
    (hlo : r.alo = s.areg.extractLsb' 0 2) (hhi : r.ahi = s.areg.extractLsb' 2 1) : r.src1 = .ok s := by
  cases s with
  | reg k => simp_all [RawL.src1, Src1.field, Src1.sh, Src1.areg]
  | shared off ty a =>
    rw [RawL.src1, if_pos (show r.sh = 1#1 from hs), hf, hlo, hhi]
    have h1 : (encElemTy ty ++ off).extractLsb' 0 5 = off := low_of_append _ _
    have h2 : (encElemTy ty ++ off).extractLsb' 5 2 = encElemTy ty := high_of_append _ _
    simp only [Src1.field, Src1.areg, h1, h2, decElemTy_encElemTy, halves_join (m := 1) (n := 2)]

theorem RawL.src2_of {r : RawL} (s : SrcB) (hf : r.s2 = s.field) (hc : r.c2 = s.isConst) (hs : r.seg = s.seg) :
    r.src2 = s := by
  cases s <;> simp_all [RawL.src2, SrcB.field, SrcB.isConst, SrcB.seg]

theorem RawL.src3_of {r : RawL} (s : SrcB) (hf : r.s3 = s.field) (hc : r.c3 = s.isConst) (hs : r.seg = s.seg) :
    r.src3 = s := by
  cases s <;> simp_all [RawL.src3, SrcB.field, SrcB.isConst, SrcB.seg]

theorem RawL.reg1_of {r : RawL} (hs : r.sh = 0#1) (hlo : r.alo = 0#2) (hhi : r.ahi = 0#1) : r.reg1 = .ok r.s1 := by
  simp only [RawL.reg1, hs, hlo, hhi]
  rfl

/-! ### Readers run on a written word -/

@[simp] theorem need_true (r : Reject) : need true r = .ok () := rfl

@[simp] theorem ok_then {α β : Type} (a : α) (f : α → Except Reject β) :
    ((Except.ok a : Except Reject α) >>= f) = f a := rfl

/-- R99: the segment field is 0 unless the source is a constant. -/
@[simp] theorem SrcB.seg_zero_or_const (s : SrcB) : (s.seg == 0#4 || s.isConst == 1#1) = true := by
  cases s <;> simp [SrcB.seg, SrcB.isConst]

@[simp] theorem encMarker_ne_imm (mk : Marker) : encMarker mk ≠ 3#2 := by cases mk <;> decide

/-- A field whose upper bits are 0. -/
theorem zero_append_parts (m n : Nat) (b : BitVec n) :
    (0#m ++ b).extractLsb' n m = 0#m ∧ (0#m ++ b).extractLsb' 0 n = b :=
  ⟨high_of_append _ _, low_of_append _ _⟩

/-- R82, R110: a format-L instruction has a long word that is neither of format F nor of format I. -/
theorem normal_form {i : Instr} {r : RawL} (h : encodeRaw i = .normal r) :
    r.lng = 1#1 ∧ r.flow = 0#1 ∧ r.marker ≠ 3#2 := by
  cases i <;> simp only [encodeRaw, reduceCtorEq, Encoded.normal.injEq] at h <;> subst h
  case shl amt _ _ | shr amt _ _ => cases amt <;> simp [encShift, RawL.blank]
  case fmad s2 s3 _ _ => cases s2 <;> cases s3 <;> simp [encFmad, RawL.blank, RawL.withSrc2, RawL.withSrc3]
  all_goals simp [RawL.blank, encNop, encI2i, encImulForm, encIadd, encIaddc, encImad, encImad24, encLop, encIset,
    encMvc, encGlobal, encMov, encR2g, encR2a, encA2r, encAda, encFadd, encFmul, encF2f, encF2i, encI2f, encFset,
    encUnary, encRro]

/-- A format-L instruction is read back from its fields: each operand group by its `_of` lemma, the third field where
it holds several small ones by its `_parts` lemma. The instructions are taken together by the groups they have. -/
theorem decodeNormal_of_encodeRaw {i : Instr} {r : RawL} (hwf : i.wf) (h : encodeRaw i = .normal r) :
    decodeNormal r = .ok i := by
  cases i <;> simp only [encodeRaw, reduceCtorEq, Encoded.normal.injEq] at h <;> subst h
  case nop mk => simp [decodeNormal, decNop, encNop, RawL.blank]
  case i2i ctl d set s1 t sz sg neg =>
    cases neg <;> simp [decodeNormal, decI2i, encI2i, RawL.blank, RawL.plain, RawL.noConst, RawL.ctl_of ctl,
      RawL.dst_of d, RawL.src1_of s1, RawL.set, zero_append_parts 4 3]
  case imul ctl d set s1 s2 | imul24 ctl d set s1 s2 =>
    simp [decodeNormal, decImulForm, encImulForm, RawL.blank, RawL.plain, RawL.noConst, RawL.ctl_of ctl,
      RawL.dst_of d, RawL.src1_of s1, RawL.set]
  case shl ctl d s1 amt sz sg | shr ctl d s1 amt sz sg =>
    cases amt <;> simp [decodeNormal, decShift, encShift, RawL.blank, RawL.plain, RawL.noConst, RawL.ctl_of ctl,
      RawL.src1_of s1, zero_append_parts 2 5]
  case mov ctl d s1 sz sg =>
    simp [decodeNormal, decMov, encMov, RawL.blank, RawL.plain, RawL.noConst, RawL.ctl_of ctl, RawL.src1_of s1]
  case iadd ctl d set s1 s3 _ _ | fadd ctl d set s1 s3 _ _ _ =>
    simp [decodeNormal, decIadd, encIadd, decFadd, encFadd, RawL.blank, RawL.plain, flag, RawL.ctl_of ctl,
      RawL.dst_of d, RawL.src1_of s1, RawL.src3_of s3, RawL.set, zero_append_parts 5 2]
  case iaddc mk pr d set s1 s3 sz =>
    simp [decodeNormal, decIaddc, encIaddc, RawL.blank, RawL.plain, flag, encCond, RawL.dst_of d, RawL.src1_of s1,
      RawL.src3_of s3, RawL.set]
  case imad ctl d set s1 s2 _ _ _ | imad24 ctl d set s1 s2 _ | iset ctl d set s1 s2 _ _ _ | fmul ctl d set s1 s2 _ _ _
      | lop ctl d set s1 s2 _ _ _ _ _ =>
    simp [decodeNormal, decImad, encImad, decImad24, encImad24, decIset, encIset, decFmul, encFmul, decLop, encLop,
      RawL.blank, RawL.plain, RawL.ctl_of ctl, RawL.dst_of d, RawL.src1_of s1, RawL.src2_of s2, RawL.set,
      zero_append_parts 2 5, zero_append_parts 5 2, lop_parts, -BitVec.getLsbD_eq_getElem]
  case fmad ctl d set s1 s2 s3 neg1 neg3 =>
    have htwo : twoConstProblem s2 s3 = none := firstProblem_none.mp hwf _ (by simp)
    cases s2 with
    | reg k2 =>
      cases s3 <;> simp [decodeNormal, decFmad, encFmad, RawL.blank, RawL.plain, flag, RawL.ctl_of ctl,
        RawL.dst_of d, RawL.src1_of s1, RawL.src2, RawL.src3, RawL.withSrc2, RawL.withSrc3, RawL.set]
    | const seg off =>
      cases s3 with
      | reg k3 =>
        simp [decodeNormal, decFmad, encFmad, RawL.blank, RawL.plain, flag, RawL.ctl_of ctl, RawL.dst_of d,
          RawL.src1_of s1, RawL.src2, RawL.src3, RawL.withSrc2, RawL.withSrc3, RawL.set]
      | const seg' off' => cases htwo
  case fset ctl d set s1 s2 cmp abs =>
    simp [decodeNormal, decFset, encFset, RawL.blank, RawL.plain, RawL.ctl_of ctl, RawL.dst_of d, RawL.reg1_of,
      RawL.src2_of s2, RawL.set, fset_parts, -BitVec.getLsbD_eq_getElem]
  case f2f ctl d set s1 rm abs neg =>
    cases neg <;> simp [decodeNormal, decF2f, encF2f, RawL.blank, RawL.cvtPlain, RawL.noConst, RawL.ctl_of ctl,
      RawL.dst_of d, RawL.reg1_of, RawL.set, f2f_parts, -BitVec.getLsbD_eq_getElem]
  case f2i ctl d set _ _ _ | i2f ctl d set _ _ _ =>
    simp [decodeNormal, decF2i, encF2i, decI2f, encI2f, RawL.blank, RawL.cvtPlain, RawL.noConst, RawL.ctl_of ctl,
      RawL.dst_of d, RawL.reg1_of, RawL.set, f2i_parts, i2f_parts, -BitVec.getLsbD_eq_getElem]
  case rcp ctl d set _ | rsq ctl d set _ | lg2 ctl d set _ | sin ctl d set _ | cos ctl d set _ | ex2 ctl d set _
      | rro ctl d set _ _ =>
    simp [decodeNormal, decUnary, encUnary, decRro, encRro, RawL.blank, RawL.plain, RawL.noConst, RawL.ctl_of ctl,
      RawL.dst_of d, RawL.reg1_of, RawL.set, zero_append_parts 5 2]
  case mvc ctl _ set _ _ _ _ _ _ =>
    simp [decodeNormal, decMvc, encMvc, RawL.blank, RawL.noConst, RawL.ctl_of ctl, RawL.set,
      halves_join (m := 1) (n := 2), zero_append_parts 5 2]
  case gld ctl _ _ ty | gst ctl _ _ ty =>
    simp [decodeNormal, decGlobal, encGlobal, RawL.blank, RawL.noConst, RawL.ctl_of ctl,
      halves_join (m := 2) (n := 1), zero_append_parts 2 2]
  case r2g ctl _ _ _ _ _ =>
    simp [decodeNormal, decR2g, encR2g, RawL.blank, RawL.noConst, RawL.ctl_of ctl, halves_join (m := 7) (n := 7),
      halves_join (m := 1) (n := 2)]
  case r2a ctl _ _ _ | a2r ctl _ _ _ | ada ctl _ _ _ =>
    simp [decodeNormal, decR2a, encR2a, decA2r, encA2r, decAda, encAda, RawL.blank, RawL.addrPlain, RawL.noConst,
      RawL.ctl_of ctl, r2a_imm_join, a2r_imm_join, halves_join (m := 7) (n := 7)]

/-! ### Formats S, I and F -/

@[simp] theorem decSrcS_reg (k : BitVec 6) : decSrcS k 0#1 0#2 = .ok (.reg k) := rfl

@[simp] theorem decSrcS_encSrcS (s : SrcS) : decSrcS (encSrcS s).1 (encSrcS s).2.1 (encSrcS s).2.2 = .ok s := by
  cases s with
  | reg k => rfl
  | shared off ty a =>
    have hoff : (encElemTy ty ++ off).extractLsb' 0 4 = off := low_of_append _ _
    have hty : (encElemTy ty ++ off).extractLsb' 4 2 = encElemTy ty := high_of_append _ _
    simp [decSrcS, encSrcS, hoff, hty]

/-- Format I has no address register, so that a source without one is read from two fields (R94). -/
theorem encSrcS_noAddr {s : SrcS} (h : s.noAddrProblem = none) : (encSrcS s).2.2 = 0#2 := by
  cases s with
  | reg k => rfl
  | shared off ty a =>
    simp only [SrcS.noAddrProblem, ite_eq_left_iff, reduceCtorEq, imp_false, not_not] at h
    exact h

/-- The sign flag over a 6-bit destination (R160, R174). -/
theorem signed_field_parts (b : Bool) (d : BitVec 6) :
    (bit b ++ d).getLsbD 6 = b ∧ (bit b ++ d).extractLsb' 0 6 = d := by
  revert b d; decide

/-- R80: bit 0 of a format-S word is 0. -/
theorem short_form {i : Instr} {r : RawS} (h : encodeRaw i = .short r) : r.lng = 0#1 := by
  cases i <;> simp only [encodeRaw, reduceCtorEq, Encoded.short.injEq] at h <;> subst h <;> rfl

theorem decodeShortRaw_of_encodeRaw {i : Instr} {r : RawS} (h : encodeRaw i = .short r) :
    decodeShortRaw r = .ok i := by
  cases i <;> simp only [encodeRaw, reduceCtorEq, Encoded.short.injEq] at h <;> subst h
  all_goals simp [decodeShortRaw, RawS.blank, RawS.withSrc, zero_append_parts 1 6]

/-- R82, R110: marker 11 says that a long word is of format I. -/
theorem imm_form {i : Instr} {r : RawI} (h : encodeRaw i = .imm r) :
    r.lng = 1#1 ∧ r.flow = 0#1 ∧ r.marker = 3#2 := by
  cases i <;> simp only [encodeRaw, reduceCtorEq, Encoded.imm.injEq] at h <;> subst h <;> exact ⟨rfl, rfl, rfl⟩

theorem decodeImmRaw_of_encodeRaw {i : Instr} {r : RawI} (hwf : i.wf) (h : encodeRaw i = .imm r) :
    decodeImmRaw r = .ok i := by
  have himm (imm : Word) : imm.extractLsb' 6 26 ++ imm.extractLsb' 0 6 = imm := halves_join (m := 26) (n := 6) imm
  cases i <;> simp only [encodeRaw, reduceCtorEq, Encoded.imm.injEq] at h <;> subst h
  case iadd32i d s1 imm =>
    have hsrc := decSrcS_encSrcS s1
    rw [encSrcS_noAddr (firstProblem_none.mp hwf _ (by simp))] at hsrc
    simp [decodeImmRaw, RawI.blank, RawI.imm, himm, hsrc]
  all_goals simp [decodeImmRaw, RawI.blank, RawI.imm, himm, signed_field_parts, -BitVec.getLsbD_eq_getElem]

/-- R82, R110: bit 1 says that a long word is of format F. -/
theorem flow_form {i : Instr} {r : RawF} (h : encodeRaw i = .flow r) : r.lng = 1#1 ∧ r.flow = 1#1 := by
  cases i <;> simp only [encodeRaw, reduceCtorEq, Encoded.flow.injEq] at h <;> subst h <;> exact ⟨rfl, rfl⟩

theorem decodeFlowRaw_of_encodeRaw {i : Instr} {r : RawF} (h : encodeRaw i = .flow r) : decodeFlowRaw r = .ok i := by
  cases i <;> simp only [encodeRaw, reduceCtorEq, Encoded.flow.injEq] at h <;> subst h
  case cal tgt => simp [decodeFlowRaw, RawF.blank, halves_join (m := 1) (n := 18)]
  all_goals simp [decodeFlowRaw, RawF.blank, zero_append_parts 2 16]

theorem decodeWord_of_fixed {i : Instr} {w : Long} (h : encodeRaw i = .fixed w) : decodeWord w = .ok i := by
  cases i <;> simp only [encodeRaw, reduceCtorEq, Encoded.fixed.injEq] at h <;> subst h <;> rfl

/-- R80 to R111: a well-formed instruction is read back from its word. -/
theorem decodeWord_encode {i : Instr} (hwf : i.wf) : decodeWord (encode i) = .ok i := by
  have hchecked := checked_of_wf hwf
  rw [encode]
  cases h : encodeRaw i with
  | normal r =>
    obtain ⟨hlng, hflow, hmarker⟩ := normal_form h
    rw [Encoded.word, decodeWord_normal r hlng hflow hmarker, decodeNormal_of_encodeRaw hwf h, ok_then, hchecked]
  | short r => rw [Encoded.word, decodeWord_short r (short_form h), decodeShortRaw_of_encodeRaw h, ok_then, hchecked]
  | imm r =>
    obtain ⟨hlng, hflow, hmarker⟩ := imm_form h
    rw [Encoded.word, decodeWord_imm r hlng hflow hmarker, decodeImmRaw_of_encodeRaw hwf h, ok_then, hchecked]
  | flow r =>
    obtain ⟨hlng, hflow⟩ := flow_form h
    rw [Encoded.word, decodeWord_flow r hlng hflow, decodeFlowRaw_of_encodeRaw h, ok_then, hchecked]
  | fixed w => rw [Encoded.word, decodeWord_of_fixed h]

end Sys2Proof
end

section
/-!
From the bytes of the code to the step of a machine with one warp (R43, R53, R80, R130).
-/
namespace Sys2Proof

/-! ### The length of a word -/

/-- Whether a word is of format S (R82). -/
def Encoded.isShort : Encoded → Bool
  | .short _ => true
  | _ => false

theorem encodeRaw_isShort (i : Instr) : (encodeRaw i).isShort = i.isShort := by
  cases i <;> rfl

/-- R80: bit 0 of the word of an instruction says whether it is long. -/
theorem encode_bit0 (i : Instr) : (encode i).getLsbD 0 = !i.isShort := by
  have hshort := (encodeRaw_isShort i).symm
  cases h : encodeRaw i with
  | normal r => exact encodedLength_normal h (normal_form h).1 (by rw [hshort, h]; rfl)
  | short r => exact encodedLength_short h (short_form h) (by rw [hshort, h]; rfl)
  | imm r => exact encodedLength_imm h (imm_form h).1 (by rw [hshort, h]; rfl)
  | flow r => exact encodedLength_flow h (flow_form h).1 (by rw [hshort, h]; rfl)
  | fixed w =>
    cases i <;> simp only [encodeRaw, reduceCtorEq] at h <;> rfl

/-- R10: the word of a short instruction is its low 32 bits. -/
theorem encode_short {i : Instr} (h : i.isShort = true) :
    ((encode i).extractLsb' 0 32).setWidth 64 = encode i := by
  rw [← encodeRaw_isShort] at h
  cases hraw : encodeRaw i with
  | short r =>
    rw [encode, hraw, Encoded.word]
    rw [← BitVec.setWidth_eq_extractLsb' (show 32 ≤ 64 by omega),
      BitVec.setWidth_setWidth_of_le _ (show 32 ≤ 64 by omega), BitVec.setWidth_eq]
  | normal | imm | flow | fixed => rw [hraw] at h; cases h

/-! ### The bytes of a word -/

/-- Byte k of a word, least significant first (R52). -/
theorem bytesOfNat_getElem? (n : Nat) (w : Long) {k : Nat} (hk : k < n) :
    (bytesOfNat n w.toNat)[k]? = some (w.extractLsb' (8 * k) 8) := by
  have key : ∀ n v k, k < n → (bytesOfNat n v)[k]? = some (BitVec.ofNat 8 (v >>> (8 * k))) := by
    intro n
    induction n with
    | zero => intro v k hk; omega
    | succ n ih =>
      intro v k hk
      cases k with
      | zero => rfl
      | succ k =>
        rw [bytesOfNat, List.getElem?_cons_succ, ih _ _ (by omega), Nat.mul_succ, Nat.add_comm, Nat.shiftRight_add,
          Nat.shiftRight_eq_div_pow v 8]
  exact key n w.toNat k hk

end Sys2Proof

namespace Sys2Proof.Machine

theorem littleBytes_getElem? (n : Nat) (v : Word) {k : Nat} (hk : k < n) :
    (littleBytes n v)[k]? = some (v.extractLsb' (8 * k) 8) := by
  induction n generalizing v k with
  | zero => omega
  | succ n ih =>
    cases k with
    | zero => exact congrArg some (BitVec.setWidth_eq_extractLsb' (by omega))
    | succ k =>
      rw [littleBytes, List.getElem?_cons_succ, ih _ (by omega)]
      refine congrArg some (BitVec.eq_of_getLsbD_eq fun j hj => ?_)
      simp only [BitVec.getLsbD_extractLsb', BitVec.getLsbD_ushiftRight]
      rw [show 8 * (k + 1) + j = 8 + (8 * k + j) by omega]

/-- The value of the low bytes of a word is the word cut to them. -/
theorem getLsbD_littleValue_littleBytes (n : Nat) (v : Word) (i : Nat) :
    (littleValue (littleBytes n v)).getLsbD i = (decide (i < 8 * n) && v.getLsbD i) := by
  induction n generalizing v i with
  | zero => simp [littleBytes, littleValue]
  | succ n ih =>
    rw [littleBytes, littleValue, BitVec.getLsbD_or, BitVec.getLsbD_shiftLeft, ih, BitVec.getLsbD_setWidth,
      BitVec.getLsbD_setWidth, BitVec.getLsbD_ushiftRight]
    by_cases h8 : i < 8
    · simp [h8, show i < 32 by omega, show i < 8 * (n + 1) by omega]
    · rw [show 8 + (i - 8) = i by omega]
      by_cases h32 : i < 32
      · simp [h8, h32, show (i - 8 < 8 * n) ↔ (i < 8 * (n + 1)) by omega]
      · simp [h8, h32, BitVec.getLsbD_of_ge v i (by omega)]

theorem littleValue_littleBytes (v : Word) : littleValue (littleBytes 4 v) = v := by
  refine BitVec.eq_of_getLsbD_eq fun i hi => ?_
  rw [getLsbD_littleValue_littleBytes, decide_eq_true (by omega), Bool.true_and]

/-- R52, R53: a word of the code is the one whose bytes stand there. -/
theorem State.codeWord_of_bytes {s : State} {pc addr : Nat} {v : Word} (hlittle : s.params.endian = .little)
    (hend : addr + 4 ≤ spaceSize s.params .code)
    (hbytes : ∀ k < 4, s.code.byteAt (addr + k) = some (v.extractLsb' (8 * k) 8)) : s.codeWord pc addr = .ok v := by
  have hread : s.code.bytesAt addr 4 = some (littleBytes 4 v) :=
    (Memory.bytesAt_eq_some 4).mpr ⟨littleBytes_length 4 v, fun k hk => by
      rw [hbytes k hk, littleBytes_getElem? 4 v hk]⟩
  rw [State.codeWord, if_neg (Nat.not_lt.mpr hend), hread, hlittle]
  exact congrArg Except.ok (littleValue_littleBytes v)

/-- Byte k of a word of an instruction. -/
theorem byte_of_codeWord (w : Long) (start : Nat) {k : Nat} (hk : k < 4) :
    (w.extractLsb' start 32).extractLsb' (8 * k) 8 = w.extractLsb' (start + 8 * k) 8 := by
  refine BitVec.eq_of_getLsbD_eq fun j hj => ?_
  simp [hj, show 8 * k + j < 32 by omega, Nat.add_assoc]

/-- R53, R80: a fetch delivers the word whose bytes stand at the pc, one word or two as the instruction is short or
long. -/
theorem State.fetch_of_bytes {s : State} {i : Instr} (hlittle : s.params.endian = .little)
    (haligned : s.warp.pc % 4 = 0) (hend : s.warp.pc + i.length ≤ spaceSize s.params .code)
    (hbytes : ∀ k < i.length, s.code.byteAt (s.warp.pc + k) = (encodeBytes i)[k]?) : s.fetch = .ok (encode i) := by
  have hword : ∀ off, off + 4 ≤ i.length →
      s.codeWord s.warp.pc (s.warp.pc + off) = .ok ((encode i).extractLsb' (8 * off) 32) := fun off hoff =>
    State.codeWord_of_bytes hlittle (by omega) fun k hk => by
      rw [Nat.add_assoc, hbytes _ (by omega), encodeBytes, bytesOfNat_getElem? _ _ (by omega),
        byte_of_codeWord _ _ hk, Nat.mul_add]
  have hbit : ((encode i).extractLsb' 0 32).getLsbD 0 = !i.isShort := by
    rw [← encode_bit0, BitVec.getLsbD_extractLsb']
    rfl
  have hlow : s.codeWord s.warp.pc s.warp.pc = .ok ((encode i).extractLsb' 0 32) :=
    hword 0 (by unfold Instr.length; split <;> omega)
  rw [State.fetch, if_neg (not_not.mpr haligned), hlow]
  cases hshort : i.isShort with
  | true => simp only [hbit, hshort, Bool.not_true, Bool.false_eq_true, if_false, encode_short hshort]
  | false =>
    have hhigh : s.codeWord s.warp.pc (s.warp.pc + 4) = .ok ((encode i).extractLsb' 32 32) :=
      hword 4 (by simp [Instr.length, hshort])
    simp only [hbit, hshort, hhigh, Bool.not_false, if_true]
    exact congrArg Except.ok (halves_join (m := 32) (n := 32) (encode i))

/-! ### A machine of one warp -/

/-- R130: the only warp of a machine is in turn while it runs. -/
theorem State.turn_of_single {s : State} (hrest : s.rest = []) (hrun : s.warp.status = .running) :
    s.turn = .run s := by
  have hwarps : s.warps = [s.warp] := by rw [State.warps, hrest]; rfl
  have hended : s.ended = none := by
    simp [State.ended, hwarps, State.firstEnd, State.endOf, hrun]
  have hchoices : s.choices = [.run s.warp.block s.warp.index] := by
    simp [State.choices, hwarps, runsOf, State.releases, hrun]
  have hpick : s.pick = some (.run s.warp.block s.warp.index, s) := by
    simp [State.pick, hchoices]
  simp [State.turn, hended, hpick, State.select, Warp.hasId]

/-- Settles O2: the only warp is in turn, its fetch delivers the word of the instruction, and that word is read back as
the instruction. -/
theorem stepRunsStoredBytes : Obligations.StepRunsStoredBytes := by
  unfold Obligations.StepRunsStoredBytes
  intro s i hrest hrun hlittle hwf haligned hend hbytes
  simp only [step, State.turn_of_single hrest hrun, State.fetch_of_bytes hlittle haligned hend hbytes,
    decodeWord_encode hwf]

end Sys2Proof.Machine
end

section
/-!
Loads and the bytes they read (R51, R52, R55). `State.accessCheck_ok_iff` and `State.load_ok_iff` say once when the
checks of an access and a load succeed; with `ENDIAN` little the bytes of a value are its 8-bit fields, lowest first.
-/
namespace Sys2Proof.Machine

/-! ### When an access may be made -/

/-- R51: the checks of an access find nothing where it is aligned and lies inside its space. -/
theorem State.accessCheck_ok_iff {s : State} {sp : Space} {addr n : Nat} :
    s.accessCheck sp addr n = .ok () ↔ addr % n = 0 ∧ addr + n ≤ spaceSize s.params sp := by
  unfold State.accessCheck
  split
  · next h => simp [h]
  · next h =>
    split
    · next hend => simp; omega
    · next hend => simp; omega

/-- R51: a load succeeds where its access may be made and every byte of it holds a value. -/
theorem State.load_ok_iff {s : State} {sp : Space} {addr n : Nat} {v : Word} :
    s.load sp addr n = .ok v ↔ s.accessCheck sp addr n = .ok () ∧
      ∃ bytes, (s.memOf sp).bytesAt (sp.key addr) n = some bytes ∧ valueOf s.params.endian bytes = v := by
  unfold State.load
  split
  · next c hc => simp [hc]
  · next hc => split <;> simp_all

/-- The bytes of a range of a space stand side by side in the memory that holds it. -/
theorem Space.key_add (sp : Space) (addr k : Nat) : sp.key (addr + k) = sp.key addr + k := by
  cases sp <;> simp only [Space.key, Nat.add_assoc]

/-- The bytes of a range are those that `State.byteAt` reads. -/
theorem State.bytesAt_eq_some {s : State} {sp : Space} {addr n : Nat} {bytes : List Byte} :
    (s.memOf sp).bytesAt (sp.key addr) n = some bytes ↔
      bytes.length = n ∧ ∀ k < n, s.byteAt sp (addr + k) = bytes[k]? := by
  simp only [Memory.bytesAt_eq_some, State.byteAt, Space.key_add]

/-! ### Words as bytes -/

/-- Two words with the same four bytes are one. -/
theorem word_eq_of_bytes {v w : Word} (h : ∀ k < 4, v.extractLsb' (8 * k) 8 = w.extractLsb' (8 * k) 8) : v = w := by
  refine BitVec.eq_of_getLsbD_eq fun i hi => ?_
  have hbit := congrArg (·.getLsbD (i % 8)) (h (i / 8) (by omega))
  simpa [BitVec.getLsbD_extractLsb', Nat.mod_lt, Nat.div_add_mod] using hbit

/-- Byte k of the value of a list of bytes is the k-th of them, and 0 past their end. -/
theorem extractLsb'_littleValue (bytes : List Byte) {k : Nat} (hk : k < 4) :
    (littleValue bytes).extractLsb' (8 * k) 8 = (bytes[k]?).getD 0#8 := by
  induction bytes generalizing k with
  | nil => simp [littleValue]
  | cons b rest ih =>
    refine BitVec.eq_of_getLsbD_eq fun j hj => ?_
    rw [littleValue, BitVec.getLsbD_extractLsb', BitVec.getLsbD_or, BitVec.getLsbD_shiftLeft,
      BitVec.getLsbD_setWidth]
    cases k with
    | zero => simp [hj, show j < 32 by omega]
    | succ k =>
      have hbit := congrArg (·.getLsbD j) (ih (k := k) (by omega))
      rw [BitVec.getLsbD_extractLsb'] at hbit
      simpa [hj, show 8 * (k + 1) + j < 32 by omega, show ¬ 8 * (k + 1) + j < 8 by omega,
        show 8 * (k + 1) + j - 8 = 8 * k + j by omega,
        BitVec.getLsbD_of_ge b (8 * (k + 1) + j) (by omega)] using hbit

/-- The value of some bytes is v exactly where they are the low bytes of v and the rest of v is 0. -/
theorem littleValue_eq_iff {bytes : List Byte} {v : Word} :
    littleValue bytes = v ↔ ∀ k < 4, v.extractLsb' (8 * k) 8 = (bytes[k]?).getD 0#8 := by
  refine ⟨fun h k hk => h ▸ extractLsb'_littleValue bytes hk, fun h => word_eq_of_bytes fun k hk => ?_⟩
  rw [h k hk, extractLsb'_littleValue bytes hk]

/-- R51, R52: with `ENDIAN` little a load gives v where its access may be made, v stands there byte by byte, lowest
first, and the rest of v is 0. -/
theorem State.load_little_iff {s : State} {sp : Space} {addr n : Nat} {v : Word} (hn : n ≤ 4)
    (hlittle : s.params.endian = .little) :
    s.load sp addr n = .ok v ↔ addr % n = 0 ∧ addr + n ≤ spaceSize s.params sp ∧
      ∀ i < 4, if i < n then s.byteAt sp (addr + i) = some (v.extractLsb' (8 * i) 8)
        else v.extractLsb' (8 * i) 8 = 0#8 := by
  rw [State.load_ok_iff, State.accessCheck_ok_iff, and_assoc, hlittle]
  refine and_congr_right fun _ => and_congr_right fun _ => ?_
  simp only [State.bytesAt_eq_some, valueOf, littleValue_eq_iff]
  constructor
  · rintro ⟨bytes, ⟨hlength, hbytes⟩, hv⟩ k hk
    split
    · next hkn => rw [hbytes k hkn, hv k hk, List.getElem?_eq_getElem (hlength ▸ hkn), Option.getD_some]
    · next hkn => rw [hv k hk, List.getElem?_eq_none (by omega), Option.getD_none]
  · intro h
    refine ⟨littleBytes n v, ⟨littleBytes_length n v, fun k hk => ?_⟩, fun k hk => ?_⟩
    · rw [littleBytes_getElem? n v hk]
      simpa only [hk, if_true] using h k (by omega)
    · by_cases hkn : k < n
      · rw [littleBytes_getElem? n v hkn, Option.getD_some]
      · rw [List.getElem?_eq_none (by simpa using Nat.le_of_not_lt hkn), Option.getD_none]
        simpa only [hkn, if_false] using h k hk

/-- Settles O46: 1, 2 and 4 are sizes of at most 4 bytes. -/
theorem loadReadsBytes : Obligations.LoadReadsBytes := by
  unfold Obligations.LoadReadsBytes
  intro s sp addr n v hn hlittle
  exact State.load_little_iff (by omega) hlittle

/-! ### Narrow reads of a wide store -/

/-- After a store its bytes stand at their addresses, wherever in the space they are. -/
theorem State.byteAt_applyStore_covered (s : State) {st : Store} (hwritable : st.space.writable) {k : Nat}
    (hk : k < st.bytes) :
    (s.applyStore st).byteAt st.space (st.addr + k) = (bytesOf s.params.endian st.bytes st.value)[k]? := by
  have hread : ∀ m : Memory, (m.setBytes (st.space.key st.addr) (st.list s.params.endian)).byteAt
      (st.space.key st.addr + k) = (bytesOf s.params.endian st.bytes st.value)[k]? := fun m => by
    rw [Memory.byteAt_setBytes, if_pos (Nat.le_add_right _ _), Nat.add_sub_cancel_left, Store.list,
      List.getElem?_eq_getElem (by simpa using hk), Option.some_or]
  obtain ⟨sp, addr, n, v⟩ := st
  cases sp with
  | global | shared b => simpa only [State.applyStore, State.byteAt, State.memOf, Space.key_add] using hread _
  | code | const seg => exact hwritable.elim

/-- R55: n bytes at offset k of a wider store read back as those n bytes of its value. -/
theorem State.load_applyStore_part {s : State} {sp : Space} {a bytes : Nat} {v : Word} (hwritable : sp.writable)
    (hlittle : s.params.endian = .little) {k n : Nat} (hn : n ≤ 4) (hpart : k + n ≤ bytes)
    (haligned : (a + k) % n = 0) (hend : a + k + n ≤ spaceSize s.params sp) :
    (s.applyStore ⟨sp, a, bytes, v⟩).load sp (a + k) n = .ok ((v.extractLsb' (8 * k) (8 * n)).setWidth 32) := by
  refine (State.load_little_iff hn (by simpa using hlittle)).mpr
    ⟨haligned, by simpa using hend, fun i hi => ?_⟩
  split
  · next hin =>
    rw [Nat.add_assoc, State.byteAt_applyStore_covered s (st := ⟨sp, a, bytes, v⟩) hwritable (by simp only; omega),
      hlittle, bytesOf, littleBytes_getElem? bytes v (by omega)]
    refine congrArg some (BitVec.eq_of_getLsbD_eq fun j hj => ?_)
    simp [hj, show 8 * i + j < 32 by omega, show 8 * i + j < 8 * n by omega,
      show 8 * (k + i) + j = 8 * k + (8 * i + j) by omega]
  · next hin =>
    refine BitVec.eq_of_getLsbD_eq fun j hj => ?_
    simp [show ¬ 8 * i + j < 8 * n by omega]

/-- Settles O47: every part of the statement is `State.load_applyStore_part` at one offset and size. -/
theorem mixedWidths : Obligations.MixedWidths := by
  unfold Obligations.MixedWidths
  intro s sp a hspace hlittle haligned hend
  have hwritable : sp.writable := by
    rcases hspace with rfl | ⟨b, rfl⟩ <;> exact trivial
  have hbyte : ∀ v : Word, ∀ k < 4, (s.applyStore ⟨sp, a, 4, v⟩).load sp (a + k) 1 =
      .ok ((v.extractLsb' (8 * k) 8).setWidth 32) := fun v k hk =>
    State.load_applyStore_part hwritable hlittle (by omega) (by omega) (Nat.mod_one _) (by omega)
  have hhalf : ∀ v : Word, ∀ k < 2, (s.applyStore ⟨sp, a, 4, v⟩).load sp (a + 2 * k) 2 =
      .ok ((v.extractLsb' (16 * k) 16).setWidth 32) := fun v k hk => by
    rw [State.load_applyStore_part hwritable hlittle (by omega) (by omega) (by omega) (by omega),
      ← Nat.mul_assoc]
  exact ⟨hbyte, hhalf, hbyte _ 0 (by decide), hbyte _ 1 (by decide), hhalf _ 0 (by decide), hhalf _ 1 (by decide)⟩

end Sys2Proof.Machine
end

section
/-!
Constant, shared and register operands (R72, R74, R96 to R99, R154, R181).
-/
namespace Sys2Proof.Machine

/-! ### Constants -/

/-- R99: a constant operand whose load succeeds is the loaded element, cut to the operation size. -/
theorem readSrcB_const_ok {s : State} {seg : BitVec 4} {off : BitVec 7} {sz : Size} {raw : Word} (t : Thread)
    (h : s.load (.const seg.toNat) (off.toNat * sz.bytes) sz.bytes = .ok raw) :
    readSrcB s t sz (.const seg off) = .ok (raw.setWidth sz.bits) := by
  simp only [readSrcB, readConst, h]

/-- R99: a constant operand faults as its load does. -/
theorem readSrcB_const_error {s : State} {seg : BitVec 4} {off : BitVec 7} {sz : Size} {c : Cause} (t : Thread)
    (h : s.load (.const seg.toNat) (off.toNat * sz.bytes) sz.bytes = .error c) :
    readSrcB s t sz (.const seg off) = .error c := by
  simp only [readSrcB, readConst, h]

/-- Settles O37: the operands by the rules for a constant operand; MVC because its lane reads its address register,
then the constant. -/
theorem mvcLoadsConstant : Obligations.MvcLoadsConstant := by
  unfold Obligations.MvcLoadsConstant
  refine ⟨fun s t seg off => ⟨fun raw h => ?word, fun raw h => ?half,
    fun c h => readSrcB_const_error (sz := .b32) t h, fun c h => readSrcB_const_error (sz := .b16) t h⟩,
    fun ctl d set seg off a width sz sg s hseg => ?mvc⟩
  case word => exact (readSrcB_const_ok (sz := .b32) t h).trans (congrArg Except.ok (BitVec.setWidth_eq raw))
  case half => exact readSrcB_const_ok (sz := .b16) t h
  case mvc =>
    refine delivers_of (exec_of_unless_none rfl hseg) ?_
    rintro t r ⟨base, raw, x, hbase, hraw, rfl, rfl⟩
    rw [← effAddr_eq] at hraw
    refine (bind_of_ok hbase).trans ((bind_of_ok hraw).trans ?_)
    cases width <;> rfl

/-! ### Shared elements -/

/-- R72, R98: a shared operand whose load succeeds delivers its element, extended, and the range it was read from. -/
theorem readShared_ok {s : State} {t : Thread} {off a : Nat} {ty : ElemTy} {base raw : Word}
    (hbase : readAreg s.params t a = .ok base)
    (hraw : s.load (.shared s.warp.block) ((base.toNat + off * elemBytes ty) % 2 ^ 32) (elemBytes ty) = .ok raw) :
    readShared s t off ty a = .ok ⟨elemExtend ty raw,
      [⟨.shared s.warp.block, (base.toNat + off * elemBytes ty) % 2 ^ 32, elemBytes ty⟩]⟩ := by
  simp only [readShared, hbase, effAddr_eq, hraw]

/-- R98: an operation takes the low bits of the element, as many as its size. -/
theorem readSharedVal_ok {s : State} {t : Thread} {sz : Size} {off a : Nat} {ty : ElemTy} {v : Val 32}
    (h : readShared s t off ty a = .ok v) :
    readSharedVal s t sz off ty a = .ok ⟨v.val.setWidth sz.bits, v.reads⟩ := by
  simp only [readSharedVal, h]

/-- R32: A0 reads 0, and a selector that is not 0 reads its register. -/
theorem readAreg_of_selector {p : Params} {t : Thread} {n : Nat} {a : BitVec n} {base : Word}
    (h : a = 0#n ∧ base = 0#32 ∨ readAreg p t a.toNat = .ok base) : readAreg p t a.toNat = .ok base := by
  rcases h with ⟨rfl, rfl⟩ | h
  · simp [readAreg]
  · exact h

/-- The element of a shared operand at both operation sizes, in a long and in a short instruction alike. -/
theorem readSharedVal_sizes {s : State} {t : Thread} {off a addr : Nat} {ty : ElemTy} {base raw : Word}
    (hbase : readAreg s.params t a = .ok base) (haddr : addr = (base.toNat + off * elemBytes ty) % 2 ^ 32)
    (hraw : s.load (.shared s.warp.block) addr (elemBytes ty) = .ok raw) :
    readSharedVal s t .b32 off ty a = .ok ⟨elemExtend ty raw, [⟨.shared s.warp.block, addr, elemBytes ty⟩]⟩ ∧
      readSharedVal s t .b16 off ty a =
        .ok ⟨(elemExtend ty raw).extractLsb' 0 16, [⟨.shared s.warp.block, addr, elemBytes ty⟩]⟩ := by
  subst haddr
  have h := readShared_ok hbase hraw
  refine ⟨(readSharedVal_ok (sz := .b32) h).trans ?_, (readSharedVal_ok (sz := .b16) h).trans ?_⟩
  · simp only [BitVec.setWidth_eq]
  · simp only [BitVec.setWidth_eq_extractLsb' (show 16 ≤ 32 by omega)]

/-- A register that can be read is an operand without ranges. -/
theorem readRegVal_ok {s : State} {t : Thread} {sz : Size} {k : Nat} {v : BitVec sz.bits}
    (h : readReg s.params t sz k = .ok v) : readRegVal s t sz k = .ok ⟨v, []⟩ := by
  simp only [readRegVal, h]

/-- Settles O43: a shared operand by `readSharedVal_sizes`, whichever the widths of its offset and its selector. -/
theorem sharedOperandReads : Obligations.SharedOperandReads := by
  unfold Obligations.SharedOperandReads
  refine ⟨?shared, fun ty => by cases ty <;> rfl, fun s t v => ⟨fun k h => ?word, fun k h => ?shortWord⟩,
    fun s t h => ⟨fun k hk => ?half, fun k hk => ?shortHalf⟩⟩
  case shared =>
    intro s t ty base raw x hx
    obtain rfl : x = elemExtend ty raw := hx.trans (by cases ty <;> rfl)
    exact ⟨fun off a addr ha haddr hraw => readSharedVal_sizes (readAreg_of_selector ha) haddr hraw,
      fun off a addr ha haddr hraw => readSharedVal_sizes (readAreg_of_selector ha) haddr hraw⟩
  case word => exact ⟨readRegVal_ok (sz := .b32) h, h⟩
  case shortWord => exact readRegVal_ok (sz := .b32) h
  case half => exact ⟨readRegVal_ok (sz := .b16) hk, hk⟩
  case shortHalf => exact readRegVal_ok (sz := .b16) hk

/-! ### The source of I2I -/

/-- R154: the types that a register can deliver. -/
theorem cvtProblem_reg (k : BitVec 7) (ty : CvtTy) :
    (Src1.reg k).cvtProblem ty = none ↔ ty ≠ .u8 ∧ ty ≠ .s8 := by
  cases ty <;> simp [Src1.cvtProblem]

/-- R154: the element that each type asks of a shared operand. -/
theorem cvtProblem_shared (off : BitVec 5) (e : ElemTy) (a : BitVec 3) (ty : CvtTy) :
    (Src1.shared off e a).cvtProblem ty = none ↔
      (e = .u8 ∧ (ty = .u8 ∨ ty = .s8)) ∨ (e = .u16 ∧ ty = .u16) ∨ (e = .s16 ∧ ty = .s16) ∨
        (e = .u32 ∧ (ty = .u32 ∨ ty = .s32)) := by
  cases ty <;> simp [Src1.cvtProblem]

/-- R13, R154: a shared element as the source of I2I, extended by its type. -/
def cvtExtend (ty : CvtTy) (v : Word) : Word :=
  match ty with
  | .u8 => zext 8 v
  | .s8 => sext 8 v
  | .u16 => zext 16 v
  | .s16 => sext 16 v
  | .u32 | .s32 => v

/-- R154: what I2I takes from a shared operand whose load succeeds. -/
theorem readCvt_element {s : State} {t : Thread} {off : BitVec 5} {e : ElemTy} {a : BitVec 3} {ty : CvtTy} {addr : Nat}
    {base raw v : Word} (hbase : readAreg s.params t a.toNat = .ok base)
    (haddr : addr = (base.toNat + off.toNat * elemBytes e) % 2 ^ 32)
    (hraw : s.load (.shared s.warp.block) addr (elemBytes e) = .ok raw)
    (hv : cvtExtend ty (elemExtend e raw) = v) :
    readCvt s t (.shared off e a) ty = .ok ⟨v, [⟨.shared s.warp.block, addr, elemBytes e⟩]⟩ := by
  subst haddr hv
  rw [readCvt, bind_of_ok (readShared_ok hbase hraw)]
  cases ty <;> rfl

/-- An element keeps its own bits when it is extended. -/
theorem elemExtend_low (e : ElemTy) (raw : Word) :
    (elemExtend e raw).setWidth (8 * elemBytes e) = raw.setWidth (8 * elemBytes e) := by
  cases e with
  | u8 | u16 | u32 => simp [elemExtend, zext, elemBytes]
  | s16 =>
    refine BitVec.eq_of_getLsbD_eq fun j hj => ?_
    have hj16 : j < 16 := hj
    simp [elemExtend, sext, elemBytes, BitVec.getElem_signExtend, hj16, show j < 32 by omega]

theorem zext_elemExtend (e : ElemTy) (raw : Word) :
    zext (8 * elemBytes e) (elemExtend e raw) = BitVec.ofNat 32 (raw.toNat % 2 ^ (8 * elemBytes e)) := by
  rw [zext, elemExtend_low, ← BitVec.ofNat_toNat, BitVec.toNat_setWidth]

theorem sext_elemExtend (e : ElemTy) (raw : Word) :
    sext (8 * elemBytes e) (elemExtend e raw) = BitVec.ofInt 32 (raw.extractLsb' 0 (8 * elemBytes e)).toInt := by
  rw [sext, elemExtend_low, BitVec.setWidth_eq_extractLsb' (by cases e <;> decide), BitVec.signExtend]

theorem negIf_eq (neg : Bool) (v : Word) : negIf neg v = if neg then -v else v := by
  simp only [negIf, BitVec.zero_sub]

/-- Settles O26: the check that I2I makes before its lanes finds nothing or is the refusal; its source is a register
by the rules of registers, a shared operand by `readCvt_element`. -/
theorem i2iConverts : Obligations.I2iConverts := by
  unfold Obligations.I2iConverts
  refine ⟨fun ctl d set s1 ty sz sg neg s hty => ?delivers,
    fun ctl d set s1 ty sz sg neg s why hty => exec_of_unless_some rfl hty, cvtProblem_reg, cvtProblem_shared,
    fun s t k h hk => ⟨?unsignedHalf, ?signedHalf⟩, fun s t k v hk => ⟨bind_of_ok hk, bind_of_ok hk⟩,
    fun s t off a base hbase => ⟨fun raw hraw => ?byte, fun raw hraw => ?half, fun raw hraw => ?word⟩⟩
  case delivers =>
    refine delivers_of (exec_of_unless_none rfl hty) ?_
    rintro t r ⟨x, hx, rfl⟩
    rw [← negIf_eq]
    exact bind_of_ok hx
  case unsignedHalf => exact (bind_of_ok hk).trans (by rw [BitVec.ofNat_toNat])
  case signedHalf => exact bind_of_ok hk
  case byte =>
    have element := fun ty v => readCvt_element (e := .u8) (ty := ty) (v := v) hbase
      (by rw [elemBytes, Nat.mul_one]) hraw
    exact ⟨element .u8 _ (zext_elemExtend .u8 raw), element .s8 _ (sext_elemExtend .u8 raw)⟩
  case half =>
    exact ⟨readCvt_element (e := .u16) (ty := .u16) hbase rfl hraw (zext_elemExtend .u16 raw),
      readCvt_element (e := .s16) (ty := .s16) hbase rfl hraw (sext_elemExtend .s16 raw)⟩
  case word =>
    exact ⟨readCvt_element (e := .u32) (ty := .u32) hbase rfl hraw rfl,
      readCvt_element (e := .u32) (ty := .s32) hbase rfl hraw rfl⟩

end Sys2Proof.Machine
end

section
/-!
The lanes of GLD, GST and R2G (R72, R182, R183, R188): what each works out to, and where an access of theirs stands.
-/
namespace Sys2Proof.Machine

/-! ### Sizes and places -/

theorem globalBytes_cases (ty : GlobalTy) : globalBytes ty = 1 ∨ globalBytes ty = 2 ∨ globalBytes ty = 4 := by
  cases ty <;> decide

theorem Size.bytes_cases (sz : Size) : sz.bytes = 1 ∨ sz.bytes = 2 ∨ sz.bytes = 4 := by
  cases sz <;> decide

/-- An aligned access at a 32-bit address ends at 2^32 at the latest. -/
theorem aligned_end_le {n addr : Nat} (hn : n = 1 ∨ n = 2 ∨ n = 4) (haddr : addr < 2 ^ 32) (haligned : addr % n = 0) :
    addr + n ≤ 2 ^ 32 := by
  rcases hn with rfl | rfl | rfl <;> omega

/-- Two aligned accesses of one size that share a byte cover the same bytes. -/
theorem aligned_overlap_eq {n addr addr' : Nat} (hn : n = 1 ∨ n = 2 ∨ n = 4) (haligned : addr % n = 0)
    (haligned' : addr' % n = 0) (h : addr < addr' + n) (h' : addr' < addr + n) : addr = addr' := by
  rcases hn with rfl | rfl | rfl <;> omega

/-! ### The work of a lane -/

/-- The work of a lane of GLD. -/
def gldWork (s : State) (d areg : BitVec 7) (ty : GlobalTy) (t : Thread) : Except Cause Work := do
  let addr ← readGpr s.params t areg.toNat
  let raw ← s.load .global addr.toNat (globalBytes ty)
  putReg s.params t .b32 d.toNat (globalExtend ty raw) [⟨.global, addr.toNat, globalBytes ty⟩]

/-- The work of a lane of GST. -/
def gstWork (s : State) (dreg areg : BitVec 7) (ty : GlobalTy) (t : Thread) : Except Cause Work := do
  let addr ← readGpr s.params t areg.toNat
  let v ← readGpr s.params t dreg.toNat
  s.accessCheck .global addr.toNat (globalBytes ty)
  .ok ⟨t, [], some ⟨.global, addr.toNat, globalBytes ty, v⟩⟩

/-- The work of a lane of R2G. -/
def r2gWork (s : State) (off : BitVec 14) (a : BitVec 3) (s3 : BitVec 7) (sz : Size) (t : Thread) :
    Except Cause Work := do
  let base ← readAreg s.params t a.toNat
  let v ← readReg s.params t sz s3.toNat
  s.accessCheck (.shared s.warp.block) (effAddr base off.toNat sz.bytes) sz.bytes
  .ok ⟨t, [], some ⟨.shared s.warp.block, effAddr base off.toNat sz.bytes, sz.bytes, v.setWidth 32⟩⟩

theorem exec_gld (ctl : Ctl) (d areg : BitVec 7) (ty : GlobalTy) (s : State) : exec (.gld ctl d areg ty) s =
    execLanes s ctl.marker ctl.guard 8 (gldRanges s areg ty) (gldWork s d areg ty) := rfl

theorem exec_gst (ctl : Ctl) (dreg areg : BitVec 7) (ty : GlobalTy) (s : State) : exec (.gst ctl dreg areg ty) s =
    execLanes s ctl.marker ctl.guard 8 noRanges (gstWork s dreg areg ty) := rfl

theorem exec_r2g (ctl : Ctl) (off : BitVec 14) (a : BitVec 3) (s3 : BitVec 7) (sz : Size) (sg : Bool) (s : State) :
    exec (.r2g ctl off a s3 sz sg) s =
      execLanes s ctl.marker ctl.guard 8 noRanges (r2gWork s off a s3 sz) := rfl

/-- The store that a lane of GST is to make (R183). -/
def GstStore (s : State) (dreg areg : BitVec 7) (ty : GlobalTy) (t : Thread) (st : Store) : Prop :=
  ∃ addr v, readGpr s.params t areg.toNat = .ok addr ∧ readGpr s.params t dreg.toNat = .ok v ∧
    st = ⟨.global, addr.toNat, globalBytes ty, v⟩

/-- The store that a lane of R2G is to make (R188). -/
def R2gStore (s : State) (off : BitVec 14) (a : BitVec 3) (s3 : BitVec 7) (sz : Size) (t : Thread) (st : Store) :
    Prop :=
  ∃ (base : Word) (v : BitVec sz.bits), readAreg s.params t a.toNat = .ok base ∧
    readReg s.params t sz s3.toNat = .ok v ∧
    st = ⟨.shared s.warp.block, (base.toNat + off.toNat * sz.bytes) % 2 ^ 32, sz.bytes, v.setWidth 32⟩

theorem GstStore.unique {s : State} {dreg areg : BitVec 7} {ty : GlobalTy} (t : Thread) (st st' : Store)
    (h : GstStore s dreg areg ty t st) (h' : GstStore s dreg areg ty t st') : st = st' := by
  obtain ⟨addr, v, haddr, hv, rfl⟩ := h
  obtain ⟨addr', v', haddr', hv', rfl⟩ := h'
  obtain rfl := Except.ok.inj (haddr.symm.trans haddr')
  obtain rfl := Except.ok.inj (hv.symm.trans hv')
  rfl

theorem R2gStore.unique {s : State} {off : BitVec 14} {a : BitVec 3} {s3 : BitVec 7} {sz : Size} (t : Thread)
    (st st' : Store) (h : R2gStore s off a s3 sz t st) (h' : R2gStore s off a s3 sz t st') : st = st' := by
  obtain ⟨base, v, hbase, hv, rfl⟩ := h
  obtain ⟨base', v', hbase', hv', rfl⟩ := h'
  obtain rfl := Except.ok.inj (hbase.symm.trans hbase')
  obtain rfl := Except.ok.inj (hv.symm.trans hv')
  rfl

/-- A lane of GST whose store may be made has that store as its work. -/
theorem gstWork_ok {s : State} {dreg areg : BitVec 7} {ty : GlobalTy} {t : Thread} {st : Store}
    (h : GstStore s dreg areg ty t st) (haligned : st.addr % st.bytes = 0)
    (hend : st.addr + st.bytes ≤ spaceSize s.params st.space) : gstWork s dreg areg ty t = .ok ⟨t, [], some st⟩ := by
  obtain ⟨addr, v, haddr, hv, rfl⟩ := h
  exact (bind_of_ok haddr).trans
    ((bind_of_ok hv).trans (bind_of_ok (State.accessCheck_ok_iff.mpr ⟨haligned, hend⟩)))

/-- The same for R2G. -/
theorem r2gWork_ok {s : State} {off : BitVec 14} {a : BitVec 3} {s3 : BitVec 7} {sz : Size} {t : Thread} {st : Store}
    (h : R2gStore s off a s3 sz t st) (haligned : st.addr % st.bytes = 0)
    (hend : st.addr + st.bytes ≤ spaceSize s.params st.space) :
    r2gWork s off a s3 sz t = .ok ⟨t, [], some st⟩ := by
  obtain ⟨base, v, hbase, hv, rfl⟩ := h
  rw [← effAddr_eq] at haligned hend ⊢
  exact (bind_of_ok hbase).trans
    ((bind_of_ok hv).trans (bind_of_ok (State.accessCheck_ok_iff.mpr ⟨haligned, hend⟩)))

/-- A lane that takes part in an instruction whose lanes are ready meets its condition. -/
theorem LanesReady.of_takes {s : State} {g : Guard} {ok : Thread → Prop} (h : LanesReady s g ok) {l : Lane}
    (hl : l ∈ s.warp.lanes) (ht : Takes g l) : ok l.thread := by
  rcases h l hl ht.1 with hfalse | ⟨_, hok⟩
  · exact absurd (ht.2.symm.trans hfalse) (by simp)
  · exact hok

theorem LanesReady.mono {s : State} {g : Guard} {ok ok' : Thread → Prop} (h : LanesReady s g ok)
    (himp : ∀ t, ok t → ok' t) : LanesReady s g ok' :=
  fun l hl ha => (h l hl ha).imp_right fun ⟨hg, hok⟩ => ⟨hg, himp _ hok⟩

/-! ### The stores -/

/-- Settles O39: a ready lane has its one store as its work, and that ends at 2^32 at the latest because it is
aligned. -/
theorem gstStoresGlobal : Obligations.GstStoresGlobal := by
  unfold Obligations.GstStoresGlobal
  intro ctl dreg areg ty s hready
  rw [exec_gst]
  refine execLanes_stores (store := GstStore s dreg areg ty) GstStore.unique hready
    (fun l _ _ st => gstWork_ok) fun l hl ht st hst => ?_
  obtain ⟨_, hlanes, _⟩ := hready
  obtain ⟨st', hst', haligned, _⟩ := hlanes.of_takes hl ht
  obtain rfl := GstStore.unique _ _ _ hst hst'
  obtain ⟨addr, v, _, _, rfl⟩ := hst
  exact ⟨trivial, aligned_end_le (globalBytes_cases ty) addr.isLt haligned⟩

/-- Settles O40: likewise, at an effective address below 2^32. -/
theorem r2gStoresShared : Obligations.R2gStoresShared := by
  unfold Obligations.R2gStoresShared
  intro ctl off a s3 sz sg s hready
  rw [exec_r2g]
  refine execLanes_stores (store := R2gStore s off a s3 sz) R2gStore.unique hready
    (fun l _ _ st => r2gWork_ok) fun l hl ht st hst => ?_
  obtain ⟨_, hlanes, _⟩ := hready
  obtain ⟨st', hst', haligned, _⟩ := hlanes.of_takes hl ht
  obtain rfl := R2gStore.unique _ _ _ hst hst'
  obtain ⟨base, v, _, _, rfl⟩ := hst
  exact ⟨trivial, aligned_end_le (Size.bytes_cases sz) (Nat.mod_lt _ (Nat.two_pow_pos 32)) haligned⟩

end Sys2Proof.Machine
end

section
/-!
The faults of global accesses (R51, R242, R247).
-/
namespace Sys2Proof.Machine

/-! ### Why an access faults -/

theorem State.accessCheck_misaligned {s : State} {sp : Space} {addr n : Nat} (h : addr % n ≠ 0) :
    s.accessCheck sp addr n = .error (.misalignedAccess sp addr n) := by
  rw [State.accessCheck, if_pos h]

theorem State.accessCheck_out_of_range {s : State} {sp : Space} {addr n : Nat} (haligned : addr % n = 0)
    (hend : spaceSize s.params sp < addr + n) : s.accessCheck sp addr n = .error (.addressOutOfRange sp addr) := by
  rw [State.accessCheck, if_neg (not_not.mpr haligned), if_pos hend]

/-- R51: a load that may not be made faults with what its checks find. -/
theorem State.load_error_of_check {s : State} {sp : Space} {addr n : Nat} {c : Cause}
    (h : s.accessCheck sp addr n = .error c) : s.load sp addr n = .error c := by
  rw [State.load, h]

/-- R51: a load that may be made faults where one of its bytes holds no value. -/
theorem State.load_uninitialised {s : State} {sp : Space} {addr n : Nat} (hcheck : s.accessCheck sp addr n = .ok ())
    (hnone : ∃ k < n, s.byteAt sp (addr + k) = none) : s.load sp addr n = .error (.uninitialisedMemory sp addr) := by
  have hbytes : (s.memOf sp).bytesAt (sp.key addr) n = none := by
    obtain ⟨k, hk, hempty⟩ := hnone
    refine Option.eq_none_iff_forall_ne_some.mpr fun bytes h => ?_
    obtain ⟨hlength, hall⟩ := State.bytesAt_eq_some.mp h
    have hpast := List.getElem?_eq_none_iff.mp ((hall k hk).symm.trans hempty)
    omega
  rw [State.load, hcheck]
  simp only [hbytes]

/-! ### The lane that faults -/

/-- A lane that takes part faults as its work does. -/
theorem laneOut_work_error {g : Guard} {body : Thread → Except Cause Work} {l : Lane} {c : Cause} (ht : Takes g l)
    (hc : body l.thread = .error c) : laneOut (guardHolds g) body l = .error c := by
  simp only [laneOut, ht.1, if_true, ht.2, hc]

/-- R247: after lanes that do nothing, the fault of a lane's work is the outcome, where no lane reads in a race. -/
theorem execLanes_work_fault {s : State} {mk : Marker} {g : Guard} {len : Nat} {ranges : Thread → List Range}
    {body : Thread → Except Cause Work} {i : Nat} {l : Lane} {c : Cause} (hl : s.warp.lanes[i]? = some l)
    (ht : Takes g l)
    (hbefore : ∀ k < i, ∀ l', s.warp.lanes[k]? = some l' →
      l'.status ≠ .active ∨ guardHolds g l'.thread = .ok false)
    (hrace : s.readsRace g ranges = false) (hc : body l.thread = .error c) :
    execLanes s mk g len ranges body = s.raise (some i) c := by
  rw [execLanes_fault hl (laneOut_work_error ht hc) fun k hk l' hl' =>
    ⟨_, (hbefore k hk l' hl').elim laneOut_idle laneOut_false⟩, hrace]
  rfl

/-- A read that faults hands its fault on. -/
theorem bind_of_error {α β : Type} {x : Except Cause α} {c : Cause} {f : α → Except Cause β} (h : x = .error c) :
    (x >>= f) = .error c := by
  rw [h]; rfl

/-- The range that a lane reads, where its access may be made. -/
theorem State.mem_rangeRead {s : State} {sp : Space} {addr n : Nat} {r : Range} :
    r ∈ s.rangeRead sp addr n ↔ (addr % n = 0 ∧ addr + n ≤ spaceSize s.params sp) ∧ r = ⟨sp, addr, n⟩ := by
  rw [← State.accessCheck_ok_iff, State.rangeRead]
  split
  · next c hc => simp [hc]
  · next hc => simp [hc]

/-- The range that a lane of GLD reads, where its register can be read and its access may be made. -/
theorem mem_gldRanges {s : State} {t : Thread} {areg : BitVec 7} {ty : GlobalTy} {r : Range} :
    r ∈ gldRanges s areg ty t ↔ ∃ addr, readGpr s.params t areg.toNat = .ok addr ∧
      (addr.toNat % globalBytes ty = 0 ∧ addr.toNat + globalBytes ty ≤ s.params.globalSize) ∧
      r = ⟨.global, addr.toNat, globalBytes ty⟩ := by
  unfold gldRanges
  split
  · next c hc => simp [hc]
  · next addr haddr => simp [haddr, State.mem_rangeRead, spaceSize]

/-- Settles O49: the lane's work is the fault that the checks or the load give, and it is the outcome, for GST because
it reads no memory, for GLD because no lane's load races. -/
theorem globalAccessFaults : Obligations.GlobalAccessFaults := by
  unfold Obligations.GlobalAccessFaults
  intro ctl d areg ty s i l addr hl ht hbefore haddr calm
  have hgld : ∀ {c}, calm → s.load .global addr.toNat (globalBytes ty) = .error c →
      exec (.gld ctl d areg ty) s = s.raise (some i) c := fun hcalm hload => by
    have hrace : s.readsRace ctl.guard (gldRanges s areg ty) = false := by
      refine Bool.eq_false_iff.mpr fun hreads => ?_
      obtain ⟨l', hl', ht', r, hr, hcontested⟩ := State.readsRace_contested.mp hreads
      obtain ⟨x, hx, ⟨haligned, hend⟩, rfl⟩ := mem_gldRanges.mp hr
      exact unraced_iff.mp (hcalm l' hl' ht' x hx haligned hend) _ List.mem_cons_self hcontested
    rw [exec_gld]
    exact execLanes_work_fault hl ht hbefore hrace ((bind_of_ok haddr).trans (bind_of_error hload))
  have hgst : ∀ {c}, (∃ v, readGpr s.params l.thread d.toNat = .ok v) →
      s.accessCheck .global addr.toNat (globalBytes ty) = .error c →
      exec (.gst ctl d areg ty) s = s.raise (some i) c := fun ⟨v, hv⟩ hcheck => by
    rw [exec_gst]
    exact execLanes_work_fault hl ht hbefore (State.readsRace_none s ctl.guard)
      ((bind_of_ok haddr).trans ((bind_of_ok hv).trans (bind_of_error hcheck)))
  refine ⟨fun hmis => ?misaligned, fun haligned hend => ?range, fun haligned hend hnone hcalm => ?empty⟩
  case misaligned =>
    have hcheck := State.accessCheck_misaligned (s := s) (sp := .global) hmis
    exact ⟨fun hcalm => hgld hcalm (State.load_error_of_check hcheck), fun hv => hgst hv hcheck⟩
  case range =>
    have hcheck := State.accessCheck_out_of_range (s := s) (sp := .global) haligned hend
    exact ⟨fun hcalm => hgld hcalm (State.load_error_of_check hcheck), fun hv => hgst hv hcheck⟩
  case empty =>
    exact hgld hcalm (State.load_uninitialised (State.accessCheck_ok_iff.mpr ⟨haligned, hend⟩) hnone)

end Sys2Proof.Machine
end

section
/-!
Races of loads and of stores (R60, R65, R66, R247).
-/
namespace Sys2Proof.Machine

/-! ### Loads -/

/-- A lane of GLD that completes has read the range that `gldRanges` tells. -/
theorem gldWork_reads {s : State} {d areg : BitVec 7} {ty : GlobalTy} {t : Thread} :
    Yields (fun w => ∀ r ∈ gldRanges s areg ty t, r ∈ w.reads) (gldWork s d areg ty t) :=
  yields_bind_ok fun addr haddr => yields_bind fun raw w hw r hr => by
    obtain ⟨addr', haddr', _, rfl⟩ := mem_gldRanges.mp hr
    obtain rfl := Except.ok.inj (haddr.symm.trans haddr')
    rw [reads_putReg w hw]
    exact List.mem_cons_self

/-- The range of a shared operand, where its address register can be read and its access may be made. -/
theorem mem_sharedRange {s : State} {t : Thread} {off a : Nat} {ty : ElemTy} {r : Range} :
    r ∈ sharedRange s t off ty a ↔ ∃ base, readAreg s.params t a = .ok base ∧
      ((base.toNat + off * elemBytes ty) % 2 ^ 32 % elemBytes ty = 0 ∧
        (base.toNat + off * elemBytes ty) % 2 ^ 32 + elemBytes ty ≤ s.params.sharedSize) ∧
      r = ⟨.shared s.warp.block, (base.toNat + off * elemBytes ty) % 2 ^ 32, elemBytes ty⟩ := by
  unfold sharedRange
  split
  · next c hc => simp [hc]
  · next base hbase => simp [hbase, State.mem_rangeRead, spaceSize, effAddr_eq]

/-! ### Stores -/

/-- The value of the low n bytes of a word, as a number. -/
theorem littleValue_littleBytes_toNat (n : Nat) (v : Word) :
    (littleValue (littleBytes n v)).toNat = v.toNat % 2 ^ (8 * n) := by
  refine Nat.eq_of_testBit_eq fun i => ?_
  rw [BitVec.testBit_toNat, getLsbD_littleValue_littleBytes, Nat.testBit_mod_two_pow, BitVec.testBit_toNat]

/-- Values that are stored as the same bytes agree in their low bytes. -/
theorem mod_eq_of_bytesOf_eq {e : Endian} {n : Nat} {v w : Word} (h : bytesOf e n v = bytesOf e n w) :
    v.toNat % 2 ^ (8 * n) = w.toNat % 2 ^ (8 * n) := by
  have hlittle : littleBytes n v = littleBytes n w := by
    cases e with
    | little => exact h
    | big => exact List.reverse_injective h
  rw [← littleValue_littleBytes_toNat, hlittle, littleValue_littleBytes_toNat]

/-- R60: aligned stores of one size that overlap cover the same bytes, and clash where their low bytes differ. -/
theorem Store.clash_of_overlap {e : Endian} {st st' : Store} {n : Nat} (hn : n = 1 ∨ n = 2 ∨ n = 4)
    (hspace : st.space = st'.space) (hbytes : st.bytes = n) (hbytes' : st'.bytes = n)
    (haligned : st.addr % st.bytes = 0) (haligned' : st'.addr % st'.bytes = 0) (h : st.addr < st'.addr + n)
    (h' : st'.addr < st.addr + n) (hne : st.value.toNat % 2 ^ (8 * n) ≠ st'.value.toNat % 2 ^ (8 * n)) :
    st.clash e st' = true := by
  rw [hbytes] at haligned
  rw [hbytes'] at haligned'
  refine Store.clash_of_ne hspace (aligned_overlap_eq hn haligned haligned' h h') (hbytes.trans hbytes'.symm) ?_
  rw [Store.list, Store.list, hbytes, hbytes']
  exact fun hlist => hne (mod_eq_of_bytesOf_eq hlist)

/-- The bytes that R2G stores of a whole or half register are all of it. -/
theorem setWidth_mod_ne {sz : Size} {v v' : BitVec sz.bits} (h : v ≠ v') :
    (v.setWidth 32).toNat % 2 ^ (8 * sz.bytes) ≠ (v'.setWidth 32).toNat % 2 ^ (8 * sz.bytes) := by
  have whole : ∀ x : BitVec sz.bits, (x.setWidth 32).toNat % 2 ^ (8 * sz.bytes) = x.toNat := fun x => by
    have hlt := x.isLt
    cases sz <;> simp only [Size.bits] at hlt <;> simp [Size.bytes] <;> omega
  rw [whole, whole]
  exact fun hv => h (BitVec.eq_of_toNat_eq hv)

/-! ### The races -/

/-- R65: a load of GLD that races with a recorded store stops the instruction. -/
theorem exec_gld_race {ctl : Ctl} {d areg : BitVec 7} {ty : GlobalTy} {s : State} {l : Lane} {addr : Word}
    (hl : l ∈ s.warp.lanes) (ht : Takes ctl.guard l) (haddr : readGpr s.params l.thread areg.toNat = .ok addr)
    (haligned : addr.toNat % globalBytes ty = 0) (hend : addr.toNat + globalBytes ty ≤ s.params.globalSize)
    (hcontested : Contested s .global addr.toNat (globalBytes ty) false) :
    exec (.gld ctl d areg ty) s = s.raise none .race :=
  execLanes_race (fun _ => gldWork_reads) <| State.readsRace_contested.mpr
    ⟨l, hl, ht, _, mem_gldRanges.mpr ⟨addr, haddr, ⟨haligned, hend⟩, rfl⟩, hcontested⟩

/-- R65: so does the load of a shared operand, in every instruction that has one and that the launch takes. -/
theorem exec_operand_race {i : Instr} {x : SharedOperand} {s : State} {l : Lane} {base : Word}
    (hx : sharedOperand i = some x) (hlaunch : ¬ Declined i s.params) (hl : l ∈ s.warp.lanes) (hpart : TakesPart i l)
    (hbase : readAreg s.params l.thread x.a = .ok base)
    (haligned : (base.toNat + x.off * elemBytes x.ty) % 2 ^ 32 % elemBytes x.ty = 0)
    (hend : (base.toNat + x.off * elemBytes x.ty) % 2 ^ 32 + elemBytes x.ty ≤ s.params.sharedSize)
    (hcontested : Contested s (.shared s.warp.block) ((base.toNat + x.off * elemBytes x.ty) % 2 ^ 32)
      (elemBytes x.ty) false) :
    exec i s = s.raise none .race := by
  obtain ⟨mk, g, len, problem, ranges, body, htakes, hranges, hexec⟩ := operand_shape hx
  rw [exec_of_unless_none (hexec s).1 (problem_none_of_not_declined (fun s => (hexec s).1) hlaunch)]
  refine execLanes_race (fun t w hw r hr => (hexec s).2 t w hw ▸ hr) (State.readsRace_contested.mpr
    ⟨l, hl, htakes l hpart, ⟨.shared s.warp.block, _, _⟩, ?_, hcontested⟩)
  rw [hranges]
  exact mem_sharedRange.mpr ⟨base, hbase, ⟨haligned, hend⟩, rfl⟩

/-- R60, R65: stores of one size, which every lane can make, race where one is contested, and where two of them
overlap and differ in their low bytes. -/
theorem execLanes_alignedRace {s : State} {mk : Marker} {g : Guard} {len : Nat} {ranges : Thread → List Range}
    {body : Thread → Except Cause Work} {store : Thread → Store → Prop} {sp : Space} {n : Nat}
    (hn : n = 1 ∨ n = 2 ∨ n = 4) (hfun : ∀ t st st', store t st → store t st' → st = st')
    (hplace : ∀ t st, store t st → st.space = sp ∧ st.bytes = n)
    (hbody : ∀ t st, store t st → st.addr % st.bytes = 0 → st.addr + st.bytes ≤ spaceSize s.params st.space →
      body t = .ok ⟨t, [], some st⟩)
    (hready : LanesReady s g fun t => ∃ st, store t st ∧ st.addr % st.bytes = 0 ∧
      st.addr + st.bytes ≤ spaceSize s.params st.space)
    (h : (∃ l ∈ s.warp.lanes, Takes g l ∧ ∃ st, store l.thread st ∧ Contested s st.space st.addr st.bytes true) ∨
      ∃ (i j : Nat) (l l' : Lane) (st st' : Store), i < j ∧ s.warp.lanes[i]? = some l ∧ s.warp.lanes[j]? = some l' ∧
        Takes g l ∧ Takes g l' ∧ store l.thread st ∧ store l'.thread st' ∧ st.addr < st'.addr + n ∧
        st'.addr < st.addr + n ∧ st.value.toNat % 2 ^ (8 * n) ≠ st'.value.toNat % 2 ^ (8 * n)) :
    execLanes s mk g len ranges body = s.raise none .race := by
  have hmade : ∀ l ∈ s.warp.lanes, Takes g l → ∀ st, store l.thread st →
      st.addr % st.bytes = 0 ∧ body l.thread = .ok ⟨l.thread, [], some st⟩ := by
    intro l hl ht st hst
    obtain ⟨st', hst', haligned, hend⟩ := hready.of_takes hl ht
    obtain rfl := hfun _ _ _ hst hst'
    exact ⟨haligned, hbody _ _ hst haligned hend⟩
  refine execLanes_storeRace (hready.mono fun t ⟨st, hst, haligned, hend⟩ => ⟨_, hbody t st hst haligned hend⟩)
    (h.imp ?contested ?clash)
  case contested =>
    rintro ⟨l, hl, ht, st, hst, hcontested⟩
    obtain ⟨_, hwork⟩ := hmade l hl ht st hst
    exact ⟨l, hl, ht, _, st, hwork, rfl, hcontested⟩
  case clash =>
    rintro ⟨i, j, l, l', st, st', hij, hi, hj, ht, ht', hst, hst', hlt, hlt', hne⟩
    obtain ⟨haligned, hwork⟩ := hmade l (List.mem_of_getElem? hi) ht st hst
    obtain ⟨haligned', hwork'⟩ := hmade l' (List.mem_of_getElem? hj) ht' st' hst'
    obtain ⟨hsp, hbytes⟩ := hplace _ _ hst
    obtain ⟨hsp', hbytes'⟩ := hplace _ _ hst'
    exact ⟨i, j, l, l', _, _, st, st', hij, hi, hj, ht, ht', hwork, hwork', rfl, rfl,
      Store.clash_of_overlap hn (hsp.trans hsp'.symm) hbytes hbytes' haligned haligned' hlt hlt' hne⟩

/-- Settles O53: the loads by `exec_gld_race` and `exec_operand_race`, the stores by `execLanes_alignedRace`. -/
theorem racesStop : Obligations.RacesStop := by
  unfold Obligations.RacesStop
  refine ⟨?gld, ?operand, ?gst, ?r2g⟩
  case gld =>
    rintro ctl d areg ty s ⟨l, hl, ht, addr, haddr, haligned, hend, hcontested⟩
    exact exec_gld_race hl ht haddr haligned hend hcontested
  case operand =>
    rintro i x s hx hlaunch ⟨l, hl, hpart, base, hbase, haligned, hend, hcontested⟩
    exact exec_operand_race hx hlaunch hl hpart hbase haligned hend hcontested
  case gst =>
    intro ctl dreg areg ty s n hready hrace
    rw [exec_gst]
    refine execLanes_alignedRace (store := GstStore s dreg areg ty) (sp := .global) (globalBytes_cases ty)
      GstStore.unique (fun t st ⟨_, _, _, _, hst⟩ => hst ▸ ⟨rfl, rfl⟩) (fun t st => gstWork_ok)
      (hready.mono fun t ⟨addr, v, haddr, hv, hplace⟩ => ⟨_, ⟨addr, v, haddr, hv, rfl⟩, hplace⟩)
      (hrace.imp ?contested ?clash)
    case contested =>
      rintro ⟨l, hl, ht, addr, haddr, hcontested⟩
      obtain ⟨_, v, _, hv, _⟩ := hready.of_takes hl ht
      exact ⟨l, hl, ht, _, ⟨addr, v, haddr, hv, rfl⟩, hcontested⟩
    case clash =>
      rintro ⟨i, j, l, l', addr, addr', v, v', hij, hi, hj, ht, ht', haddr, haddr', hv, hv', hoverlap⟩
      exact ⟨i, j, l, l', _, _, hij, hi, hj, ht, ht', ⟨addr, v, haddr, hv, rfl⟩, ⟨addr', v', haddr', hv', rfl⟩,
        hoverlap⟩
  case r2g =>
    intro ctl off a s3 sz sg s n place hready hrace
    rw [exec_r2g]
    refine execLanes_alignedRace (store := R2gStore s off a s3 sz) (sp := .shared s.warp.block)
      (Size.bytes_cases sz) R2gStore.unique (fun t st ⟨_, _, _, _, hst⟩ => hst ▸ ⟨rfl, rfl⟩) (fun t st => r2gWork_ok)
      (hready.mono fun t ⟨base, v, hbase, hv, hplace⟩ => ⟨_, ⟨base, v, hbase, hv, rfl⟩, hplace⟩)
      (hrace.imp ?contested ?clash)
    case contested =>
      rintro ⟨l, hl, ht, base, hbase, hcontested⟩
      obtain ⟨_, v, _, hv, _⟩ := hready.of_takes hl ht
      exact ⟨l, hl, ht, _, ⟨base, v, hbase, hv, rfl⟩, hcontested⟩
    case clash =>
      rintro ⟨i, j, l, l', base, base', v, v', hij, hi, hj, ht, ht', hbase, hbase', hv, hv', h, h', hne⟩
      exact ⟨i, j, l, l', _, _, hij, hi, hj, ht, ht', ⟨base, v, hbase, hv, rfl⟩, ⟨base', v', hbase', hv', rfl⟩,
        h, h', setWidth_mod_ne hne⟩

end Sys2Proof.Machine
end

section
/-!
The release of a barrier that every unfinished warp waits at (R134).
-/
namespace Sys2Proof.Machine

/-- A warp that has finished, or that waits and is of the block. -/
def Warp.DoneOrWaits (b : Nat) (w : Warp) : Prop := w.status = .finished ∨ w.status = .atBarrier ∧ w.block = b

theorem runsOf_eq_nil {b : Nat} {l : List Warp} (h : ∀ w ∈ l, w.DoneOrWaits b) : runsOf l = [] := by
  induction l with
  | nil => rfl
  | cons w rest ih =>
    have hw : w.status ≠ .running := by
      rcases h w List.mem_cons_self with hw | ⟨hw, _⟩ <;> simp [hw]
    rw [runsOf, if_neg hw, ih fun v hv => h v (List.mem_cons_of_mem _ hv)]

theorem State.releases_eq_nil {s : State} {l : List Warp} (h : ∀ w ∈ l, w.status ≠ .atBarrier) :
    s.releases l = [] := by
  induction l with
  | nil => rfl
  | cons w rest ih =>
    rw [State.releases, if_neg fun hw => h w List.mem_cons_self hw.1, ih fun v hv => h v (List.mem_cons_of_mem _ hv)]

/-- The one release of a machine whose unfinished warps all wait in one block: it is found at the last that waits. -/
theorem State.releases_eq_singleton {s : State} {b : Nat} (hrel : s.releasable b = true) {l : List Warp}
    (h : ∀ w ∈ l, w.DoneOrWaits b) (hwaits : ∃ w ∈ l, w.status = .atBarrier) : s.releases l = [.release b] := by
  induction l with
  | nil => obtain ⟨w, hw, _⟩ := hwaits; cases hw
  | cons w rest ih =>
    have hrest : ∀ v ∈ rest, v.DoneOrWaits b := fun v hv => h v (List.mem_cons_of_mem _ hv)
    rw [State.releases]
    by_cases hlater : ∃ v ∈ rest, v.status = .atBarrier
    · rw [ih hrest hlater, if_neg]
      rintro ⟨hw, _, hlast⟩
      obtain ⟨v, hv, hvwaits⟩ := hlater
      have hblock : v.block = w.block := by
        rcases hrest v hv with hvdone | ⟨_, hvb⟩
        · simp [hvwaits] at hvdone
        · rcases h w List.mem_cons_self with hwdone | ⟨_, hwb⟩
          · simp [hw] at hwdone
          · exact hvb.trans hwb.symm
      simpa [hblock, hvwaits] using List.all_eq_true.mp hlast v hv
    · have hnone : ∀ v ∈ rest, v.status ≠ .atBarrier := fun v hv hvwaits => hlater ⟨v, hv, hvwaits⟩
      obtain ⟨u, hu, huwaits⟩ := hwaits
      obtain rfl : u = w := (List.mem_cons.mp hu).resolve_right fun hu => hnone u hu huwaits
      rcases h u List.mem_cons_self with hdone | ⟨_, hblock⟩
      · simp [huwaits] at hdone
      · rw [State.releases_eq_nil hnone, hblock, if_pos ⟨huwaits, hrel, by simpa using fun v hv => .inr (hnone v hv)⟩]

/-- R134, R276: where the unfinished warps are those of one block and all wait, the next transition is their release,
without a choice. -/
theorem State.turn_of_all_waiting {s : State} {b : Nat} (h : ∀ w ∈ s.everyWarp, w.DoneOrWaits b)
    (hwaits : ∃ w ∈ s.everyWarp, w.status = .atBarrier) : s.turn = .release (s.release b) := by
  have hall : ∀ w ∈ s.warps, w.DoneOrWaits b := fun w hw => h w ((s.mem_warps w).mp hw)
  obtain ⟨u, hu, huwaits⟩ : ∃ w ∈ s.warps, w.status = .atBarrier :=
    hwaits.imp fun w hw => ⟨(s.mem_warps w).mpr hw.1, hw.2⟩
  have hublock : u.block = b := by
    rcases hall u hu with hdone | ⟨_, hblock⟩
    · simp [huwaits] at hdone
    · exact hblock
  have hended : s.ended = none := by
    have hfirst : s.firstEnd s.warps = none :=
      State.firstEnd_none.mpr fun w hw => .inr ((hall w hw).symm.imp_left And.left)
    have hsome : (s.warps.all fun w => w.status == .finished) = false :=
      List.all_eq_false.mpr ⟨u, hu, by simp [huwaits]⟩
    simp only [State.ended, hfirst, hsome, Bool.false_eq_true, if_false]
  have hrel : s.releasable b = true := by
    simp only [State.releasable, Bool.and_eq_true, List.any_eq_true, List.all_eq_true, Bool.or_eq_true, beq_iff_eq]
    exact ⟨⟨u, hu, hublock, huwaits⟩, fun w hw => (hall w hw).elim .inr fun hw => .inl (.inr hw.1)⟩
  have hpick : s.pick = some (.release b, s) := by
    rw [State.pick, State.choices, runsOf_eq_nil hall, State.releases_eq_singleton hrel hall ⟨u, hu, huwaits⟩]
    rfl
  simp only [State.turn, hended, hpick]

/-- Settles O23: the release is the next transition, and it moves every warp by `releaseWarp`, which looks only at
whether a warp waits where no other block's warp does. -/
theorem barrierReleases : Obligations.BarrierReleases := by
  unfold Obligations.BarrierReleases
  intro s b hall hwaits
  have hturn := State.turn_of_all_waiting hall hwaits
  refine ⟨s.release b, by simp only [step, hturn], rfl, ?_⟩
  rw [State.release_everyWarp]
  refine List.map_congr_left fun w hw => ?_
  rcases hall w hw with hdone | ⟨hwait, hblock⟩
  · simp [releaseWarp, hdone]
  · simp [releaseWarp, hwait, hblock]

end Sys2Proof.Machine
end

section
/-!
Reading is the inverse of writing (R120): no reader drops a bit. Each small field and each operand group is read as a
value exactly where the word holds what is written for that value; so a word that decodes has every field of the word
of its instruction, format by format.
-/
namespace Sys2Proof

/-! ### Small fields -/

@[simp] theorem bind_ok_iff {α β : Type} {x : Except Reject α} {f : α → Except Reject β} {b : β} :
    (x >>= f) = .ok b ↔ ∃ a, x = .ok a ∧ f a = .ok b := by
  cases x <;> simp [bind, Except.bind]

@[simp] theorem need_ok_iff {b : Bool} {r : Reject} {u : Unit} : need b r = .ok u ↔ b = true :=
  ⟨need_ok, fun h => by rw [h]; rfl⟩

@[simp] theorem decCond_ok_iff {b : BitVec 5} {k : Cond} : decCond b = .ok k ↔ b = encCond k :=
  ⟨fun h => (encCond_of_dec h).symm, fun h => h ▸ decCond_encCond k⟩

@[simp] theorem decMarker_ok_iff {b : BitVec 2} {m : Marker} : decMarker b = .ok m ↔ b = encMarker m :=
  ⟨fun h => (encMarker_of_dec h).symm, fun h => h ▸ decMarker_encMarker m⟩

@[simp] theorem decCvtTy_ok_iff {b : BitVec 3} {t : CvtTy} : decCvtTy b = .ok t ↔ b = encCvtTy t :=
  ⟨fun h => (encCvtTy_of_dec h).symm, fun h => h ▸ decCvtTy_encCvtTy t⟩

@[simp] theorem decCmp_ok_iff {b : BitVec 5} {c : CmpSet} : decCmp b = .ok c ↔ b = encCmp c :=
  ⟨fun h => (encCmp_of_dec h).symm, fun h => h ▸ decCmp_encCmp c⟩

@[simp] theorem decRm_ok_iff {b : BitVec 2} {m : Rm} : decRm b = .ok m ↔ b = encRm m :=
  ⟨fun h => (encRm_of_dec h).symm, fun h => h ▸ decRm_encRm m⟩

@[simp] theorem decGlobalTy_ok_iff {b : BitVec 3} {t : GlobalTy} : decGlobalTy b = .ok t ↔ b = encGlobalTy t :=
  ⟨fun h => (encGlobalTy_of_dec h).symm, fun h => h ▸ decGlobalTy_encGlobalTy t⟩

@[simp] theorem decWidth_ok_iff {b : BitVec 2} {w : Width} : decWidth b = .ok w ↔ b = encWidth w :=
  ⟨fun h => (encWidth_of_dec h).symm, fun h => h ▸ decWidth_encWidth w⟩

@[simp] theorem decRroMethod_ok_iff {b : BitVec 2} {m : RroMethod} : decRroMethod b = .ok m ↔ b = encRroMethod m :=
  ⟨fun h => (encRroMethod_of_dec h).symm, fun h => h ▸ decRroMethod_encRroMethod m⟩

/-! ### The operand groups of format L -/

@[simp] theorem RawL.ctl_ok_iff {r : RawL} {c : Ctl} : r.ctl = .ok c ↔
    r.marker = encMarker c.marker ∧ r.cc = encCond c.guard.cc ∧ r.pr = c.guard.pr := by
  refine ⟨fun h => ?_, fun ⟨hmarker, hcc, hpr⟩ => RawL.ctl_of c hmarker hcc hpr⟩
  simp only [RawL.ctl, bind_ok_iff, decMarker_ok_iff, decCond_ok_iff, Except.ok.injEq] at h
  obtain ⟨mk, hmarker, cc, hcc, rfl⟩ := h
  exact ⟨hmarker, hcc, rfl⟩

@[simp] theorem RawL.dst_ok_iff {r : RawL} {d : Dst} : r.dst = .ok d ↔ r.d = d.field ∧ r.od = d.od := by
  refine ⟨fun h => ?_, fun ⟨hd, hod⟩ => RawL.dst_of d hd hod⟩
  rw [RawL.dst] at h
  split at h
  · next hod =>
    split at h
    · next hd => cases h; exact ⟨hd, hod⟩
    · cases h
  · next hod => cases h; exact ⟨rfl, (BitVec.eq_zero_or_eq_one _).resolve_right hod⟩

@[simp] theorem RawL.src1_ok_iff {r : RawL} {s : Src1} : r.src1 = .ok s ↔
    r.s1 = s.field ∧ r.sh = s.sh ∧ r.alo = s.areg.extractLsb' 0 2 ∧ r.ahi = s.areg.extractLsb' 2 1 := by
  refine ⟨fun h => ?_, fun ⟨hfield, hsh, hlo, hhi⟩ => RawL.src1_of s hfield hsh hlo hhi⟩
  rw [RawL.src1] at h
  split at h
  · next hsh =>
    cases h
    refine ⟨?_, hsh, (low_of_append _ _).symm, (high_of_append _ _).symm⟩
    rw [Src1.field, encElemTy_decElemTy, halves_join (m := 2) (n := 5)]
  · next hsh =>
    split at h
    · next hareg =>
      cases h
      simp [Src1.field, Src1.sh, Src1.areg, (BitVec.eq_zero_or_eq_one _).resolve_right hsh, hareg]
    · cases h

@[simp] theorem RawL.reg1_ok_iff {r : RawL} {k : BitVec 7} : r.reg1 = .ok k ↔
    r.s1 = k ∧ r.sh = 0#1 ∧ r.alo = 0#2 ∧ r.ahi = 0#1 := by
  have hsh : flag (~~~r.sh) = true ↔ r.sh = 0#1 := by
    rcases BitVec.eq_zero_or_eq_one r.sh with h | h <;> rw [h] <;> decide
  simp only [RawL.reg1, bind_ok_iff, need_ok_iff, Bool.and_eq_true, hsh, beq_iff_eq, Except.ok.injEq, exists_const]
  tauto

@[simp] theorem RawL.plain_ok_iff {r : RawL} {u : Unit} : r.plain = .ok u ↔
    r.x25 = 0#1 ∧ r.x60 = 0#1 ∧ (r.seg = 0#4 ∨ r.c2 = 1#1 ∨ r.c3 = 1#1) := by
  simp only [RawL.plain, need_ok_iff, flag, Bool.and_eq_true, Bool.or_eq_true, beq_iff_eq, and_assoc, or_assoc]

@[simp] theorem RawL.noConst_iff {r : RawL} : r.noConst = true ↔ r.c2 = 0#1 ∧ r.c3 = 0#1 := by
  simp only [RawL.noConst, Bool.and_eq_true, beq_iff_eq]

@[simp] theorem RawL.addrPlain_iff {r : RawL} : r.addrPlain = true ↔ r.ahi = 0#1 ∧ r.od = 0#1 ∧ r.ps = 0#2 ∧
    r.pe = 0#1 ∧ r.s3 = 0#7 ∧ r.sh = 0#1 ∧ r.seg = 0#4 ∧ r.sz = 0#1 ∧ r.sg = 0#1 ∧ r.x60 = 0#1 := by
  simp only [RawL.addrPlain, Bool.and_eq_true, beq_iff_eq, and_assoc]

@[simp] theorem RawL.cvtPlain_iff {r : RawL} : r.cvtPlain = true ↔ r.x25 = 0#1 ∧ r.x60 = 0#1 ∧
    (r.c2 = 0#1 ∧ r.c3 = 0#1) ∧ r.s2 = 0#7 ∧ r.seg = 0#4 ∧ r.s3.extractLsb' 5 1 = 0#1 ∧ r.sz = 1#1 := by
  simp only [RawL.cvtPlain, Bool.and_eq_true, beq_iff_eq, RawL.noConst_iff, and_assoc]

@[simp] theorem RawL.src2_field (r : RawL) : r.src2.field = r.s2 := by
  rw [RawL.src2]; split <;> rfl

@[simp] theorem RawL.src2_isConst (r : RawL) : r.src2.isConst = r.c2 := by
  rcases BitVec.eq_zero_or_eq_one r.c2 with h | h <;> simp [RawL.src2, SrcB.isConst, h]

/-- R99: source 2 keeps the segment where it is a constant or the segment is 0. -/
@[simp] theorem RawL.src2_seg {r : RawL} : r.src2.seg = r.seg ↔ r.seg = 0#4 ∨ r.c2 = 1#1 := by
  by_cases h : r.c2 = 1#1
  · simp [RawL.src2, SrcB.seg, h]
  · simp [RawL.src2, SrcB.seg, h, @eq_comm _ r.seg]

@[simp] theorem RawL.src3_field (r : RawL) : r.src3.field = r.s3 := by
  rw [RawL.src3]; split <;> rfl

@[simp] theorem RawL.src3_isConst (r : RawL) : r.src3.isConst = r.c3 := by
  rcases BitVec.eq_zero_or_eq_one r.c3 with h | h <;> simp [RawL.src3, SrcB.isConst, h]

/-- R99: source 3 keeps the segment where it is a constant or the segment is 0. -/
@[simp] theorem RawL.src3_seg {r : RawL} : r.src3.seg = r.seg ↔ r.seg = 0#4 ∨ r.c3 = 1#1 := by
  by_cases h : r.c3 = 1#1
  · simp [RawL.src3, SrcB.seg, h]
  · simp [RawL.src3, SrcB.seg, h, @eq_comm _ r.seg]

/-- Two format-L words are the same if each field is. -/
theorem RawL.ext_iff {r r' : RawL} : r = r' ↔
    r.lng = r'.lng ∧ r.flow = r'.flow ∧ r.d = r'.d ∧ r.s1 = r'.s1 ∧ r.s2 = r'.s2 ∧ r.c2 = r'.c2 ∧ r.c3 = r'.c3 ∧
      r.x25 = r'.x25 ∧ r.alo = r'.alo ∧ r.op = r'.op ∧ r.marker = r'.marker ∧ r.ahi = r'.ahi ∧ r.od = r'.od ∧
      r.ps = r'.ps ∧ r.pe = r'.pe ∧ r.cc = r'.cc ∧ r.pr = r'.pr ∧ r.s3 = r'.s3 ∧ r.sh = r'.sh ∧ r.seg = r'.seg ∧
      r.sz = r'.sz ∧ r.sg = r'.sg ∧ r.x60 = r'.x60 ∧ r.sub = r'.sub := by
  cases r; cases r'; simp only [RawL.mk.injEq]

/-! ### The fields that hold several small ones -/

/-- A field of two parts is what its parts are. -/
theorem append_eq_iff {m n : Nat} {a : BitVec m} {b : BitVec n} {x : BitVec (m + n)} :
    a ++ b = x ↔ x.extractLsb' n m = a ∧ x.extractLsb' 0 n = b := by
  constructor
  · rintro rfl
    exact ⟨high_of_append a b, low_of_append a b⟩
  · rintro ⟨rfl, rfl⟩
    exact halves_join x

/-- R161: the third field of a shift is the immediate flag over zeros. -/
theorem shiftFlag_iff {s : BitVec 7} : (0#7 = s ↔ s.getLsbD 6 = false ∧ s.extractLsb' 0 6 = 0#6) ∧
    (64#7 = s ↔ s.getLsbD 6 = true ∧ s.extractLsb' 0 6 = 0#6) := by
  revert s; decide

theorem lop_join_iff {s : BitVec 7} {o : BitVec 2} :
    0#3 ++ bit (s.getLsbD 3) ++ bit (s.getLsbD 2) ++ o = s ↔ s.extractLsb' 4 3 = 0#3 ∧ s.extractLsb' 0 2 = o := by
  revert s o; decide

theorem fset_high_iff {s : BitVec 7} :
    s.extractLsb' 5 2 = bit (s.getLsbD 6) ++ 0#1 ↔ s.extractLsb' 5 1 = 0#1 := by
  revert s; decide

theorem f2f_join_iff {s : BitVec 7} {rm : BitVec 2} : bit (s.getLsbD 6) ++ 0#1 ++ rm ++ 1#3 = s ↔
    s.extractLsb' 5 1 = 0#1 ∧ s.extractLsb' 0 3 = 1#3 ∧ s.extractLsb' 3 2 = rm := by
  revert s rm; decide

theorem f2i_join_iff {s : BitVec 7} {rm : BitVec 2} : 0#2 ++ rm ++ 1#3 = s ↔
    s.extractLsb' 5 1 = 0#1 ∧ s.extractLsb' 6 1 = 0#1 ∧ s.extractLsb' 0 3 = 1#3 ∧ s.extractLsb' 3 2 = rm := by
  revert s rm; decide

theorem i2f_join_iff {s : BitVec 7} {rm : BitVec 2} : 0#2 ++ rm ++ bit (s.getLsbD 2) ++ 1#2 = s ↔
    s.extractLsb' 5 1 = 0#1 ∧ s.extractLsb' 6 1 = 0#1 ∧ s.extractLsb' 0 2 = 1#2 ∧ s.extractLsb' 3 2 = rm := by
  revert s rm; decide

/-- R188: in R2G the segment field holds the upper size bit and zeros. -/
theorem r2gSeg_zero_iff {s : BitVec 4} : 0#4 = s ↔ s.extractLsb' 1 3 = 0#3 ∧ s.extractLsb' 0 1 = 0#1 := by
  revert s; decide

theorem signed_field_join (d : BitVec 7) : bit (d.getLsbD 6) ++ d.extractLsb' 0 6 = d := by
  revert d; decide

theorem r2a_imm_parts (alo : BitVec 2) (x25 c3 c2 : BitVec 1) (s2 : BitVec 7) :
    let imm : BitVec 12 := alo ++ x25 ++ c3 ++ c2 ++ s2
    imm.extractLsb' 0 7 = s2 ∧ imm.extractLsb' 7 1 = c2 ∧ imm.extractLsb' 8 1 = c3 ∧ imm.extractLsb' 9 1 = x25 ∧
      imm.extractLsb' 10 2 = alo := by
  refine ⟨?_, ?_, ?_, ?_, ?_⟩ <;>
    simp (disch := omega) only [BitVec.extractLsb'_append_eq_of_add_le, BitVec.extractLsb'_append_eq_of_le,
      Nat.reduceSub, BitVec.extractLsb'_eq_self]

theorem a2r_imm_parts (x25 c3 c2 : BitVec 1) (s2 : BitVec 7) :
    let imm : BitVec 10 := x25 ++ c3 ++ c2 ++ s2
    imm.extractLsb' 0 7 = s2 ∧ imm.extractLsb' 7 1 = c2 ∧ imm.extractLsb' 8 1 = c3 ∧ imm.extractLsb' 9 1 = x25 := by
  refine ⟨?_, ?_, ?_, ?_⟩ <;>
    simp (disch := omega) only [BitVec.extractLsb'_append_eq_of_add_le, BitVec.extractLsb'_append_eq_of_le,
      Nat.reduceSub, BitVec.extractLsb'_eq_self]

/-! ### Format L, reader by reader

Each reader is a chain of checks and reads. Taken apart, it says of every field what stands there: the checks give the
fixed fields, the operand groups give theirs by the `_iff` lemmas above, and so the writer's record is the word's. -/

/-- R80 to R83, R111: a long word that is no flow word, with this opcode and sub-opcode. -/
def RawL.Head (r : RawL) (op : BitVec 4) (sub : BitVec 3) : Prop :=
  r.lng = 1#1 ∧ r.flow = 0#1 ∧ r.op = op ∧ r.sub = sub

section
variable {r : RawL} {i : Instr}

theorem encodeRaw_of_decI2i (neg : Bool) (hhead : r.Head 0xA#4 (0#2 ++ bit neg)) (h : decI2i r = .ok i) :
    encodeRaw i = .normal r := by
  simp only [decI2i, bind_ok_iff, Except.ok.injEq] at h
  obtain ⟨_, hplain, _, hneed, ctl, hctl, d, hd, s1, hs1, t, ht, rfl⟩ := h
  cases neg <;> simp_all [RawL.Head, encodeRaw, encI2i, RawL.ext_iff, RawL.blank, RawL.set, encSize_decSize,
    append_eq_iff (m := 4) (n := 3)]

theorem encodeRaw_of_decIadd (hhead : r.Head 0x2#4 0#3) (h : decIadd r = .ok i) : encodeRaw i = .normal r := by
  simp only [decIadd, bind_ok_iff, Except.ok.injEq] at h
  obtain ⟨_, hplain, _, hneed, ctl, hctl, d, hd, s1, hs1, rfl⟩ := h
  simp_all [RawL.Head, encodeRaw, encIadd, RawL.ext_iff, RawL.blank, RawL.set, encSize_decSize]

theorem encodeRaw_of_decIaddc (hhead : r.Head 0x3#4 0#3) (h : decIaddc r = .ok i) : encodeRaw i = .normal r := by
  simp only [decIaddc, bind_ok_iff, Except.ok.injEq] at h
  obtain ⟨_, hplain, _, hneed, mk, hmk, d, hd, s1, hs1, rfl⟩ := h
  simp_all [RawL.Head, encodeRaw, encIaddc, RawL.ext_iff, RawL.blank, RawL.set, encSize_decSize, encCond]

theorem encodeRaw_of_decImad (hhead : r.Head 0x6#4 0#3) (h : decImad r = .ok i) : encodeRaw i = .normal r := by
  simp only [decImad, bind_ok_iff, Except.ok.injEq] at h
  obtain ⟨_, hplain, _, hneed, ctl, hctl, d, hd, s1, hs1, rfl⟩ := h
  simp_all [RawL.Head, encodeRaw, encImad, RawL.ext_iff, RawL.blank, RawL.set]

theorem encodeRaw_of_decImad24 (hhead : r.Head 0x7#4 0#3) (h : decImad24 r = .ok i) : encodeRaw i = .normal r := by
  simp only [decImad24, bind_ok_iff, Except.ok.injEq] at h
  obtain ⟨_, hplain, _, hneed, ctl, hctl, d, hd, s1, hs1, rfl⟩ := h
  simp_all [RawL.Head, encodeRaw, encImad24, RawL.ext_iff, RawL.blank, RawL.set]

theorem encodeRaw_of_decLop (hhead : r.Head 0xD#4 0#3) (h : decLop r = .ok i) : encodeRaw i = .normal r := by
  simp only [decLop, bind_ok_iff, Except.ok.injEq] at h
  obtain ⟨_, hplain, _, hneed, ctl, hctl, d, hd, s1, hs1, rfl⟩ := h
  simp_all [RawL.Head, encodeRaw, encLop, RawL.ext_iff, RawL.blank, RawL.set, encSize_decSize, lop_join_iff,
    encLogicOp_decLogicOp, -BitVec.getLsbD_eq_getElem]

theorem encodeRaw_of_decIset (hhead : r.Head 0x3#4 3#3) (h : decIset r = .ok i) : encodeRaw i = .normal r := by
  simp only [decIset, bind_ok_iff, Except.ok.injEq] at h
  obtain ⟨_, hplain, _, hneed, ctl, hctl, d, hd, s1, hs1, cmp, hcmp, rfl⟩ := h
  simp_all [RawL.Head, encodeRaw, encIset, RawL.ext_iff, RawL.blank, RawL.set, encSize_decSize,
    append_eq_iff (m := 2) (n := 5)]

theorem encodeRaw_of_decMvc (hhead : r.Head 0x1#4 1#3) (h : decMvc r = .ok i) : encodeRaw i = .normal r := by
  simp only [decMvc, bind_ok_iff, Except.ok.injEq] at h
  obtain ⟨_, hneed, ctl, hctl, width, hwidth, rfl⟩ := h
  simp_all [RawL.Head, encodeRaw, encMvc, RawL.ext_iff, RawL.blank, RawL.set, encSize_decSize,
    append_eq_iff (m := 5) (n := 2), low_of_append r.ahi r.alo, high_of_append r.ahi r.alo]

theorem encodeRaw_of_decMov (hhead : r.Head 0x1#4 0#3) (h : decMov r = .ok i) : encodeRaw i = .normal r := by
  simp only [decMov, bind_ok_iff, Except.ok.injEq] at h
  obtain ⟨_, hplain, _, hneed, ctl, hctl, s1, hs1, rfl⟩ := h
  simp_all [RawL.Head, encodeRaw, encMov, RawL.ext_iff, RawL.blank, encSize_decSize]

theorem encodeRaw_of_decR2g (hhead : r.Head 0x0#4 7#3) (h : decR2g r = .ok i) : encodeRaw i = .normal r := by
  simp only [decR2g, bind_ok_iff, Except.ok.injEq] at h
  obtain ⟨_, hneed, _, hsize, ctl, hctl, rfl⟩ := h
  simp_all [RawL.Head, encodeRaw, encR2g, RawL.ext_iff, RawL.blank, encSize_decSize, r2gSeg_zero_iff,
    low_of_append r.s2 r.s1, high_of_append r.s2 r.s1, low_of_append r.ahi r.alo, high_of_append r.ahi r.alo]

theorem encodeRaw_of_decR2a (hhead : r.Head 0x0#4 6#3) (h : decR2a r = .ok i) : encodeRaw i = .normal r := by
  simp only [decR2a, bind_ok_iff, Except.ok.injEq] at h
  obtain ⟨_, hneed, ctl, hctl, rfl⟩ := h
  simp_all [RawL.Head, encodeRaw, encR2a, RawL.ext_iff, RawL.blank, r2a_imm_parts]

theorem encodeRaw_of_decA2r (hhead : r.Head 0x0#4 2#3) (h : decA2r r = .ok i) : encodeRaw i = .normal r := by
  simp only [decA2r, bind_ok_iff, Except.ok.injEq] at h
  obtain ⟨_, hneed, ctl, hctl, rfl⟩ := h
  simp_all [RawL.Head, encodeRaw, encA2r, RawL.ext_iff, RawL.blank, a2r_imm_parts]

theorem encodeRaw_of_decAda (hhead : r.Head 0xD#4 1#3) (h : decAda r = .ok i) : encodeRaw i = .normal r := by
  simp only [decAda, bind_ok_iff, Except.ok.injEq] at h
  obtain ⟨_, hneed, ctl, hctl, rfl⟩ := h
  simp_all [RawL.Head, encodeRaw, encAda, RawL.ext_iff, RawL.blank, low_of_append r.s2 r.s1, high_of_append r.s2 r.s1]

theorem encodeRaw_of_decFadd (hhead : r.Head 0xB#4 0#3) (h : decFadd r = .ok i) : encodeRaw i = .normal r := by
  simp only [decFadd, bind_ok_iff, Except.ok.injEq] at h
  obtain ⟨_, hplain, _, hneed, ctl, hctl, d, hd, s1, hs1, rm, hrm, rfl⟩ := h
  simp_all [RawL.Head, encodeRaw, encFadd, RawL.ext_iff, RawL.blank, RawL.set, append_eq_iff (m := 5) (n := 2)]

theorem encodeRaw_of_decFmul (hhead : r.Head 0xC#4 0#3) (h : decFmul r = .ok i) : encodeRaw i = .normal r := by
  simp only [decFmul, bind_ok_iff, Except.ok.injEq] at h
  obtain ⟨_, hplain, _, hneed, ctl, hctl, d, hd, s1, hs1, rm, hrm, rfl⟩ := h
  simp_all [RawL.Head, encodeRaw, encFmul, RawL.ext_iff, RawL.blank, RawL.set, append_eq_iff (m := 5) (n := 2)]

theorem encodeRaw_of_decFmad (hhead : r.Head 0xE#4 0#3) (h : decFmad r = .ok i) : encodeRaw i = .normal r := by
  simp only [decFmad, bind_ok_iff, Except.ok.injEq] at h
  obtain ⟨_, hplain, _, hneed, ctl, hctl, d, hd, s1, hs1, rfl⟩ := h
  rcases BitVec.eq_zero_or_eq_one r.c2 with hc2 | hc2 <;> rcases BitVec.eq_zero_or_eq_one r.c3 with hc3 | hc3 <;>
    simp_all [RawL.Head, encodeRaw, encFmad, RawL.ext_iff, RawL.blank, RawL.set, RawL.src2, RawL.src3, RawL.withSrc2,
      RawL.withSrc3]

theorem encodeRaw_of_decF2f (neg : Bool) (hhead : r.Head 0xA#4 (3#2 ++ bit neg)) (h : decF2f r = .ok i) :
    encodeRaw i = .normal r := by
  simp only [decF2f, bind_ok_iff, Except.ok.injEq] at h
  obtain ⟨_, hneed, ctl, hctl, d, hd, s1, hs1, rm, hrm, rfl⟩ := h
  cases neg <;> simp_all [RawL.Head, encodeRaw, encF2f, RawL.ext_iff, RawL.blank, RawL.set, f2f_join_iff,
    -BitVec.getLsbD_eq_getElem]

theorem encodeRaw_of_decF2i (hhead : r.Head 0xA#4 4#3) (h : decF2i r = .ok i) : encodeRaw i = .normal r := by
  simp only [decF2i, bind_ok_iff, Except.ok.injEq] at h
  obtain ⟨_, hneed, ctl, hctl, d, hd, s1, hs1, rm, hrm, rfl⟩ := h
  simp_all [RawL.Head, encodeRaw, encF2i, RawL.ext_iff, RawL.blank, RawL.set, f2i_join_iff]

theorem encodeRaw_of_decI2f (hhead : r.Head 0xA#4 2#3) (h : decI2f r = .ok i) : encodeRaw i = .normal r := by
  simp only [decI2f, bind_ok_iff, Except.ok.injEq] at h
  obtain ⟨_, hneed, _, hty, ctl, hctl, d, hd, s1, hs1, rm, hrm, rfl⟩ := h
  simp_all [RawL.Head, encodeRaw, encI2f, RawL.ext_iff, RawL.blank, RawL.set, i2f_join_iff, -BitVec.getLsbD_eq_getElem]

theorem encodeRaw_of_decFset (hhead : r.Head 0xB#4 3#3) (h : decFset r = .ok i) : encodeRaw i = .normal r := by
  simp only [decFset, bind_ok_iff, Except.ok.injEq] at h
  obtain ⟨_, hplain, _, hneed, ctl, hctl, d, hd, s1, hs1, cmp, hcmp, rfl⟩ := h
  simp_all [RawL.Head, encodeRaw, encFset, RawL.ext_iff, RawL.blank, RawL.set, append_eq_iff (m := 2) (n := 5),
    fset_high_iff, -BitVec.getLsbD_eq_getElem]

theorem encodeRaw_of_decRro (hhead : r.Head 0xB#4 6#3) (h : decRro r = .ok i) : encodeRaw i = .normal r := by
  simp only [decRro, bind_ok_iff, Except.ok.injEq] at h
  obtain ⟨_, hplain, _, hneed, ctl, hctl, d, hd, s1, hs1, m, hm, rfl⟩ := h
  simp_all [RawL.Head, encodeRaw, encRro, RawL.ext_iff, RawL.blank, RawL.set, append_eq_iff (m := 5) (n := 2)]

/-- NOP's reader compares the whole word (R137). -/
theorem encodeRaw_of_decNop (h : decNop r = .ok i) : encodeRaw i = .normal r := by
  simp only [decNop, bind_ok_iff, need_ok_iff, beq_iff_eq, decMarker_ok_iff, Except.ok.injEq] at h
  obtain ⟨mk, hmk, _, hr, rfl⟩ := h
  rw [hr, hmk]
  rfl

theorem encImulForm_of_dec {op : BitVec 4} {mkInstr : Ctl → Dst → PredSet → Src1 → BitVec 7 → Instr}
    (hhead : r.Head op 0#3) (h : decImulForm mkInstr r = .ok i) :
    ∃ ctl d set s1 s2, i = mkInstr ctl d set s1 s2 ∧ encImulForm op ctl d set s1 s2 = r := by
  simp only [decImulForm, bind_ok_iff, Except.ok.injEq] at h
  obtain ⟨_, hplain, _, hneed, ctl, hctl, d, hd, s1, hs1, rfl⟩ := h
  refine ⟨ctl, d, r.set, s1, r.s2, rfl, ?_⟩
  simp_all [RawL.Head, encImulForm, RawL.ext_iff, RawL.blank, RawL.set]

theorem encShift_of_dec {sub : BitVec 3} {mkInstr : Ctl → BitVec 7 → Src1 → Amount → Size → Bool → Instr}
    (hhead : r.Head 0x3#4 sub) (h : decShift mkInstr r = .ok i) :
    ∃ ctl d s1 amt sz sg, i = mkInstr ctl d s1 amt sz sg ∧ encShift sub ctl d s1 amt sz sg = r := by
  simp only [decShift, bind_ok_iff, Except.ok.injEq] at h
  obtain ⟨_, hplain, _, hneed, ctl, hctl, s1, hs1, rfl⟩ := h
  refine ⟨ctl, r.d, s1, _, _, _, rfl, ?_⟩
  cases himm : r.s3.getLsbD 6 <;>
    simp_all [RawL.Head, encShift, RawL.ext_iff, RawL.blank, encSize_decSize, append_eq_iff (m := 2) (n := 5),
      shiftFlag_iff, -BitVec.getLsbD_eq_getElem]

theorem encGlobal_of_dec {sub : BitVec 3} {mkInstr : Ctl → BitVec 7 → BitVec 7 → GlobalTy → Instr}
    (hhead : r.Head 0xD#4 sub) (h : decGlobal mkInstr r = .ok i) :
    ∃ ctl d areg ty, i = mkInstr ctl d areg ty ∧ encGlobal sub ctl d areg ty = r := by
  simp only [decGlobal, bind_ok_iff, Except.ok.injEq] at h
  obtain ⟨_, hneed, ctl, hctl, ty, hty, rfl⟩ := h
  refine ⟨ctl, r.d, r.s1, ty, rfl, ?_⟩
  have hparts := (append_eq_iff (m := 2) (n := 1)).mp (decGlobalTy_ok_iff.mp hty)
  simp_all [RawL.Head, encGlobal, RawL.ext_iff, RawL.blank, append_eq_iff (m := 2) (n := 2)]

theorem encUnary_of_dec {sub : BitVec 3} {mkInstr : Ctl → Dst → PredSet → BitVec 7 → Instr}
    (hhead : r.Head 0x9#4 sub) (h : decUnary mkInstr r = .ok i) :
    ∃ ctl d set s1, i = mkInstr ctl d set s1 ∧ encUnary sub ctl d set s1 = r := by
  simp only [decUnary, bind_ok_iff, Except.ok.injEq] at h
  obtain ⟨_, hplain, _, hneed, ctl, hctl, d, hd, s1, hs1, rfl⟩ := h
  refine ⟨ctl, d, r.set, s1, rfl, ?_⟩
  simp_all [RawL.Head, encUnary, RawL.ext_iff, RawL.blank, RawL.set]

end

/-- A field is the numeral that a match on its number names. -/
theorem eq_ofNat_of_toNat {n k : Nat} {b : BitVec n} (h : b.toNat = k) : b = BitVec.ofNat n k := by
  rw [← h, BitVec.ofNat_toNat, BitVec.setWidth_eq]

/-- R111, R120: the fields of a format-L word are those of the instruction it decodes to. -/
theorem encodeRaw_of_decodeNormal {r : RawL} {i : Instr} (hlng : r.lng = 1#1) (hflow : r.flow = 0#1)
    (h : decodeNormal r = .ok i) : encodeRaw i = .normal r := by
  have head {op sub : Nat} (hop : r.op.toNat = op) (hsub : r.sub.toNat = sub) :
      r.Head (BitVec.ofNat 4 op) (BitVec.ofNat 3 sub) :=
    ⟨hlng, hflow, eq_ofNat_of_toNat hop, eq_ofNat_of_toNat hsub⟩
  unfold decodeNormal at h
  split at h
  next hop hsub => exact encodeRaw_of_decA2r (head hop hsub) h
  next hop hsub => exact encodeRaw_of_decR2a (head hop hsub) h
  next hop hsub => exact encodeRaw_of_decR2g (head hop hsub) h
  next hop hsub => exact encodeRaw_of_decMov (head hop hsub) h
  next hop hsub => exact encodeRaw_of_decMvc (head hop hsub) h
  next hop hsub => exact encodeRaw_of_decIadd (head hop hsub) h
  next hop hsub => exact encodeRaw_of_decIaddc (head hop hsub) h
  next hop hsub => exact encodeRaw_of_decIset (head hop hsub) h
  next hop hsub => obtain ⟨_, _, _, _, _, _, rfl, rfl⟩ := encShift_of_dec (head hop hsub) h; rfl
  next hop hsub => obtain ⟨_, _, _, _, _, _, rfl, rfl⟩ := encShift_of_dec (head hop hsub) h; rfl
  next hop hsub => obtain ⟨_, _, _, _, _, rfl, rfl⟩ := encImulForm_of_dec (head hop hsub) h; rfl
  next hop hsub => obtain ⟨_, _, _, _, _, rfl, rfl⟩ := encImulForm_of_dec (head hop hsub) h; rfl
  next hop hsub => exact encodeRaw_of_decImad (head hop hsub) h
  next hop hsub => exact encodeRaw_of_decImad24 (head hop hsub) h
  iterate 6 next hop hsub => obtain ⟨_, _, _, _, rfl, rfl⟩ := encUnary_of_dec (head hop hsub) h; rfl
  next hop hsub => exact encodeRaw_of_decI2i false (head hop hsub) h
  next hop hsub => exact encodeRaw_of_decI2i true (head hop hsub) h
  next hop hsub => exact encodeRaw_of_decI2f (head hop hsub) h
  next hop hsub => exact encodeRaw_of_decF2i (head hop hsub) h
  next hop hsub => exact encodeRaw_of_decF2f false (head hop hsub) h
  next hop hsub => exact encodeRaw_of_decF2f true (head hop hsub) h
  next hop hsub => exact encodeRaw_of_decFadd (head hop hsub) h
  next hop hsub => exact encodeRaw_of_decFset (head hop hsub) h
  next hop hsub => exact encodeRaw_of_decRro (head hop hsub) h
  next hop hsub => exact encodeRaw_of_decFmul (head hop hsub) h
  next hop hsub => exact encodeRaw_of_decLop (head hop hsub) h
  next hop hsub => exact encodeRaw_of_decAda (head hop hsub) h
  next hop hsub => obtain ⟨_, _, _, _, rfl, rfl⟩ := encGlobal_of_dec (head hop hsub) h; rfl
  next hop hsub => obtain ⟨_, _, _, _, rfl, rfl⟩ := encGlobal_of_dec (head hop hsub) h; rfl
  next hop hsub => exact encodeRaw_of_decFmad (head hop hsub) h
  next => exact encodeRaw_of_decNop h
  next => cases h

/-! ### Formats S, I and F -/

@[simp] theorem decSrcS_ok_iff {f : BitVec 6} {sh : BitVec 1} {alo : BitVec 2} {s : SrcS} :
    decSrcS f sh alo = .ok s ↔ f = (encSrcS s).1 ∧ sh = (encSrcS s).2.1 ∧ alo = (encSrcS s).2.2 := by
  constructor
  · intro h
    rw [decSrcS] at h
    split at h
    · next hsh =>
      cases h
      refine ⟨?_, hsh, rfl⟩
      rw [encSrcS, encElemTy_decElemTy, halves_join (m := 2) (n := 4)]
    · next hsh =>
      split at h
      · next halo => cases h; exact ⟨rfl, (BitVec.eq_zero_or_eq_one _).resolve_right hsh, halo⟩
      · cases h
  · rintro ⟨rfl, rfl, rfl⟩
    exact decSrcS_encSrcS s

/-- A short source that is no shared operand has no address register (R94). -/
theorem encSrcS_areg_of_reg {s : SrcS} (h : (encSrcS s).2.1 = 0#1) : (encSrcS s).2.2 = 0#2 := by
  cases s with
  | reg k => rfl
  | shared off ty a => cases h

theorem RawS.ext_iff {r r' : RawS} : r = r' ↔
    r.lng = r'.lng ∧ r.flow = r'.flow ∧ r.d = r'.d ∧ r.s1 = r'.s1 ∧ r.b15 = r'.b15 ∧ r.s2 = r'.s2 ∧ r.b22 = r'.b22 ∧
      r.b23 = r'.b23 ∧ r.sh = r'.sh ∧ r.x25 = r'.x25 ∧ r.alo = r'.alo ∧ r.op = r'.op := by
  cases r; cases r'; simp only [RawS.mk.injEq]

theorem RawI.ext_iff {r r' : RawI} : r = r' ↔
    r.lng = r'.lng ∧ r.flow = r'.flow ∧ r.d = r'.d ∧ r.s1 = r'.s1 ∧ r.b15 = r'.b15 ∧ r.ilo = r'.ilo ∧ r.x22 = r'.x22 ∧
      r.sh = r'.sh ∧ r.x25 = r'.x25 ∧ r.op = r'.op ∧ r.marker = r'.marker ∧ r.ihi = r'.ihi ∧ r.x60 = r'.x60 ∧
      r.sub = r'.sub := by
  cases r; cases r'; simp only [RawI.mk.injEq]

/-- R111, R120: the fields of a format-S word are those of the instruction it decodes to. -/
theorem encodeRaw_of_decodeShortRaw {r : RawS} {i : Instr} (hlng : r.lng = 0#1) (h : decodeShortRaw r = .ok i) :
    encodeRaw i = .short r := by
  simp only [decodeShortRaw, bind_ok_iff] at h
  obtain ⟨_, hflow, _, hfixed, s1, hs1, h⟩ := h
  have hareg := encSrcS_areg_of_reg (s := s1)
  split at h
  case h_9 => cases h
  case h_6 hop | h_7 hop =>
    cases h
    have hop := eq_ofNat_of_toNat hop
    simp_all [encodeRaw, RawS.ext_iff, RawS.blank, RawS.withSrc]
  all_goals
    next hop =>
    simp only [bind_ok_iff, Except.ok.injEq] at h
    obtain ⟨_, hneed, rfl⟩ := h
    have hop := eq_ofNat_of_toNat hop
    simp_all [encodeRaw, RawS.ext_iff, RawS.blank, RawS.withSrc, encSize_decSize, append_eq_iff (m := 1) (n := 6)]

/-- R111, R120: the fields of a format-I word are those of the instruction it decodes to. -/
theorem encodeRaw_of_decodeImmRaw {r : RawI} {i : Instr} (hlng : r.lng = 1#1) (hflow : r.flow = 0#1)
    (hmarker : r.marker = 3#2) (h : decodeImmRaw r = .ok i) : encodeRaw i = .imm r := by
  have hlo : r.imm.extractLsb' 0 6 = r.ilo := low_of_append _ _
  have hhi : r.imm.extractLsb' 6 26 = r.ihi := high_of_append _ _
  simp only [decodeImmRaw, bind_ok_iff] at h
  obtain ⟨_, hsub, _, hfixed, h⟩ := h
  split at h
  case h_8 => cases h
  case h_2 hop =>
    simp only [bind_ok_iff, Except.ok.injEq] at h
    obtain ⟨_, hneed, s1, hs1, rfl⟩ := h
    have hop := eq_ofNat_of_toNat hop
    simp_all [encodeRaw, RawI.ext_iff, RawI.blank]
  all_goals
    next hop =>
    simp only [bind_ok_iff, Except.ok.injEq] at h
    obtain ⟨_, hneed, rfl⟩ := h
    have hop := eq_ofNat_of_toNat hop
    simp_all [encodeRaw, RawI.ext_iff, RawI.blank, signed_field_join, -BitVec.getLsbD_eq_getElem]

/-- R103, R111, R120: a format-F word is the word of the instruction it decodes to. -/
theorem encode_of_decodeFlowRaw {r : RawF} {i : Instr} (h : decodeFlowRaw r = .ok i) : encode i = r.toWord := by
  simp only [decodeFlowRaw, bind_ok_iff] at h
  obtain ⟨_, hmarker, h⟩ := h
  split at h
  case h_7 => cases h
  case h_1 | h_3 =>
    simp only [bind_ok_iff, need_ok_iff, beq_iff_eq, decCond_ok_iff, Except.ok.injEq] at h
    obtain ⟨_, hr, cc, hcc, rfl⟩ := h
    rw [hr, hcc]
    rfl
  case h_2 =>
    simp only [bind_ok_iff, need_ok_iff, beq_iff_eq, Except.ok.injEq] at h
    obtain ⟨_, hr, rfl⟩ := h
    rw [hr]
    simp [encode, encodeRaw, Encoded.word, low_of_append r.b27 r.tgt, high_of_append r.b27 r.tgt]
  case h_4 =>
    simp only [bind_ok_iff, need_ok_iff, beq_iff_eq, Except.ok.injEq] at h
    obtain ⟨_, hr, rfl⟩ := h
    rw [hr, RawF.toWord_ofWord]
    rfl
  case h_5 =>
    simp only [bind_ok_iff, need_ok_iff, beq_iff_eq, Except.ok.injEq] at h
    obtain ⟨_, hr, rfl⟩ := h
    rw [hr]
    rfl
  case h_6 =>
    simp only [bind_ok_iff, need_ok_iff, Bool.and_eq_true, beq_iff_eq, Except.ok.injEq] at h
    obtain ⟨_, ⟨hr, hhi⟩, rfl⟩ := h
    have htgt : 0#2 ++ r.tgt.extractLsb' 0 16 = r.tgt := (append_eq_iff (m := 2) (n := 16)).mpr ⟨hhi, rfl⟩
    rw [hr]
    simp [encode, encodeRaw, Encoded.word, htgt]

/-! ### The word -/

/-- Bit k of a word, as a field. -/
theorem field_of_getLsbD {n k : Nat} {w : BitVec n} {b : Bool} (h : w.getLsbD k = b) : w.extractLsb' k 1 = bit b := by
  rw [← h]
  exact BitVec.eq_of_getLsbD_eq fun j hj => by simp [Nat.lt_one_iff.mp hj]

theorem bind_checked_ok {x : Except Reject Instr} {i : Instr} : (x >>= checked) = .ok i ↔ x = .ok i ∧ i.wf := by
  rw [bind_ok_iff]
  constructor
  · rintro ⟨j, hx, hj⟩
    obtain ⟨rfl, hwf⟩ := checked_ok.mp hj
    exact ⟨hx, hwf⟩
  · exact fun ⟨hx, hwf⟩ => ⟨i, hx, checked_of_wf hwf⟩

/-- R10, R80: a long word that decodes is the word of its instruction. -/
theorem encode_of_decodeLong {w : Long} {i : Instr} (hlong : w.getLsbD 0 = true) (h : decodeLong w = .ok i) :
    i.wf ∧ encode i = w := by
  have hlng : w.extractLsb' 0 1 = 1#1 := field_of_getLsbD hlong
  rw [decodeLong] at h
  split at h
  · obtain ⟨hraw, hwf⟩ := bind_checked_ok.mp h
    exact ⟨hwf, by rw [encode_of_decodeFlowRaw hraw, RawF.toWord_ofWord]⟩
  · next hbit1 =>
    have hflow : w.extractLsb' 1 1 = 0#1 := field_of_getLsbD (Bool.eq_false_iff.mpr hbit1)
    split at h
    · next hmarker =>
      obtain ⟨hraw, hwf⟩ := bind_checked_ok.mp h
      refine ⟨hwf, ?_⟩
      rw [encode, encodeRaw_of_decodeImmRaw hlng hflow hmarker hraw, Encoded.word, RawI.toWord_ofWord]
    · obtain ⟨hraw, hwf⟩ := bind_checked_ok.mp h
      refine ⟨hwf, ?_⟩
      rw [encode, encodeRaw_of_decodeNormal hlng hflow hraw, Encoded.word, RawL.toWord_ofWord]

/-- R10, R80: a short word that decodes is, in the low 32 bits, the word of its instruction. -/
theorem encode_of_decodeShort {w : Word} {i : Instr} (hshort : w.getLsbD 0 = false) (h : decodeShort w = .ok i) :
    i.wf ∧ encode i = w.setWidth 64 := by
  obtain ⟨hraw, hwf⟩ := bind_checked_ok.mp h
  refine ⟨hwf, ?_⟩
  rw [encode, encodeRaw_of_decodeShortRaw (field_of_getLsbD hshort) hraw, Encoded.word, RawS.toWord_ofWord]

end Sys2Proof

namespace Sys2Proof.Machine

/-- Settles O4: `decodeWord_encode`. -/
theorem decodeOfEncode : Obligations.DecodeOfEncode := by
  unfold Obligations.DecodeOfEncode
  exact fun i hwf => decodeWord_encode hwf

/-- Settles O5: bit 0 says whether the word is long or short, and each is the word of its instruction. -/
theorem encodeOfDecode : Obligations.EncodeOfDecode := by
  unfold Obligations.EncodeOfDecode
  intro w i h
  rw [decodeWord] at h
  split at h
  · next hlong =>
    rw [if_pos hlong]
    exact encode_of_decodeLong hlong h
  · next hshort =>
    rw [if_neg hshort]
    refine encode_of_decodeShort ?_ h
    rw [BitVec.getLsbD_extractLsb']
    simpa using hshort

end Sys2Proof.Machine
end

section
/-!
The bytes of a word are read back as the word (R43, R52, R53), and one word or two are fetched (R80).
-/
namespace Sys2Proof

/-! ### The bytes of a word -/

/-- Bit j of the value of the low n bytes of a number. -/
theorem getLsbD_wordOfBytes_bytesOfNat (n v j : Nat) (hj : j < 64) :
    (wordOfBytes (bytesOfNat n v)).getLsbD j = (decide (j < 8 * n) && v.testBit j) := by
  induction n generalizing v j with
  | zero => simp [bytesOfNat, wordOfBytes]
  | succ n ih =>
    rw [bytesOfNat, wordOfBytes, BitVec.getLsbD_or, BitVec.getLsbD_shiftLeft, BitVec.getLsbD_setWidth,
      BitVec.getLsbD_ofNat]
    by_cases h8 : j < 8
    · simp [h8, hj, show j < 8 * (n + 1) by omega]
    · have hbit : (v / 256).testBit (j - 8) = v.testBit j := by
        rw [show (256 : Nat) = 2 ^ 8 from rfl, Nat.testBit_div_two_pow, Nat.sub_add_cancel (by omega)]
      rw [ih _ _ (by omega), hbit]
      simp [h8, hj, show (j - 8 < 8 * n) ↔ (j < 8 * (n + 1)) by omega]

theorem bytesOfNat_length (n v : Nat) : (bytesOfNat n v).length = n := by
  induction n generalizing v with
  | zero => rfl
  | succ n ih => rw [bytesOfNat, List.length_cons, ih]

theorem encodeBytes_length (i : Instr) : (encodeBytes i).length = i.length := bytesOfNat_length _ _

theorem Instr.length_short {i : Instr} (h : i.isShort = true) : i.length = 4 := if_pos h

theorem Instr.length_long {i : Instr} (h : i.isShort = false) : i.length = 8 := if_neg (Bool.eq_false_iff.mp h)

/-- R10: the bytes of an instruction are those of its word, which has no bit beyond them. -/
theorem wordOfBytes_encodeBytes (i : Instr) : wordOfBytes (encodeBytes i) = encode i := by
  refine BitVec.eq_of_getLsbD_eq fun j hj => ?_
  rw [encodeBytes, getLsbD_wordOfBytes_bytesOfNat _ _ _ hj, ← BitVec.getLsbD]
  cases hshort : i.isShort with
  | true =>
    rw [Instr.length_short hshort, ← encode_short hshort]
    by_cases h32 : j < 32 <;> simp [h32]
  | false => simp [Instr.length_long hshort, hj]

/-- R80: the lowest byte of an instruction stands first, and its bit 0 says how long the instruction is. -/
theorem encodeBytes_head (i : Instr) : ∃ b bytes, encodeBytes i = b :: bytes ∧ b.getLsbD 0 = !i.isShort := by
  have hcons : ∀ n v : Nat, bytesOfNat (n + 1) v = BitVec.ofNat 8 v :: bytesOfNat n (v / 256) := fun _ _ => rfl
  have hbit : (BitVec.ofNat 8 (encode i).toNat).getLsbD 0 = !i.isShort := by
    rw [← encode_bit0, BitVec.getLsbD_ofNat]
    rfl
  cases hshort : i.isShort with
  | true => exact ⟨_, _, by rw [encodeBytes, Instr.length_short hshort, hcons], hshort ▸ hbit⟩
  | false => exact ⟨_, _, by rw [encodeBytes, Instr.length_long hshort, hcons], hshort ▸ hbit⟩

/-- R53, R80: the bytes of a well-formed instruction decode to it, and what follows them is left. -/
theorem decodeBytes_encodeBytes {i : Instr} (hwf : i.wf) (rest : List Byte) :
    decodeBytes (encodeBytes i ++ rest) = .ok (i, rest) := by
  obtain ⟨b, bytes, hbytes, hbit⟩ := encodeBytes_head i
  have hcount : (if b.getLsbD 0 then 8 else 4) = (encodeBytes i).length := by
    rw [encodeBytes_length, Instr.length, hbit]
    cases i.isShort <;> rfl
  have hcons : encodeBytes i ++ rest = b :: (bytes ++ rest) := by rw [hbytes, List.cons_append]
  have hlong : ¬ (encodeBytes i ++ rest).length < (encodeBytes i).length := by simp
  rw [hcons]
  simp only [decodeBytes, hcount, ← hcons, if_neg hlong, List.take_left, List.drop_left, wordOfBytes_encodeBytes,
    decodeWord_encode hwf, ok_then]

end Sys2Proof

namespace Sys2Proof.Machine

/-! ### The fetch -/

/-- R80: a word with bit 0 clear is the whole instruction. -/
theorem State.fetch_short {s : State} {lo : Word} (haligned : s.warp.pc % 4 = 0)
    (hlo : s.codeWord s.warp.pc s.warp.pc = .ok lo) (hbit : lo.getLsbD 0 = false) :
    s.fetch = .ok (lo.setWidth 64) := by
  simp only [State.fetch, haligned, hlo, hbit, ne_eq, not_true_eq_false, if_false, Bool.false_eq_true]

/-- R80: a word with bit 0 set is followed by a second one. -/
theorem State.fetch_long {s : State} {lo : Word} (haligned : s.warp.pc % 4 = 0)
    (hlo : s.codeWord s.warp.pc s.warp.pc = .ok lo) (hbit : lo.getLsbD 0 = true) :
    s.fetch = (s.codeWord s.warp.pc (s.warp.pc + 4)).map fun hi => hi ++ lo := by
  simp only [State.fetch, haligned, hlo, hbit, ne_eq, not_true_eq_false, if_false, if_true]
  cases s.codeWord s.warp.pc (s.warp.pc + 4) <;> rfl

/-- Settles O6: the fetch by the two cases of bit 0, the words by `encode_bit0` and `encode_short`, the bytes by
`decodeBytes_encodeBytes`. -/
theorem shortAndLongWords : Obligations.ShortAndLongWords := by
  unfold Obligations.ShortAndLongWords
  refine ⟨fun s lo haligned hlo => ⟨State.fetch_short haligned hlo, fun hbit hi hhi => ?_, fun hbit c hc => ?_⟩,
    fun i => ?words, fun i rest hwf => decodeBytes_encodeBytes hwf rest⟩
  · rw [State.fetch_long haligned hlo hbit, hhi]
    rfl
  · rw [State.fetch_long haligned hlo hbit, hc]
    rfl
  case words =>
    rw [encode_bit0]
    cases hshort : i.isShort with
    | true =>
      rw [Instr.length_short hshort]
      exact ⟨rfl, .inl rfl, fun _ => (encode_short hshort).symm⟩
    | false =>
      rw [Instr.length_long hshort]
      exact ⟨rfl, .inr rfl, fun hfour => by cases hfour⟩

end Sys2Proof.Machine
end

section
/-!
The frame of an instruction (R105, R259), and NOP with its markers (R135, R137, R141).
-/
namespace Sys2Proof.Machine

/-- Settles O14: `exec_next` for the other warps and the name; a flow instruction changes no thread, and in any other a
lane that is not active takes no part. -/
theorem onlyActiveLanesChange : Obligations.OnlyActiveLanesChange := by
  unfold Obligations.OnlyActiveLanesChange
  intro i s t h
  obtain ⟨_, hrest, _, _, _, _, hfollows, _⟩ := exec_next h
  refine ⟨hrest, hfollows.block, hfollows.index, exec_lanes_length h, fun j l l' hl hl' hidle => ?_⟩
  rcases exec_shape i s with hflow | ⟨why, hwhy⟩ | ⟨mk, g, len, ranges, body, hexec, _⟩
  · obtain ⟨w, rfl, hthreads, _⟩ := flow_next hflow h
    exact Warp.thread_of_threads hthreads hl hl'
  · rw [hwhy] at h
    cases h
  · exact ((execLanes_lanes (hexec ▸ h)).2 j l l' hl hl').2 fun htakes => hidle htakes.1

theorem exec_nop {s : State} {mk : Marker} {w : Warp} (h : (s.warp.advance 8).mark mk = .ok w) :
    exec (.nop mk) s = .next (s.withWarp w) := by
  simp only [exec, execNop, finishStep, h]

theorem exec_nop_fault {s : State} {mk : Marker} {c : Cause} (h : (s.warp.advance 8).mark mk = .error c) :
    exec (.nop mk) s = s.raise none c := by
  simp only [exec, execNop, finishStep, h]

/-- A change that does not look at the lane's number. -/
theorem mapLanes_const (f : Lane → Lane) (i : Nat) (ls : List Lane) : mapLanes (fun _ => f) i ls = ls.map f := by
  induction ls generalizing i with
  | nil => rfl
  | cons l rest ih => rw [mapLanes, ih, List.map_cons]

/-- R141: every active lane gets the status. -/
theorem Warp.retire_all_lanes (w : Warp) (st : LaneStatus) : (w.retire (fun _ => true) st).lanes =
    w.lanes.map fun l => if l.status = .active then { l with status := st } else l := by
  have hlane : retireLane (fun _ => true) st =
      fun _ l => if l.status = .active then { l with status := st } else l := by
    funext i l
    simp [retireLane]
  rw [Warp.retire, hlane, mapLanes_const]

/-- R140: a warp with an active lane goes on as it stands. -/
theorem Warp.resume_eq (w : Warp) : w.resume = if w.hasActive then w else w.resume := by
  split
  · next h => exact if_pos h
  · rfl

/-- Settles O21: the end of NOP is its marker's effect on the warp with its pc advanced. -/
theorem nopMarkers : Obligations.NopMarkers := by
  unfold Obligations.NopMarkers
  intro s
  refine ⟨exec_nop rfl, ?exit, fun e below hstack => ?join, fun hempty => ?underflow⟩
  case exit =>
    exact ⟨(s.warp.advance 8).retire (fun _ => true) .ended, rfl, Warp.retire_all_lanes _ _, exec_nop rfl⟩
  case join =>
    refine ⟨_, rfl, ?_⟩
    have hjoin : (s.warp.advance 8).mark .join = .ok ((s.warp.advance 8).popEntry e below).resume := by
      simp only [Warp.mark, Warp.join, Warp.advance_stack, hstack]
    rw [exec_nop hjoin, Warp.resume_eq]
    rfl
  case underflow => exact exec_nop_fault (by simp only [Warp.mark, Warp.join, Warp.advance_stack, hempty])

end Sys2Proof.Machine
end

section
/-!
The condition codes (R106, R166): the table, and the flags that a subtraction leaves.
-/
namespace Sys2Proof.Machine

theorem exists_ok_iff {α : Type} {x : Except Reject α} : (∃ a, x = .ok a) ↔ x.isOk = true := by
  cases x <;> simp [Except.isOk, Except.toBool]

/-- R106, R121: the codes that name a condition. -/
theorem decCond_isOk (code : BitVec 5) : (decCond code).isOk = decide (code.toNat < 0x14 ∨ 0x1c ≤ code.toNat) := by
  revert code; decide

/-! ### The flags of a subtraction -/

/-- R166: adding the complement with a carry in is subtracting. -/
theorem addN_not_val {n : Nat} (a b : BitVec n) : (addN a (~~~b) true).val = a - b := by
  rw [BitVec.sub_eq_add_neg, BitVec.neg_eq_not_add, ← BitVec.add_assoc]
  rfl

/-- R166: the carry of a subtraction says that it borrows nothing. -/
theorem addN_not_carry {n : Nat} (a b : BitVec n) : (addN a (~~~b) true).carry = decide (b.toNat ≤ a.toNat) := by
  have hb := b.isLt
  simp only [addN, BitVec.toNat_not, Bool.toNat_true, decide_eq_decide]
  omega

/-- A difference wraps where it borrows. -/
theorem toNat_sub_cases {n : Nat} (a b : BitVec n) :
    b.toNat ≤ a.toNat ∧ (a - b).toNat = a.toNat - b.toNat ∨
      a.toNat < b.toNat ∧ (a - b).toNat = 2 ^ n + a.toNat - b.toNat := by
  have ha := a.isLt
  have hb := b.isLt
  rw [BitVec.toNat_sub]
  rcases Nat.lt_or_ge a.toNat b.toNat with h | h
  · exact .inr ⟨h, by rw [Nat.mod_eq_of_lt (by omega)]; omega⟩
  · exact .inl ⟨h, by rw [show 2 ^ n - b.toNat + a.toNat = a.toNat - b.toNat + 2 ^ n by omega, Nat.add_mod_right,
      Nat.mod_eq_of_lt (by omega)]⟩

/-- R165, R166: sign and overflow of a subtraction differ where the first operand is the lesser signed number. The
signed comparison is the unsigned one, turned round where the signs differ; then the three sign bits decide. -/
theorem addN_not_sign {n : Nat} (hn : 0 < n) (a b : BitVec n) :
    ((addN a (~~~b) true).val.msb ^^ (addN a (~~~b) true).overflow) = decide (a.toInt < b.toInt) := by
  have hoverflow : (addN a (~~~b) true).overflow = (a.msb == !b.msb && (a - b).msb != a.msb) := by
    have hnot : (~~~b).msb = !b.msb := by rw [BitVec.msb_not, decide_eq_true hn, Bool.true_and]
    rw [← addN_not_val, ← hnot]
    rfl
  have hmsb (x : BitVec n) : x.msb = decide (2 ^ (n - 1) ≤ x.toNat) := BitVec.msb_eq_decide x
  have hpow : 2 ^ n = 2 * 2 ^ (n - 1) := (mul_pow_sub_one hn.ne' 2).symm
  have ha := a.isLt
  have hb := b.isLt
  have hsub := toNat_sub_cases a b
  rw [hoverflow, addN_not_val, ← BitVec.slt_eq_decide, BitVec.slt_eq_ult, BitVec.ult, hmsb, hmsb a, hmsb b]
  generalize (a - b).toNat = v at hsub
  by_cases hva : 2 ^ (n - 1) ≤ a.toNat <;> by_cases hvb : 2 ^ (n - 1) ≤ b.toNat <;>
    by_cases hv : 2 ^ (n - 1) ≤ v <;> simp [hva, hvb, hv] <;> omega

/-- The flags of a subtraction, by what they say of its operands (R165, R166). -/
structure SubtractFlags {n : Nat} (a b : BitVec n) (f : Flags) : Prop where
  zero : f.z = decide (a = b)
  less : (f.s ^^ f.o) = decide (a.toInt < b.toInt)
  carry : f.c = decide (b.toNat ≤ a.toNat)
  same : a = b → f.s = false

theorem flagsOf_addN_not {n : Nat} (hn : 0 < n) (a b : BitVec n) :
    SubtractFlags a b (flagsOf (addN a (~~~b) true).val (addN a (~~~b) true).carry (addN a (~~~b) true).overflow) where
  zero := by
    rw [flagsOf, addN_not_val, Bool.eq_iff_iff, beq_iff_eq, decide_eq_true_iff]
    exact sub_eq_zero
  less := addN_not_sign hn a b
  carry := addN_not_carry a b
  same := by
    rintro rfl
    simp [flagsOf, addN_not_val]

/-- R106, R166: what the conditions say after a subtraction. -/
theorem SubtractFlags.conditions {n : Nat} {a b : BitVec n} {f : Flags} (h : SubtractFlags a b f) :
    condHolds .l f = decide (a.toInt < b.toInt) ∧ condHolds .e f = decide (a = b) ∧
      condHolds .le f = decide (a.toInt ≤ b.toInt) ∧ condHolds .g f = decide (b.toInt < a.toInt) ∧
      condHolds .lg f = decide (a ≠ b) ∧ condHolds .ge f = decide (b.toInt ≤ a.toInt) ∧
      condHolds .c f = decide (b.toNat ≤ a.toNat) ∧ condHolds .a f = decide (b.toNat < a.toNat) ∧
      condHolds .nc f = decide (a.toNat < b.toNat) ∧ condHolds .na f = decide (a.toNat ≤ b.toNat) := by
  obtain ⟨hzero, hless, hcarry, hsame⟩ := h
  by_cases hab : a = b
  · subst hab
    simp_all [condHolds]
  · have hint : a.toInt ≠ b.toInt := fun heq => hab (BitVec.eq_of_toInt_eq heq)
    have hnat : a.toNat ≠ b.toNat := fun heq => hab (BitVec.eq_of_toNat_eq heq)
    simp only [condHolds, hzero, hless, hcarry, hab, decide_false, Bool.not_false, Bool.and_true, Bool.true_and,
      Bool.false_or, Bool.false_and, ne_eq, not_false_eq_true, decide_true, true_and, ← decide_not, decide_eq_decide]
    refine ⟨?_, ?_, ?_, ?_, ?_⟩ <;> omega

/-- Settles O36: the table code by code; and `SubtractFlags.conditions` of the flags that the adder leaves. -/
theorem conditionsAfterSubtract : Obligations.ConditionsAfterSubtract := by
  unfold Obligations.ConditionsAfterSubtract
  refine ⟨fun code cond f hcode => ?_, fun code => ?_, fun sz a b => ?_⟩
  · obtain rfl := decCond_ok_iff.mp hcode
    cases cond <;> rfl
  · rw [exists_ok_iff, decCond_isOk, decide_eq_true_iff]
  · have hpos : 0 < sz.bits := by cases sz <;> decide
    exact (flagsOf_addN_not hpos a b).conditions

end Sys2Proof.Machine
end

section
/-!
Printed words (R110, R111), and what is declined before any lane runs (R99, R161, R196).
-/
namespace Sys2Proof.Machine

/-- A word is read back as the well-formed instruction whose word it is. -/
theorem decodeWord_of_encode_eq {w : Long} {i : Instr} (hwf : i.wf) (h : encode i = w) : decodeWord w = .ok i :=
  h ▸ decodeWord_encode hwf

/-- Settles O3: each printed word is the word of its instruction. -/
theorem decodesPrintedWords : Obligations.DecodesPrintedWords := by
  unfold Obligations.DecodesPrintedWords
  refine ⟨?_, ?_, ?_, ?_, ?_, ?_, ?_, ?_, ?_, ?_, ?_⟩ <;> exact decodeWord_of_encode_eq rfl rfl

/-- R99: a segment that the launch does not have. -/
theorem segProblem_of_le {p : Params} {seg : BitVec 4} (h : p.constSize.length ≤ seg.toNat) :
    segProblem p seg = some .constSegment :=
  if_neg (Nat.not_lt.mpr h)

/-- R196: as a shift by 32 or more, R2A is refused. -/
theorem r2aProblem_shift {p : Params} {da : BitVec 7} {imm : BitVec 12} (hda : da ≠ 0#7) (hop : p.r2aImmOp = .shl)
    (himm : 32 ≤ imm.toNat) : r2aProblem p da imm = some .shiftTooLong := by
  rw [r2aProblem, if_neg hda, if_pos ⟨hop, himm⟩]

/-- Settles O60: the check that the meaning makes before its lanes run finds the problem. -/
theorem optionsDeclined : Obligations.OptionsDeclined := by
  unfold Obligations.OptionsDeclined
  refine ⟨fun seg off ctl d set s1 s hlen => ?segments, fun ctl d s1 k sg s => ?shifts,
    fun ctl da s1 imm s hda hop himm => exec_of_unless_some rfl (r2aProblem_shift hda hop himm)⟩
  case segments =>
    have hseg := segProblem_of_le hlen
    refine ⟨fun _ _ => ?_, fun _ _ _ => ?_, fun _ _ _ => ?_, fun _ _ _ _ _ => ?_, fun _ _ _ => ?_, fun _ _ _ _ _ => ?_,
      fun _ _ _ => ?_, fun _ _ _ => ?_, fun s3 _ _ => ?fmad, fun _ _ _ => ?_⟩
    case fmad =>
      have hfirst : firstProblem [segProblem s.params seg, srcSegProblem s.params s3] = some .constSegment := by
        rw [hseg]
        rfl
      exact exec_of_unless_some rfl hfirst
    all_goals exact exec_of_unless_some rfl hseg
  case shifts => exact ⟨rfl, rfl⟩

end Sys2Proof.Machine
end

section
/-!
Control flow (R131 to R140, R244, R248). First the sets T and N of a branch, the rule of each flow instruction once
those sets are known, and what a pop does lane by lane; then the statements. A marked instruction differs from
another marking of it only in the end of its step (`marked_shape`), which gives the Join marker at an empty stack.
-/
namespace Sys2Proof.Machine

/-! ### The two sides of a branch -/

/-- The set T of R131: the active lanes whose guard is true. -/
def Warp.takers (w : Warp) (g : Guard) : List Nat := lanesWhere (takesLane g) 0 w.lanes

/-- The set N of R131: the other active lanes. -/
def Warp.stayers (w : Warp) (g : Guard) : List Nat :=
  lanesWhere (fun l => l.status == .active && !takesLane g l) 0 w.lanes

/-- A lane of N is active and does not take part. -/
theorem staysLane_iff {g : Guard} {l : Lane} :
    (l.status == .active && !takesLane g l) = true ↔ l.status = .active ∧ ¬ Takes g l := by
  rw [Bool.and_eq_true, beq_iff_eq, Bool.not_eq_true', ← takesLane_iff, Bool.not_eq_true]

theorem Warp.mem_takers {w : Warp} {g : Guard} {n : Nat} :
    n ∈ w.takers g ↔ ∃ l, w.lanes[n]? = some l ∧ Takes g l := mem_taken

theorem Warp.mem_stayers {w : Warp} {g : Guard} {n : Nat} :
    n ∈ w.stayers g ↔ ∃ l, w.lanes[n]? = some l ∧ l.status = .active ∧ ¬ Takes g l := by
  simp only [Warp.stayers, mem_lanesWhere, staysLane_iff, Nat.zero_add, exists_and_left, exists_eq_left']

theorem lanesWhere_eq_nil {f : Lane → Bool} {i : Nat} {ls : List Lane} :
    lanesWhere f i ls = [] ↔ ∀ l ∈ ls, ¬ f l = true := by
  induction ls generalizing i with
  | nil => simp [lanesWhere]
  | cons l rest ih =>
    rw [lanesWhere, List.forall_mem_cons, ← ih (i := i + 1)]
    split
    · next hl => simp [hl]
    · next hl => simp [hl]

theorem Warp.takers_eq_nil {w : Warp} {g : Guard} : w.takers g = [] ↔ ∀ l ∈ w.lanes, ¬ Takes g l := by
  simp only [Warp.takers, lanesWhere_eq_nil, takesLane_iff]

theorem Warp.stayers_eq_nil {w : Warp} {g : Guard} :
    w.stayers g = [] ↔ ∀ l ∈ w.lanes, l.status = .active → Takes g l := by
  simp only [Warp.stayers, lanesWhere_eq_nil, staysLane_iff, not_and, not_not]

/-! ### BRA -/

theorem Warp.taken_takers {s : State} {g : Guard} {ok : Thread → Prop} (h : LanesReady s g ok) :
    s.warp.taken g = .ok (s.warp.takers g) := Warp.taken_eq h

theorem Warp.active_filter_takers (w : Warp) (g : Guard) :
    (w.active.filter fun i => !(w.takers g).contains i) = w.stayers g := active_filter_not_taken w g

section
variable {s : State} {g : Guard} (hready : LanesReady s g fun _ => True) (tgt : BitVec 18)
include hready

/-- R131: no lane stays, so the warp goes to the target. -/
theorem exec_bra_all (hN : s.warp.stayers g = []) :
    exec (.bra tgt g) s = .next (s.withWarp { s.warp with pc := tgt.toNat }) := by
  simp only [exec, execBra, Warp.taken_takers hready]
  rw [Warp.active_filter_takers, if_pos hN]

/-- R131: some lane stays and none takes the branch, so the warp goes on. -/
theorem exec_bra_none (hN : s.warp.stayers g ≠ []) (hT : s.warp.takers g = []) :
    exec (.bra tgt g) s = .next (s.withWarp (s.warp.advance 8)) := by
  simp only [exec, execBra, Warp.taken_takers hready]
  rw [Warp.active_filter_takers, if_neg hN, if_pos hT]

/-- R132: with lanes on both sides `diverge` gives the next warp. -/
theorem exec_bra_diverge (hN : s.warp.stayers g ≠ []) (hT : s.warp.takers g ≠ []) {w : Warp}
    (hw : diverge s.params s.warp tgt.toNat (s.warp.takers g) (s.warp.stayers g) = .ok w) :
    exec (.bra tgt g) s = .next (s.withWarp w) := by
  simp only [exec, execBra, Warp.taken_takers hready]
  rw [Warp.active_filter_takers, if_neg hN, if_neg hT, hw]

/-- R132, R244: with lanes on both sides the fault of `diverge` is that of the branch. -/
theorem exec_bra_fault (hN : s.warp.stayers g ≠ []) (hT : s.warp.takers g ≠ []) {c : Cause}
    (hc : diverge s.params s.warp tgt.toNat (s.warp.takers g) (s.warp.stayers g) = .error c) :
    exec (.bra tgt g) s = s.raise none c := by
  simp only [exec, execBra, Warp.taken_takers hready]
  rw [Warp.active_filter_takers, if_neg hN, if_neg hT, hc]

end

/-- Settles O16: with all guards true N is empty, with all false T is. -/
theorem braUniform : Obligations.BraUniform := by
  unfold Obligations.BraUniform
  intro tgt g s
  refine ⟨fun htrue => ?all, fun hactive hfalse => ?none⟩
  case all =>
    exact exec_bra_all (fun l hl ha => .inr ⟨htrue l hl ha, trivial⟩) tgt
      (Warp.stayers_eq_nil.mpr fun l hl ha => ⟨ha, htrue l hl ha⟩)
  case none =>
    have hnone : ∀ l ∈ s.warp.lanes, ¬ Takes g l := fun l hl ht => by
      simpa using ht.2.symm.trans (hfalse l hl ht.1)
    obtain ⟨l, hl, ha⟩ := s.warp.hasActive_iff.mp hactive
    exact exec_bra_none (fun l hl ha => .inl (hfalse l hl ha)) tgt
      (fun hN => hnone l hl (Warp.stayers_eq_nil.mp hN l hl ha)) (Warp.takers_eq_nil.mpr hnone)

/-! ### Divergence -/

/-- The warp that runs the lanes m at an address, with an entry pushed for the others (R132). -/
def Warp.runSide (w : Warp) (e : Entry) (m : List Nat) (addr : Nat) : Warp :=
  { Warp.activate { w with stack := e :: w.stack } m with pc := addr }

theorem diverge_taken {p : Params} {w : Warp} {tgt : Nat} {T N : List Nat} (hfirst : p.divergeFirst = .taken)
    (hroom : w.stack.length < p.stackDepth) :
    diverge p w tgt T N = .ok (w.runSide ⟨.diverge, w.pc + 8, N⟩ T tgt) := by
  simp only [diverge, hfirst, Warp.push_room _ hroom, Warp.runSide]

theorem diverge_notTaken {p : Params} {w : Warp} {tgt : Nat} {T N : List Nat} (hfirst : p.divergeFirst = .notTaken)
    (hroom : w.stack.length < p.stackDepth) :
    diverge p w tgt T N = .ok (w.runSide ⟨.diverge, tgt, T⟩ N (w.pc + 8)) := by
  simp only [diverge, hfirst, Warp.push_room _ hroom, Warp.runSide]

theorem diverge_full {p : Params} {w : Warp} {tgt : Nat} {T N : List Nat} (hfull : p.stackDepth ≤ w.stack.length) :
    diverge p w tgt T N = .error .stackOverflow := by
  cases hfirst : p.divergeFirst <;> simp only [diverge, hfirst, Warp.push_full _ hfull]

@[simp] theorem Warp.runSide_threads (w : Warp) (e : Entry) (m : List Nat) (addr : Nat) :
    (w.runSide e m addr).threads = w.threads :=
  Warp.activate_threads { w with stack := e :: w.stack } m

/-- Lane j of a warp that runs one side. -/
theorem Warp.runSide_getElem? (w : Warp) (e : Entry) (m : List Nat) (addr j : Nat) :
    (w.runSide e m addr).lanes[j]? = w.lanes[j]?.map (activateLane m j) :=
  (mapLanes_getElem? _ _ _ _).trans (by rw [Nat.zero_add])

/-- A set of lanes of a warp that runs one side is a set of lanes of the warp before, if the two tests agree lane by
lane. -/
theorem lanesWhere_runSide {w : Warp} {e : Entry} {m : List Nat} {addr : Nat} {f f' : Lane → Bool}
    (h : ∀ (j : Nat) (l : Lane), w.lanes[j]? = some l → f (activateLane m j l) = f' l) :
    lanesWhere f 0 (w.runSide e m addr).lanes = lanesWhere f' 0 w.lanes := by
  refine lanesWhere_congr 0 (mapLanes_length _ _ _) fun j l' l hl' hl => ?_
  rw [Warp.runSide_getElem?, hl] at hl'
  rw [← h j l hl, ← Option.some.inj hl']

/-- The lanes that run are those of the side, which are active lanes of the warp before. -/
theorem Warp.runSide_active {w : Warp} {e : Entry} {addr : Nat} {f : Lane → Bool}
    (hf : ∀ l, f l = true → l.status = .active) :
    (w.runSide e (lanesWhere f 0 w.lanes) addr).active = lanesWhere f 0 w.lanes := by
  refine lanesWhere_runSide fun j l hl => ?_
  have hmem : j ∈ lanesWhere f 0 w.lanes ↔ f l = true := by simp [mem_lanesWhere, hl]
  rw [Bool.eq_iff_iff, beq_iff_eq, activateLane_status]
  simp only [hmem]
  by_cases hside : f l = true
  · simp [hside, hf l hside]
  · cases l.status <;> simp [hside]

@[simp] theorem Warp.runSide_ended (w : Warp) (e : Entry) (m : List Nat) (addr : Nat) :
    (w.runSide e m addr).ended = w.ended := by
  refine lanesWhere_runSide fun j l _ => ?_
  rw [activateLane_status]
  cases l.status <;> by_cases hj : j ∈ m <;> simp [hj]

@[simp] theorem Warp.runSide_returned (w : Warp) (e : Entry) (m : List Nat) (addr : Nat) :
    (w.runSide e m addr).returned = w.returned := by
  refine lanesWhere_runSide fun j l _ => ?_
  rw [activateLane_status]
  cases l.status <;> by_cases hj : j ∈ m <;> simp [hj]

theorem Warp.runSide_takers (w : Warp) (g : Guard) (e : Entry) (addr : Nat) :
    (w.runSide e (w.takers g) addr).active = w.takers g :=
  Warp.runSide_active fun _ hl => (takesLane_iff.mp hl).1

theorem Warp.runSide_stayers (w : Warp) (g : Guard) (e : Entry) (addr : Nat) :
    (w.runSide e (w.stayers g) addr).active = w.stayers g :=
  Warp.runSide_active fun _ hl => (staysLane_iff.mp hl).1

/-- Settles O17: T and N are both inhabited, so the branch is `diverge`, and what runs after it is one side. -/
theorem braDiverges : Obligations.BraDiverges := by
  unfold Obligations.BraDiverges
  rintro tgt g s hready ⟨lt, hlt, htakes⟩ ⟨ln, hln, hactive, hstays⟩
  have hT : s.warp.takers g ≠ [] := fun h => Warp.takers_eq_nil.mp h lt hlt htakes
  have hN : s.warp.stayers g ≠ [] := fun h => hstays (Warp.stayers_eq_nil.mp h ln hln hactive)
  refine ⟨s.warp.takers g, s.warp.stayers g, fun n => Warp.mem_takers, fun n => Warp.mem_stayers,
    fun hfull => exec_bra_fault hready tgt hN hT (diverge_full hfull), fun hroom => ?_⟩
  cases hfirst : s.params.divergeFirst with
  | taken =>
    exact ⟨_, exec_bra_diverge hready tgt hN hT (diverge_taken hfirst hroom), rfl, rfl,
      fun _ => ⟨Warp.runSide_takers _ _ _ _, rfl, rfl⟩, nofun, Warp.runSide_threads _ _ _ _,
      Warp.runSide_ended _ _ _ _, Warp.runSide_returned _ _ _ _⟩
  | notTaken =>
    exact ⟨_, exec_bra_diverge hready tgt hN hT (diverge_notTaken hfirst hroom), rfl, rfl, nofun,
      fun _ => ⟨Warp.runSide_stayers _ _ _ _, rfl, rfl⟩, Warp.runSide_threads _ _ _ _,
      Warp.runSide_ended _ _ _ _, Warp.runSide_returned _ _ _ _⟩

/-! ### RET -/

theorem exec_ret {s : State} {g : Guard} (hready : LanesReady s g fun _ => True) {w : Warp}
    (hw : s.warp.retire (s.warp.takers g).contains (if s.warp.inCall s.params then .returned else .ended) = w) :
    exec (.ret g) s = .next (s.withWarp (if w.hasActive then w.advance 8 else w.resume)) := by
  simp only [exec, execRet, Warp.taken_takers hready, hw]

theorem Warp.inCall_iff {p : Params} {w : Warp} :
    w.inCall p = true ↔ p.calLink = .stack ∧ ∃ e ∈ w.stack, e.kind = .call := by
  simp only [Warp.inCall, Bool.and_eq_true, beq_iff_eq, List.any_eq_true]

/-- Lane j after the lanes that take part have left the active set. -/
theorem Warp.retire_takers_getElem? {w : Warp} {g : Guard} (status : LaneStatus) {j : Nat} {l : Lane}
    (hl : w.lanes[j]? = some l) :
    (Takes g l → (w.retire (w.takers g).contains status).lanes[j]? = some { l with status := status }) ∧
      (¬ Takes g l → (w.retire (w.takers g).contains status).lanes[j]? = some l) := by
  have hmem : (w.takers g).contains j = true ↔ Takes g l := by
    rw [List.contains_iff_mem, Warp.mem_takers, hl]
    simp
  have hlane : (w.retire (w.takers g).contains status).lanes[j]? =
      some (retireLane (w.takers g).contains status j l) := by
    rw [Warp.retire, mapLanes_getElem?, hl, Nat.zero_add, Option.map_some]
  exact ⟨fun ht => by rw [hlane, retireLane, if_pos ⟨ht.1, hmem.mpr ht⟩],
    fun hn => by rw [hlane, retireLane, if_neg fun h => hn (hmem.mp h.2)]⟩

/-- A lane is active after them exactly if it was and does not take part. -/
theorem Warp.hasActive_retire_takers {w : Warp} {g : Guard} {status : LaneStatus} (hstatus : status ≠ .active) :
    (w.retire (w.takers g).contains status).hasActive = true ↔ ∃ l ∈ w.lanes, l.status = .active ∧ ¬ Takes g l := by
  rw [Warp.hasActive_iff_getElem?]
  constructor
  · rintro ⟨n, l', hl', hactive⟩
    obtain ⟨l, hl, _⟩ := Option.map_eq_some_iff.mp ((mapLanes_getElem? _ _ _ _).symm.trans hl')
    obtain ⟨htakes, hstays⟩ := Warp.retire_takers_getElem? status hl
    by_cases ht : Takes g l
    · rw [htakes ht] at hl'
      cases hl'
      exact absurd hactive hstatus
    · rw [hstays ht] at hl'
      cases hl'
      exact ⟨_, List.mem_of_getElem? hl, hactive, ht⟩
  · rintro ⟨l, hl, hactive, hn⟩
    obtain ⟨j, hj⟩ := List.mem_iff_getElem?.mp hl
    exact ⟨j, l, (Warp.retire_takers_getElem? status hj).2 hn, hactive⟩

/-- Settles O19: the warp is the one whose lanes in T have retired; whether a lane of it is active says how it goes
on. -/
theorem retRetiresLanes : Obligations.RetRetiresLanes := by
  unfold Obligations.RetRetiresLanes
  intro g s hready _
  have hexec := exec_ret hready rfl
  simp only [Warp.inCall_iff] at hexec
  generalize hstatus : (if s.params.calLink = .stack ∧ ∃ e ∈ s.warp.stack, e.kind = .call then LaneStatus.returned
    else .ended) = status at hexec ⊢
  have hne : status ≠ .active := by
    rw [← hstatus]
    split <;> simp
  have hleft := Warp.hasActive_retire_takers (w := s.warp) (g := g) hne
  refine ⟨s.warp.retire (s.warp.takers g).contains status, rfl, mapLanes_length _ _ _,
    fun j l hl => Warp.retire_takers_getElem? status hl, fun hstays => ?goesOn, fun hall => ?resumes⟩
  case goesOn => rw [hexec, if_pos (hleft.mpr hstays)]; rfl
  case resumes =>
    rw [hexec, if_neg]
    intro hactive
    obtain ⟨l, hl, ha, hn⟩ := hleft.mp hactive
    exact hn (hall l hl ha)

/-! ### One pop -/

/-- Lane j after a pop: a CALL entry first ends the returns of its lanes. -/
theorem Warp.popEntry_getElem? (w : Warp) (e : Entry) (below : List Entry) (j : Nat) :
    (w.popEntry e below).lanes[j]? =
      w.lanes[j]?.map fun l => activateLane e.mask j (if e.kind = .call then unreturnLane e.mask j l else l) := by
  by_cases hcall : e.kind = .call
  · simp [Warp.popEntry, hcall, Warp.activate, Warp.unreturn, mapLanes_getElem?, Function.comp_def]
  · simp [Warp.popEntry, hcall, Warp.activate, mapLanes_getElem?]

/-- R135, R140: the status that a pop gives to lane j. -/
theorem popLane_status (e : Entry) (j : Nat) (l : Lane) :
    (activateLane e.mask j (if e.kind = .call then unreturnLane e.mask j l else l)).status =
      if l.status = .ended then .ended
      else if l.status = .returned ∧ ¬ (e.kind = .call ∧ j ∈ e.mask) then .returned
      else if j ∈ e.mask then .active else .idle := by
  have hunreturn : (if e.kind = .call then unreturnLane e.mask j l else l).status =
      if l.status = .returned ∧ (e.kind = .call ∧ j ∈ e.mask) then .idle else l.status := by
    by_cases hcall : e.kind = .call
    · simp only [hcall, if_true, unreturnLane_status, true_and]
    · simp only [hcall, if_false, false_and, and_false]
  rw [activateLane_status, hunreturn]
  cases hstatus : l.status with
  | ended | active | idle => simp
  | returned => by_cases hheld : e.kind = .call ∧ j ∈ e.mask <;> simp [hheld]

theorem Warp.resume_of_empty {w : Warp} (hnone : w.hasActive = false) (hstack : w.stack = []) :
    w.resume = { w with status := .finished } := by
  rw [Warp.resume, if_neg (Bool.eq_false_iff.mp hnone), hstack, resumeFrom, ← hstack]

/-- R140: with no active lane one entry is popped; if that makes no lane active, the warp resumes from there. -/
theorem Warp.resume_of_entry {w : Warp} {e : Entry} {below : List Entry} (hnone : w.hasActive = false)
    (hstack : w.stack = e :: below) :
    w.resume = if (w.popEntry e below).hasActive then w.popEntry e below else (w.popEntry e below).resume := by
  rw [Warp.resume, if_neg (Bool.eq_false_iff.mp hnone), hstack, resumeFrom]
  split
  · rfl
  · next hpop => rw [Warp.resume, if_neg hpop, Warp.popEntry_stack]

/-- Settles O20: the two equations of `resume`, and the lanes of a pop one by one. -/
theorem popAndResume : Obligations.PopAndResume := by
  unfold Obligations.PopAndResume
  refine ⟨fun w hnone => ⟨Warp.resume_of_empty hnone, fun e below => Warp.resume_of_entry hnone⟩, fun w e below =>
    ⟨Warp.popEntry_stack _ _ _, Warp.popEntry_pc _ _ _, Warp.popEntry_status _ _ _, Warp.popEntry_threads _ _ _,
      fun j l hl => ⟨_, ?_, popLane_status e j l⟩⟩⟩
  rw [Warp.popEntry_getElem?, hl, Option.map_some]

/-! ### SSY, CAL, BAR and TRAP -/

section
variable {s : State}

theorem exec_ssy_room (h : s.warp.stack.length < s.params.stackDepth) (tgt : BitVec 16) (cc : BitVec 5)
    (pr : BitVec 2) : exec (.ssy tgt cc pr) s = .next (s.withWarp
      { s.warp with pc := s.warp.pc + 8, stack := ⟨.sync, tgt.toNat, s.warp.active⟩ :: s.warp.stack }) := by
  simp only [exec, execSsy, Warp.push_room _ h, Warp.advance]

theorem exec_ssy_full (h : s.params.stackDepth ≤ s.warp.stack.length) (tgt : BitVec 16) (cc : BitVec 5)
    (pr : BitVec 2) : exec (.ssy tgt cc pr) s = s.raise none .stackOverflow := by
  simp only [exec, execSsy, Warp.push_full _ h]

theorem exec_cal_unlinked (hlink : s.params.calLink = .none) (tgt : BitVec 19) :
    exec (.cal tgt) s = .next (s.withWarp { s.warp with pc := tgt.toNat }) := by
  simp only [exec, execCal, hlink]

theorem exec_cal_room (hlink : s.params.calLink = .stack) (h : s.warp.stack.length < s.params.stackDepth)
    (tgt : BitVec 19) : exec (.cal tgt) s = .next (s.withWarp
      { s.warp with pc := tgt.toNat, stack := ⟨.call, s.warp.pc + 8, s.warp.active⟩ :: s.warp.stack }) := by
  simp only [exec, execCal, hlink, Warp.push_room _ h]

theorem exec_cal_full (hlink : s.params.calLink = .stack) (h : s.params.stackDepth ≤ s.warp.stack.length)
    (tgt : BitVec 19) : exec (.cal tgt) s = s.raise none .stackOverflow := by
  simp only [exec, execCal, hlink, Warp.push_full _ h]

end

/-- Settles O18: the three pushes and jumps where there is room. -/
theorem ssyAndCalPush : Obligations.SsyAndCalPush := by
  unfold Obligations.SsyAndCalPush
  exact ⟨fun tgt cc pr s hroom => exec_ssy_room hroom tgt cc pr, fun tgt s hlink => exec_cal_unlinked hlink tgt,
    fun tgt s hlink hroom => exec_cal_room hlink hroom tgt⟩

/-- The test of BAR: no unfinished lane is inactive. -/
theorem allActiveOrEnded_iff {w : Warp} :
    (w.lanes.all fun l => l.status == .active || l.status == .ended) = true ↔
      ∀ l ∈ w.lanes, l.status = .active ∨ l.status = .ended := by
  simp only [List.all_eq_true, Bool.or_eq_true, beq_iff_eq]

/-- Settles O22: the test of BAR, then the case of `BAR_SCOPE`. -/
theorem barWaits : Obligations.BarWaits := by
  unfold Obligations.BarWaits
  intro s
  refine ⟨fun ⟨l, hl, hactive, hended⟩ => ?diverged, fun hall => ?whole⟩
  case diverged =>
    exact if_neg fun hall => (allActiveOrEnded_iff.mp hall l hl).elim hactive hended
  case whole =>
    cases hscope : s.params.barScope with
    | warp => simp only [exec, execBar, allActiveOrEnded_iff.mpr hall, hscope, if_true, Warp.advance]
    | block => simp only [exec, execBar, allActiveOrEnded_iff.mpr hall, hscope, if_true]

/-- The first end among the warps is that of the only warp that has one, wherever it stands. -/
theorem State.firstEnd_insertWarp {s : State} {w : Warp} {f : Fault} (hw : s.endOf w = some f) {l : List Warp}
    (hl : ∀ v ∈ l, s.endOf v = none) : s.firstEnd (insertWarp w l) = some f := by
  induction l with
  | nil => simp only [insertWarp, State.firstEnd, hw]
  | cons v rest ih =>
    obtain ⟨hv, hrest⟩ := List.forall_mem_cons.mp hl
    rw [insertWarp]
    split
    · simp only [State.firstEnd, hw]
    · simp only [State.firstEnd, hv, ih hrest]

theorem State.endOf_none {s : State} {w : Warp}
    (h : w.status = .running ∨ w.status = .atBarrier ∨ w.status = .finished) : s.endOf w = none := by
  rcases h with h | h | h <;> simp only [State.endOf, h]

theorem step_of_firstEnd {s : State} {f : Fault} (h : s.firstEnd s.warps = some f) : step s = .fault f := by
  simp only [step, State.turn, State.ended, h]

/-- Settles O24: TRAP sets the status, and the trapped warp is the only one with an end to put to the run. -/
theorem trapEndsRun : Obligations.TrapEndsRun := by
  unfold Obligations.TrapEndsRun
  refine ⟨fun s => rfl, fun s htrapped hrest => step_of_firstEnd ?_⟩
  have hend : s.endOf s.warp = some (.trapped (s.siteOf s.warp)) := by simp only [State.endOf, htrapped]
  exact State.firstEnd_insertWarp hend fun w hw => State.endOf_none (hrest w hw)

/-! ### The Join marker at an empty stack -/

/-- Two markings of one instruction are NOP with the two markers, or have the same lanes and the same check before
them. -/
theorem marked_shape {mk mk' : Marker} {i j j' : Instr} (h : marked mk i = some j) (h' : marked mk' i = some j')
    (s : State) : (j = .nop mk ∧ j' = .nop mk') ∨
      ∃ problem g ranges body, exec j s = s.unless problem (execLanes s mk g 8 ranges body) ∧
        exec j' s = s.unless problem (execLanes s mk' g 8 ranges body) := by
  cases i <;> simp only [marked, withCtl, Option.some.injEq, reduceCtorEq] at h h' <;> subst h h'
  case nop => exact .inl ⟨rfl, rfl⟩
  case imul | gld | gst | mov | r2g | a2r | f2f | f2i | i2f | rcp => exact .inr ⟨none, _, _, _, rfl, rfl⟩
  all_goals exact .inr ⟨_, _, _, _, rfl, rfl⟩

theorem finishStep_join_empty {s s1 : State} (h : s1.warp.stack = []) (len : Nat) :
    finishStep s s1 .join len = s.raise none .stackUnderflow := by
  simp only [finishStep, Warp.mark, Warp.join, Warp.advance_stack, h]

/-- R135, R244: lanes that complete under the marker Normal end in `StackUnderflow` under Join. -/
theorem execLanes_join_empty {s t : State} {g : Guard} {len : Nat} {ranges : Thread → List Range}
    {body : Thread → Except Cause Work} (hempty : s.warp.stack = [])
    (h : execLanes s .normal g len ranges body = .next t) :
    execLanes s .join g len ranges body = s.raise none .stackUnderflow := by
  obtain ⟨outs, _, houts, hraces, _, _⟩ := execLanes_next h
  simp only [execLanes, houts, hraces, Bool.false_eq_true, if_false]
  exact finishStep_join_empty (by rw [State.commit_warp_stack, hempty]) len

theorem exec_join_empty {i plain joined : Instr} {s t : State} (hempty : s.warp.stack = [])
    (hplain : marked .normal i = some plain) (hjoined : marked .join i = some joined) (h : exec plain s = .next t) :
    exec joined s = s.raise none .stackUnderflow := by
  rcases marked_shape hplain hjoined s with ⟨_, rfl⟩ | ⟨problem, g, ranges, body, hnormal, hjoin⟩
  · exact finishStep_join_empty hempty 8
  · cases problem with
    | none => exact hjoin.trans (execLanes_join_empty hempty (hnormal.symm.trans h))
    | some why => cases hnormal.symm.trans h

/-- R185: a MOV of a register that every lane can read and write completes under the marker Normal. -/
theorem exec_mov_reg_next {d k : BitVec 7} {g : Guard} {s : State} (sg : Bool)
    (hready : LanesReady s g fun t =>
      FieldExists s.params .b32 d.toNat ∧ ∃ v, readGpr s.params t k.toNat = .ok v) :
    ∃ t, exec (.mov ⟨.normal, g⟩ d (.reg k) .b32 sg) s = .next t := by
  have hdelivers : Delivers (.mov ⟨.normal, g⟩ d (.reg k) .b32 sg) s .normal g 8 .b32 (.reg d) noSet
      fun t r => ∃ v, readGpr s.params t k.toNat = .ok v ∧ r = ⟨v, false, false, []⟩ := by
    refine delivers_reg rfl ?_
    rintro t r ⟨v, hv, rfl⟩
    exact bind_of_ok (readRegVal_ok (s := s) (sz := .b32) hv)
  obtain ⟨t, ht, _⟩ := hdelivers ⟨nofun, hready.mono fun t ⟨hd, v, hv⟩ =>
    ⟨hd, ⟨v, false, false, []⟩, ⟨v, hv, rfl⟩, nofun⟩⟩
  exact ⟨t, ht⟩

/-- Settles O25: the pushes at a full stack, and `exec_join_empty`, for a MOV of a register with what lets it
complete. -/
theorem stackFaults : Obligations.StackFaults := by
  unfold Obligations.StackFaults
  refine ⟨fun tgt cc pr s hfull => exec_ssy_full hfull tgt cc pr,
    fun tgt s hlink hfull => exec_cal_full hlink hfull tgt, fun d k g sg s hempty hready => ?_,
    fun i plain joined s t => exec_join_empty⟩
  obtain ⟨t, ht⟩ := exec_mov_reg_next sg hready
  exact exec_join_empty (i := .mov ⟨.join, g⟩ d (.reg k) .b32 sg) hempty rfl rfl ht

/-! ### The step -/

/-- Settles O1: the definition of a step, and the turn of the only warp. -/
theorem stepRunsDecoded : Obligations.StepRunsDecoded := by
  unfold Obligations.StepRunsDecoded
  refine ⟨fun s s' w i hturn hfetch hdecode => ?_, fun s => State.turn_of_single⟩
  simp only [step, hturn, hfetch, hdecode]

end Sys2Proof.Machine
end

section
/-!
Integer arithmetic and the comparisons (R150 to R179, R217). First one rule per arithmetic helper of the model, which
says its result as exact arithmetic on numbers; then the statements, where the reads of a lane hand on exactly the
operands that the result names, and the rule of the helper gives the value.
-/
namespace Sys2Proof.Machine

theorem bits_pos (sz : Size) : 0 < sz.bits := by cases sz <;> decide

/-! ### Products of halves (R156) -/

theorem mulU_eq (a b : Half) : mulU a b = BitVec.ofNat 32 (a.toNat * b.toNat) := by
  rw [BitVec.ofNat_mul, BitVec.ofNat_toNat, BitVec.ofNat_toNat, mulU]

theorem mulS_eq (a b : Half) : mulS a b = BitVec.ofInt 32 (a.toInt * b.toInt) := by
  rw [BitVec.ofInt_mul]
  rfl

/-- R160, R174, log 24: a multiply by an immediate takes its low 16 bits. -/
theorem mulBy_low (signed : Bool) (a : Half) (imm : Word) : mulBy signed a (imm.setWidth 16) =
    if signed then BitVec.ofInt 32 (a.toInt * (imm.extractLsb' 0 16).toInt)
    else BitVec.ofNat 32 (a.toNat * (imm.toNat % 2 ^ 16)) := by
  rw [mulBy, mulS_eq, mulU_eq, BitVec.toNat_setWidth, BitVec.setWidth_eq_extractLsb' (by decide)]

theorem ofNat_add_toNat {n : Nat} (k : Nat) (v : BitVec n) : BitVec.ofNat n (k + v.toNat) = BitVec.ofNat n k + v := by
  rw [BitVec.ofNat_add, BitVec.ofNat_toNat, BitVec.setWidth_eq]

theorem ofInt_add_toInt {n : Nat} (k : Int) (v : BitVec n) : BitVec.ofInt n (k + v.toInt) = BitVec.ofInt n k + v := by
  rw [BitVec.ofInt_add, BitVec.ofInt_toInt]

/-- Settles O27: each operand is a read that succeeds, and the products are `mulU_eq` and `mulBy_low`. -/
theorem multipliesHalves : Obligations.MultipliesHalves := by
  unfold Obligations.MultipliesHalves
  refine ⟨fun ctl d set s1 s2 s => delivers_of rfl ?imul, fun d s1 s2 s => delivers_low rfl ?imul32,
    fun signed d s1 imm s => delivers_low rfl ?imul32i⟩
  case imul =>
    rintro t r ⟨a, b, ha, hb, rfl⟩
    rw [← mulU_eq]
    exact (bind_of_ok ha).trans (bind_of_ok hb)
  case imul32 =>
    rintro t r ⟨a, b, ha, hb, rfl⟩
    rw [← mulU_eq]
    exact (bind_of_ok ha).trans (bind_of_ok hb)
  case imul32i =>
    rintro t r ⟨a, ha, rfl⟩
    rw [← mulBy_low]
    exact bind_of_ok ha

/-! ### Multiply-adds (R171 to R174) -/

/-- R8, log 8: the numbering `text` exchanges the two halves of a register. -/
theorem imad32Field_text {p : Params} (h : p.imad32Half = .text) (k : BitVec 6) :
    imad32Field p k / 2 = k.toNat / 2 ∧ imad32Field p k % 2 = 1 - k.toNat % 2 := by
  simp only [imad32Field, h]
  revert k
  decide

/-- Settles O33: the product of the halves, then `+` as addition of numbers modulo 2^32. -/
theorem shortMultiplyAdds : Obligations.ShortMultiplyAdds := by
  unfold Obligations.ShortMultiplyAdds
  refine ⟨fun d s1 s2 s => delivers_low rfl ?imad32, fun signed d s1 imm s => delivers_low rfl ?imad32i,
    fun p k => ⟨fun h => by simp only [imad32Field, h], fun h => imad32Field_text h k⟩⟩
  case imad32 =>
    rintro t r ⟨a, b, c, ha, hb, hc, rfl⟩
    rw [ofNat_add_toNat, ← mulU_eq]
    exact (bind_of_ok ha).trans ((bind_of_ok hb).trans (bind_of_ok hc))
  case imad32i =>
    rintro t r ⟨a, c, ha, hc, rfl⟩
    rw [ofNat_add_toNat, ofInt_add_toInt, ← apply_ite (· + c), ← mulBy_low]
    exact (bind_of_ok ha).trans (bind_of_ok hc)

/-! ### The adder (R165) -/

theorem addN_val {n : Nat} (a b : BitVec n) (cin : Bool) :
    (addN a b cin).val = BitVec.ofNat n (a.toNat + b.toNat + cin.toNat) := by
  simp only [addN, BitVec.ofNat_add, BitVec.ofNat_toNat, BitVec.setWidth_eq]

theorem addN_carry {n : Nat} (a b : BitVec n) (cin : Bool) :
    (addN a b cin).carry = decide (2 ^ n ≤ a.toNat + b.toNat + cin.toNat) := rfl

theorem addN_false_val {n : Nat} (a b : BitVec n) : (addN a b false).val = a + b := by
  rw [addN_val, BitVec.add_def]
  rfl

/-- A sum with its carry in wraps at most once. -/
theorem addN_toNat_cases {n : Nat} (a b : BitVec n) (cin : Bool) :
    (addN a b cin).val.toNat = a.toNat + b.toNat + cin.toNat ∨
      (addN a b cin).val.toNat + 2 ^ n = a.toNat + b.toNat + cin.toNat := by
  have ha := a.isLt
  have hb := b.isLt
  have hc := cin.toNat_le
  rw [addN_val, BitVec.toNat_ofNat]
  rcases Nat.lt_or_ge (a.toNat + b.toNat + cin.toNat) (2 ^ n) with h | h
  · exact .inl (Nat.mod_eq_of_lt h)
  · right
    rw [Nat.mod_eq_sub_mod h, Nat.mod_eq_of_lt (by omega), Nat.sub_add_cancel h]

/-- The two halves of the signed numbers of n bits (R12). -/
theorem toInt_halves {n : Nat} (hn : 0 < n) (x : BitVec n) :
    x.toNat < 2 ^ (n - 1) ∧ x.toInt = x.toNat ∨ 2 ^ (n - 1) ≤ x.toNat ∧ x.toInt = x.toNat - (2 ^ n : Nat) := by
  have hpow : 2 ^ n = 2 * 2 ^ (n - 1) := (mul_pow_sub_one hn.ne' 2).symm
  rw [BitVec.toInt_eq_toNat_cond]
  split_ifs <;> omega

/-- R151, R165: the overflow flag says that the exact signed sum does not fit. Signs are comparisons with 2^(n-1), and
the sum wraps at most once, so what is left is linear. -/
theorem addN_overflow {n : Nat} (hn : 0 < n) (a b : BitVec n) (cin : Bool) :
    (addN a b cin).overflow = decide ((addN a b cin).val.toInt ≠ a.toInt + b.toInt + cin.toNat) := by
  have hoverflow : (addN a b cin).overflow = (a.msb == b.msb && (addN a b cin).val.msb != a.msb) := rfl
  have hpow : 2 ^ n = 2 * 2 ^ (n - 1) := (mul_pow_sub_one hn.ne' 2).symm
  have hc := cin.toNat_le
  have hcases := addN_toNat_cases a b cin
  have ha := toInt_halves hn a
  have hb := toInt_halves hn b
  have hv := toInt_halves hn (addN a b cin).val
  rw [hoverflow, BitVec.msb_eq_decide, BitVec.msb_eq_decide, BitVec.msb_eq_decide, Bool.eq_iff_iff]
  simp only [Bool.and_eq_true, beq_iff_eq, bne_iff_ne, ne_eq, decide_eq_decide, decide_eq_true_iff]
  omega

theorem toInt_not_eq {n : Nat} (hn : 0 < n) (b : BitVec n) : (~~~b).toInt = -b.toInt - 1 := by
  have hpow : 2 ^ n = 2 * 2 ^ (n - 1) := (mul_pow_sub_one hn.ne' 2).symm
  have hlt := b.isLt
  have hb := toInt_halves hn b
  have hnot := toInt_halves hn (~~~b)
  rw [BitVec.toNat_not] at hnot
  omega

/-- R151, R166: the overflow flag of a subtraction says that the exact signed difference does not fit. -/
theorem addN_not_overflow {n : Nat} (hn : 0 < n) (a b : BitVec n) :
    (addN a (~~~b) true).overflow = decide ((a - b).toInt ≠ a.toInt - b.toInt) := by
  have hsum : a.toInt + (-b.toInt - 1) + (true.toNat : Int) = a.toInt - b.toInt := by
    rw [Bool.toNat_true]
    omega
  rw [addN_overflow hn, toInt_not_eq hn, hsum, addN_not_val]

/-- Settles O30: a sum is `addN` without a carry in, a difference `addN` of the complement with one. -/
theorem iaddAddsWithFlags : Obligations.IaddAddsWithFlags := by
  unfold Obligations.IaddAddsWithFlags
  refine ⟨fun ctl d set s1 s3 sz s hseg => delivers_of (exec_of_unless_none rfl hseg) ?sum,
    fun ctl d set s1 s3 sz s hseg => delivers_of (exec_of_unless_none rfl hseg) ?difference,
    fun mk pr d set s1 s3 sz s hseg => delivers_of (exec_of_unless_none rfl hseg) ?carryIn⟩
  case sum =>
    rintro t r ⟨a, b, ha, hb, rfl⟩
    have hoverflow := addN_overflow (bits_pos sz) a.val b false
    rw [addN_false_val, Bool.toNat_false, Int.natCast_zero, Int.add_zero] at hoverflow
    rw [← hoverflow, ← addN_false_val]
    exact (bind_of_ok ha).trans (bind_of_ok hb)
  case difference =>
    rintro t r ⟨a, b, ha, hb, rfl⟩
    rw [← addN_not_overflow (bits_pos sz), ← addN_not_carry, ← addN_not_val]
    exact (bind_of_ok ha).trans (bind_of_ok hb)
  case carryIn =>
    rintro t r ⟨a, b, f, ha, hb, hf, hval, hcarry, hoverflow, hreads⟩
    rw [hoverflow, hcarry, hval, hreads, ← addN_val, ← addN_overflow (bits_pos sz), ← addN_carry]
    exact (bind_of_ok ha).trans ((bind_of_ok hb).trans (bind_of_ok hf))

/-- Settles O31: `+` is addition of numbers modulo 2^n. -/
theorem shortAdditions : Obligations.ShortAdditions := by
  unfold Obligations.ShortAdditions
  refine ⟨fun d s1 s2 sz s => delivers_reg rfl ?iadd32, fun d s1 imm s => delivers_reg rfl ?iadd32i⟩
  case iadd32 =>
    rintro t r ⟨a, b, ha, hb, rfl⟩
    rw [← BitVec.add_def]
    exact (bind_of_ok ha).trans (bind_of_ok hb)
  case iadd32i =>
    rintro t r ⟨a, ha, rfl⟩
    rw [← BitVec.add_def]
    exact bind_of_ok ha

/-- Settles O32: the product by `mulU_eq`, its sign and the addend's by `negIf_eq`, the sum by the adder. -/
theorem imadDelivers : Obligations.ImadDelivers := by
  unfold Obligations.ImadDelivers
  refine fun ctl d set s1 s2 s3 neg1 neg3 s hseg => delivers_of (exec_of_unless_none rfl hseg) ?_
  rintro t r ⟨a, b, c, p, q, ha, hb, hc, rfl, rfl, rfl⟩
  rw [← mulU_eq, ← negIf_eq, ← negIf_eq, ← addN_false_val]
  exact (bind_of_ok ha).trans ((bind_of_ok hb).trans (bind_of_ok hc))

/-! ### Shifts (R161) -/

/-- R161, D30: no amount is too long for a left shift. -/
theorem shiftLeft_eq {n : Nat} (x : BitVec n) (m : Nat) : shiftLeft x m = BitVec.ofNat n (x.toNat * 2 ^ m) := by
  have hplain : shiftLeft x m = x <<< m :=
    ite_eq_left_iff.mpr fun h => (BitVec.shiftLeft_eq_zero (Nat.not_lt.mp h)).symm
  rw [hplain]
  exact BitVec.eq_of_toNat_eq (by rw [BitVec.toNat_shiftLeft, BitVec.toNat_ofNat, Nat.shiftLeft_eq])

/-- R161, D30: an unsigned right shift is a division, whatever the amount. -/
theorem shiftRight_unsigned {n : Nat} (x : BitVec n) (m : Nat) :
    shiftRight false x m = BitVec.ofNat n (x.toNat / 2 ^ m) := by
  have hplain : shiftRight false x m = x >>> m :=
    ite_eq_left_iff.mpr fun h => (BitVec.ushiftRight_eq_zero (Nat.not_lt.mp h)).symm
  rw [hplain, ← Nat.shiftRight_eq_div_pow, ← BitVec.toNat_ushiftRight, BitVec.ofNat_toNat, BitVec.setWidth_eq]

theorem sshiftRight_of_le {n m : Nat} (x : BitVec n) (h : n ≤ m) :
    x.sshiftRight m = if x.msb then BitVec.allOnes n else 0#n := by
  refine BitVec.eq_of_getLsbD_eq fun i hi => ?_
  rw [BitVec.getLsbD_sshiftRight, if_neg (by omega)]
  cases x.msb <;> simp [hi]

/-- R161, D30: a signed right shift is a division rounded down, whatever the amount. -/
theorem shiftRight_signed {n : Nat} (x : BitVec n) (m : Nat) :
    shiftRight true x m = BitVec.ofInt n (x.toInt / 2 ^ m) := by
  have hplain : shiftRight true x m = x.sshiftRight m :=
    ite_eq_left_iff.mpr fun h => (sshiftRight_of_le x (Nat.not_lt.mp h)).symm
  rw [hplain, BitVec.sshiftRight, Int.shiftRight_eq_div_pow, Nat.cast_pow, Nat.cast_ofNat]

theorem shiftRight_eq {n : Nat} (sg : Bool) (x : BitVec n) (m : Nat) : shiftRight sg x m =
    if sg then BitVec.ofInt n (x.toInt / 2 ^ m) else BitVec.ofNat n (x.toNat / 2 ^ m) := by
  cases sg with
  | true => exact shiftRight_signed x m
  | false => exact shiftRight_unsigned x m

/-- Settles O29: the shifts by their rules, the amount by its definition. -/
theorem shiftsDeliver : Obligations.ShiftsDeliver := by
  unfold Obligations.ShiftsDeliver
  refine ⟨fun ctl d s1 amt sz sg s hamt => delivers_reg (exec_of_unless_none rfl hamt) ?shl, fun s t m => rfl,
    fun s t k v hv => by simp only [readAmount, hv],
    fun ctl d s1 amt sz sg s hamt => delivers_reg (exec_of_unless_none rfl hamt) ?shr⟩
  case shl =>
    rintro t r ⟨x, m, hx, hm, rfl⟩
    rw [← shiftLeft_eq]
    exact (bind_of_ok hx).trans (bind_of_ok hm)
  case shr =>
    rintro t r ⟨x, m, hx, hm, rfl⟩
    rw [← shiftRight_eq]
    exact (bind_of_ok hx).trans (bind_of_ok hm)

/-! ### Bitwise operations (R175) -/

theorem getLsbD_notIf {n i : Nat} (hi : i < n) (inv : Bool) (v : BitVec n) :
    (notIf inv v).getLsbD i = (v.getLsbD i ^^ inv) := by
  cases inv <;> simp [notIf, hi]

/-- R176: PASS_B takes no source 1. -/
theorem readLopSrc1_passB (s : State) (t : Thread) (sz : Size) (s1 : Src1) :
    readLopSrc1 s t sz .passB s1 = .ok ⟨0#_, []⟩ := rfl

theorem readLopSrc1_of_ne {op : LogicOp} (h : op ≠ .passB) (s : State) (t : Thread) (sz : Size) (s1 : Src1) :
    readLopSrc1 s t sz op s1 = readSrc1 s t sz s1 := if_neg h

/-- R175, R176: the bits of a logic operation on two sources. -/
theorem eq_logicOp_of_bits {n : Nat} {op : LogicOp} {inv1 inv2 : Bool} {a b v : BitVec n}
    (h : ∀ i < n,
      (op = .and ∧ v.getLsbD i = ((a.getLsbD i ^^ inv1) && (b.getLsbD i ^^ inv2))) ∨
      (op = .or ∧ v.getLsbD i = ((a.getLsbD i ^^ inv1) || (b.getLsbD i ^^ inv2))) ∨
      (op = .xor ∧ v.getLsbD i = ((a.getLsbD i ^^ inv1) ^^ (b.getLsbD i ^^ inv2)))) :
    v = logicOp op (notIf inv1 a) (notIf inv2 b) := by
  refine BitVec.eq_of_getLsbD_eq fun i hi => ?_
  rcases h i hi with ⟨rfl, hbit⟩ | ⟨rfl, hbit⟩ | ⟨rfl, hbit⟩ <;>
    simp only [hbit, logicOp, BitVec.getLsbD_and, BitVec.getLsbD_or, BitVec.getLsbD_xor, getLsbD_notIf hi]

/-- Settles O34: the result's bits determine it; a result with a source 1 is none of PASS_B, as a bit of it shows. -/
theorem lopBitwise : Obligations.LopBitwise := by
  unfold Obligations.LopBitwise
  refine fun ctl d set s1 s2 op inv1 inv2 sz sg s hseg => delivers_of (exec_of_unless_none rfl hseg) ?_
  rintro t ⟨v, c, o, reads⟩ ⟨b, hb, rfl, rfl, ⟨rfl, rfl, hbits⟩ | ⟨a, ha, rfl, hbits⟩⟩
  · have hv : v = notIf inv2 b :=
      BitVec.eq_of_getLsbD_eq fun i hi => (hbits i hi).trans (getLsbD_notIf hi inv2 b).symm
    rw [hv]
    exact (bind_of_ok (readLopSrc1_passB s t sz s1)).trans (bind_of_ok hb)
  · have hop : op ≠ .passB := by
      rintro rfl
      simpa using hbits 0 (bits_pos sz)
    obtain rfl := eq_logicOp_of_bits hbits
    exact (bind_of_ok ((readLopSrc1_of_ne hop s t sz s1).trans ha)).trans (bind_of_ok hb)

/-! ### Comparisons (R177) -/

theorem cmpHolds_iff {cmp : CmpSet} {rel : FRel} : cmpHolds cmp rel = true ↔
    (rel = .less ∧ cmp.less = true) ∨ (rel = .equal ∧ cmp.equal = true) ∨
      (rel = .greater ∧ cmp.greater = true) ∨ (rel = .unordered ∧ cmp.unordered = true) := by
  cases rel <;> simp [cmpHolds]

/-- R178: the relation of two words is that of the numbers they stand for. -/
theorem intRel_eq {n : Nat} {sg : Bool} {a b : BitVec n} {x y : Int}
    (hx : x = if sg then a.toInt else (a.toNat : Int)) (hy : y = if sg then b.toInt else (b.toNat : Int)) :
    intRel sg a b = if x = y then .equal else if x < y then .less else .greater := by
  subst hx hy
  cases sg with
  | true =>
    simp only [intRel, if_true, BitVec.toInt_inj, BitVec.slt_iff_toInt_lt]
  | false =>
    simp only [intRel, Bool.false_eq_true, if_false, Int.natCast_inj, BitVec.toNat_inj, BitVec.ult_iff_toNat_lt,
      Int.ofNat_lt]

theorem cmpHolds_intRel {n : Nat} {sg : Bool} {a b : BitVec n} {x y : Int} (cmp : CmpSet)
    (hx : x = if sg then a.toInt else (a.toNat : Int)) (hy : y = if sg then b.toInt else (b.toNat : Int)) :
    cmpHolds cmp (intRel sg a b) = true ↔
      (cmp.less = true ∧ x < y) ∨ (cmp.equal = true ∧ x = y) ∨ (cmp.greater = true ∧ y < x) := by
  rw [intRel_eq hx hy]
  rcases lt_trichotomy x y with h | h | h
  · simp [cmpHolds, h, h.ne, h.not_gt]
  · simp [cmpHolds, h]
  · simp [cmpHolds, h, h.ne', h.not_gt]

/-- Settles O35: the comparison of the model is that of the numbers. -/
theorem isetCompares : Obligations.IsetCompares := by
  unfold Obligations.IsetCompares
  refine fun ctl d set s1 s2 cmp sz sg s hseg => delivers_of (exec_of_unless_none rfl hseg) ?_
  rintro t r ⟨a, b, ha, hb, hcarry, hoverflow, hreads, x, y, hx, hy, hval⟩
  rw [hcarry, hoverflow, hreads, hval, ← if_congr (cmpHolds_intRel cmp hx hy) rfl rfl]
  exact (bind_of_ok ha).trans (bind_of_ok hb)

/-- Settles O58: the relation is the one that `FP.cmp` finds. -/
theorem fsetCompares : Obligations.FsetCompares := by
  unfold Obligations.FsetCompares
  refine fun ctl d set s1 s2 cmp abs s hseg => delivers_of (exec_of_unless_none rfl hseg) ?_
  rintro t r ⟨a, b, rel, ha, hb, rfl, hcarry, hoverflow, hreads, hval⟩
  rw [hcarry, hoverflow, hreads, hval, ← if_congr cmpHolds_iff rfl rfl]
  exact (bind_of_ok ha).trans (bind_of_ok hb)

end Sys2Proof.Machine
end

section
/-!
Which words are the words of an instruction, field by field (R80 to R88, R111, R182, R187).
-/
namespace Sys2Proof

/-- A field of a word is read in two adjacent parts. -/
theorem extractLsb'_eq_iff {n s m : Nat} (a b : Nat) (hm : a + b = m) {w : BitVec n} {x : BitVec m} :
    w.extractLsb' s m = x ↔ w.extractLsb' (s + b) a = x.extractLsb' b a ∧ w.extractLsb' s b = x.extractLsb' 0 b := by
  subst hm
  rw [← extract_join w s rfl, append_eq_iff, eq_comm, @eq_comm _ (x.extractLsb' 0 b)]

theorem RawL.toWord_eq_iff {r : RawL} {w : Long} : r.toWord = w ↔ r = RawL.ofWord w :=
  ⟨fun h => h ▸ (RawL.ofWord_toWord r).symm, fun h => h ▸ RawL.toWord_ofWord w⟩

theorem RawI.toWord_eq_iff {r : RawI} {w : Long} : r.toWord = w ↔ r = RawI.ofWord w :=
  ⟨fun h => h ▸ (RawI.ofWord_toWord r).symm, fun h => h ▸ RawI.toWord_ofWord w⟩

/-- R80, R120: a long instruction is read from its own word and no other. -/
theorem decodeWord_long_iff {w : Long} {i : Instr} (hlong : i.isShort = false) :
    decodeWord w = .ok i ↔ i.wf ∧ encode i = w := by
  refine ⟨fun h => ?_, fun ⟨hwf, h⟩ => h ▸ decodeWord_encode hwf⟩
  rw [decodeWord] at h
  split at h
  · next hbit => exact encode_of_decodeLong hbit h
  · next hbit =>
    have hlow : (w.extractLsb' 0 32).getLsbD 0 = false := by
      rw [BitVec.getLsbD_extractLsb']
      simpa using hbit
    obtain ⟨_, hword⟩ := encode_of_decodeShort hlow h
    have hbit0 := encode_bit0 i
    rw [hword, hlong, BitVec.getLsbD_setWidth, hlow] at hbit0
    cases hbit0

/-- R182: the fields of a well-formed GLD. The rule names runs of bits, which are cut here where the layout of format L
cuts them. -/
theorem decodeWord_gld_iff {w : Long} {ctl : Ctl} {d areg : BitVec 7} {ty : GlobalTy}
    (hwf : (Instr.gld ctl d areg ty).wf) : decodeWord w = .ok (.gld ctl d areg ty) ↔
      w.extractLsb' 0 2 = 1#2 ∧ w.extractLsb' 28 4 = 0xD#4 ∧ w.extractLsb' 61 3 = 4#3 ∧
      w.extractLsb' 16 7 = 14#7 ∧ w.extractLsb' 23 5 = 0#5 ∧ w.extractLsb' 34 5 = 0#5 ∧ w.extractLsb' 46 7 = 0#7 ∧
      w.extractLsb' 56 5 = 0#5 ∧ w.extractLsb' 2 7 = d ∧ w.extractLsb' 9 7 = areg ∧
      w.extractLsb' 53 3 = encGlobalTy ty ∧
      w.extractLsb' 32 2 = encMarker ctl.marker ∧ w.extractLsb' 39 5 = encCond ctl.guard.cc ∧
      w.extractLsb' 44 2 = ctl.guard.pr := by
  rw [decodeWord_long_iff rfl, and_iff_right hwf, encode, encodeRaw, Encoded.word, RawL.toWord_eq_iff, eq_comm]
  simp only [RawL.ext_iff, RawL.ofWord, encGlobal, RawL.blank, RawL.withCtl,
    extractLsb'_eq_iff (s := 0) (m := 2) 1 1 rfl,
    extractLsb'_eq_iff (s := 23) (m := 5) 2 3 rfl, extractLsb'_eq_iff (s := 23) (m := 3) 1 2 rfl,
    extractLsb'_eq_iff (s := 23) (m := 2) 1 1 rfl,
    extractLsb'_eq_iff (s := 34) (m := 5) 1 4 rfl, extractLsb'_eq_iff (s := 34) (m := 4) 2 2 rfl,
    extractLsb'_eq_iff (s := 34) (m := 2) 1 1 rfl,
    extractLsb'_eq_iff (s := 53) (m := 3) 2 1 rfl, extractLsb'_eq_iff (s := 54) (m := 4) 2 2 rfl,
    extractLsb'_eq_iff (s := 56) (m := 5) 1 4 rfl, extractLsb'_eq_iff (s := 56) (m := 4) 1 3 rfl,
    extractLsb'_eq_iff (s := 56) (m := 3) 1 2 rfl, low_of_append (0#2) ((encGlobalTy ty).extractLsb' 1 2),
    high_of_append (0#2) ((encGlobalTy ty).extractLsb' 1 2), Nat.reduceAdd]
  tauto

/-- R102, R187: the fields of MVI, cut where the layout of format I cuts them. -/
theorem decodeWord_mvi_iff {w : Long} {d : BitVec 7} {imm : Word} : decodeWord w = .ok (.mvi d imm) ↔
    w.extractLsb' 0 2 = 1#2 ∧ w.extractLsb' 32 2 = 3#2 ∧ w.extractLsb' 28 4 = 1#4 ∧ w.extractLsb' 60 4 = 0#4 ∧
      w.extractLsb' 9 6 = 0#6 ∧ w.extractLsb' 15 1 = 1#1 ∧ w.extractLsb' 22 6 = 0#6 ∧
      d = w.extractLsb' 2 7 ∧ imm = w.extractLsb' 34 26 ++ w.extractLsb' 16 6 := by
  have hwf : (Instr.mvi d imm).wf := rfl
  rw [decodeWord_long_iff rfl, and_iff_right hwf, encode, encodeRaw, Encoded.word, RawI.toWord_eq_iff, eq_comm,
    eq_comm (a := imm), append_eq_iff (m := 26) (n := 6)]
  simp only [RawI.ext_iff, RawI.ofWord, RawI.blank,
    extractLsb'_eq_iff (s := 0) (m := 2) 1 1 rfl,
    extractLsb'_eq_iff (s := 22) (m := 6) 3 3 rfl, extractLsb'_eq_iff (s := 22) (m := 3) 1 2 rfl,
    extractLsb'_eq_iff (s := 60) (m := 4) 3 1 rfl, Nat.reduceAdd]
  tauto

end Sys2Proof
end

section
/-!
Data movement and the loads of GLD (R182, R185 to R187, R190, R196 to R198).
-/
namespace Sys2Proof.Machine

/-! ### Moves and address registers -/

/-- Settles O41: a lane of MOV or MOV32 reads its source and writes it. -/
theorem movesDeliver : Obligations.MovesDeliver := by
  unfold Obligations.MovesDeliver
  refine ⟨fun ctl d s1 sz sg s => delivers_reg rfl ?mov, fun d s1 sz s => delivers_reg rfl ?mov32⟩
  case mov =>
    rintro t r ⟨x, hx, rfl⟩
    exact bind_of_ok hx
  case mov32 =>
    rintro t r ⟨x, hx, rfl⟩
    exact bind_of_ok hx

/-- Settles O42: a lane of MVI writes the immediate; its words by `decodeWord_mvi_iff`. -/
theorem moveImmediate : Obligations.MoveImmediate := by
  unfold Obligations.MoveImmediate
  refine ⟨fun d imm s => delivers_reg rfl ?delivers, fun w d imm => decodeWord_mvi_iff,
    decodeWord_of_encode_eq rfl rfl, decodeWord_of_encode_eq rfl rfl, decodeWord_of_encode_eq rfl rfl⟩
  case delivers =>
    rintro t r rfl
    rfl

/-- R190: an address register plus an immediate, as numbers. -/
theorem add_setWidth_eq {n : Nat} (x : Word) (imm : BitVec n) :
    x + imm.setWidth 32 = BitVec.ofNat 32 (x.toNat + imm.toNat) := by
  rw [BitVec.ofNat_add, BitVec.ofNat_toNat, BitVec.ofNat_toNat, BitVec.setWidth_eq]

/-- R196: R2A as a sum, in numbers. -/
theorem r2aValue_add (x : Word) (m : Nat) : r2aValue .add x m = BitVec.ofNat 32 (x.toNat + m) := by
  rw [BitVec.ofNat_add, BitVec.ofNat_toNat, BitVec.setWidth_eq, r2aValue]

/-- R196: R2A as a left shift, in numbers. -/
theorem r2aValue_shl (x : Word) (m : Nat) : r2aValue .shl x m = BitVec.ofNat 32 (x.toNat * 2 ^ m) :=
  shiftLeft_eq x m

/-- Settles O44: each lane reads its one source and writes the sum or the shift, which `r2aValue_add`,
`r2aValue_shl` and `add_setWidth_eq` say as numbers. -/
theorem addressRegistersMove : Obligations.AddressRegistersMove := by
  unfold Obligations.AddressRegistersMove
  refine ⟨fun ctl da s1 imm s hproblem => completes_areg (exec_of_unless_none rfl hproblem) ?r2a,
    fun ctl da a imm s hda => completes_areg (exec_of_unless_none rfl (if_neg hda)) ?ada,
    fun ctl d a imm s => delivers_reg rfl ?a2r⟩
  case r2a =>
    rintro t v ⟨x, hx, rfl⟩
    refine (bind_of_ok hx).trans (congrArg (putAreg s.params t da.toNat) ?_)
    cases s.params.r2aImmOp with
    | add => exact r2aValue_add x imm.toNat
    | shl => exact r2aValue_shl x imm.toNat
  case ada =>
    rintro t v ⟨x, hx, rfl⟩
    rw [← add_setWidth_eq]
    exact bind_of_ok hx
  case a2r =>
    rintro t r ⟨x, hx, rfl⟩
    rw [← add_setWidth_eq]
    exact bind_of_ok hx

/-! ### Where a lane of GLD completes -/

/-- R51: a load gives a value exactly where its access is aligned and inside its space and no byte of it is empty. -/
theorem State.load_defined_iff {s : State} {sp : Space} {addr n : Nat} : (∃ raw, s.load sp addr n = .ok raw) ↔
    addr % n = 0 ∧ addr + n ≤ spaceSize s.params sp ∧ ∀ k < n, s.byteAt sp (addr + k) ≠ none := by
  constructor
  · rintro ⟨raw, h⟩
    obtain ⟨hcheck, bytes, hbytes, _⟩ := State.load_ok_iff.mp h
    obtain ⟨haligned, hend⟩ := State.accessCheck_ok_iff.mp hcheck
    obtain ⟨hlength, hall⟩ := State.bytesAt_eq_some.mp hbytes
    refine ⟨haligned, hend, fun k hk => ?_⟩
    rw [hall k hk, List.getElem?_eq_getElem (hlength ▸ hk)]
    exact Option.some_ne_none _
  · rintro ⟨haligned, hend, hfull⟩
    have hbytes : (s.memOf sp).bytesAt (sp.key addr) n =
        some ((List.range n).map fun k => (s.byteAt sp (addr + k)).getD 0#8) := by
      refine State.bytesAt_eq_some.mpr ⟨by simp, fun k hk => ?_⟩
      obtain ⟨b, hb⟩ := Option.ne_none_iff_exists'.mp (hfull k hk)
      simp [hk, hb]
    exact ⟨_, State.load_ok_iff.mpr ⟨State.accessCheck_ok_iff.mpr ⟨haligned, hend⟩, _, hbytes, rfl⟩⟩

/-- R242: a write of a general register that the thread does not have. -/
theorem putReg_of_no_field {p : Params} {k : Nat} (h : ¬ FieldExists p .b32 k) (t : Thread) (v : Word)
    (reads : List Range) : putReg p t .b32 k v reads = .error (.invalidRegister .general k) := by
  have hwrite : writeReg p t .b32 k v = .error (.invalidRegister .general k) :=
    writeGpr_of_count_le (Nat.not_lt.mp h) v
  simp only [putReg, hwrite]

/-- R182: a lane of GLD completes exactly where its destination exists, its address register can be read and the load
gives a value. -/
theorem gldWork_defined_iff {s : State} {d areg : BitVec 7} {ty : GlobalTy} {t : Thread} :
    (∃ w, gldWork s d areg ty t = .ok w) ↔ FieldExists s.params .b32 d.toNat ∧ ∃ addr raw,
      readGpr s.params t areg.toNat = .ok addr ∧ s.load .global addr.toNat (globalBytes ty) = .ok raw := by
  constructor
  · rintro ⟨w, hw⟩
    cases haddr : readGpr s.params t areg.toNat with
    | error c => exact absurd ((bind_of_error haddr).symm.trans hw) (by simp)
    | ok addr =>
      have hafter := (bind_of_ok haddr).symm.trans hw
      cases hraw : s.load .global addr.toNat (globalBytes ty) with
      | error c => exact absurd ((bind_of_error hraw).symm.trans hafter) (by simp)
      | ok raw =>
        refine ⟨?_, addr, raw, rfl, hraw⟩
        by_contra hfield
        have hput := (bind_of_ok hraw).symm.trans hafter
        exact absurd ((putReg_of_no_field hfield t _ _).symm.trans hput) (by simp)
  · rintro ⟨hfield, addr, raw, haddr, hraw⟩
    obtain ⟨t', hwrite, _⟩ := writeReg_exists t .b32 (globalExtend ty raw) hfield
    exact ⟨⟨t', [⟨.global, addr.toNat, globalBytes ty⟩], none⟩,
      (bind_of_ok haddr).trans ((bind_of_ok hraw).trans (by simp only [putReg, hwrite]))⟩

/-- An instruction that goes on has done the work of every lane that takes part. -/
theorem execLanes_work_ok {s t : State} {mk : Marker} {g : Guard} {len : Nat} {ranges : Thread → List Range}
    {body : Thread → Except Cause Work} (h : execLanes s mk g len ranges body = .next t) {l : Lane}
    (hl : l ∈ s.warp.lanes) (ht : Takes g l) : ∃ w, body l.thread = .ok w := by
  obtain ⟨outs, _, houts, _⟩ := execLanes_next h
  obtain ⟨j, hj⟩ := List.mem_iff_getElem?.mp hl
  obtain ⟨_, hlanes⟩ := runLanes_ok houts
  obtain ⟨o, _, ho⟩ := hlanes j l hj
  rcases laneOut_ok ho with ⟨hnot, _⟩ | ⟨_, w, hw, _⟩
  · exact absurd ht hnot
  · exact ⟨w, hw⟩

/-! ### Where a lane of GLD faults -/

/-- R247: the first lane of GLD that faults gives the outcome, where no lane's load races. -/
theorem exec_gld_fault {ctl : Ctl} {d areg : BitVec 7} {ty : GlobalTy} {s : State} {i : Nat} {l : Lane} {c : Cause}
    (hl : s.warp.lanes[i]? = some l) (ht : Takes ctl.guard l)
    (hbefore : ∀ k < i, ∀ l', s.warp.lanes[k]? = some l' → l'.status ≠ .active ∨
      guardHolds ctl.guard l'.thread = .ok false ∨
      guardHolds ctl.guard l'.thread = .ok true ∧ ∃ w, gldWork s d areg ty l'.thread = .ok w)
    (hcalm : ∀ l' ∈ s.warp.lanes, Takes ctl.guard l' → ∀ addr, readGpr s.params l'.thread areg.toNat = .ok addr →
      ¬ Contested s .global addr.toNat (globalBytes ty) false)
    (hc : gldWork s d areg ty l.thread = .error c) : exec (.gld ctl d areg ty) s = s.raise (some i) c := by
  have hrace : s.readsRace ctl.guard (gldRanges s areg ty) = false := by
    refine Bool.eq_false_iff.mpr fun hreads => ?_
    obtain ⟨l', hl', ht', r, hr, hcontested⟩ := State.readsRace_contested.mp hreads
    obtain ⟨addr, haddr, _, rfl⟩ := mem_gldRanges.mp hr
    exact hcalm l' hl' ht' addr haddr hcontested
  have hdone : ∀ k < i, ∀ l', s.warp.lanes[k]? = some l' →
      ∃ o, laneOut (guardHolds ctl.guard) (gldWork s d areg ty) l' = .ok o := by
    intro k hk l' hl'
    by_cases hactive : l'.status = .active
    · rcases hbefore k hk l' hl' with hidle | hfalse | ⟨htrue, w, hw⟩
      · exact absurd hactive hidle
      · exact ⟨_, laneOut_false hfalse⟩
      · exact ⟨_, laneOut_true hactive htrue hw⟩
    · exact ⟨_, laneOut_idle hactive⟩
  rw [exec_gld, execLanes_fault hl (laneOut_work_error ht hc) hdone, hrace]
  rfl

/-! ### The size codes of GLD -/

/-- R182: the codes 100 and 101 name no size. -/
theorem encGlobalTy_ne (ty : GlobalTy) : encGlobalTy ty ≠ 4#3 ∧ encGlobalTy ty ≠ 5#3 := by
  cases ty <;> decide

/-- R182: a word with the opcode and sub-opcode of GLD that is read has the size code of a type. -/
theorem size_of_decodeWord {w : Long} {i : Instr} (hlong : w.extractLsb' 0 2 = 1#2) (hop : w.extractLsb' 28 4 = 0xD#4)
    (hsub : w.extractLsb' 61 3 = 4#3) (hmarker : w.extractLsb' 32 2 ≠ 3#2) (h : decodeWord w = .ok i) :
    ∃ ty, w.extractLsb' 53 3 = encGlobalTy ty := by
  obtain ⟨hflow, hlng⟩ := (extractLsb'_eq_iff 1 1 rfl).mp hlong
  have hread : decodeNormal (RawL.ofWord w) = decGlobal .gld (RawL.ofWord w) := by
    simp only [decodeNormal, RawL.ofWord, hop, hsub]
    rfl
  have hnormal := decodeWord_normal (RawL.ofWord w) hlng hflow hmarker
  rw [RawL.toWord_ofWord, hread] at hnormal
  obtain ⟨hglobal, _⟩ := bind_checked_ok.mp (hnormal.symm.trans h)
  simp only [decGlobal, bind_ok_iff] at hglobal
  obtain ⟨_, _, _, _, ty, hty, _⟩ := hglobal
  obtain ⟨hhi, hlo⟩ := (append_eq_iff (m := 2) (n := 1)).mp (decGlobalTy_ok_iff.mp hty)
  have hseg : (w.extractLsb' 54 4).extractLsb' 0 2 = w.extractLsb' 54 2 :=
    ((extractLsb'_eq_iff (w := w) (s := 54) 2 2 rfl).mp rfl).right.symm
  exact ⟨ty, (extractLsb'_eq_iff 2 1 rfl).mpr ⟨(hhi.trans hseg).symm, hlo.symm⟩⟩

/-- Settles O38: where GLD goes on every lane's work is done, and `gldWork_defined_iff` says what that takes; each
fault is the first that the lane's work meets; the words by `decodeWord_gld_iff` and `size_of_decodeWord`. -/
theorem gldLoadsGlobal : Obligations.GldLoadsGlobal := by
  unfold Obligations.GldLoadsGlobal
  refine ⟨fun ctl d areg ty s t hnext l hl ht => ?completes,
    fun ctl d areg ty s i l c hl ht hbefore hcalm hcause => ?faults, fun ty => by cases ty <;> rfl,
    fun w ctl d areg ty hwf => ?word, fun w hlong hop hsub hmarker hsize => ?size,
    decodeWord_of_encode_eq rfl rfl, decodeWord_of_encode_eq rfl rfl, decodeWord_of_encode_eq rfl rfl, by decide,
    fun ctl d areg ty s => delivers_reg (exec_gld ..) ?delivers⟩
  case completes =>
    rw [exec_gld] at hnext
    obtain ⟨hfield, addr, raw, haddr, hraw⟩ := gldWork_defined_iff.mp (execLanes_work_ok hnext hl ht)
    exact ⟨hfield, addr, haddr, State.load_defined_iff.mp ⟨raw, hraw⟩⟩
  case faults =>
    refine exec_gld_fault hl ht (fun k hk l' hl' => (hbefore k hk l' hl').imp_right
      (Or.imp_right (And.imp_right gldWork_defined_iff.mpr))) hcalm ?_
    rcases hcause with hread | ⟨addr, haddr, hcause⟩
    · exact bind_of_error hread
    · refine (bind_of_ok haddr).trans ?_
      rcases hcause with ⟨hmis, rfl⟩ | ⟨haligned, ⟨hpast, rfl⟩ | ⟨hend, ⟨hempty, rfl⟩ | ⟨hfull, hfield, rfl⟩⟩⟩
      · exact bind_of_error (State.load_error_of_check (State.accessCheck_misaligned hmis))
      · exact bind_of_error (State.load_error_of_check (State.accessCheck_out_of_range haligned hpast))
      · exact bind_of_error (State.load_uninitialised (State.accessCheck_ok_iff.mpr ⟨haligned, hend⟩) hempty)
      · obtain ⟨raw, hraw⟩ := State.load_defined_iff (sp := .global).mpr ⟨haligned, hend, hfull⟩
        exact (bind_of_ok hraw).trans (putReg_of_no_field hfield _ _ _)
  case word => cases ty <;> exact decodeWord_gld_iff hwf
  case size =>
    cases hread : decodeWord w with
    | error why => exact ⟨why, rfl⟩
    | ok i =>
      obtain ⟨ty, hty⟩ := size_of_decodeWord hlong hop hsub hmarker hread
      obtain ⟨hfour, hfive⟩ := encGlobalTy_ne ty
      rw [hty] at hsize
      exact (hsize.elim hfour hfive).elim
  case delivers =>
    rintro t r ⟨addr, raw, x, haddr, hraw, rfl, rfl⟩
    refine (bind_of_ok haddr).trans ((bind_of_ok hraw).trans ?_)
    cases ty <;> rfl

end Sys2Proof.Machine
end

section
/-!
Floating point and the special functions (R200 to R219, R230 to R237). The arithmetic and the functions of one source
hand the operands that they read to the numeric parameters `FP` and `SFU`. F2I and I2F work on a magnitude and put the
sign back, so each is described by its magnitude first: F2I rounds one to an integer that the register holds, and I2F
takes one to a neighbouring multiple of a unit, the grid on which the numbers of binary32 of its size lie.
-/
namespace Sys2Proof.Machine

/-! ### Additions, multiplications and multiply-adds (R205 to R213) -/

/-- Settles O54: the reads of a lane hand on the two operands, and `fnegIf` is the sign flip of R202. -/
theorem floatAdditions : Obligations.FloatAdditions := by
  unfold Obligations.FloatAdditions
  refine ⟨fun ctl d set s1 s3 rm neg1 neg2 s hseg => delivers_of (exec_of_unless_none rfl hseg) ?fadd,
    fun d s1 s2 neg1 neg2 s => delivers_reg rfl ?fadd32, fun d s1 imm s => delivers_reg rfl ?fadd32i⟩
  case fadd =>
    rintro t r ⟨a, b, ha, hb, rfl⟩
    exact (bind_of_ok ha).trans (bind_of_ok hb)
  case fadd32 =>
    rintro t r ⟨a, b, ha, hb, rfl⟩
    exact (bind_of_ok ha).trans (bind_of_ok hb)
  case fadd32i =>
    rintro t r ⟨a, ha, rfl⟩
    exact bind_of_ok ha

/-- Settles O55: as for the additions. -/
theorem floatMultiplications : Obligations.FloatMultiplications := by
  unfold Obligations.FloatMultiplications
  refine ⟨fun ctl d set s1 s2 rm neg1 neg2 s hseg => delivers_of (exec_of_unless_none rfl hseg) ?fmul,
    fun d s1 s2 neg1 neg2 s => delivers_reg rfl ?fmul32, fun d s1 imm s => delivers_reg rfl ?fmul32i⟩
  case fmul =>
    rintro t r ⟨a, b, ha, hb, rfl⟩
    exact (bind_of_ok ha).trans (bind_of_ok hb)
  case fmul32 =>
    rintro t r ⟨a, b, ha, hb, rfl⟩
    exact (bind_of_ok ha).trans (bind_of_ok hb)
  case fmul32i =>
    rintro t r ⟨a, ha, rfl⟩
    exact bind_of_ok ha

/-- Settles O56: the third operand is read last, and for the short and immediate forms from the destination; FMAD32
runs where its check finds the reading of R212 taken. -/
theorem floatMultiplyAdds : Obligations.FloatMultiplyAdds := by
  unfold Obligations.FloatMultiplyAdds
  refine ⟨fun ctl d set s1 s2 s3 neg1 neg3 s hseg2 hseg3 =>
      delivers_of (exec_of_unless_none rfl (firstProblem_none.mpr (by simp [hseg2, hseg3]))) ?fmad,
    fun d s1 s2 neg1 s => ⟨fun htakes => delivers_reg (exec_of_unless_none rfl (if_pos htakes)) ?fmad32,
      fun habsent => exec_of_unless_some rfl (if_neg (Bool.eq_false_iff.mp habsent))⟩,
    fun d s1 neg1 imm s => delivers_reg rfl ?fmad32i⟩
  case fmad =>
    rintro t r ⟨a, b, c, ha, hb, hc, rfl⟩
    exact (bind_of_ok ha).trans ((bind_of_ok hb).trans (bind_of_ok hc))
  case fmad32 =>
    rintro t r ⟨a, b, c, ha, hb, hc, rfl⟩
    exact (bind_of_ok ha).trans ((bind_of_ok hb).trans (bind_of_ok hc))
  case fmad32i =>
    rintro t r ⟨a, c, ha, hc, rfl⟩
    exact (bind_of_ok ha).trans (bind_of_ok hc)

/-! ### Functions of one source (R218, R219, R230 to R237) -/

/-- R237: the common shape of the special functions, in a launch that takes the parameter `SFU`. -/
theorem delivers_sfu {i : Instr} {ctl : Ctl} {d : Dst} {set : PredSet} {s1 : BitVec 7} {f : Word → Word} {s : State}
    (hexec : exec i s = execSfu ctl d set s1 f s) (htakes : s.params.sfu = true) :
    DeliversLong i s ctl .b32 d set fun t r =>
      ∃ a, readGpr s.params t s1.toNat = .ok a ∧ r = ⟨f a, false, false, []⟩ := by
  refine delivers_of (exec_of_unless_none hexec (if_pos htakes)) ?_
  rintro t r ⟨a, ha, rfl⟩
  exact bind_of_ok ha

/-- R230, D12: without the parameter `SFU` a special function is declined. -/
theorem exec_sfu_absent {i : Instr} {ctl : Ctl} {d : Dst} {set : PredSet} {s1 : BitVec 7} {f : Word → Word} {s : State}
    (hexec : exec i s = execSfu ctl d set s1 f s) (habsent : s.params.sfu = false) : exec i s = s.refuse .sfuAbsent :=
  exec_of_unless_some hexec (if_neg (Bool.eq_false_iff.mp habsent))

/-- Settles O59: each of the six is `execSfu` of its own function. -/
theorem functionsOfOneSource : Obligations.FunctionsOfOneSource := by
  unfold Obligations.FunctionsOfOneSource
  refine ⟨fun ctl d set s1 s => delivers_of rfl ?rcp, fun d s1 s => delivers_reg rfl ?rcp32,
    fun ctl d set s1 s i f hi => ?special⟩
  case rcp =>
    rintro t r ⟨a, ha, rfl⟩
    exact bind_of_ok ha
  case rcp32 =>
    rintro t r ⟨a, ha, rfl⟩
    exact bind_of_ok ha
  case special =>
    have hexec : exec i s = execSfu ctl d set s1 f s := by
      rcases hi with ⟨rfl, rfl⟩ | ⟨rfl, rfl⟩ | ⟨rfl, rfl⟩ | ⟨rfl, rfl⟩ | ⟨rfl, rfl⟩ | ⟨m, rfl, rfl⟩ <;> rfl
    exact ⟨delivers_sfu hexec, exec_sfu_absent hexec⟩

/-! ### F2F (R214) -/

theorem getLsbD_fabsIf {i : Nat} (hi : i < 32) (abs : Bool) (a : Word) :
    (fabsIf abs a).getLsbD i = (a.getLsbD i && !(abs && decide (i = 31))) := by
  have hmask : (0x7FFFFFFF#32).getLsbD i = !decide (i = 31) := by
    revert i
    decide
  cases abs <;> simp [fabsIf, hmask]

theorem getLsbD_fnegIf {i : Nat} (hi : i < 32) (neg : Bool) (a : Word) :
    (fnegIf neg a).getLsbD i = (a.getLsbD i ^^ (neg && decide (i = 31))) := by
  have hmask : (0x80000000#32).getLsbD i = decide (i = 31) := by
    revert i
    decide
  cases neg <;> simp [fnegIf, hmask]

/-- R202: the bits below bit 31, and bit 31, determine the word that F2F starts from. -/
theorem eq_fnegIf_fabsIf_of_bits {abs neg : Bool} {a x : Word} (hlow : ∀ i < 31, x.getLsbD i = a.getLsbD i)
    (hsign : x.getLsbD 31 = ((a.getLsbD 31 && !abs) ^^ neg)) : x = fnegIf neg (fabsIf abs a) := by
  refine BitVec.eq_of_getLsbD_eq fun i hi => ?_
  rw [getLsbD_fnegIf hi, getLsbD_fabsIf hi]
  rcases Nat.lt_or_eq_of_le (Nat.le_of_lt_succ hi) with h | rfl
  · simp [hlow i h, h.ne]
  · rw [hsign, decide_eq_true rfl, Bool.and_true, Bool.and_true]

theorem f2fValue_eq (rm : Rm) (v : Word) : f2fValue rm v = if rm = .nearest then v else Config.fpF2f .zero v := by
  cases rm <;> rfl

/-! ### F2I (R215) -/

/-- The magnitude of the integer that F2I rounds to. -/
def f2iMagnitude (rm : Rm) (sg : Bool) (a : Word) : Nat :=
  roundMagnitude rm (Config.fpF2iTie sg 32 a) (f32Num a) (f32Den a)

theorem f2iValue_of_inRange (rm : Rm) {sg : Bool} {a : Word} (hfin : F32Finite a)
    (hrange : f2iInRange sg a.msb 32 (f32Num a) (f32Den a) = true) : f2iValue rm sg 32 a =
      if a.msb then -BitVec.ofNat 32 (f2iMagnitude rm sg a) else BitVec.ofNat 32 (f2iMagnitude rm sg a) := by
  rw [f32Finite_iff] at hfin
  simp only [f2iValue, hfin, hrange, Bool.not_false, Bool.and_self, if_true, f2iMagnitude]

theorem f2iValue_of_outside (rm : Rm) {sg : Bool} {a : Word}
    (hout : ¬ F32Finite a ∨ f32Value a < intLow sg ∨ intHigh sg < f32Value a) :
    f2iValue rm sg 32 a = Config.fpF2i rm sg 32 a := by
  have hcheck : (!f32Special a && f2iInRange sg a.msb 32 (f32Num a) (f32Den a)) = false := by
    rw [Bool.and_eq_false_iff, Bool.not_eq_false', ← Bool.not_eq_false, ← f32Finite_iff, ← Bool.not_eq_true,
      f2iInRange_iff, not_and_or, not_le, not_le]
    exact hout
  simp only [f2iValue, hcheck, Bool.false_eq_true, if_false]

/-- The greatest magnitude of an integer of one sign in a 32-bit register (R12). -/
def intMost (sg neg : Bool) : Nat :=
  match sg, neg with
  | true, true => 2 ^ 31
  | true, false => 2 ^ 31 - 1
  | false, true => 0
  | false, false => 2 ^ 32 - 1

theorem f2iInRange_iff_le {sg neg : Bool} {n d : Nat} :
    f2iInRange sg neg 32 n d = true ↔ n ≤ intMost sg neg * d := by
  cases sg <;> cases neg <;> simp [f2iInRange, intMost]

/-- A magnitude that the register holds is read back from it with its sign. -/
theorem intValue_signed_magnitude {sg neg : Bool} {q : Nat} (hq : q ≤ intMost sg neg) :
    intValue sg (if neg then -BitVec.ofNat 32 q else BitVec.ofNat 32 q) = (if neg then -1 else 1) * (q : ℤ) := by
  cases sg with
  | true =>
    cases neg <;>
      simp only [intMost, intValue, if_true, Bool.false_eq_true, if_false, BitVec.toInt_eq_toNat_cond,
        BitVec.toNat_neg, BitVec.toNat_ofNat] at hq ⊢ <;>
      split <;> omega
  | false =>
    cases neg <;>
      simp only [intMost, intValue, if_true, Bool.false_eq_true, if_false, BitVec.toNat_neg,
        BitVec.toNat_ofNat] at hq ⊢ <;>
      omega

/-- Inside the range, F2I delivers the rounded magnitude with the sign of its source. -/
theorem intValue_f2iValue (rm : Rm) {sg : Bool} {a : Word} (hfin : F32Finite a)
    (hrange : f2iInRange sg a.msb 32 (f32Num a) (f32Den a) = true) :
    (intValue sg (f2iValue rm sg 32 a) : ℚ) = (if a.msb then -1 else 1) * (f2iMagnitude rm sg a : ℚ) := by
  have hmost : f2iMagnitude rm sg a ≤ intMost sg a.msb :=
    roundMagnitude_le (f32Den_pos a) (f2iInRange_iff_le.mp hrange)
  rw [f2iValue_of_inRange rm hfin hrange, intValue_signed_magnitude hmost]
  push_cast
  rfl

/-- R201, R215: the source and what F2I delivers have one sign, so they are as far apart as their magnitudes, which
`roundMagnitude_spec` compares. -/
theorem f2iValue_rounds (rm : Rm) {sg : Bool} {a : Word} (hfin : F32Finite a) (hlow : intLow sg ≤ f32Value a)
    (hhigh : f32Value a ≤ intHigh sg) :
    let x : ℚ := intValue sg (f2iValue rm sg 32 a)
    (rm = .zero → |x| ≤ |f32Value a| ∧ |f32Value a| < |x| + 1 ∧ 0 ≤ x * f32Value a) ∧
      (rm = .nearest → |x - f32Value a| ≤ 1 / 2) := by
  intro x
  have hx : x = (if a.msb then -1 else 1) * (f2iMagnitude rm sg a : ℚ) :=
    intValue_f2iValue rm hfin ((f2iInRange_iff sg a).mpr ⟨hlow, hhigh⟩)
  have hspec := roundMagnitude_spec rm (Config.fpF2iTie sg 32 a) (f32Num a) (f32Den a) (f32Den_pos a)
  rw [← f2iMagnitude] at hspec
  have hq : (0 : ℚ) ≤ f2iMagnitude rm sg a := Nat.cast_nonneg _
  have hm : (0 : ℚ) ≤ f32Num a / f32Den a := div_nonneg (Nat.cast_nonneg _) (Nat.cast_nonneg _)
  rw [hx, f32Value_eq]
  generalize (f2iMagnitude rm sg a : ℚ) = q at hspec hq ⊢
  generalize (f32Num a : ℚ) / f32Den a = m at hspec hm ⊢
  obtain ⟨hzero, hnearest⟩ := hspec
  have hprod := mul_nonneg hq hm
  cases a.msb with
  | true =>
    simp only [if_true, neg_one_mul, abs_neg, neg_mul_neg, abs_of_nonneg hq, abs_of_nonneg hm, neg_sub_neg,
      abs_sub_comm m q]
    exact ⟨fun h => ⟨(hzero h).1, (hzero h).2, hprod⟩, hnearest⟩
  | false =>
    simp only [Bool.false_eq_true, if_false, one_mul, abs_of_nonneg hq, abs_of_nonneg hm]
    exact ⟨fun h => ⟨(hzero h).1, (hzero h).2, hprod⟩, hnearest⟩

/-! ### I2F (R216) -/

/-- The significand that I2F makes of a nonzero integer. -/
def i2fSignificand (rm : Rm) (signed : Bool) (x : ℤ) : Nat :=
  let n := x.natAbs * 2 ^ (23 - x.natAbs.log2)
  let d := 2 ^ (x.natAbs.log2 - 23)
  n / d + (decide (rm = .nearest) && decide (n % d ≠ 0) && Config.fpI2fAway signed x).toNat

/-- The distance of the numbers of binary32 around an integer, as `f32Value_grid` has it. -/
def i2fUnit (x : ℤ) : ℚ := 2 ^ ((x.natAbs.log2 : ℤ) - 23)

theorem i2fUnit_pos (x : ℤ) : 0 < i2fUnit x := by
  unfold i2fUnit
  positivity

theorem i2fValue_zero (rm : Rm) (signed : Bool) : i2fValue rm signed 0 = 0#32 := rfl

theorem i2fValue_of_ne_zero (rm : Rm) (signed : Bool) {x : ℤ} (hx : x ≠ 0) : i2fValue rm signed x =
    BitVec.ofNat 32 ((if x < 0 then 2 ^ 31 else 0) + (x.natAbs.log2 + 126) * 2 ^ 23 + i2fSignificand rm signed x) :=
  if_neg (Int.natAbs_ne_zero.mpr hx)

/-- A power of two scaled by the model's numerator is 2^23 scaled by its denominator. -/
theorem two_pow_mul_shift (l : Nat) : 2 ^ l * 2 ^ (23 - l) = 2 ^ 23 * 2 ^ (l - 23) := by
  rw [← pow_add, ← pow_add]
  congr 1
  omega

theorem two_pow_mul_i2fUnit (x : ℤ) : 2 ^ 23 * i2fUnit x = 2 ^ x.natAbs.log2 := by
  rw [i2fUnit, zpow_sub₀ two_ne_zero, zpow_natCast]
  exact mul_div_cancel₀ _ (by norm_num)

theorem i2fUnit_mul_shift (x : ℤ) :
    i2fUnit x * 2 ^ (23 - x.natAbs.log2) = ((2 ^ (x.natAbs.log2 - 23) : ℕ) : ℚ) := by
  have hshift : (2 : ℚ) ^ x.natAbs.log2 * 2 ^ (23 - x.natAbs.log2) = 2 ^ 23 * 2 ^ (x.natAbs.log2 - 23) := by
    exact_mod_cast two_pow_mul_shift x.natAbs.log2
  rw [← two_pow_mul_i2fUnit] at hshift
  push_cast
  linarith

/-- The significand has 24 bits, or is 2^24. -/
theorem i2fSignificand_bounds (rm : Rm) (signed : Bool) {x : ℤ} (hx : x ≠ 0) :
    2 ^ 23 ≤ i2fSignificand rm signed x ∧ i2fSignificand rm signed x ≤ 2 ^ 24 := by
  have hm : x.natAbs ≠ 0 := Int.natAbs_ne_zero.mpr hx
  have hshift := two_pow_mul_shift x.natAbs.log2
  have hlow : 2 ^ 23 * 2 ^ (x.natAbs.log2 - 23) ≤ x.natAbs * 2 ^ (23 - x.natAbs.log2) :=
    hshift ▸ Nat.mul_le_mul_right _ (Nat.log2_self_le hm)
  have hhigh : x.natAbs * 2 ^ (23 - x.natAbs.log2) < 2 ^ (x.natAbs.log2 - 23) * 2 ^ 24 :=
    calc x.natAbs * 2 ^ (23 - x.natAbs.log2)
      _ < 2 ^ (x.natAbs.log2 + 1) * 2 ^ (23 - x.natAbs.log2) :=
        Nat.mul_lt_mul_of_pos_right Nat.lt_log2_self (Nat.two_pow_pos _)
      _ = 2 ^ (x.natAbs.log2 - 23) * 2 ^ 24 := by rw [pow_succ]; linarith
  have hquot := (Nat.le_div_iff_mul_le (Nat.two_pow_pos _)).mpr hlow
  have hquot' := Nat.div_lt_of_lt_mul hhigh
  exact ⟨hquot.trans (Nat.le_add_right _ _), (Nat.add_le_add_left (Bool.toNat_le _) _).trans hquot'⟩

/-- A quotient cut to an integer, in numbers of a unit. -/
theorem div_mul_le_and_lt {m u e : ℚ} {n d : Nat} (he : 0 < e) (hd : 0 < d) (hunit : u * e = d) (hn : m * e = n) :
    ((n / d : ℕ) : ℚ) * u ≤ m ∧ m < ((n / d : ℕ) + 1) * u ∧ (n % d ≠ 0 → ((n / d : ℕ) : ℚ) * u < m) := by
  have hdiv : ((n / d : ℕ) : ℚ) * u * e + (n % d : ℕ) = m * e := by
    rw [mul_assoc, hunit, hn]
    exact_mod_cast Nat.div_add_mod' n d
  have hrest : ((n % d : ℕ) : ℚ) < u * e := hunit ▸ Nat.cast_lt.mpr (Nat.mod_lt n hd)
  refine ⟨le_of_mul_le_mul_right ?_ he, lt_of_mul_lt_mul_right ?_ he.le,
    fun hmod => lt_of_mul_lt_mul_right ?_ he.le⟩
  · linarith [Nat.cast_nonneg (α := ℚ) (n % d)]
  · linarith
  · linarith [Nat.cast_pos (α := ℚ).mpr (Nat.pos_of_ne_zero hmod)]

/-- R216: the significand times the unit is the integer's magnitude cut to the unit, or, with `nearest` only and where
the magnitude is no multiple of the unit, the next multiple. -/
theorem i2fSignificand_adjacent (rm : Rm) (signed : Bool) (x : ℤ) :
    let u := i2fUnit x
    let c : ℚ := i2fSignificand rm signed x
    c * u ≤ |(x : ℚ)| ∧ |(x : ℚ)| < (c + 1) * u ∨ rm = .nearest ∧ (c - 1) * u < |(x : ℚ)| ∧ |(x : ℚ)| < c * u := by
  intro u c
  have hmagnitude : |(x : ℚ)| * 2 ^ (23 - x.natAbs.log2) = ((x.natAbs * 2 ^ (23 - x.natAbs.log2) : ℕ) : ℚ) := by
    rw [Nat.cast_mul, Nat.cast_natAbs, Int.cast_abs, Nat.cast_pow, Nat.cast_ofNat]
  obtain ⟨hfloor, hnext, hinexact⟩ :=
    div_mul_le_and_lt (pow_pos two_pos _) (Nat.two_pow_pos _) (i2fUnit_mul_shift x) hmagnitude
  simp only [c, i2fSignificand]
  generalize haway : (decide (rm = .nearest) && _ && Config.fpI2fAway signed x) = away
  cases away with
  | false => exact .inl ⟨hfloor, hnext⟩
  | true =>
    simp only [Bool.and_eq_true, decide_eq_true_eq] at haway
    obtain ⟨⟨hrm, hmod⟩, _⟩ := haway
    rw [Bool.toNat_true, Nat.cast_succ]
    exact .inr ⟨hrm, by rw [add_sub_cancel_right]; exact hinexact hmod, hnext⟩

/-- The magnitude of the number that I2F delivers for a nonzero integer. -/
def i2fMagnitude (rm : Rm) (signed : Bool) (x : ℤ) : ℚ := i2fSignificand rm signed x * i2fUnit x

theorem f32Value_i2fValue (rm : Rm) (signed : Bool) {x : ℤ} (hx : x ≠ 0) (hlow : -2 ^ 31 ≤ x) (hhigh : x < 2 ^ 32) :
    F32Finite (i2fValue rm signed x) ∧
      f32Value (i2fValue rm signed x) = (if x < 0 then -1 else 1) * i2fMagnitude rm signed x := by
  have hlog : x.natAbs.log2 < 32 := (Nat.log2_lt (Int.natAbs_ne_zero.mpr hx)).mpr (by omega)
  obtain ⟨hleast, hmost⟩ := i2fSignificand_bounds rm signed hx
  rw [i2fValue_of_ne_zero rm signed hx]
  have hpack := f32Value_pack (decide (x < 0)) x.natAbs.log2 _ (by omega) hleast hmost
  simpa only [decide_eq_true_eq, i2fMagnitude, i2fUnit] using hpack

/-- Between a magnitude and a multiple of the unit next to it there is no other multiple. -/
theorem no_multiple_between {u m : ℚ} {c : Nat} (hu : 0 < u)
    (hadjacent : c * u ≤ m ∧ m < (c + 1) * u ∨ (c - 1) * u < m ∧ m < c * u) (k : Nat) :
    ¬ (m ≤ k * u ∧ k * u < c * u) ∧ ¬ (c * u < k * u ∧ k * u ≤ m) := by
  have hlt {p q : ℚ} (h : p * u < q * u) : p < q := lt_of_mul_lt_mul_right h hu.le
  refine ⟨fun ⟨hm, hc⟩ => ?_, fun ⟨hc, hm⟩ => ?_⟩ <;> rcases hadjacent with ⟨hle, hnext⟩ | ⟨hbefore, hover⟩
  · linarith
  · have hk : (k : ℚ) < c := hlt hc
    have hk' : (c : ℚ) < k + 1 := by linarith [hlt (hbefore.trans_le hm)]
    norm_cast at hk hk'
    omega
  · have hk : (c : ℚ) < k := hlt hc
    have hk' : (k : ℚ) < c + 1 := hlt (hm.trans_lt hnext)
    norm_cast at hk hk'
    omega
  · linarith

theorem two_pow_log2_le_abs {x : ℤ} (hx : x ≠ 0) : (2 : ℚ) ^ x.natAbs.log2 ≤ |(x : ℚ)| := by
  rw [← Int.cast_abs, ← Nat.cast_natAbs]
  exact_mod_cast Nat.log2_self_le (Int.natAbs_ne_zero.mpr hx)

theorem two_pow_log2_le_i2fMagnitude (rm : Rm) (signed : Bool) {x : ℤ} (hx : x ≠ 0) :
    (2 : ℚ) ^ x.natAbs.log2 ≤ i2fMagnitude rm signed x := by
  rw [← two_pow_mul_i2fUnit, i2fMagnitude]
  refine mul_le_mul_of_nonneg_right ?_ (i2fUnit_pos x).le
  exact_mod_cast (i2fSignificand_bounds rm signed hx).1

theorem i2fMagnitude_pos (rm : Rm) (signed : Bool) {x : ℤ} (hx : x ≠ 0) : 0 < i2fMagnitude rm signed x :=
  (pow_pos two_pos _).trans_le (two_pow_log2_le_i2fMagnitude rm signed hx)

/-- R216: no number of binary32 has a magnitude between the integer's and the one delivered: it would be at least
2^log2 |x|, where the numbers of binary32 are multiples of the unit. -/
theorem i2fMagnitude_neighbour (rm : Rm) (signed : Bool) {x : ℤ} (hx : x ≠ 0) (w : Word) :
    ¬ (|(x : ℚ)| ≤ |f32Value w| ∧ |f32Value w| < i2fMagnitude rm signed x) ∧
      ¬ (i2fMagnitude rm signed x < |f32Value w| ∧ |f32Value w| ≤ |(x : ℚ)|) := by
  have hbetween := no_multiple_between (i2fUnit_pos x)
    ((i2fSignificand_adjacent rm signed x).imp_right And.right)
  refine ⟨fun h => ?_, fun h => ?_⟩
  · obtain ⟨k, hk⟩ := f32Value_grid w _ ((two_pow_log2_le_abs hx).trans h.1)
    rw [hk] at h
    exact (hbetween k).1 h
  · obtain ⟨k, hk⟩ := f32Value_grid w _ ((two_pow_log2_le_i2fMagnitude rm signed hx).trans h.1.le)
    rw [hk] at h
    exact (hbetween k).2 h

/-- R216: toward zero the magnitude does not grow. -/
theorem i2fMagnitude_zero_le (signed : Bool) (x : ℤ) : i2fMagnitude .zero signed x ≤ |(x : ℚ)| := by
  rcases i2fSignificand_adjacent .zero signed x with ⟨hle, _⟩ | ⟨hrm, _⟩
  · exact hle
  · cases hrm

/-- R216 for a nonzero integer: it and the number delivered have one sign, so what separates them separates their
magnitudes. -/
theorem i2fValue_neighbour (rm : Rm) (signed : Bool) {x : ℤ} (hx : x ≠ 0) (hlow : -2 ^ 31 ≤ x) (hhigh : x < 2 ^ 32)
    (w : Word) :
    ¬ (x ≤ f32Value w ∧ f32Value w < f32Value (i2fValue rm signed x)) ∧
      ¬ (f32Value (i2fValue rm signed x) < f32Value w ∧ f32Value w ≤ x) := by
  obtain ⟨_, hvalue⟩ := f32Value_i2fValue rm signed hx hlow hhigh
  obtain ⟨hup, hdown⟩ := i2fMagnitude_neighbour rm signed hx w
  have hpos := i2fMagnitude_pos rm signed hx
  rw [hvalue]
  rcases hx.lt_or_gt with hneg | hxpos
  · have hneg' : (x : ℚ) < 0 := Int.cast_lt_zero.mpr hneg
    rw [if_pos hneg, neg_one_mul]
    rw [abs_of_neg hneg'] at hup hdown
    refine ⟨fun ⟨hle, hlt⟩ => hdown ?_, fun ⟨hlt, hle⟩ => hup ?_⟩ <;>
      rw [abs_of_neg (by linarith)] <;> constructor <;> linarith
  · have hxpos' : 0 < (x : ℚ) := Int.cast_pos.mpr hxpos
    rw [if_neg hxpos.not_gt, one_mul]
    rw [abs_of_pos hxpos'] at hup hdown
    refine ⟨fun ⟨hle, hlt⟩ => hup ?_, fun ⟨hlt, hle⟩ => hdown ?_⟩ <;>
      rw [abs_of_pos (by linarith)] <;> constructor <;> linarith

theorem f32Value_zero : f32Value 0#32 = 0 := by
  simp [f32Value]

/-- R216: what I2F delivers, for every integer of a 32-bit register. -/
theorem i2fValue_spec (rm : Rm) (signed : Bool) {x : ℤ} (hlow : -2 ^ 31 ≤ x) (hhigh : x < 2 ^ 32) :
    let v := i2fValue rm signed x
    F32Finite v ∧ (x = 0 → v = 0#32) ∧ (rm = .zero → |f32Value v| ≤ |(x : ℚ)|) ∧
      ∀ w : Word, F32Finite w → ¬ (x ≤ f32Value w ∧ f32Value w < f32Value v) ∧
        ¬ (f32Value v < f32Value w ∧ f32Value w ≤ x) := by
  intro v
  rcases eq_or_ne x 0 with rfl | hx
  · have hv : v = 0#32 := i2fValue_zero rm signed
    rw [hv, f32Value_zero, Int.cast_zero]
    exact ⟨by decide, fun _ => rfl, fun _ => le_rfl,
      fun w _ => ⟨fun h => h.2.not_ge h.1, fun h => h.1.not_ge h.2⟩⟩
  · obtain ⟨hfin, hvalue⟩ := f32Value_i2fValue rm signed hx hlow hhigh
    refine ⟨hfin, fun h => absurd h hx, ?_, fun w _ => i2fValue_neighbour rm signed hx hlow hhigh w⟩
    rintro rfl
    have habs : |f32Value v| = i2fMagnitude .zero signed x := by
      rw [hvalue, abs_mul, abs_of_pos (i2fMagnitude_pos .zero signed hx)]
      split <;> simp
    exact habs.trans_le (i2fMagnitude_zero_le signed x)

/-! ### The conversions (R214 to R216) -/

/-- Settles O57: the lanes read one register; F2F by the bits of its source, F2I by `f2iValue_rounds` inside the range
and by its test outside, I2F by `i2fValue_spec`. -/
theorem floatConversions : Obligations.FloatConversions := by
  unfold Obligations.FloatConversions
  refine ⟨fun ctl d set s1 rm abs neg s => delivers_of rfl ?f2f, fun ctl d set s1 rm sg s => delivers_of rfl ?f2i,
    fun rm sg a hfin hlow hhigh => f2iValue_rounds rm hfin hlow hhigh,
    fun rm sg a hout => f2iValue_of_outside rm hout, rfl, rfl,
    fun ctl d set s1 rm signed s => delivers_of rfl ?i2f,
    fun rm signed x hlow hhigh => i2fValue_spec rm signed hlow hhigh, rfl, rfl⟩
  case f2f =>
    rintro t r ⟨a, x, ha, hlow, hsign, rfl⟩
    obtain rfl := eq_fnegIf_fabsIf_of_bits hlow hsign
    rw [← f2fValue_eq]
    exact bind_of_ok ha
  case f2i =>
    rintro t r ⟨a, ha, rfl⟩
    exact bind_of_ok ha
  case i2f =>
    rintro t r ⟨a, ha, rfl⟩
    exact bind_of_ok ha

end Sys2Proof.Machine
end

section
/-!
Alignment of accesses and fetches, and the faults of a fetch (R27, R53, R54, R72, R243). An access size divides 2^32,
so the wrap of an effective address keeps its remainder, which is that of the address register.
-/
namespace Sys2Proof.Machine

/-! ### Accesses (R54) -/

/-- R54: the checks of an access report a misaligned one exactly where its size does not divide its address. -/
theorem State.accessCheck_misaligned_iff {s : State} {sp : Space} {addr n : Nat} :
    s.accessCheck sp addr n = .error (.misalignedAccess sp addr n) ↔ addr % n ≠ 0 := by
  refine ⟨fun hmis haligned => ?_, State.accessCheck_misaligned⟩
  by_cases hend : spaceSize s.params sp < addr + n
  · rw [State.accessCheck_out_of_range haligned hend] at hmis
    cases hmis
  · rw [State.accessCheck_ok_iff.mpr ⟨haligned, Nat.not_lt.mp hend⟩] at hmis
    cases hmis

/-- R54: a load reports what the check of its address does. -/
theorem State.load_misaligned {s : State} {sp : Space} {addr n : Nat} (h : addr % n ≠ 0) :
    s.load sp addr n = .error (.misalignedAccess sp addr n) :=
  State.load_error_of_check (State.accessCheck_misaligned h)

theorem access_size_dvd {n : Nat} (hn : n = 1 ∨ n = 2 ∨ n = 4) : n ∣ 2 ^ 32 := by
  rcases hn with rfl | rfl | rfl <;> decide

/-- R72: the scaled offset and the wrap at 2^32 keep the remainder of the address register. -/
theorem effAddr_mod (base : Word) (off : Nat) {n : Nat} (hn : n ∣ 2 ^ 32) :
    effAddr base off n % n = base.toNat % n := by
  rw [effAddr_eq, Nat.mod_mod_of_dvd _ hn, Nat.add_mul_mod_self_right]

/-! ### Fetches (R27, R243) -/

theorem State.codeWord_out_of_range {s : State} {pc addr : Nat} (h : spaceSize s.params .code < addr + 4) :
    s.codeWord pc addr = .error (.fetchOutOfRange pc) := by
  rw [State.codeWord, if_pos h]

theorem State.fetch_misaligned {s : State} (h : s.warp.pc % 4 ≠ 0) :
    s.fetch = .error (.misalignedFetch s.warp.pc) := by
  rw [State.fetch, if_pos h]

/-- R243: a fetch whose first word faults reports that fault. -/
theorem State.fetch_error_of_first {s : State} {c : Cause} (haligned : s.warp.pc % 4 = 0)
    (hlo : s.codeWord s.warp.pc s.warp.pc = .error c) : s.fetch = .error c := by
  rw [State.fetch, if_neg (not_not.mpr haligned), hlo]

/-- R243: so does one of a long instruction whose second word faults. -/
theorem State.fetch_error_of_second {s : State} {lo : Word} {c : Cause} (haligned : s.warp.pc % 4 = 0)
    (hlo : s.codeWord s.warp.pc s.warp.pc = .ok lo) (hbit : lo.getLsbD 0 = true)
    (hhi : s.codeWord s.warp.pc (s.warp.pc + 4) = .error c) : s.fetch = .error c := by
  rw [State.fetch_long haligned hlo hbit, hhi, Except.map]

/-- R243: a fault of the fetch ends the step, before any decode. -/
theorem step_of_fetch_error {s s' : State} {c : Cause} (hturn : s.turn = .run s') (hfetch : s'.fetch = .error c) :
    step s = s'.raise none c := by
  simp only [step, hturn, hfetch]

/-- Settles O48: an access by `State.accessCheck_misaligned_iff`, an address by `effAddr_mod`, a fetch by its first or
its second word. -/
theorem alignmentRule : Obligations.AlignmentRule := by
  unfold Obligations.AlignmentRule
  refine ⟨fun s sp addr => ⟨fun hodd => ?two, fun hfour => ?four, fun n hn => ?aligned⟩,
    fun base off n hn => by rw [effAddr_mod base off (access_size_dvd hn)],
    fun off sz => Nat.mul_mod_left off sz.bytes,
    fun s => State.fetch_misaligned,
    fun s haligned hend => State.fetch_error_of_first haligned (State.codeWord_out_of_range hend),
    fun s lo haligned hlo hbit hend =>
      State.fetch_error_of_second haligned hlo hbit (State.codeWord_out_of_range (by omega)),
    fun s s' c => step_of_fetch_error⟩
  case two =>
    have hmis : addr % 2 ≠ 0 := by omega
    exact ⟨State.accessCheck_misaligned hmis, State.load_misaligned hmis⟩
  case four => exact ⟨State.accessCheck_misaligned hfour, State.load_misaligned hfour⟩
  case aligned =>
    have haligned : addr % n = 0 := by
      rcases hn with rfl | ⟨rfl, heven⟩ | ⟨rfl, hword⟩
      · exact Nat.mod_one addr
      · exact heven
      · exact hword
    exact fun hmis => State.accessCheck_misaligned_iff.mp hmis haligned

end Sys2Proof.Machine
end

section
/-!
How a run ends (R276, R134). A machine whose run has not ended has a transition: a warp runs, or no unfinished warp
does and then the block of any waiting one may be released. So a turn stops exactly at an end, and the only other
faults of a step are those its warp raises.
-/
namespace Sys2Proof.Machine

/-! ### The end of a run -/

/-- The end that a warp's status puts to the run is a raised fault or a trap. -/
theorem State.endOf_some {s : State} {w : Warp} {f : Fault} (h : s.endOf w = some f) :
    (∃ c, f = .raised c (s.siteOf w)) ∨ f = .trapped (s.siteOf w) := by
  unfold State.endOf at h
  split at h
  · next c _ => exact .inl ⟨c, (Option.some.inj h).symm⟩
  · exact .inr (Option.some.inj h).symm
  all_goals cases h

theorem State.exists_of_firstEnd_some {s : State} {f : Fault} {l : List Warp} (h : s.firstEnd l = some f) :
    ∃ w ∈ l, s.endOf w = some f := by
  induction l with
  | nil => cases h
  | cons w rest ih =>
    cases hend : s.endOf w with
    | some e =>
      simp only [State.firstEnd, hend] at h
      exact ⟨w, List.mem_cons_self, hend.trans h⟩
    | none =>
      simp only [State.firstEnd, hend] at h
      obtain ⟨v, hv, hvend⟩ := ih h
      exact ⟨v, List.mem_cons_of_mem _ hv, hvend⟩

theorem State.firstEnd_some {s : State} {f : Fault} {l : List Warp} (h : s.firstEnd l = some f) :
    (∃ c site, f = .raised c site) ∨ ∃ site, f = .trapped site := by
  obtain ⟨w, _, hend⟩ := State.exists_of_firstEnd_some h
  exact (State.endOf_some hend).imp (fun ⟨c, hc⟩ => ⟨c, _, hc⟩) fun ht => ⟨_, ht⟩

theorem State.all_finished_iff {s : State} :
    (s.warps.all fun w => w.status == .finished) = true ↔ ∀ w ∈ s.everyWarp, w.status = .finished := by
  simp only [List.all_eq_true, beq_iff_eq, s.mem_warps]

/-- R276: a run that has ended was stopped by a warp, or has every warp finished. -/
theorem State.ended_some {s : State} {f : Fault} (h : s.ended = some f) :
    (∃ c site, f = .raised c site) ∨ (∃ site, f = .trapped site) ∨
      f = .finished ∧ ∀ w ∈ s.everyWarp, w.status = .finished := by
  unfold State.ended at h
  split at h
  · next e hend =>
    cases h
    exact (State.firstEnd_some hend).imp_right .inl
  · split at h
    · next hall => exact .inr (.inr ⟨(Option.some.inj h).symm, State.all_finished_iff.mp hall⟩)
    · cases h

theorem State.ended_of_all_finished {s : State} (h : ∀ w ∈ s.everyWarp, w.status = .finished) :
    s.ended = some .finished := by
  have hfirst : s.firstEnd s.warps = none :=
    State.firstEnd_none.mpr fun w hw => .inr (.inr (h w ((s.mem_warps w).mp hw)))
  simp only [State.ended, hfirst, State.all_finished_iff.mpr h, if_true]

/-- A run that has not ended has an unfinished warp, and each of its warps runs, waits or has finished. -/
theorem State.ended_none {s : State} (h : s.ended = none) :
    (∀ w ∈ s.everyWarp, w.status = .running ∨ w.status = .atBarrier ∨ w.status = .finished) ∧
      ∃ w ∈ s.everyWarp, w.status ≠ .finished := by
  unfold State.ended at h
  split at h
  · cases h
  · next hfirst =>
    split at h
    · cases h
    · next hall =>
      refine ⟨fun w hw => State.firstEnd_none.mp hfirst w ((s.mem_warps w).mpr hw), ?_⟩
      rw [State.all_finished_iff] at hall
      push Not at hall
      exact hall

/-! ### The next transition -/

/-- R134: where no warp runs and none has stopped, a block with a waiting warp may be released. -/
theorem State.releasable_of_waiting {s : State} {w : Warp} (hw : w ∈ s.everyWarp) (hwaits : w.status = .atBarrier)
    (hall : ∀ v ∈ s.everyWarp, v.status = .atBarrier ∨ v.status = .finished) : s.releasable w.block = true := by
  simp only [State.releasable, Bool.and_eq_true, List.any_eq_true, List.all_eq_true, Bool.or_eq_true, beq_iff_eq,
    s.mem_warps]
  exact ⟨⟨w, hw, rfl, hwaits⟩, fun v hv => (hall v hv).imp_left .inr⟩

/-- R276: a run that has not ended has an enabled transition. -/
theorem State.choices_ne_nil {s : State} (h : s.ended = none) : s.choices ≠ [] := by
  obtain ⟨hstatus, w, hw, hopen⟩ := State.ended_none h
  by_cases hrun : ∃ v ∈ s.everyWarp, v.status = .running
  · obtain ⟨v, hv, hvrun⟩ := hrun
    exact List.ne_nil_of_mem (State.run_mem_choices hv hvrun)
  · have hall : ∀ v ∈ s.everyWarp, v.status = .atBarrier ∨ v.status = .finished := fun v hv =>
      (hstatus v hv).resolve_left fun hvrun => hrun ⟨v, hv, hvrun⟩
    have hwaits : w.status = .atBarrier := (hall w hw).resolve_right hopen
    exact List.ne_nil_of_mem <| List.mem_append_right _ <|
      releases_complete (State.releasable_of_waiting hw hwaits hall) ⟨w, (s.mem_warps w).mpr hw, hwaits, rfl⟩

theorem State.choices_of_pick_none {s : State} (h : s.pick = none) : s.choices = [] := by
  unfold State.pick at h
  split at h
  · assumption
  all_goals cases h

/-- R276: a turn stops exactly where the run has ended, with that end. -/
theorem State.turn_stop_iff {s : State} {f : Fault} : s.turn = .stop f ↔ s.ended = some f := by
  constructor
  · intro h
    unfold State.turn at h
    split at h
    · next e hend => rw [hend, Turn.stop.inj h]
    · next hend =>
      split at h
      · next hpick => exact absurd (State.choices_of_pick_none hpick) (State.choices_ne_nil hend)
      all_goals cases h
  · intro h
    simp only [State.turn, h]

/-! ### The faults of a step -/

/-- A step faults by a warp, at its fetch, in its instruction or by its status (R240, R248), or as every warp has
finished. -/
theorem step_fault {s : State} {f : Fault} (h : step s = .fault f) :
    (∃ c site, f = .raised c site) ∨ (∃ site, f = .trapped site) ∨
      f = .finished ∧ ∀ w ∈ s.everyWarp, w.status = .finished := by
  unfold step at h
  split at h
  · next e hturn =>
    cases h
    exact State.ended_some (State.turn_stop_iff.mp hturn)
  · cases h
  · left
    split at h
    · next c _ =>
      cases h
      exact ⟨c, _, rfl⟩
    · split at h
      · cases h
      · exact exec_fault h

theorem step_of_ended {s : State} {f : Fault} (h : s.ended = some f) : step s = .fault f := by
  simp only [step, State.turn_stop_iff.mpr h]

/-- Settles O15: of the faults of a step only `Finished` is raised by no warp, and it comes where every warp has
finished. -/
theorem finishedOrGoesOn : Obligations.FinishedOrGoesOn := by
  unfold Obligations.FinishedOrGoesOn
  refine fun s => ⟨⟨fun hfin => ?finished, fun hall => step_of_ended (State.ended_of_all_finished hall)⟩,
    fun hdead => ?deadlock⟩
  case finished =>
    rcases step_fault hfin with ⟨_, _, hraised⟩ | ⟨_, htrapped⟩ | ⟨_, hall⟩
    · cases hraised
    · cases htrapped
    · exact hall
  case deadlock =>
    rcases step_fault hdead with ⟨_, _, hraised⟩ | ⟨_, htrapped⟩ | ⟨hfin, _⟩
    · cases hraised
    · cases htrapped
    · cases hfin

end Sys2Proof.Machine
end

section
/-!
The reset state (R44, R270), lane by lane, and address register A0 (R32).
-/
namespace Sys2Proof.Machine

/-! ### The reset state -/

/-- R44: a lane of a launched warp holds a thread of the launch. -/
theorem thread_of_mem_launchLanes {p : Params} {thread : Nat → Thread} {index n : Nat} {l : Lane}
    (h : l ∈ launchLanes p thread index n) : ∃ k, l.thread = thread k := by
  induction n with
  | zero => cases h
  | succ n ih =>
    rcases List.mem_cons.mp h with rfl | h
    · exact ⟨_, rfl⟩
    · exact ih h

/-- The reset state is the launch whose every thread is `Thread.zero`. -/
theorem thread_of_mem_reset {l : Lane} (h : l ∈ State.reset.warp.lanes) : l.thread = Thread.zero :=
  (thread_of_mem_launchLanes h).elim fun _ hk => hk

@[simp] theorem State.memOf_reset (sp : Space) : State.reset.memOf sp = [] := by cases sp <;> rfl

theorem Thread.gprAt_zero {n : Nat} (h : n < 124) : Thread.zero.gprAt n = ⟨0#32, true, true⟩ := by
  simp [Thread.gprAt, Thread.zero, h]

@[simp] theorem Thread.predAt_zero (q : BitVec 2) :
    Thread.zero.predAt q = ⟨⟨false, false, false, false⟩, true⟩ := by
  simp [Thread.predAt, Thread.zero]

theorem Thread.aregAt_zero {a : Nat} (hpos : 0 < a) (h : a < 16) : Thread.zero.aregAt a = ⟨0#32, true⟩ := by
  have hindex : a - 1 < 15 := by omega
  simp [Thread.aregAt, Thread.zero, hindex]

theorem readGpr_zero {p : Params} {n : Nat} (h : n < gprCount p) : readGpr p Thread.zero n = .ok 0#32 := by
  have hzero := Thread.gprAt_zero (h.trans_le (gprCount_le p))
  rw [readGpr_of_written h (by rw [hzero]) (by rw [hzero]), hzero]

theorem readPred_zero (q : BitVec 2) : readPred Thread.zero q = .ok ⟨false, false, false, false⟩ := by
  simp [readPred]

/-- R32: A0 reads 0, whatever the thread holds. -/
@[simp] theorem readAreg_a0 (p : Params) (t : Thread) : readAreg p t 0 = .ok 0#32 := if_pos rfl

theorem readAreg_zero {p : Params} {a : Nat} (h : a < aregCount p) : readAreg p Thread.zero a = .ok 0#32 := by
  rcases Nat.eq_zero_or_pos a with rfl | hpos
  · exact readAreg_a0 p _
  · rw [readAreg_of_lt hpos h, Thread.aregAt_zero hpos (h.trans_le (aregCount_le p)), if_pos rfl]

/-- Settles O10: the fields of the one warp are evaluated, the memories are empty, and every lane holds
`Thread.zero`, whose registers all read 0. -/
theorem resetState : Obligations.ResetState := by
  unfold Obligations.ResetState
  refine ⟨rfl, by decide, rfl, rfl, rfl, fun sp a => ?bytes, fun l hl => ?registers⟩
  case bytes => rw [State.byteAt, State.memOf_reset, Memory.byteAt]
  case registers =>
    rw [thread_of_mem_reset hl]
    exact ⟨fun n hn => readGpr_zero hn, readPred_zero, fun a ha => readAreg_zero ha⟩

/-! ### Address register A0 -/

/-- R196: R2A to A0 is declined, whatever `R2A_IMM_OP` is. -/
theorem r2aProblem_a0 (p : Params) (imm : BitVec 12) : r2aProblem p 0#7 imm = some .addrRegZero := if_pos rfl

/-- R190: a destination A0 is declined. -/
theorem aregProblem_a0 : aregProblem 0#7 = some .addrRegZero := if_pos rfl

theorem exec_r2a_declined {s : State} {ctl : Ctl} {da s1 : BitVec 7} {imm : BitVec 12} {why : Reject}
    (h : r2aProblem s.params da imm = some why) : exec (.r2a ctl da s1 imm) s = s.refuse why :=
  exec_of_unless_some rfl h

theorem exec_ada_declined {s : State} {ctl : Ctl} {da : BitVec 7} {a : BitVec 2} {imm : BitVec 14} {why : Reject}
    (h : aregProblem da = some why) : exec (.ada ctl da a imm) s = s.refuse why :=
  exec_of_unless_some rfl h

/-- Settles O45: A0 by its read, the two instructions that could write it by the check before their lanes run, and
the two printed words, each as the word of its instruction. -/
theorem addressRegisterZero : Obligations.AddressRegisterZero := by
  unfold Obligations.AddressRegisterZero
  exact ⟨readAreg_a0, fun _ _ imm s => exec_r2a_declined (r2aProblem_a0 s.params imm),
    fun _ _ _ _ => exec_ada_declined aregProblem_a0, decodeWord_of_encode_eq rfl rfl, decodeWord_of_encode_eq rfl rfl⟩

end Sys2Proof.Machine
end
